-- ==== Sys2Proof/Word.lean ====
section
/-! DEFINITION. The two word sizes of the machine (spec/00_scope.md R8: XLEN_DATA = 8, XLEN_ADDR = 16). Every
helper that takes words apart stands in `Sys2Proof/Decode.lean` or in a file of `Sys2Proof/Machine/`. -/

namespace Sys2Proof

/-- A byte: the width of `A`, `X`, `Y`, `S`, of a pushed `P` and of every bus datum (R8, R20). -/
abbrev Byte := BitVec 8

/-- A Cpu address: the width of `PC` and of the Cpu address bus (R8, R22, R60). -/
abbrev Addr := BitVec 16

end Sys2Proof
end

