-- ==== Sys2Proof/Config.lean ====
section
/-! DEFINITION. What is fixed for one machine and is no state of it (spec/00_scope.md R8, R9; spec/10_state.md R42):
the CartridgeImage, the parameters, and the free values the spec leaves open (opaque constants without a body, so
that nothing can be proved about which value they have). -/

namespace Sys2Proof

/-- The video standard (R8 `REGION`). -/
inductive Region where
  | ntsc
  | pal
  deriving DecidableEq, Repr

/-- The nametable mirroring modes (spec/20_memory.md R82). -/
inductive Mirroring where
  | horizontal
  | vertical
  | singleLower
  | singleUpper
  | fourScreen
  deriving DecidableEq, Repr

/-- The closed set of mapper variants (R8 `MAPPER`, R89 to R94). -/
inductive MapperKind where
  | nrom
  | uxrom
  | mmc1
  | mmc3
  deriving DecidableEq, Repr

/-- The CartridgeImage (R42): "PRG data, CHR data (possibly absent, meaning CHR RAM), mapper number, mirroring mode,
battery-backup flag". `prg` and `chr` list the bytes that are not zero, offset first (see log entry 2). -/
structure Cartridge where
  mapper    : MapperKind
  /-- PRG size in units of 16 KB (R88 byte 4). -/
  prgBanks  : Nat
  /-- CHR size in units of 8 KB; 0 means CHR RAM (R88 byte 5). -/
  chrBanks  : Nat
  prg       : List Host.Cell
  chr       : List Host.Cell
  mirroring : Mirroring
  battery   : Bool
  deriving DecidableEq, Repr

/-- The parameters of R8 that are plain values; they are held in the state and no step changes them. -/
structure Params where
  region         : Region
  /-- PAL only: which Cpu cycle of each five carries four dots (R433, U27). -/
  palPhase       : Nat
  /-- `UNSTABLE_MAGIC` of opcode 0x8B (R286). -/
  magicXaa       : Byte
  /-- `UNSTABLE_MAGIC` of opcode 0xAB (R287). -/
  magicLxa       : Byte
  /-- `NROM_PRG_RAM` (R89). -/
  nromPrgRam     : Bool
  /-- `MMC3_A12_FILTER`, in Ppu dots (R94, U25). -/
  mmc3A12Filter  : Nat
  /-- `VBL_RACE_SUPPRESSION` (R383, D27, U20). -/
  vblRaceSuppression : Bool
  /-- `OPEN_BUS_DECAY` (R70, D14, U3): `none`, the default, when the open-bus latch never decays; `some n` when a byte not
  driven again for `n` Cpu cycles has decayed. -/
  openBusDecay   : Option Nat
  deriving DecidableEq, Repr

namespace Config

/-- `OAM`, the nametable memory and the other memories whose content at power-on is unspecified (R45, R46, R48). -/
inductive MemId where
  | ram
  | vram
  | oam
  | secondaryOam
  | palette
  | prgRam
  | chrRam
  | cartNametable
  deriving DecidableEq, Repr

/-- `DMC_STALL` = 4 Cpu cycles (R8, R103, conflict C5). -/
def dmcStall : Nat := 4

/-- `TRI_MIN_PERIOD` = 2 (R8, R392). -/
def triMinPeriod : Nat := 2

/-- The interrupt and reset vectors (R64). -/
def nmiVector : Addr := 0xFFFA
@[inherit_doc nmiVector] def resetVector : Addr := 0xFFFC
@[inherit_doc nmiVector] def irqVector : Addr := 0xFFFE

/-- FREE VALUE. The byte an address of a memory holds at power-on number `epoch`, until something is written there
(`POWER_ON_RAM`, R8, R45, R46, R48, U5, U6): `powerOnByte epoch memory address`. Log entry 1. -/
opaque powerOnByte : Nat → MemId → Nat → Byte

/-- FREE VALUE. The vblank flag at power-on (R46, U7). Log entry 1. -/
opaque powerOnVblank : Nat → Bool

/-- FREE VALUE. The `MMC3` registers at power-on (R93, R94, U8): `powerOnMmc3 epoch k`, `k` 0 to 7 for R0 to R7,
8 `bank_select`, 9 PRG RAM protect, 10 `irq_latch`, 11 `irq_counter`. Log entry 1. -/
opaque powerOnMmc3 : Nat → Nat → Byte

/-- FREE VALUE. The one-bit `MMC3` registers at power-on (U8): 0 `mirror`, 1 `irq_reload`, 2 `irq_enable`, 3 `irq_flag`.
Log entry 1. -/
opaque powerOnMmc3Bit : Nat → Nat → Bool

/-- FREE VALUE. The n-th byte the machine draws where an access has no stated value (U17, U18). Log entry 3. -/
opaque freeByte : Nat → Byte

/-- FREE VALUE. The n-th Ppu address of an access that "goes to an address in flux" (U18). Log entry 3. -/
opaque freePpuAddr : Nat → BitVec 14

/-- FREE VALUE. What the open-bus latch has decayed to (`OPEN_BUS_DECAY`, R70: the source "gives no decay time and no decayed
value"): from the byte driven last and the Cpu cycles since. Log entry 30. -/
opaque decayedLatch : Byte → Nat → Byte

/-- FREE VALUE. How a snapshot writes down which CartridgeImage it belongs to (`SNAPSHOT_FORMAT`, R8, R438): a one-to-one
recoding, so that two images never have the same identity, of which nothing else is known. Log entry 14. -/
opaque identityCode : List Nat ≃ List Nat

/-- FREE VALUE. `DMC_OAM_COLLISION_EXTRA` (R8, R104, U1): the Cpu cycles a delta-modulation fetch adds when it collides
with OAM DMA, any natural number. It may depend on how many pairs were already moved (log entry 4). -/
opaque dmcOamCollisionExtra : Nat → Nat

/-- FREE VALUE. `SPRITE_OVERFLOW_RULE` (R8, R377, U2): from OAM (256 bytes), the scanline and the sprite height, the dot
at which `sprite_overflow` is set on that line, or none. Log entry 5. -/
opaque spriteOverflowDot : List Byte → Nat → Nat → Option Nat

end Config
end Sys2Proof
end

