-- ==== Sys2Proof/Machine/State.lean ====
section
/-! DEFINITION. The state of the machine, every piece the spec gives it (spec/10_state.md R20 to R43,
spec/60_exceptions.md R390 to R400, spec/20_memory.md R91 to R94), as plain data; its value right after power-on; the
reasons a step can stop. -/

namespace Sys2Proof.Machine

/-- A memory: (address, byte) pairs, addresses strictly rising. An address that is not listed holds no byte written since
power-on (log entry 1). -/
abbrev Memory := List Host.Cell

/-! ## The Cpu -/

/-- The status register P: six one-bit flags (R24). Bits 5 and 4 of the pushed byte are no state. -/
structure Flags where
  n : Bool
  v : Bool
  d : Bool
  i : Bool
  z : Bool
  c : Bool
  deriving DecidableEq, Repr

/-- The registers an instruction names (R20, R21, R22, R24). -/
structure Regs where
  a  : Byte
  x  : Byte
  y  : Byte
  s  : Byte
  pc : Addr
  p  : Flags
  deriving DecidableEq, Repr

/-- What is in flight (R29 `ir`): nothing (at an instruction boundary), the instruction with this opcode byte, or an
interrupt or reset sequence (the marker `INT`). -/
inductive InFlight where
  | nothing
  | opcode (op : Byte)
  | int
  deriving DecidableEq, Repr

/-- Instruction progress (R29): the micro-op position and the bytes being assembled. At an instruction boundary it
carries no information (R47), and there it is `Progress.idle`. -/
structure Progress where
  ir     : InFlight
  tcycle : Nat
  adl    : Byte
  adh    : Byte
  ptr    : Byte
  data   : Byte
  fixup  : Bool
  deriving DecidableEq, Repr

/-- The progress fields at an instruction boundary. -/
def Progress.idle : Progress :=
  { ir := .nothing, tcycle := 0, adl := 0, adh := 0, ptr := 0, data := 0, fixup := false }

/-- The Cpu: registers, progress, interrupt latches (R28), the halt bit (R30). -/
structure Cpu where
  regs        : Regs
  prog        : Progress
  nmiPrev     : Bool
  nmiPending  : Bool
  irqLevel    : Bool
  intDetected : Bool
  halted      : Bool
  deriving DecidableEq, Repr

/-! ## Between the Cpu and the bus -/

/-- The state of the two DMA units (R31). Two fields are the model's own (R104, log entry 4): `owed`, how many of the cycles in
`stall` come after the last put cycle of the OAM DMA, because of collisions; `late`, that a delta-modulation fetch which
collided is put off until after that put cycle. -/
structure Dma where
  oamPending : Bool
  oamPage    : Byte
  oamIndex   : Nat
  oamLatch   : Byte
  dmcPending : Bool
  stall      : Nat
  owed       : Nat
  late       : Bool
  deriving DecidableEq, Repr

/-- The eight buttons of one controller port (R97). -/
structure ButtonSet where
  a      : Bool
  b      : Bool
  select : Bool
  start  : Bool
  up     : Bool
  down   : Bool
  left   : Bool
  right  : Bool
  deriving DecidableEq, Repr

/-- No button pressed. -/
def ButtonSet.released : ButtonSet :=
  { a := false, b := false, select := false, start := false, up := false, down := false, left := false, right := false }

/-- The controller ports (R39, R97): a shift register each, the shared strobe bit, and the ButtonSets handed to
`run_frame`, constant during that frame. -/
structure Controllers where
  shift1  : Byte
  shift2  : Byte
  strobe  : Bool
  input1  : ButtonSet
  input2  : ButtonSet
  deriving DecidableEq, Repr

/-! ## The Mapper -/

/-- The registers of `MMC1` (R91, R92). -/
structure Mmc1 where
  shift   : BitVec 5
  count   : Nat
  control : BitVec 5
  chr0    : BitVec 5
  chr1    : BitVec 5
  prg     : BitVec 5
  deriving DecidableEq, Repr

/-- The registers of `MMC3` (R93, R94); `banks` is R0 to R7. `a12` is bit 12 of the last address seen on the Ppu address
lines and `a12Low` the number of dots it has been 0 (the edge filter of R94). -/
structure Mmc3 where
  bankSelect : Byte
  banks      : List Byte
  mirror     : Bool
  ramProtect : Byte
  irqLatch   : Byte
  irqCounter : Byte
  irqReload  : Bool
  irqEnable  : Bool
  irqFlag    : Bool
  a12        : Bool
  a12Low     : Nat
  deriving DecidableEq, Repr

/-- The private registers of a mapper variant (R40, R85). -/
inductive MapperRegs where
  | nrom
  | uxrom (bank : Nat)
  | mmc1 (r : Mmc1)
  | mmc3 (r : Mmc3)
  deriving DecidableEq, Repr

/-- The mapper: the variant's registers and the memories on the cartridge: PRG RAM (battery RAM when the image's flag says
so, R87), CHR RAM (R81) and the nametable RAM of a four-screen cartridge (R82). -/
structure Mapper where
  regs   : MapperRegs
  prgRam : Memory
  chrRam : Memory
  ntRam  : Memory
  deriving DecidableEq, Repr

/-! ## The Ppu -/

/-- One sprite output unit (R36 sprite shift registers, R376, R378): the X and attribute bytes and the two pattern bytes of
a selected sprite, and whether it is sprite 0. -/
structure SpriteUnit where
  x    : Byte
  attr : Byte
  lo   : Byte
  hi   : Byte
  zero : Bool
  deriving DecidableEq, Repr

/-- A unit that shows nothing. -/
def SpriteUnit.blank : SpriteUnit := { x := 0, attr := 0, lo := 0, hi := 0, zero := false }

/-- The background pipeline (R36, R374): the bytes fetched for the next tile, the two 16-bit pattern and two 8-bit palette
shift registers, the palette latches that feed them. -/
structure Background where
  ntByte  : Byte
  palette : BitVec 2
  patLo   : Byte
  patHi   : Byte
  shiftLo : BitVec 16
  shiftHi : BitVec 16
  palLo   : Byte
  palHi   : Byte
  latchLo : Bool
  latchHi : Bool
  deriving DecidableEq, Repr

/-- The Ppu (R36, R37): registers and latches, memories, position, pipelines, and the FrameBuffer (R41): `frame` is being
drawn (address = 256 * row + column), `lastFrame` is the last finished one, `frameDone` says that one was finished since
`run_frame` began. -/
structure Ppu where
  v              : BitVec 15
  t              : BitVec 15
  x              : BitVec 3
  w              : Bool
  ctrl           : Byte
  mask           : Byte
  vblank         : Bool
  /-- A status read at (241, 0) keeps the flag from being set at the next dot (`VBL_RACE_SUPPRESSION`, R383). -/
  vblankBlocked  : Bool
  sprite0Hit     : Bool
  spriteOverflow : Bool
  oamAddr        : Byte
  readBuffer     : Byte
  ioLatch        : Byte
  oam            : Memory
  secondaryOam   : Memory
  palette        : Memory
  vram           : Memory
  dot            : Nat
  scanline       : Nat
  oddFrame       : Bool
  bg             : Background
  /-- Sprites selected so far for the next line (R376). -/
  spriteCount    : Nat
  /-- Sprite 0 is among them (R376, R378). -/
  sprite0Next    : Bool
  sprites        : List SpriteUnit
  frame          : Memory
  lastFrame      : Memory
  frameDone      : Bool
  deriving DecidableEq, Repr

/-! ## The Apu -/

/-- An envelope generator (R394). -/
structure Envelope where
  start   : Bool
  decay   : Nat
  divider : Nat
  deriving DecidableEq, Repr

/-- A pulse channel (R391, R394): `ctrl` and `sweep` are its first two registers as written. -/
structure Pulse where
  ctrl        : Byte
  sweep       : Byte
  period      : BitVec 11
  timer       : Nat
  step        : Nat
  env         : Envelope
  length      : Nat
  sweepDiv    : Nat
  sweepReload : Bool
  deriving DecidableEq, Repr

/-- The triangle channel (R392): `ctrl` is register 0x4008 as written. -/
structure Triangle where
  ctrl         : Byte
  period       : BitVec 11
  timer        : Nat
  step         : Nat
  linear       : Nat
  linearReload : Bool
  length       : Nat
  deriving DecidableEq, Repr

/-- The noise channel (R393): `ctrl` and `mode` are registers 0x400C and 0x400E as written. -/
structure Noise where
  ctrl   : Byte
  mode   : Byte
  timer  : Nat
  lfsr   : BitVec 15
  env    : Envelope
  length : Nat
  deriving DecidableEq, Repr

/-- The delta-modulation channel (R395): `ctrl`, `addrReg` and `lenReg` are registers 0x4010, 0x4012 and 0x4013 as
written; `buffer` is the sample buffer, `none` when empty. -/
structure Dmc where
  ctrl      : Byte
  addrReg   : Byte
  lenReg    : Byte
  level     : BitVec 7
  buffer    : Option Byte
  shift     : Byte
  bits      : Nat
  silence   : Bool
  addr      : Addr
  remaining : Nat
  timer     : Nat
  irqFlag   : Bool
  deriving DecidableEq, Repr

/-- The frame sequencer (R397, R398): mode and inhibit bits of register 0x4017, the cycles since the restart, the cycles
until a pending restart (0: none pending), the frame interrupt flag. -/
structure FrameSequencer where
  fiveStep : Bool
  inhibit  : Bool
  count    : Nat
  delay    : Nat
  irqFlag  : Bool
  deriving DecidableEq, Repr

/-- The Apu (R38): the five channels, their enable bits (bits 0 to 3 of register 0x4015), the frame sequencer, and the
AudioSampleBuffer (R41, R399, R400), newest sample first, each sample the exact value of the mixer formula. -/
structure Apu where
  pulse1  : Pulse
  pulse2  : Pulse
  tri     : Triangle
  noise   : Noise
  dmc     : Dmc
  enables : BitVec 4
  seq     : FrameSequencer
  samples : List Rat
  deriving DecidableEq, Repr

end Sys2Proof.Machine

namespace Sys2Proof.Machine

/-- The Machine (R43): the agents' states, the 2 KB RAM, the open-bus latch (R32), the cycle counter (R33), whether the
last Cpu cycle was a write (R92), the image and the parameters (no step changes them), and the model's own counters:
`busDriven`, the value of `cycle` when the latch was last driven (log entry 30), `epoch`, which power-on this is, and `draw`, how
many free values were drawn (log entries 1 and 3). -/
structure State where
  cpu       : Cpu
  ram       : Memory
  ppu       : Ppu
  apu       : Apu
  mapper    : Mapper
  ctrl      : Controllers
  dma       : Dma
  busLatch  : Byte
  busDriven : Nat
  prevWrite : Bool
  cycle     : Nat
  cart      : Cartridge
  params    : Params
  epoch     : Nat
  draw      : Nat
  deriving DecidableEq, Repr

/-- The faults of a step. There are none: "There are no recoverable runtime errors during stepping: hardware emulation by
definition always produces *some* deterministic output for any given state" (R14, R355, R443). -/
inductive Fault where
  deriving DecidableEq, Repr

/-- The refusals of a step. -/
inductive Refusal where
  /-- Raised by `exec` for an instruction without a meaning, by its mnemonic; safe. No arm of this model raises it. -/
  | notModelled (mnemonic : String)
  deriving DecidableEq, Repr

/-- What a step, and a meaning, answers. -/
abbrev Result := Host.Outcome State Fault Refusal

/-! ## Power-on -/

/-- No flag set but I (R44: after power-on). -/
def Flags.powerOn : Flags := { n := false, v := false, d := false, i := true, z := false, c := false }

/-- The spec's defaults of the parameters of R8; `mmc3A12Filter` and `palPhase` are DESIGN CHOICES (log entry 6). -/
def Params.default : Params :=
  { region := .ntsc, palPhase := 0, magicXaa := 0xEE, magicLxa := 0xFF, nromPrgRam := true, mmc3A12Filter := 9,
    vblRaceSuppression := false, openBusDecay := none }

/-- The image in the machine before a program is loaded: `NROM`, 32 KB of PRG data and 8 KB of CHR data, all zero
(DESIGN CHOICE, log entry 2). -/
def Cartridge.blank : Cartridge :=
  { mapper := .nrom, prgBanks := 2, chrBanks := 1, prg := [], chr := [], mirroring := .horizontal, battery := false }

/-- Power-on registers of a variant (R89 to R94, U8). -/
def MapperRegs.powerOn (epoch : Nat) : MapperKind → MapperRegs
  | .nrom => .nrom
  | .uxrom => .uxrom 0
  | .mmc1 => .mmc1 { shift := 0, count := 0, control := 0x0C, chr0 := 0, chr1 := 0, prg := 0 }
  | .mmc3 => .mmc3
      { bankSelect := Config.powerOnMmc3 epoch 8
        banks := (List.range 8).map (Config.powerOnMmc3 epoch)
        mirror := Config.powerOnMmc3Bit epoch 0
        ramProtect := Config.powerOnMmc3 epoch 9
        irqLatch := Config.powerOnMmc3 epoch 10
        irqCounter := Config.powerOnMmc3 epoch 11
        irqReload := Config.powerOnMmc3Bit epoch 1
        irqEnable := Config.powerOnMmc3Bit epoch 2
        irqFlag := Config.powerOnMmc3Bit epoch 3
        a12 := false
        a12Low := 0 }

/-- The background pipeline at power-on (DESIGN CHOICE, log entry 7). -/
def Background.powerOn : Background :=
  { ntByte := 0, palette := 0, patLo := 0, patHi := 0, shiftLo := 0, shiftHi := 0, palLo := 0, palHi := 0,
    latchLo := false, latchHi := false }

/-- The Ppu at power-on number `epoch` (R46). -/
def Ppu.powerOn (epoch : Nat) : Ppu :=
  { v := 0, t := 0, x := 0, w := false, ctrl := 0, mask := 0
    vblank := Config.powerOnVblank epoch, vblankBlocked := false, sprite0Hit := false, spriteOverflow := false
    oamAddr := 0, readBuffer := 0, ioLatch := 0, oam := [], secondaryOam := [], palette := [], vram := []
    dot := 0, scanline := 0, oddFrame := false, bg := Background.powerOn, spriteCount := 0, sprite0Next := false
    sprites := List.replicate 8 SpriteUnit.blank, frame := [], lastFrame := [], frameDone := false }

/-- An envelope at power-on (DESIGN CHOICE, log entry 7). -/
def Envelope.powerOn : Envelope := { start := false, decay := 0, divider := 0 }

/-- A pulse channel at power-on (R46: its registers 0x00, its length counter 0; the rest log entry 7). -/
def Pulse.powerOn : Pulse :=
  { ctrl := 0, sweep := 0, period := 0, timer := 0, step := 0, env := Envelope.powerOn, length := 0, sweepDiv := 0,
    sweepReload := false }

/-- The triangle channel at power-on (R46, log entry 7). -/
def Triangle.powerOn : Triangle :=
  { ctrl := 0, period := 0, timer := 0, step := 0, linear := 0, linearReload := false, length := 0 }

/-- The noise channel at power-on (R46: `lfsr` = 1; R393; the rest log entry 7). -/
def Noise.powerOn : Noise := { ctrl := 0, mode := 0, timer := 0, lfsr := 1, env := Envelope.powerOn, length := 0 }

/-- The delta-modulation channel at power-on (R46: output level 0, registers 0x00; the rest log entry 7). -/
def Dmc.powerOn : Dmc :=
  { ctrl := 0, addrReg := 0, lenReg := 0, level := 0, buffer := none, shift := 0, bits := 8, silence := true, addr := 0xC000,
    remaining := 0, timer := 0, irqFlag := false }

/-- The Apu at power-on (R46): 4-step mode, frame IRQ not inhibited, every channel disabled; the AudioSampleBuffer starts empty
(DESIGN CHOICE, log entry 7). -/
def Apu.powerOn : Apu :=
  { pulse1 := Pulse.powerOn, pulse2 := Pulse.powerOn, tri := Triangle.powerOn, noise := Noise.powerOn, dmc := Dmc.powerOn
    enables := 0, seq := { fiveStep := false, inhibit := false, count := 0, delay := 0, irqFlag := false }, samples := [] }

/-- Step (1) of the power-on sequence (R421): every piece of state at its value before the reset sequence runs. `prgRam` is
the battery RAM the caller supplies ([] when it supplies none, R45); `inputs` are the buttons held. -/
def State.powerOn (cart : Cartridge) (params : Params) (epoch : Nat) (prgRam : Memory) : State :=
  { cpu :=
      { regs := { a := 0, x := 0, y := 0, s := 0, pc := 0, p := Flags.powerOn }
        prog := Progress.idle, nmiPrev := false, nmiPending := false, irqLevel := false, intDetected := false, halted := false }
    ram := []
    ppu := Ppu.powerOn epoch
    apu := Apu.powerOn
    mapper := { regs := MapperRegs.powerOn epoch cart.mapper, prgRam := prgRam, chrRam := [], ntRam := [] }
    ctrl := { shift1 := 0, shift2 := 0, strobe := false, input1 := ButtonSet.released, input2 := ButtonSet.released }
    dma := { oamPending := false, oamPage := 0, oamIndex := 0, oamLatch := 0, dmcPending := false, stall := 0, owed := 0, late := false }
    busLatch := 0
    busDriven := 0
    prevWrite := false
    cycle := 0
    cart := cart
    params := params
    epoch := epoch
    draw := 0 }

/-- A pulse channel after the seven cycles of the reset sequence: its timer, with period 0, expired in three of them. -/
def Pulse.reset : Pulse := { Pulse.powerOn with step := 3 }

/-- The machine right after reset: the power-on values, then the seven cycles of the reset sequence (R46, R320, R421) in a
machine that holds `Cartridge.blank`. `S` is 0xFD, I is 1, PC is the word at the reset vector, which in the blank image is
0x0000 (log entry 2). The Ppu has made 21 dots; each drew the backdrop pixel, whose colour is whatever palette entry 0 held at
power-on. The Apu has made 7 steps. That these are the values `resetSequence` gives is proved in the tests. -/
def State.reset : State :=
  { State.powerOn Cartridge.blank Params.default 0 [] with
    cpu :=
      { regs := { a := 0, x := 0, y := 0, s := 0xFD, pc := 0x0000, p := Flags.powerOn }
        prog := Progress.idle, nmiPrev := false, nmiPending := false, irqLevel := false, intDetected := false, halted := false }
    ppu :=
      { Ppu.powerOn 0 with
        dot := 21
        frame := (List.range 21).map (fun k => (k, Config.powerOnByte 0 .palette 0 &&& 0x3F)) }
    apu :=
      { Apu.powerOn with
        pulse1 := Pulse.reset
        pulse2 := Pulse.reset
        noise := { Noise.powerOn with timer := 1, lfsr := 0x2000 }
        dmc := { Dmc.powerOn with bits := 7, timer := 211 }
        seq := { Apu.powerOn.seq with count := 7 }
        samples := List.replicate 7 (47937 / 194540) }
    busDriven := 6
    cycle := 7 }

end Sys2Proof.Machine
end

