-- ==== Sys2Proof/Machine/Apu.lean ====
section
/-! DEFINITION. The Apu (spec/60_exceptions.md R390 to R400): register writes, the status read, and one `apu_step`. -/

namespace Sys2Proof.Machine

/-! ## Tables -/

/-- The length table (R394). -/
def lengthTable : List Nat :=
  [10, 254, 20, 2, 40, 4, 80, 6, 160, 8, 60, 10, 14, 12, 26, 14]
    ++ [12, 16, 24, 18, 48, 20, 96, 22, 192, 24, 72, 26, 16, 28, 32, 30]

/-- The noise period table, in Cpu cycles (R393). -/
def noisePeriods : Region → List Nat
  | .ntsc => [4, 8, 16, 32, 64, 96, 128, 160, 202, 254, 380, 508, 762, 1016, 2034, 4068]
  | .pal => [4, 8, 14, 30, 60, 88, 118, 148, 188, 236, 354, 472, 708, 944, 1890, 3778]

/-- The delta-modulation rate table, in Cpu cycles (R395). -/
def dmcRates : Region → List Nat
  | .ntsc => [428, 380, 340, 320, 286, 254, 226, 214, 190, 160, 142, 128, 106, 84, 72, 54]
  | .pal => [398, 354, 316, 298, 276, 236, 210, 198, 176, 148, 132, 118, 98, 78, 66, 50]

/-- The output waveforms of the pulse channels by duty, step 0 first (R391). -/
def dutyWave : Nat → List Nat
  | 0 => [0, 1, 0, 0, 0, 0, 0, 0]
  | 1 => [0, 1, 1, 0, 0, 0, 0, 0]
  | 2 => [0, 1, 1, 1, 1, 0, 0, 0]
  | _ => [1, 0, 0, 1, 1, 1, 1, 1]

/-- The 32 steps of the triangle channel (R392). -/
def triangleLevel (step : Nat) : Nat := if step < 16 then 15 - step else step - 16

/-! ## Envelope, length counter, sweep (R394) -/

/-- One quarter-frame clock of an envelope whose control register is `ctrl` (`-- L C VVVV`). -/
def Envelope.quarter (e : Envelope) (ctrl : Byte) : Envelope :=
  let v := (ctrl &&& 0x0F).toNat
  if e.start then { start := false, decay := 15, divider := v }
  else if e.divider = 0 then
    { e with divider := v, decay := if 0 < e.decay then e.decay - 1 else if ctrl.getLsbD 5 then 15 else 0 }
  else { e with divider := e.divider - 1 }

/-- Envelope output: V when the constant-volume bit is 1, else the decay level. -/
def Envelope.output (e : Envelope) (ctrl : Byte) : Nat := if ctrl.getLsbD 4 then (ctrl &&& 0x0F).toNat else e.decay

/-- One half-frame clock of a length counter with the given halt bit. -/
def lengthHalf (halt : Bool) (n : Nat) : Nat := if halt then n else n - 1

/-- The length counter loaded by a write of `LLLLL ---` to a channel that is enabled or not. -/
def lengthLoad (enabled : Bool) (old : Nat) (v : Byte) : Nat :=
  if enabled then lengthTable.getD (v >>> 3).toNat 0 else old

/-- The sweep target of a pulse channel: pulse 1 negates with `p - change - 1`, pulse 2 with `p - change`. -/
def Pulse.sweepTarget (u : Pulse) (first : Bool) : Nat :=
  let p := u.period.toNat
  let change := p >>> (u.sweep &&& 7).toNat
  if u.sweep.getLsbD 3 then p - change - (if first then 1 else 0) else p + change

/-- A pulse channel that is not muted: `p >= 8` and the sweep target is at most 0x7FF (R391, R394). -/
def Pulse.audible (u : Pulse) (first : Bool) : Bool :=
  decide (8 ≤ u.period.toNat) && decide (u.sweepTarget first ≤ 0x7FF)

/-- The quarter-frame clock of a pulse channel. -/
def Pulse.quarter (u : Pulse) : Pulse := { u with env := u.env.quarter u.ctrl }

/-- The half-frame clock of a pulse channel: length counter and sweep. -/
def Pulse.half (u : Pulse) (first : Bool) : Pulse :=
  let move := u.sweepDiv == 0 && u.sweep.getLsbD 7 && (u.sweep &&& 7) != 0 && u.audible first
  let reload := u.sweepDiv == 0 || u.sweepReload
  { u with
    length := lengthHalf (u.ctrl.getLsbD 5) u.length
    period := if move then BitVec.ofNat 11 (u.sweepTarget first) else u.period
    sweepDiv := if reload then ((u.sweep >>> 4) &&& 7).toNat else u.sweepDiv - 1
    sweepReload := if reload then false else u.sweepReload }

/-- The quarter-frame clock of the triangle's linear counter (R392). -/
def Triangle.quarter (u : Triangle) : Triangle :=
  { u with
    linear := if u.linearReload then (u.ctrl &&& 0x7F).toNat else u.linear - 1
    linearReload := u.linearReload && u.ctrl.getLsbD 7 }

/-- The half-frame clock of the triangle's length counter; the control bit is its halt bit (R390). -/
def Triangle.half (u : Triangle) : Triangle := { u with length := lengthHalf (u.ctrl.getLsbD 7) u.length }

/-- The quarter-frame clock of the noise envelope. -/
def Noise.quarter (u : Noise) : Noise := { u with env := u.env.quarter u.ctrl }

/-- The half-frame clock of the noise length counter. -/
def Noise.half (u : Noise) : Noise := { u with length := lengthHalf (u.ctrl.getLsbD 5) u.length }

/-- A quarter-frame clock of every channel (R394, R398). -/
def Apu.quarter (s : Apu) : Apu :=
  { s with pulse1 := s.pulse1.quarter, pulse2 := s.pulse2.quarter, tri := s.tri.quarter, noise := s.noise.quarter }

/-- A half-frame clock of every channel (R394, R398). -/
def Apu.half (s : Apu) : Apu :=
  { s with pulse1 := s.pulse1.half true, pulse2 := s.pulse2.half false, tri := s.tri.half, noise := s.noise.half }

/-! ## Timers and outputs -/

/-- A pulse timer counts one Apu cycle (R391). -/
def Pulse.tick (u : Pulse) : Pulse :=
  if u.timer = 0 then { u with timer := u.period.toNat, step := (u.step + 1) % 8 } else { u with timer := u.timer - 1 }

/-- The output of a pulse channel, 0 to 15 (R391). -/
def Pulse.output (u : Pulse) (first : Bool) : Nat :=
  if (dutyWave (u.ctrl >>> 6).toNat).getD u.step 0 = 1 ∧ u.length ≠ 0 ∧ u.audible first then u.env.output u.ctrl else 0

/-- The triangle timer counts one Cpu cycle (R392): with a period below `TRI_MIN_PERIOD` the sequencer does not advance. -/
def Triangle.tick (u : Triangle) : Triangle :=
  if u.timer = 0 then
    { u with
      timer := u.period.toNat
      step :=
        if u.linear ≠ 0 ∧ u.length ≠ 0 ∧ Config.triMinPeriod ≤ u.period.toNat then (u.step + 1) % 32 else u.step }
  else { u with timer := u.timer - 1 }

/-- The noise timer counts one Apu cycle, two Cpu cycles of its period (R390, R393, log entry 9). -/
def Noise.tick (u : Noise) (r : Region) : Noise :=
  if u.timer = 0 then
    let fb := xor (u.lfsr.getLsbD 0) (if u.mode.getLsbD 7 then u.lfsr.getLsbD 6 else u.lfsr.getLsbD 1)
    { u with
      timer := (noisePeriods r).getD (u.mode &&& 0x0F).toNat 0 / 2 - 1
      lfsr := (u.lfsr >>> 1) ||| ((BitVec.ofBool fb).setWidth 15 <<< 14) }
  else { u with timer := u.timer - 1 }

/-- The output of the noise channel (R393). -/
def Noise.output (u : Noise) : Nat := if u.lfsr.getLsbD 0 ∨ u.length = 0 then 0 else u.env.output u.ctrl

/-- One clock of the delta-modulation output unit (R395). -/
def Dmc.clockOutput (u : Dmc) : Dmc :=
  let level :=
    if u.silence then u.level
    else if u.shift.getLsbD 0 then (if u.level.toNat ≤ 125 then u.level + 2 else u.level)
    else if 2 ≤ u.level.toNat then u.level - 2
    else u.level
  let shifted := { u with level := level, shift := u.shift >>> 1, bits := u.bits - 1 }
  if u.bits - 1 = 0 then
    match u.buffer with
    | none => { shifted with bits := 8, silence := true }
    | some b => { shifted with bits := 8, silence := false, shift := b, buffer := none }
  else shifted

/-- The delta-modulation timer counts one Apu cycle, two Cpu cycles of its rate (R390, R395, log entry 9). -/
def Dmc.tick (u : Dmc) (r : Region) : Dmc :=
  if u.timer = 0 then { u.clockOutput with timer := (dmcRates r).getD (u.ctrl &&& 0x0F).toNat 0 / 2 - 1 }
  else { u with timer := u.timer - 1 }

/-- The channel requests a DMA fetch (R395, R103). -/
def Dmc.wantsByte (u : Dmc) : Bool := u.buffer.isNone && decide (0 < u.remaining)

/-- The sample address and length of registers 0x4012 and 0x4013 (R390). -/
def Dmc.restart (u : Dmc) : Dmc :=
  { u with
    addr := 0xC000 + u.addrReg.setWidth 16 * 64
    remaining := u.lenReg.toNat * 16 + 1 }

/-- The memory reader receives a byte (R395). -/
def Dmc.receive (u : Dmc) (b : Byte) : Dmc :=
  let got :=
    { u with buffer := some b, addr := if u.addr = 0xFFFF then 0x8000 else u.addr + 1, remaining := u.remaining - 1 }
  if u.remaining - 1 = 0 then
    if u.ctrl.getLsbD 6 then got.restart
    else if u.ctrl.getLsbD 7 then { got with irqFlag := true }
    else got
  else got

/-! ## Frame sequencer (R397, R398) -/

/-- The sequence points of a region: the counts of the first three quarter clocks, then of the 4-step end and of the 5-step
end. -/
structure SequencePoints where
  first  : Nat
  second : Nat
  third  : Nat
  fourth : Nat
  fifth  : Nat

/-- The sequence points, in Cpu cycles after the restart. -/
def sequencePoints : Region → SequencePoints
  | .ntsc => { first := 7457, second := 14913, third := 22371, fourth := 29829, fifth := 37281 }
  | .pal => { first := 8313, second := 16627, third := 24939, fourth := 33253, fifth := 41565 }

/-- Whether the count `n` is a quarter-frame point. -/
def FrameSequencer.isQuarter (q : FrameSequencer) (r : Region) (n : Nat) : Bool :=
  let k := sequencePoints r
  n == k.first || n == k.second || n == k.third || n == (if q.fiveStep then k.fifth else k.fourth)

/-- Whether the count `n` is a half-frame point. -/
def FrameSequencer.isHalf (q : FrameSequencer) (r : Region) (n : Nat) : Bool :=
  let k := sequencePoints r
  n == k.second || n == (if q.fiveStep then k.fifth else k.fourth)

/-- The sequencer's count, wrap and interrupt flag after a cycle that makes the count `n`. -/
def FrameSequencer.reach (q : FrameSequencer) (r : Region) (n : Nat) : FrameSequencer :=
  let last := (sequencePoints r).fourth
  let raises := !q.fiveStep && !q.inhibit && decide (last - 1 ≤ n) && decide (n ≤ last + 1)
  { q with
    count := if (if q.fiveStep then (sequencePoints r).fifth + 1 else last + 1) ≤ n then 0 else n
    irqFlag := q.irqFlag || raises }

/-- The frame sequencer's part of an `apu_step`. A pending restart counts down; when it comes the count is 0 and, in 5-step
mode, a quarter- and a half-frame clock are generated. -/
def Apu.sequence (s : Apu) (r : Region) : Apu :=
  if s.seq.delay = 1 then
    let s1 := { s with seq := { s.seq with delay := 0, count := 0 } }
    if s.seq.fiveStep then s1.quarter.half else s1
  else
    let n := s.seq.count + 1
    let s1 := if s.seq.isQuarter r n then s.quarter else s
    let s2 := if s.seq.isHalf r n then s1.half else s1
    { s2 with seq := { s.seq.reach r n with delay := s.seq.delay - 1 } }

/-! ## The mixer (R399) -/

/-- The exact value of the mixer formula. -/
def mix (p t n d : Nat) : Rat :=
  (if p = 0 then 0 else (9588 : Rat) / 100 / (8128 / (p : Rat) + 100))
    + (if t = 0 ∧ n = 0 ∧ d = 0 then 0
       else (15979 : Rat) / 100 / (1 / ((t : Rat) / 8227 + (n : Rat) / 12241 + (d : Rat) / 22638) + 100))

/-- The sample of a cycle. -/
def Apu.sample (s : Apu) : Rat :=
  mix (s.pulse1.output true + s.pulse2.output false) (triangleLevel s.tri.step) s.noise.output s.dmc.level.toNat

/-! ## The step (R390, R430) -/

/-- The timers: the triangle's every Cpu cycle, the others' every Apu cycle (when `cycle` is odd). -/
def Apu.tick (s : Apu) (r : Region) (cycle : Nat) : Apu :=
  if cycle % 2 = 1 then
    { s with
      pulse1 := s.pulse1.tick, pulse2 := s.pulse2.tick, tri := s.tri.tick, noise := s.noise.tick r, dmc := s.dmc.tick r }
  else { s with tri := s.tri.tick }

/-- One `apu_step`, and the sample it appends (R400). -/
def Apu.stepCycle (s : Apu) (r : Region) (cycle : Nat) : Apu :=
  let s1 := (s.sequence r).tick r cycle
  { s1 with samples := s1.sample :: s1.samples }

/-! ## Registers -/

/-- The period with its low byte, or with its high three bits, replaced. -/
def periodLow (p : BitVec 11) (v : Byte) : BitVec 11 := (p &&& 0x700) ||| v.setWidth 11

@[inherit_doc periodLow] def periodHigh (p : BitVec 11) (v : Byte) : BitVec 11 :=
  (p &&& 0x0FF) ||| ((v &&& 7).setWidth 11 <<< 8)

/-- A write to register `k` (0 to 3) of a pulse channel (R390, R391, R394). -/
def Pulse.write (u : Pulse) (enabled : Bool) (k : Nat) (v : Byte) : Pulse :=
  match k with
  | 0 => { u with ctrl := v }
  | 1 => { u with sweep := v, sweepReload := true }
  | 2 => { u with period := periodLow u.period v }
  | _ =>
    { u with
      period := periodHigh u.period v, length := lengthLoad enabled u.length v, step := 0
      env := { u.env with start := true } }

/-- A write to 0x4008 to 0x400B, register `k` of the triangle (R390, R392). -/
def Triangle.write (u : Triangle) (enabled : Bool) (k : Nat) (v : Byte) : Triangle :=
  match k with
  | 0 => { u with ctrl := v }
  | 1 => u
  | 2 => { u with period := periodLow u.period v }
  | _ => { u with period := periodHigh u.period v, length := lengthLoad enabled u.length v, linearReload := true }

/-- A write to 0x400C to 0x400F, register `k` of the noise channel (R390, R393, R394). -/
def Noise.write (u : Noise) (enabled : Bool) (k : Nat) (v : Byte) : Noise :=
  match k with
  | 0 => { u with ctrl := v }
  | 1 => u
  | 2 => { u with mode := v }
  | _ => { u with length := lengthLoad enabled u.length v, env := { u.env with start := true } }

/-- A write to 0x4010 to 0x4013, register `k` of the delta-modulation channel (R390, R395). -/
def Dmc.write (u : Dmc) (k : Nat) (v : Byte) : Dmc :=
  match k with
  | 0 => { u with ctrl := v, irqFlag := u.irqFlag && v.getLsbD 7 }
  | 1 => { u with level := v.setWidth 7 }
  | 2 => { u with addrReg := v }
  | _ => { u with lenReg := v }

/-- A write to an Apu channel register 0x4000 to 0x4013 (R390). -/
def Apu.writeChannel (s : Apu) (a : Nat) (v : Byte) : Apu :=
  let k := a % 4
  if a < 0x4004 then { s with pulse1 := s.pulse1.write (s.enables.getLsbD 0) k v }
  else if a < 0x4008 then { s with pulse2 := s.pulse2.write (s.enables.getLsbD 1) k v }
  else if a < 0x400C then { s with tri := s.tri.write (s.enables.getLsbD 2) k v }
  else if a < 0x4010 then { s with noise := s.noise.write (s.enables.getLsbD 3) k v }
  else { s with dmc := s.dmc.write k v }

/-- A write to 0x4015 (R396): a 0 enable bit forces that channel's length counter to 0. -/
def Apu.writeEnable (s : Apu) (v : Byte) : Apu :=
  let keep (bit : Nat) (n : Nat) : Nat := if v.getLsbD bit then n else 0
  let dmc := { s.dmc with irqFlag := false }
  { s with
    enables := v.setWidth 4
    pulse1 := { s.pulse1 with length := keep 0 s.pulse1.length }
    pulse2 := { s.pulse2 with length := keep 1 s.pulse2.length }
    tri := { s.tri with length := keep 2 s.tri.length }
    noise := { s.noise with length := keep 3 s.noise.length }
    dmc :=
      if v.getLsbD 4 then (if s.dmc.remaining = 0 then dmc.restart else dmc) else { dmc with remaining := 0 } }

/-- A write to 0x4017 in the cycle with counter value `cycle` (R397): the restart is 3 cycles later when it is even, 4 when
odd (the count is 0 at the end of that cycle's `apu_step`). -/
def Apu.writeSequencer (s : Apu) (cycle : Nat) (v : Byte) : Apu :=
  { s with
    seq :=
      { s.seq with
        fiveStep := v.getLsbD 7
        inhibit := v.getLsbD 6
        irqFlag := s.seq.irqFlag && !v.getLsbD 6
        delay := if cycle % 2 = 0 then 4 else 5 } }

/-- The value of a read of 0x4015 (R396); bit 5 is not driven (R71). -/
def Apu.status (s : Apu) (latch : Byte) : Byte :=
  (BitVec.ofBool s.dmc.irqFlag ++ BitVec.ofBool s.seq.irqFlag ++ BitVec.ofBool (latch.getLsbD 5)
    ++ BitVec.ofBool (decide (0 < s.dmc.remaining)) ++ BitVec.ofBool (decide (0 < s.noise.length))
    ++ BitVec.ofBool (decide (0 < s.tri.length)) ++ BitVec.ofBool (decide (0 < s.pulse2.length))
    ++ BitVec.ofBool (decide (0 < s.pulse1.length)) : BitVec 8)

/-- The side effect of a read of 0x4015 (R396). -/
def Apu.afterStatusRead (s : Apu) : Apu := { s with seq := { s.seq with irqFlag := false } }

end Sys2Proof.Machine
end

