-- ==== Sys2Proof/Machine/Flags.lean ====
section
/-! DEFINITION. Every flag computation of the spec: the pushed byte of P, N and Z from a byte, addition, subtraction,
compare, shifts and rotates (spec/00_scope.md R13, spec/10_state.md R24, spec/42_logic_arithmetic.md R184 to R188,
spec/43_shift_incdec.md R200 to R203). All of it is binary whatever D is (R26). -/

namespace Sys2Proof.Machine

/-- `SetNZ(v)` (R13). -/
def Flags.setNZ (p : Flags) (v : Byte) : Flags := { p with n := v.getLsbD 7, z := v == 0 }

/-- `PackP(b)` (R13, R24): `{N, V, 1, b, D, I, Z, C}`. -/
def Flags.pack (p : Flags) (b : Bool) : Byte :=
  (BitVec.ofBool p.n ++ BitVec.ofBool p.v ++ BitVec.ofBool true ++ BitVec.ofBool b ++ BitVec.ofBool p.d
    ++ BitVec.ofBool p.i ++ BitVec.ofBool p.z ++ BitVec.ofBool p.c : BitVec 8)

/-- `UnpackP(v)` (R13, R24): bits 5 and 4 are ignored. -/
def Flags.unpack (v : Byte) : Flags :=
  { n := v.getLsbD 7, v := v.getLsbD 6, d := v.getLsbD 3, i := v.getLsbD 2, z := v.getLsbD 1, c := v.getLsbD 0 }

/-- The nine-bit sum `t9` of two bytes and a carry (R10, R186). -/
def sum9 (a m : Byte) (c : Bool) : BitVec 9 := a.setWidth 9 + m.setWidth 9 + (BitVec.ofBool c).setWidth 9

/-- `t9[7:0]`. -/
def sumByte (a m : Byte) (c : Bool) : Byte := (sum9 a m c).setWidth 8

/-- `t9[8]`: the carry out (R186). -/
def sumCarry (a m : Byte) (c : Bool) : Bool := (sum9 a m c).getLsbD 8

/-- `((a ^ r) & (m ^ r))[7]`: the signed overflow of the sum (R185, R186). -/
def sumOverflow (a m : Byte) (c : Bool) : Bool :=
  ((a ^^^ sumByte a m c) &&& (m ^^^ sumByte a m c)).getLsbD 7

/-- The flags after an addition (R186). -/
def Flags.afterSum (p : Flags) (a m : Byte) (c : Bool) : Flags :=
  { p.setNZ (sumByte a m c) with c := sumCarry a m c, v := sumOverflow a m c }

/-- The flags after a compare of `r` with `m` (R188): N, Z and C of `r - m`, the carry-in being 1 whatever P.C was. -/
def Flags.afterCompare (p : Flags) (r m : Byte) : Flags :=
  { p.setNZ (sumByte r (m ^^^ 0xFF) true) with c := sumCarry r (m ^^^ 0xFF) true }

/-- The four shifts and rotates, and the two memory steps by one: the operations of the read-modify-write instructions. -/
inductive Shift where
  | asl
  | lsr
  | rol
  | ror
  deriving DecidableEq, Repr

/-- The result of a shift or rotate of `v` with carry-in `c` (R200 to R203). -/
def Shift.result : Shift → Bool → Byte → Byte
  | .asl, _, v => v <<< 1
  | .lsr, _, v => v >>> 1
  | .rol, c, v => (v <<< 1) ||| (BitVec.ofBool c).setWidth 8
  | .ror, c, v => (v >>> 1) ||| ((BitVec.ofBool c).setWidth 8 <<< 7)

/-- The bit shifted out, which goes to C (R200 to R203). -/
def Shift.carry : Shift → Byte → Bool
  | .asl, v => v.getLsbD 7
  | .lsr, v => v.getLsbD 0
  | .rol, v => v.getLsbD 7
  | .ror, v => v.getLsbD 0

/-- The flags after a shift or rotate of `v` (R200 to R203). -/
def Flags.afterShift (p : Flags) (k : Shift) (v : Byte) : Flags :=
  { p.setNZ (k.result p.c v) with c := k.carry v }

end Sys2Proof.Machine
end

