-- ==== Sys2Proof/Machine/Memory.lean ====
section
/-! DEFINITION. The named operations over one memory, and the one place that says what an unlisted address reads as. -/

namespace Sys2Proof.Machine

/-- The byte listed at an address, if one is. -/
def Memory.find : Memory → Nat → Option Byte
  | [], _ => none
  | (a, b) :: m, x => if x = a then some b else Memory.find m x

/-- Store a byte, keeping the addresses in rising order. -/
def Memory.set : Memory → Nat → Byte → Memory
  | [], x, v => [(x, v)]
  | (a, b) :: m, x, v =>
    if x = a then (x, v) :: m
    else if x < a then (x, v) :: (a, b) :: m
    else (a, b) :: Memory.set m x v

/-- The canonical form: addresses strictly rising. What an unlisted address holds is no written byte at all, so no entry
can equal it. -/
def Memory.wf : Memory → Bool
  | [] => true
  | [_] => true
  | (a, _) :: (a', b') :: m => decide (a < a') && Memory.wf ((a', b') :: m)

/-- What a memory reads: the byte written last, else the byte drawn at power-on (R45, R46, R48; log entry 1). -/
def Memory.read (epoch : Nat) (id : Config.MemId) (m : Memory) (a : Nat) : Byte :=
  (m.find a).getD (Config.powerOnByte epoch id a)

/-- What the PRG or CHR data of an image reads at an offset: the listed byte, else zero (log entry 2). -/
def romRead (m : List Host.Cell) (a : Nat) : Byte := (Memory.find m a).getD 0

/-- An image's data with one byte replaced, in the canonical form of `cellsWellFormed` (a zero byte is not listed). This is
how a program is placed from outside the machine; no step does it. -/
def romSet (m : List Host.Cell) (a : Nat) (v : Byte) : List Host.Cell :=
  if v = 0 then m.filter (fun c => c.1 ≠ a) else Memory.set m a v

end Sys2Proof.Machine
end

