-- ==== Sys2Proof/Syntax.lean ====
section
/-! DEFINITION. The instruction set as syntax: one constructor per row of spec/opcode_table.json (256 rows, one per
opcode value, spec/30_encoding.md R134 to R136). A constructor is named mnemonic, then addressing mode (where the
mnemonic has several), then the opcode (where several opcodes spell one undocumented mnemonic and mode). Its operand is
the operand of the format (R121): none for F1, `d8` for F2, `a16` for F3 (`a16` = byte 2 above byte 1). The twelve JAM
opcodes stand last because Lean's compiled code gives a constructor with an operand a number of at most 244. -/

namespace Sys2Proof

/-- The instructions. All 256 opcode values are instructions; none is reserved (R120, R137). -/
inductive Instr where
  -- Loads, stores and register transfers (spec/40_load_store_transfer.md)
  /-- `STA ($dd,X)`, opcode 0x81 (R154). -/
  | staIzx (d8 : Byte)
  /-- `STY $dd`, opcode 0x84 (R156). -/
  | styZp (d8 : Byte)
  /-- `STA $dd`, opcode 0x85 (R154). -/
  | staZp (d8 : Byte)
  /-- `STX $dd`, opcode 0x86 (R155). -/
  | stxZp (d8 : Byte)
  /-- `TXA`, opcode 0x8A (R159). -/
  | txa
  /-- `STY $hhll`, opcode 0x8C (R156). -/
  | styAbs (a16 : Addr)
  /-- `STA $hhll`, opcode 0x8D (R154). -/
  | staAbs (a16 : Addr)
  /-- `STX $hhll`, opcode 0x8E (R155). -/
  | stxAbs (a16 : Addr)
  /-- `STA ($dd),Y`, opcode 0x91 (R154). -/
  | staIzy (d8 : Byte)
  /-- `STY $dd,X`, opcode 0x94 (R156). -/
  | styZpx (d8 : Byte)
  /-- `STA $dd,X`, opcode 0x95 (R154). -/
  | staZpx (d8 : Byte)
  /-- `STX $dd,Y`, opcode 0x96 (R155). -/
  | stxZpy (d8 : Byte)
  /-- `TYA`, opcode 0x98 (R160). -/
  | tya
  /-- `STA $hhll,Y`, opcode 0x99 (R154). -/
  | staAby (a16 : Addr)
  /-- `TXS`, opcode 0x9A (R162). -/
  | txs
  /-- `STA $hhll,X`, opcode 0x9D (R154). -/
  | staAbx (a16 : Addr)
  /-- `LDY #$dd`, opcode 0xA0 (R153). -/
  | ldyImm (d8 : Byte)
  /-- `LDA ($dd,X)`, opcode 0xA1 (R151). -/
  | ldaIzx (d8 : Byte)
  /-- `LDX #$dd`, opcode 0xA2 (R152). -/
  | ldxImm (d8 : Byte)
  /-- `LDY $dd`, opcode 0xA4 (R153). -/
  | ldyZp (d8 : Byte)
  /-- `LDA $dd`, opcode 0xA5 (R151). -/
  | ldaZp (d8 : Byte)
  /-- `LDX $dd`, opcode 0xA6 (R152). -/
  | ldxZp (d8 : Byte)
  /-- `TAY`, opcode 0xA8 (R158). -/
  | tay
  /-- `LDA #$dd`, opcode 0xA9 (R151). -/
  | ldaImm (d8 : Byte)
  /-- `TAX`, opcode 0xAA (R157). -/
  | tax
  /-- `LDY $hhll`, opcode 0xAC (R153). -/
  | ldyAbs (a16 : Addr)
  /-- `LDA $hhll`, opcode 0xAD (R151). -/
  | ldaAbs (a16 : Addr)
  /-- `LDX $hhll`, opcode 0xAE (R152). -/
  | ldxAbs (a16 : Addr)
  /-- `LDA ($dd),Y`, opcode 0xB1 (R151). -/
  | ldaIzy (d8 : Byte)
  /-- `LDY $dd,X`, opcode 0xB4 (R153). -/
  | ldyZpx (d8 : Byte)
  /-- `LDA $dd,X`, opcode 0xB5 (R151). -/
  | ldaZpx (d8 : Byte)
  /-- `LDX $dd,Y`, opcode 0xB6 (R152). -/
  | ldxZpy (d8 : Byte)
  /-- `LDA $hhll,Y`, opcode 0xB9 (R151). -/
  | ldaAby (a16 : Addr)
  /-- `TSX`, opcode 0xBA (R161). -/
  | tsx
  /-- `LDY $hhll,X`, opcode 0xBC (R153). -/
  | ldyAbx (a16 : Addr)
  /-- `LDA $hhll,X`, opcode 0xBD (R151). -/
  | ldaAbx (a16 : Addr)
  /-- `LDX $hhll,Y`, opcode 0xBE (R152). -/
  | ldxAby (a16 : Addr)
  -- Stack (spec/41_stack.md)
  /-- `PHP`, opcode 0x08 (R171). -/
  | php
  /-- `PLP`, opcode 0x28 (R173). -/
  | plp
  /-- `PHA`, opcode 0x48 (R170). -/
  | pha
  /-- `PLA`, opcode 0x68 (R172). -/
  | pla
  -- Logic, arithmetic, compare (spec/42_logic_arithmetic.md)
  /-- `ORA ($dd,X)`, opcode 0x01 (R181). -/
  | oraIzx (d8 : Byte)
  /-- `ORA $dd`, opcode 0x05 (R181). -/
  | oraZp (d8 : Byte)
  /-- `ORA #$dd`, opcode 0x09 (R181). -/
  | oraImm (d8 : Byte)
  /-- `ORA $hhll`, opcode 0x0D (R181). -/
  | oraAbs (a16 : Addr)
  /-- `ORA ($dd),Y`, opcode 0x11 (R181). -/
  | oraIzy (d8 : Byte)
  /-- `ORA $dd,X`, opcode 0x15 (R181). -/
  | oraZpx (d8 : Byte)
  /-- `ORA $hhll,Y`, opcode 0x19 (R181). -/
  | oraAby (a16 : Addr)
  /-- `ORA $hhll,X`, opcode 0x1D (R181). -/
  | oraAbx (a16 : Addr)
  /-- `AND ($dd,X)`, opcode 0x21 (R180). -/
  | andIzx (d8 : Byte)
  /-- `BIT $dd`, opcode 0x24 (R183). -/
  | bitZp (d8 : Byte)
  /-- `AND $dd`, opcode 0x25 (R180). -/
  | andZp (d8 : Byte)
  /-- `AND #$dd`, opcode 0x29 (R180). -/
  | andImm (d8 : Byte)
  /-- `BIT $hhll`, opcode 0x2C (R183). -/
  | bitAbs (a16 : Addr)
  /-- `AND $hhll`, opcode 0x2D (R180). -/
  | andAbs (a16 : Addr)
  /-- `AND ($dd),Y`, opcode 0x31 (R180). -/
  | andIzy (d8 : Byte)
  /-- `AND $dd,X`, opcode 0x35 (R180). -/
  | andZpx (d8 : Byte)
  /-- `AND $hhll,Y`, opcode 0x39 (R180). -/
  | andAby (a16 : Addr)
  /-- `AND $hhll,X`, opcode 0x3D (R180). -/
  | andAbx (a16 : Addr)
  /-- `EOR ($dd,X)`, opcode 0x41 (R182). -/
  | eorIzx (d8 : Byte)
  /-- `EOR $dd`, opcode 0x45 (R182). -/
  | eorZp (d8 : Byte)
  /-- `EOR #$dd`, opcode 0x49 (R182). -/
  | eorImm (d8 : Byte)
  /-- `EOR $hhll`, opcode 0x4D (R182). -/
  | eorAbs (a16 : Addr)
  /-- `EOR ($dd),Y`, opcode 0x51 (R182). -/
  | eorIzy (d8 : Byte)
  /-- `EOR $dd,X`, opcode 0x55 (R182). -/
  | eorZpx (d8 : Byte)
  /-- `EOR $hhll,Y`, opcode 0x59 (R182). -/
  | eorAby (a16 : Addr)
  /-- `EOR $hhll,X`, opcode 0x5D (R182). -/
  | eorAbx (a16 : Addr)
  /-- `ADC ($dd,X)`, opcode 0x61 (R186). -/
  | adcIzx (d8 : Byte)
  /-- `ADC $dd`, opcode 0x65 (R186). -/
  | adcZp (d8 : Byte)
  /-- `ADC #$dd`, opcode 0x69 (R186). -/
  | adcImm (d8 : Byte)
  /-- `ADC $hhll`, opcode 0x6D (R186). -/
  | adcAbs (a16 : Addr)
  /-- `ADC ($dd),Y`, opcode 0x71 (R186). -/
  | adcIzy (d8 : Byte)
  /-- `ADC $dd,X`, opcode 0x75 (R186). -/
  | adcZpx (d8 : Byte)
  /-- `ADC $hhll,Y`, opcode 0x79 (R186). -/
  | adcAby (a16 : Addr)
  /-- `ADC $hhll,X`, opcode 0x7D (R186). -/
  | adcAbx (a16 : Addr)
  /-- `CPY #$dd`, opcode 0xC0 (R190). -/
  | cpyImm (d8 : Byte)
  /-- `CMP ($dd,X)`, opcode 0xC1 (R188). -/
  | cmpIzx (d8 : Byte)
  /-- `CPY $dd`, opcode 0xC4 (R190). -/
  | cpyZp (d8 : Byte)
  /-- `CMP $dd`, opcode 0xC5 (R188). -/
  | cmpZp (d8 : Byte)
  /-- `CMP #$dd`, opcode 0xC9 (R188). -/
  | cmpImm (d8 : Byte)
  /-- `CPY $hhll`, opcode 0xCC (R190). -/
  | cpyAbs (a16 : Addr)
  /-- `CMP $hhll`, opcode 0xCD (R188). -/
  | cmpAbs (a16 : Addr)
  /-- `CMP ($dd),Y`, opcode 0xD1 (R188). -/
  | cmpIzy (d8 : Byte)
  /-- `CMP $dd,X`, opcode 0xD5 (R188). -/
  | cmpZpx (d8 : Byte)
  /-- `CMP $hhll,Y`, opcode 0xD9 (R188). -/
  | cmpAby (a16 : Addr)
  /-- `CMP $hhll,X`, opcode 0xDD (R188). -/
  | cmpAbx (a16 : Addr)
  /-- `CPX #$dd`, opcode 0xE0 (R189). -/
  | cpxImm (d8 : Byte)
  /-- `SBC ($dd,X)`, opcode 0xE1 (R187). -/
  | sbcIzx (d8 : Byte)
  /-- `CPX $dd`, opcode 0xE4 (R189). -/
  | cpxZp (d8 : Byte)
  /-- `SBC $dd`, opcode 0xE5 (R187). -/
  | sbcZp (d8 : Byte)
  /-- `SBC #$dd`, opcode 0xE9 (R187). -/
  | sbcImm (d8 : Byte)
  /-- `CPX $hhll`, opcode 0xEC (R189). -/
  | cpxAbs (a16 : Addr)
  /-- `SBC $hhll`, opcode 0xED (R187). -/
  | sbcAbs (a16 : Addr)
  /-- `SBC ($dd),Y`, opcode 0xF1 (R187). -/
  | sbcIzy (d8 : Byte)
  /-- `SBC $dd,X`, opcode 0xF5 (R187). -/
  | sbcZpx (d8 : Byte)
  /-- `SBC $hhll,Y`, opcode 0xF9 (R187). -/
  | sbcAby (a16 : Addr)
  /-- `SBC $hhll,X`, opcode 0xFD (R187). -/
  | sbcAbx (a16 : Addr)
  -- Shifts, rotates, increments, decrements (spec/43_shift_incdec.md)
  /-- `ASL $dd`, opcode 0x06 (R200). -/
  | aslZp (d8 : Byte)
  /-- `ASL A`, opcode 0x0A (R200). -/
  | aslAcc
  /-- `ASL $hhll`, opcode 0x0E (R200). -/
  | aslAbs (a16 : Addr)
  /-- `ASL $dd,X`, opcode 0x16 (R200). -/
  | aslZpx (d8 : Byte)
  /-- `ASL $hhll,X`, opcode 0x1E (R200). -/
  | aslAbx (a16 : Addr)
  /-- `ROL $dd`, opcode 0x26 (R202). -/
  | rolZp (d8 : Byte)
  /-- `ROL A`, opcode 0x2A (R202). -/
  | rolAcc
  /-- `ROL $hhll`, opcode 0x2E (R202). -/
  | rolAbs (a16 : Addr)
  /-- `ROL $dd,X`, opcode 0x36 (R202). -/
  | rolZpx (d8 : Byte)
  /-- `ROL $hhll,X`, opcode 0x3E (R202). -/
  | rolAbx (a16 : Addr)
  /-- `LSR $dd`, opcode 0x46 (R201). -/
  | lsrZp (d8 : Byte)
  /-- `LSR A`, opcode 0x4A (R201). -/
  | lsrAcc
  /-- `LSR $hhll`, opcode 0x4E (R201). -/
  | lsrAbs (a16 : Addr)
  /-- `LSR $dd,X`, opcode 0x56 (R201). -/
  | lsrZpx (d8 : Byte)
  /-- `LSR $hhll,X`, opcode 0x5E (R201). -/
  | lsrAbx (a16 : Addr)
  /-- `ROR $dd`, opcode 0x66 (R203). -/
  | rorZp (d8 : Byte)
  /-- `ROR A`, opcode 0x6A (R203). -/
  | rorAcc
  /-- `ROR $hhll`, opcode 0x6E (R203). -/
  | rorAbs (a16 : Addr)
  /-- `ROR $dd,X`, opcode 0x76 (R203). -/
  | rorZpx (d8 : Byte)
  /-- `ROR $hhll,X`, opcode 0x7E (R203). -/
  | rorAbx (a16 : Addr)
  /-- `DEY`, opcode 0x88 (R209). -/
  | dey
  /-- `DEC $dd`, opcode 0xC6 (R205). -/
  | decZp (d8 : Byte)
  /-- `INY`, opcode 0xC8 (R207). -/
  | iny
  /-- `DEX`, opcode 0xCA (R208). -/
  | dex
  /-- `DEC $hhll`, opcode 0xCE (R205). -/
  | decAbs (a16 : Addr)
  /-- `DEC $dd,X`, opcode 0xD6 (R205). -/
  | decZpx (d8 : Byte)
  /-- `DEC $hhll,X`, opcode 0xDE (R205). -/
  | decAbx (a16 : Addr)
  /-- `INC $dd`, opcode 0xE6 (R204). -/
  | incZp (d8 : Byte)
  /-- `INX`, opcode 0xE8 (R206). -/
  | inx
  /-- `INC $hhll`, opcode 0xEE (R204). -/
  | incAbs (a16 : Addr)
  /-- `INC $dd,X`, opcode 0xF6 (R204). -/
  | incZpx (d8 : Byte)
  /-- `INC $hhll,X`, opcode 0xFE (R204). -/
  | incAbx (a16 : Addr)
  -- Control transfer (spec/44_control_transfer.md)
  /-- `BPL label`, opcode 0x10 (R225). -/
  | bpl (d8 : Byte)
  /-- `JSR $hhll`, opcode 0x20 (R222). -/
  | jsr (a16 : Addr)
  /-- `BMI label`, opcode 0x30 (R226). -/
  | bmi (d8 : Byte)
  /-- `JMP $hhll`, opcode 0x4C (R220). -/
  | jmpAbs (a16 : Addr)
  /-- `BVC label`, opcode 0x50 (R227). -/
  | bvc (d8 : Byte)
  /-- `RTS`, opcode 0x60 (R223). -/
  | rts
  /-- `JMP ($hhll)`, opcode 0x6C (R221). -/
  | jmpInd (a16 : Addr)
  /-- `BVS label`, opcode 0x70 (R228). -/
  | bvs (d8 : Byte)
  /-- `BCC label`, opcode 0x90 (R229). -/
  | bcc (d8 : Byte)
  /-- `BCS label`, opcode 0xB0 (R230). -/
  | bcs (d8 : Byte)
  /-- `BNE label`, opcode 0xD0 (R231). -/
  | bne (d8 : Byte)
  /-- `BEQ label`, opcode 0xF0 (R232). -/
  | beq (d8 : Byte)
  -- Flags and system (spec/45_flags_system.md)
  /-- `BRK`, opcode 0x00 (R248). -/
  | brk
  /-- `CLC`, opcode 0x18 (R240). -/
  | clc
  /-- `SEC`, opcode 0x38 (R241). -/
  | sec
  /-- `RTI`, opcode 0x40 (R249). -/
  | rti
  /-- `CLI`, opcode 0x58 (R242). -/
  | cli
  /-- `SEI`, opcode 0x78 (R243). -/
  | sei
  /-- `CLV`, opcode 0xB8 (R244). -/
  | clv
  /-- `CLD`, opcode 0xD8 (R245). -/
  | cld
  /-- `NOP`, opcode 0xEA (R247). -/
  | nop
  /-- `SED`, opcode 0xF8 (R246). -/
  | sed
  -- Undocumented opcodes (spec/46_undocumented.md)
  /-- `SLO ($dd,X)`, opcode 0x03 (R261). -/
  | sloIzx (d8 : Byte)
  /-- `NOP $dd`, opcode 0x04 (R276). -/
  | nopZp04 (d8 : Byte)
  /-- `SLO $dd`, opcode 0x07 (R261). -/
  | sloZp (d8 : Byte)
  /-- `ANC #$dd`, opcode 0x0B (R269). -/
  | anc0B (d8 : Byte)
  /-- `NOP $hhll`, opcode 0x0C (R276). -/
  | nopAbs (a16 : Addr)
  /-- `SLO $hhll`, opcode 0x0F (R261). -/
  | sloAbs (a16 : Addr)
  /-- `SLO ($dd),Y`, opcode 0x13 (R261). -/
  | sloIzy (d8 : Byte)
  /-- `NOP $dd,X`, opcode 0x14 (R276). -/
  | nopZpx14 (d8 : Byte)
  /-- `SLO $dd,X`, opcode 0x17 (R261). -/
  | sloZpx (d8 : Byte)
  /-- `NOP`, opcode 0x1A (R274). -/
  | nop1A
  /-- `SLO $hhll,Y`, opcode 0x1B (R261). -/
  | sloAby (a16 : Addr)
  /-- `NOP $hhll,X`, opcode 0x1C (R276). -/
  | nopAbx1C (a16 : Addr)
  /-- `SLO $hhll,X`, opcode 0x1F (R261). -/
  | sloAbx (a16 : Addr)
  /-- `RLA ($dd,X)`, opcode 0x23 (R262). -/
  | rlaIzx (d8 : Byte)
  /-- `RLA $dd`, opcode 0x27 (R262). -/
  | rlaZp (d8 : Byte)
  /-- `ANC #$dd`, opcode 0x2B (R269). -/
  | anc2B (d8 : Byte)
  /-- `RLA $hhll`, opcode 0x2F (R262). -/
  | rlaAbs (a16 : Addr)
  /-- `RLA ($dd),Y`, opcode 0x33 (R262). -/
  | rlaIzy (d8 : Byte)
  /-- `NOP $dd,X`, opcode 0x34 (R276). -/
  | nopZpx34 (d8 : Byte)
  /-- `RLA $dd,X`, opcode 0x37 (R262). -/
  | rlaZpx (d8 : Byte)
  /-- `NOP`, opcode 0x3A (R274). -/
  | nop3A
  /-- `RLA $hhll,Y`, opcode 0x3B (R262). -/
  | rlaAby (a16 : Addr)
  /-- `NOP $hhll,X`, opcode 0x3C (R276). -/
  | nopAbx3C (a16 : Addr)
  /-- `RLA $hhll,X`, opcode 0x3F (R262). -/
  | rlaAbx (a16 : Addr)
  /-- `SRE ($dd,X)`, opcode 0x43 (R263). -/
  | sreIzx (d8 : Byte)
  /-- `NOP $dd`, opcode 0x44 (R276). -/
  | nopZp44 (d8 : Byte)
  /-- `SRE $dd`, opcode 0x47 (R263). -/
  | sreZp (d8 : Byte)
  /-- `ALR #$dd`, opcode 0x4B (R270). -/
  | alr (d8 : Byte)
  /-- `SRE $hhll`, opcode 0x4F (R263). -/
  | sreAbs (a16 : Addr)
  /-- `SRE ($dd),Y`, opcode 0x53 (R263). -/
  | sreIzy (d8 : Byte)
  /-- `NOP $dd,X`, opcode 0x54 (R276). -/
  | nopZpx54 (d8 : Byte)
  /-- `SRE $dd,X`, opcode 0x57 (R263). -/
  | sreZpx (d8 : Byte)
  /-- `NOP`, opcode 0x5A (R274). -/
  | nop5A
  /-- `SRE $hhll,Y`, opcode 0x5B (R263). -/
  | sreAby (a16 : Addr)
  /-- `NOP $hhll,X`, opcode 0x5C (R276). -/
  | nopAbx5C (a16 : Addr)
  /-- `SRE $hhll,X`, opcode 0x5F (R263). -/
  | sreAbx (a16 : Addr)
  /-- `RRA ($dd,X)`, opcode 0x63 (R264). -/
  | rraIzx (d8 : Byte)
  /-- `NOP $dd`, opcode 0x64 (R276). -/
  | nopZp64 (d8 : Byte)
  /-- `RRA $dd`, opcode 0x67 (R264). -/
  | rraZp (d8 : Byte)
  /-- `ARR #$dd`, opcode 0x6B (R271). -/
  | arr (d8 : Byte)
  /-- `RRA $hhll`, opcode 0x6F (R264). -/
  | rraAbs (a16 : Addr)
  /-- `RRA ($dd),Y`, opcode 0x73 (R264). -/
  | rraIzy (d8 : Byte)
  /-- `NOP $dd,X`, opcode 0x74 (R276). -/
  | nopZpx74 (d8 : Byte)
  /-- `RRA $dd,X`, opcode 0x77 (R264). -/
  | rraZpx (d8 : Byte)
  /-- `NOP`, opcode 0x7A (R274). -/
  | nop7A
  /-- `RRA $hhll,Y`, opcode 0x7B (R264). -/
  | rraAby (a16 : Addr)
  /-- `NOP $hhll,X`, opcode 0x7C (R276). -/
  | nopAbx7C (a16 : Addr)
  /-- `RRA $hhll,X`, opcode 0x7F (R264). -/
  | rraAbx (a16 : Addr)
  /-- `NOP #$dd`, opcode 0x80 (R275). -/
  | nopImm80 (d8 : Byte)
  /-- `NOP #$dd`, opcode 0x82 (R275). -/
  | nopImm82 (d8 : Byte)
  /-- `SAX ($dd,X)`, opcode 0x83 (R265). -/
  | saxIzx (d8 : Byte)
  /-- `SAX $dd`, opcode 0x87 (R265). -/
  | saxZp (d8 : Byte)
  /-- `NOP #$dd`, opcode 0x89 (R275). -/
  | nopImm89 (d8 : Byte)
  /-- `XAA #$dd`, opcode 0x8B (R286). -/
  | xaa (d8 : Byte)
  /-- `SAX $hhll`, opcode 0x8F (R265). -/
  | saxAbs (a16 : Addr)
  /-- `SHA ($dd),Y`, opcode 0x93 (R288). -/
  | shaIzy (d8 : Byte)
  /-- `SAX $dd,Y`, opcode 0x97 (R265). -/
  | saxZpy (d8 : Byte)
  /-- `TAS $hhll,Y`, opcode 0x9B (R291). -/
  | tas (a16 : Addr)
  /-- `SHY $hhll,X`, opcode 0x9C (R290). -/
  | shy (a16 : Addr)
  /-- `SHX $hhll,Y`, opcode 0x9E (R289). -/
  | shx (a16 : Addr)
  /-- `SHA $hhll,Y`, opcode 0x9F (R288). -/
  | shaAby (a16 : Addr)
  /-- `LAX ($dd,X)`, opcode 0xA3 (R266). -/
  | laxIzx (d8 : Byte)
  /-- `LAX $dd`, opcode 0xA7 (R266). -/
  | laxZp (d8 : Byte)
  /-- `LXA #$dd`, opcode 0xAB (R287). -/
  | lxa (d8 : Byte)
  /-- `LAX $hhll`, opcode 0xAF (R266). -/
  | laxAbs (a16 : Addr)
  /-- `LAX ($dd),Y`, opcode 0xB3 (R266). -/
  | laxIzy (d8 : Byte)
  /-- `LAX $dd,Y`, opcode 0xB7 (R266). -/
  | laxZpy (d8 : Byte)
  /-- `LAS $hhll,Y`, opcode 0xBB (R285). -/
  | las (a16 : Addr)
  /-- `LAX $hhll,Y`, opcode 0xBF (R266). -/
  | laxAby (a16 : Addr)
  /-- `NOP #$dd`, opcode 0xC2 (R275). -/
  | nopImmC2 (d8 : Byte)
  /-- `DCP ($dd,X)`, opcode 0xC3 (R267). -/
  | dcpIzx (d8 : Byte)
  /-- `DCP $dd`, opcode 0xC7 (R267). -/
  | dcpZp (d8 : Byte)
  /-- `AXS #$dd`, opcode 0xCB (R272). -/
  | axs (d8 : Byte)
  /-- `DCP $hhll`, opcode 0xCF (R267). -/
  | dcpAbs (a16 : Addr)
  /-- `DCP ($dd),Y`, opcode 0xD3 (R267). -/
  | dcpIzy (d8 : Byte)
  /-- `NOP $dd,X`, opcode 0xD4 (R276). -/
  | nopZpxD4 (d8 : Byte)
  /-- `DCP $dd,X`, opcode 0xD7 (R267). -/
  | dcpZpx (d8 : Byte)
  /-- `NOP`, opcode 0xDA (R274). -/
  | nopDA
  /-- `DCP $hhll,Y`, opcode 0xDB (R267). -/
  | dcpAby (a16 : Addr)
  /-- `NOP $hhll,X`, opcode 0xDC (R276). -/
  | nopAbxDC (a16 : Addr)
  /-- `DCP $hhll,X`, opcode 0xDF (R267). -/
  | dcpAbx (a16 : Addr)
  /-- `NOP #$dd`, opcode 0xE2 (R275). -/
  | nopImmE2 (d8 : Byte)
  /-- `ISC ($dd,X)`, opcode 0xE3 (R268). -/
  | iscIzx (d8 : Byte)
  /-- `ISC $dd`, opcode 0xE7 (R268). -/
  | iscZp (d8 : Byte)
  /-- `SBC #$dd`, opcode 0xEB (R273). -/
  | sbcImmEB (d8 : Byte)
  /-- `ISC $hhll`, opcode 0xEF (R268). -/
  | iscAbs (a16 : Addr)
  /-- `ISC ($dd),Y`, opcode 0xF3 (R268). -/
  | iscIzy (d8 : Byte)
  /-- `NOP $dd,X`, opcode 0xF4 (R276). -/
  | nopZpxF4 (d8 : Byte)
  /-- `ISC $dd,X`, opcode 0xF7 (R268). -/
  | iscZpx (d8 : Byte)
  /-- `NOP`, opcode 0xFA (R274). -/
  | nopFA
  /-- `ISC $hhll,Y`, opcode 0xFB (R268). -/
  | iscAby (a16 : Addr)
  /-- `NOP $hhll,X`, opcode 0xFC (R276). -/
  | nopAbxFC (a16 : Addr)
  /-- `ISC $hhll,X`, opcode 0xFF (R268). -/
  | iscAbx (a16 : Addr)
  /-- `JAM`, opcode 0x02 (R284). -/
  | jam02
  /-- `JAM`, opcode 0x12 (R284). -/
  | jam12
  /-- `JAM`, opcode 0x22 (R284). -/
  | jam22
  /-- `JAM`, opcode 0x32 (R284). -/
  | jam32
  /-- `JAM`, opcode 0x42 (R284). -/
  | jam42
  /-- `JAM`, opcode 0x52 (R284). -/
  | jam52
  /-- `JAM`, opcode 0x62 (R284). -/
  | jam62
  /-- `JAM`, opcode 0x72 (R284). -/
  | jam72
  /-- `JAM`, opcode 0x92 (R284). -/
  | jam92
  /-- `JAM`, opcode 0xB2 (R284). -/
  | jamB2
  /-- `JAM`, opcode 0xD2 (R284). -/
  | jamD2
  /-- `JAM`, opcode 0xF2 (R284). -/
  | jamF2
  deriving DecidableEq, Repr

end Sys2Proof
end

