-- ==== Sys2Proof/WellFormed.lean ====
section
/-! DEFINITION. Well-formedness of what comes from outside the machine: an instruction as syntax, and a CartridgeImage. -/

namespace Sys2Proof

/-- Every instruction is well formed: an operand is a byte or an address and the encoding admits every value of it
(spec/30_encoding.md R120, R121, R137: no reserved encoding). -/
def Instr.wellFormed (_ : Instr) : Bool := true

/-- The canonical form of the bytes of a CartridgeImage: offsets strictly rising, below the size, no byte zero (an
unlisted offset reads as zero). -/
def cellsWellFormed (size : Nat) : List Host.Cell → Bool
  | [] => true
  | [(a, b)] => decide (a < size) && b != 0
  | (a, b) :: (a', b') :: rest => decide (a < a') && b != 0 && cellsWellFormed size ((a', b') :: rest)

/-- PRG size in bytes (spec/20_memory.md R88). -/
def Cartridge.prgSize (c : Cartridge) : Nat := c.prgBanks * 16384

/-- CHR size in bytes: of the image's CHR data, or the 8 KB of CHR RAM when there is none (R81, R88). -/
def Cartridge.chrSize (c : Cartridge) : Nat := if c.chrBanks = 0 then 8192 else c.chrBanks * 8192

/-- What the variants require of the image: PRG data at all; `NROM` 16 or 32 KB of PRG and 8 KB of CHR (R89); `UXROM`
8 KB of CHR (R90). -/
def Cartridge.wellFormed (c : Cartridge) : Bool :=
  decide (1 ≤ c.prgBanks)
    && (c.mapper != .nrom || decide (c.prgBanks ≤ 2))
    && (!(c.mapper == .nrom || c.mapper == .uxrom) || decide (c.chrBanks ≤ 1))
    && cellsWellFormed c.prgSize c.prg
    && cellsWellFormed (c.chrBanks * 8192) c.chr

end Sys2Proof
end

