-- ==== Sys2Proof/Decode.lean ====
section
/-! DEFINITION. The decoder and the encoder (spec/30_encoding.md R120, R121, R134 to R136, R140). -/

namespace Sys2Proof

/-- `lo(v16) = v16[7:0]` (R10). -/
def lo (a : Addr) : Byte := a.setWidth 8

/-- `hi(v16) = v16[15:8]` (R10). -/
def hi (a : Addr) : Byte := (a >>> 8).setWidth 8

/-- `{h, l}`: the 16-bit number with high byte `h` and low byte `l` (R10); little-endian words are put together with it
(R67). -/
def word (h l : Byte) : Addr := (h.setWidth 16 <<< 8) ||| l.setWidth 16

/-- The format of an instruction (R121): how many operand bytes follow the opcode byte, and the instruction they make. -/
inductive Format where
  | f1 (i : Instr)
  | f2 (i : Byte → Instr)
  | f3 (i : Addr → Instr)

/-- The length in bytes of an instruction of the format (R121, R140). -/
def Format.length : Format → Nat
  | .f1 _ => 1
  | .f2 _ => 2
  | .f3 _ => 3

/-- Row 0x of the opcode matrix (R134). -/
def opcodeRow0 : List Format :=
  [.f1 .brk, .f2 .oraIzx, .f1 .jam02, .f2 .sloIzx,
   .f2 .nopZp04, .f2 .oraZp, .f2 .aslZp, .f2 .sloZp,
   .f1 .php, .f2 .oraImm, .f1 .aslAcc, .f2 .anc0B,
   .f3 .nopAbs, .f3 .oraAbs, .f3 .aslAbs, .f3 .sloAbs]

/-- Row 1x of the opcode matrix (R134). -/
def opcodeRow1 : List Format :=
  [.f2 .bpl, .f2 .oraIzy, .f1 .jam12, .f2 .sloIzy,
   .f2 .nopZpx14, .f2 .oraZpx, .f2 .aslZpx, .f2 .sloZpx,
   .f1 .clc, .f3 .oraAby, .f1 .nop1A, .f3 .sloAby,
   .f3 .nopAbx1C, .f3 .oraAbx, .f3 .aslAbx, .f3 .sloAbx]

/-- Row 2x of the opcode matrix (R134). -/
def opcodeRow2 : List Format :=
  [.f3 .jsr, .f2 .andIzx, .f1 .jam22, .f2 .rlaIzx,
   .f2 .bitZp, .f2 .andZp, .f2 .rolZp, .f2 .rlaZp,
   .f1 .plp, .f2 .andImm, .f1 .rolAcc, .f2 .anc2B,
   .f3 .bitAbs, .f3 .andAbs, .f3 .rolAbs, .f3 .rlaAbs]

/-- Row 3x of the opcode matrix (R134). -/
def opcodeRow3 : List Format :=
  [.f2 .bmi, .f2 .andIzy, .f1 .jam32, .f2 .rlaIzy,
   .f2 .nopZpx34, .f2 .andZpx, .f2 .rolZpx, .f2 .rlaZpx,
   .f1 .sec, .f3 .andAby, .f1 .nop3A, .f3 .rlaAby,
   .f3 .nopAbx3C, .f3 .andAbx, .f3 .rolAbx, .f3 .rlaAbx]

/-- Row 4x of the opcode matrix (R134). -/
def opcodeRow4 : List Format :=
  [.f1 .rti, .f2 .eorIzx, .f1 .jam42, .f2 .sreIzx,
   .f2 .nopZp44, .f2 .eorZp, .f2 .lsrZp, .f2 .sreZp,
   .f1 .pha, .f2 .eorImm, .f1 .lsrAcc, .f2 .alr,
   .f3 .jmpAbs, .f3 .eorAbs, .f3 .lsrAbs, .f3 .sreAbs]

/-- Row 5x of the opcode matrix (R134). -/
def opcodeRow5 : List Format :=
  [.f2 .bvc, .f2 .eorIzy, .f1 .jam52, .f2 .sreIzy,
   .f2 .nopZpx54, .f2 .eorZpx, .f2 .lsrZpx, .f2 .sreZpx,
   .f1 .cli, .f3 .eorAby, .f1 .nop5A, .f3 .sreAby,
   .f3 .nopAbx5C, .f3 .eorAbx, .f3 .lsrAbx, .f3 .sreAbx]

/-- Row 6x of the opcode matrix (R134). -/
def opcodeRow6 : List Format :=
  [.f1 .rts, .f2 .adcIzx, .f1 .jam62, .f2 .rraIzx,
   .f2 .nopZp64, .f2 .adcZp, .f2 .rorZp, .f2 .rraZp,
   .f1 .pla, .f2 .adcImm, .f1 .rorAcc, .f2 .arr,
   .f3 .jmpInd, .f3 .adcAbs, .f3 .rorAbs, .f3 .rraAbs]

/-- Row 7x of the opcode matrix (R134). -/
def opcodeRow7 : List Format :=
  [.f2 .bvs, .f2 .adcIzy, .f1 .jam72, .f2 .rraIzy,
   .f2 .nopZpx74, .f2 .adcZpx, .f2 .rorZpx, .f2 .rraZpx,
   .f1 .sei, .f3 .adcAby, .f1 .nop7A, .f3 .rraAby,
   .f3 .nopAbx7C, .f3 .adcAbx, .f3 .rorAbx, .f3 .rraAbx]

/-- Row 8x of the opcode matrix (R134). -/
def opcodeRow8 : List Format :=
  [.f2 .nopImm80, .f2 .staIzx, .f2 .nopImm82, .f2 .saxIzx,
   .f2 .styZp, .f2 .staZp, .f2 .stxZp, .f2 .saxZp,
   .f1 .dey, .f2 .nopImm89, .f1 .txa, .f2 .xaa,
   .f3 .styAbs, .f3 .staAbs, .f3 .stxAbs, .f3 .saxAbs]

/-- Row 9x of the opcode matrix (R134). -/
def opcodeRow9 : List Format :=
  [.f2 .bcc, .f2 .staIzy, .f1 .jam92, .f2 .shaIzy,
   .f2 .styZpx, .f2 .staZpx, .f2 .stxZpy, .f2 .saxZpy,
   .f1 .tya, .f3 .staAby, .f1 .txs, .f3 .tas,
   .f3 .shy, .f3 .staAbx, .f3 .shx, .f3 .shaAby]

/-- Row Ax of the opcode matrix (R134). -/
def opcodeRowA : List Format :=
  [.f2 .ldyImm, .f2 .ldaIzx, .f2 .ldxImm, .f2 .laxIzx,
   .f2 .ldyZp, .f2 .ldaZp, .f2 .ldxZp, .f2 .laxZp,
   .f1 .tay, .f2 .ldaImm, .f1 .tax, .f2 .lxa,
   .f3 .ldyAbs, .f3 .ldaAbs, .f3 .ldxAbs, .f3 .laxAbs]

/-- Row Bx of the opcode matrix (R134). -/
def opcodeRowB : List Format :=
  [.f2 .bcs, .f2 .ldaIzy, .f1 .jamB2, .f2 .laxIzy,
   .f2 .ldyZpx, .f2 .ldaZpx, .f2 .ldxZpy, .f2 .laxZpy,
   .f1 .clv, .f3 .ldaAby, .f1 .tsx, .f3 .las,
   .f3 .ldyAbx, .f3 .ldaAbx, .f3 .ldxAby, .f3 .laxAby]

/-- Row Cx of the opcode matrix (R134). -/
def opcodeRowC : List Format :=
  [.f2 .cpyImm, .f2 .cmpIzx, .f2 .nopImmC2, .f2 .dcpIzx,
   .f2 .cpyZp, .f2 .cmpZp, .f2 .decZp, .f2 .dcpZp,
   .f1 .iny, .f2 .cmpImm, .f1 .dex, .f2 .axs,
   .f3 .cpyAbs, .f3 .cmpAbs, .f3 .decAbs, .f3 .dcpAbs]

/-- Row Dx of the opcode matrix (R134). -/
def opcodeRowD : List Format :=
  [.f2 .bne, .f2 .cmpIzy, .f1 .jamD2, .f2 .dcpIzy,
   .f2 .nopZpxD4, .f2 .cmpZpx, .f2 .decZpx, .f2 .dcpZpx,
   .f1 .cld, .f3 .cmpAby, .f1 .nopDA, .f3 .dcpAby,
   .f3 .nopAbxDC, .f3 .cmpAbx, .f3 .decAbx, .f3 .dcpAbx]

/-- Row Ex of the opcode matrix (R134). -/
def opcodeRowE : List Format :=
  [.f2 .cpxImm, .f2 .sbcIzx, .f2 .nopImmE2, .f2 .iscIzx,
   .f2 .cpxZp, .f2 .sbcZp, .f2 .incZp, .f2 .iscZp,
   .f1 .inx, .f2 .sbcImm, .f1 .nop, .f2 .sbcImmEB,
   .f3 .cpxAbs, .f3 .sbcAbs, .f3 .incAbs, .f3 .iscAbs]

/-- Row Fx of the opcode matrix (R134). -/
def opcodeRowF : List Format :=
  [.f2 .beq, .f2 .sbcIzy, .f1 .jamF2, .f2 .iscIzy,
   .f2 .nopZpxF4, .f2 .sbcZpx, .f2 .incZpx, .f2 .iscZpx,
   .f1 .sed, .f3 .sbcAby, .f1 .nopFA, .f3 .iscAby,
   .f3 .nopAbxFC, .f3 .sbcAbx, .f3 .incAbx, .f3 .iscAbx]

/-- A row of the opcode matrix (R134) by its number, the high four bits of the opcode. -/
def opcodeRow : Nat → List Format
  | 0 => opcodeRow0
  | 1 => opcodeRow1
  | 2 => opcodeRow2
  | 3 => opcodeRow3
  | 4 => opcodeRow4
  | 5 => opcodeRow5
  | 6 => opcodeRow6
  | 7 => opcodeRow7
  | 8 => opcodeRow8
  | 9 => opcodeRow9
  | 10 => opcodeRowA
  | 11 => opcodeRowB
  | 12 => opcodeRowC
  | 13 => opcodeRowD
  | 14 => opcodeRowE
  | _ => opcodeRowF

/-- The format of an opcode byte; the opcode alone decides it (R120). Every row has 16 entries, so the default is never
reached. -/
def formatOf (op : Byte) : Format := (opcodeRow (op.toNat / 16)).getD (op.toNat % 16) (.f1 .nop)

/-- Why a list of bytes is not decoded: no opcode is reserved (R137), so the only reason is that bytes are missing. -/
inductive DecodeError where
  /-- There is no byte at all. -/
  | noBytes
  /-- The instruction with this opcode is longer than the list: `truncated opcode length`. -/
  | truncated (op : Byte) (length : Nat)
  deriving DecidableEq, Repr

/-- The decoder, total on any bytes: the instruction at the front and the bytes after it, or the reason there is none. -/
def decode : List Byte → Except DecodeError (Instr × List Byte)
  | [] => .error .noBytes
  | op :: rest =>
    match formatOf op, rest with
    | .f1 i, rest => .ok (i, rest)
    | .f2 i, d :: rest => .ok (i d, rest)
    | .f3 i, l :: h :: rest => .ok (i (word h l), rest)
    | f, _ => .error (.truncated op f.length)

/-- The encoder: the bytes of an instruction, from the opcode lists of R135 and R136 and the formats of R121. -/
def encode : Instr → List Byte
  -- Loads, stores and register transfers (spec/40_load_store_transfer.md)
  | .staIzx d8 => [0x81, d8]
  | .styZp d8 => [0x84, d8]
  | .staZp d8 => [0x85, d8]
  | .stxZp d8 => [0x86, d8]
  | .txa => [0x8A]
  | .styAbs a16 => [0x8C, lo a16, hi a16]
  | .staAbs a16 => [0x8D, lo a16, hi a16]
  | .stxAbs a16 => [0x8E, lo a16, hi a16]
  | .staIzy d8 => [0x91, d8]
  | .styZpx d8 => [0x94, d8]
  | .staZpx d8 => [0x95, d8]
  | .stxZpy d8 => [0x96, d8]
  | .tya => [0x98]
  | .staAby a16 => [0x99, lo a16, hi a16]
  | .txs => [0x9A]
  | .staAbx a16 => [0x9D, lo a16, hi a16]
  | .ldyImm d8 => [0xA0, d8]
  | .ldaIzx d8 => [0xA1, d8]
  | .ldxImm d8 => [0xA2, d8]
  | .ldyZp d8 => [0xA4, d8]
  | .ldaZp d8 => [0xA5, d8]
  | .ldxZp d8 => [0xA6, d8]
  | .tay => [0xA8]
  | .ldaImm d8 => [0xA9, d8]
  | .tax => [0xAA]
  | .ldyAbs a16 => [0xAC, lo a16, hi a16]
  | .ldaAbs a16 => [0xAD, lo a16, hi a16]
  | .ldxAbs a16 => [0xAE, lo a16, hi a16]
  | .ldaIzy d8 => [0xB1, d8]
  | .ldyZpx d8 => [0xB4, d8]
  | .ldaZpx d8 => [0xB5, d8]
  | .ldxZpy d8 => [0xB6, d8]
  | .ldaAby a16 => [0xB9, lo a16, hi a16]
  | .tsx => [0xBA]
  | .ldyAbx a16 => [0xBC, lo a16, hi a16]
  | .ldaAbx a16 => [0xBD, lo a16, hi a16]
  | .ldxAby a16 => [0xBE, lo a16, hi a16]
  -- Stack (spec/41_stack.md)
  | .php => [0x08]
  | .plp => [0x28]
  | .pha => [0x48]
  | .pla => [0x68]
  -- Logic, arithmetic, compare (spec/42_logic_arithmetic.md)
  | .oraIzx d8 => [0x01, d8]
  | .oraZp d8 => [0x05, d8]
  | .oraImm d8 => [0x09, d8]
  | .oraAbs a16 => [0x0D, lo a16, hi a16]
  | .oraIzy d8 => [0x11, d8]
  | .oraZpx d8 => [0x15, d8]
  | .oraAby a16 => [0x19, lo a16, hi a16]
  | .oraAbx a16 => [0x1D, lo a16, hi a16]
  | .andIzx d8 => [0x21, d8]
  | .bitZp d8 => [0x24, d8]
  | .andZp d8 => [0x25, d8]
  | .andImm d8 => [0x29, d8]
  | .bitAbs a16 => [0x2C, lo a16, hi a16]
  | .andAbs a16 => [0x2D, lo a16, hi a16]
  | .andIzy d8 => [0x31, d8]
  | .andZpx d8 => [0x35, d8]
  | .andAby a16 => [0x39, lo a16, hi a16]
  | .andAbx a16 => [0x3D, lo a16, hi a16]
  | .eorIzx d8 => [0x41, d8]
  | .eorZp d8 => [0x45, d8]
  | .eorImm d8 => [0x49, d8]
  | .eorAbs a16 => [0x4D, lo a16, hi a16]
  | .eorIzy d8 => [0x51, d8]
  | .eorZpx d8 => [0x55, d8]
  | .eorAby a16 => [0x59, lo a16, hi a16]
  | .eorAbx a16 => [0x5D, lo a16, hi a16]
  | .adcIzx d8 => [0x61, d8]
  | .adcZp d8 => [0x65, d8]
  | .adcImm d8 => [0x69, d8]
  | .adcAbs a16 => [0x6D, lo a16, hi a16]
  | .adcIzy d8 => [0x71, d8]
  | .adcZpx d8 => [0x75, d8]
  | .adcAby a16 => [0x79, lo a16, hi a16]
  | .adcAbx a16 => [0x7D, lo a16, hi a16]
  | .cpyImm d8 => [0xC0, d8]
  | .cmpIzx d8 => [0xC1, d8]
  | .cpyZp d8 => [0xC4, d8]
  | .cmpZp d8 => [0xC5, d8]
  | .cmpImm d8 => [0xC9, d8]
  | .cpyAbs a16 => [0xCC, lo a16, hi a16]
  | .cmpAbs a16 => [0xCD, lo a16, hi a16]
  | .cmpIzy d8 => [0xD1, d8]
  | .cmpZpx d8 => [0xD5, d8]
  | .cmpAby a16 => [0xD9, lo a16, hi a16]
  | .cmpAbx a16 => [0xDD, lo a16, hi a16]
  | .cpxImm d8 => [0xE0, d8]
  | .sbcIzx d8 => [0xE1, d8]
  | .cpxZp d8 => [0xE4, d8]
  | .sbcZp d8 => [0xE5, d8]
  | .sbcImm d8 => [0xE9, d8]
  | .cpxAbs a16 => [0xEC, lo a16, hi a16]
  | .sbcAbs a16 => [0xED, lo a16, hi a16]
  | .sbcIzy d8 => [0xF1, d8]
  | .sbcZpx d8 => [0xF5, d8]
  | .sbcAby a16 => [0xF9, lo a16, hi a16]
  | .sbcAbx a16 => [0xFD, lo a16, hi a16]
  -- Shifts, rotates, increments, decrements (spec/43_shift_incdec.md)
  | .aslZp d8 => [0x06, d8]
  | .aslAcc => [0x0A]
  | .aslAbs a16 => [0x0E, lo a16, hi a16]
  | .aslZpx d8 => [0x16, d8]
  | .aslAbx a16 => [0x1E, lo a16, hi a16]
  | .rolZp d8 => [0x26, d8]
  | .rolAcc => [0x2A]
  | .rolAbs a16 => [0x2E, lo a16, hi a16]
  | .rolZpx d8 => [0x36, d8]
  | .rolAbx a16 => [0x3E, lo a16, hi a16]
  | .lsrZp d8 => [0x46, d8]
  | .lsrAcc => [0x4A]
  | .lsrAbs a16 => [0x4E, lo a16, hi a16]
  | .lsrZpx d8 => [0x56, d8]
  | .lsrAbx a16 => [0x5E, lo a16, hi a16]
  | .rorZp d8 => [0x66, d8]
  | .rorAcc => [0x6A]
  | .rorAbs a16 => [0x6E, lo a16, hi a16]
  | .rorZpx d8 => [0x76, d8]
  | .rorAbx a16 => [0x7E, lo a16, hi a16]
  | .dey => [0x88]
  | .decZp d8 => [0xC6, d8]
  | .iny => [0xC8]
  | .dex => [0xCA]
  | .decAbs a16 => [0xCE, lo a16, hi a16]
  | .decZpx d8 => [0xD6, d8]
  | .decAbx a16 => [0xDE, lo a16, hi a16]
  | .incZp d8 => [0xE6, d8]
  | .inx => [0xE8]
  | .incAbs a16 => [0xEE, lo a16, hi a16]
  | .incZpx d8 => [0xF6, d8]
  | .incAbx a16 => [0xFE, lo a16, hi a16]
  -- Control transfer (spec/44_control_transfer.md)
  | .bpl d8 => [0x10, d8]
  | .jsr a16 => [0x20, lo a16, hi a16]
  | .bmi d8 => [0x30, d8]
  | .jmpAbs a16 => [0x4C, lo a16, hi a16]
  | .bvc d8 => [0x50, d8]
  | .rts => [0x60]
  | .jmpInd a16 => [0x6C, lo a16, hi a16]
  | .bvs d8 => [0x70, d8]
  | .bcc d8 => [0x90, d8]
  | .bcs d8 => [0xB0, d8]
  | .bne d8 => [0xD0, d8]
  | .beq d8 => [0xF0, d8]
  -- Flags and system (spec/45_flags_system.md)
  | .brk => [0x00]
  | .clc => [0x18]
  | .sec => [0x38]
  | .rti => [0x40]
  | .cli => [0x58]
  | .sei => [0x78]
  | .clv => [0xB8]
  | .cld => [0xD8]
  | .nop => [0xEA]
  | .sed => [0xF8]
  -- Undocumented opcodes (spec/46_undocumented.md)
  | .sloIzx d8 => [0x03, d8]
  | .nopZp04 d8 => [0x04, d8]
  | .sloZp d8 => [0x07, d8]
  | .anc0B d8 => [0x0B, d8]
  | .nopAbs a16 => [0x0C, lo a16, hi a16]
  | .sloAbs a16 => [0x0F, lo a16, hi a16]
  | .sloIzy d8 => [0x13, d8]
  | .nopZpx14 d8 => [0x14, d8]
  | .sloZpx d8 => [0x17, d8]
  | .nop1A => [0x1A]
  | .sloAby a16 => [0x1B, lo a16, hi a16]
  | .nopAbx1C a16 => [0x1C, lo a16, hi a16]
  | .sloAbx a16 => [0x1F, lo a16, hi a16]
  | .rlaIzx d8 => [0x23, d8]
  | .rlaZp d8 => [0x27, d8]
  | .anc2B d8 => [0x2B, d8]
  | .rlaAbs a16 => [0x2F, lo a16, hi a16]
  | .rlaIzy d8 => [0x33, d8]
  | .nopZpx34 d8 => [0x34, d8]
  | .rlaZpx d8 => [0x37, d8]
  | .nop3A => [0x3A]
  | .rlaAby a16 => [0x3B, lo a16, hi a16]
  | .nopAbx3C a16 => [0x3C, lo a16, hi a16]
  | .rlaAbx a16 => [0x3F, lo a16, hi a16]
  | .sreIzx d8 => [0x43, d8]
  | .nopZp44 d8 => [0x44, d8]
  | .sreZp d8 => [0x47, d8]
  | .alr d8 => [0x4B, d8]
  | .sreAbs a16 => [0x4F, lo a16, hi a16]
  | .sreIzy d8 => [0x53, d8]
  | .nopZpx54 d8 => [0x54, d8]
  | .sreZpx d8 => [0x57, d8]
  | .nop5A => [0x5A]
  | .sreAby a16 => [0x5B, lo a16, hi a16]
  | .nopAbx5C a16 => [0x5C, lo a16, hi a16]
  | .sreAbx a16 => [0x5F, lo a16, hi a16]
  | .rraIzx d8 => [0x63, d8]
  | .nopZp64 d8 => [0x64, d8]
  | .rraZp d8 => [0x67, d8]
  | .arr d8 => [0x6B, d8]
  | .rraAbs a16 => [0x6F, lo a16, hi a16]
  | .rraIzy d8 => [0x73, d8]
  | .nopZpx74 d8 => [0x74, d8]
  | .rraZpx d8 => [0x77, d8]
  | .nop7A => [0x7A]
  | .rraAby a16 => [0x7B, lo a16, hi a16]
  | .nopAbx7C a16 => [0x7C, lo a16, hi a16]
  | .rraAbx a16 => [0x7F, lo a16, hi a16]
  | .nopImm80 d8 => [0x80, d8]
  | .nopImm82 d8 => [0x82, d8]
  | .saxIzx d8 => [0x83, d8]
  | .saxZp d8 => [0x87, d8]
  | .nopImm89 d8 => [0x89, d8]
  | .xaa d8 => [0x8B, d8]
  | .saxAbs a16 => [0x8F, lo a16, hi a16]
  | .shaIzy d8 => [0x93, d8]
  | .saxZpy d8 => [0x97, d8]
  | .tas a16 => [0x9B, lo a16, hi a16]
  | .shy a16 => [0x9C, lo a16, hi a16]
  | .shx a16 => [0x9E, lo a16, hi a16]
  | .shaAby a16 => [0x9F, lo a16, hi a16]
  | .laxIzx d8 => [0xA3, d8]
  | .laxZp d8 => [0xA7, d8]
  | .lxa d8 => [0xAB, d8]
  | .laxAbs a16 => [0xAF, lo a16, hi a16]
  | .laxIzy d8 => [0xB3, d8]
  | .laxZpy d8 => [0xB7, d8]
  | .las a16 => [0xBB, lo a16, hi a16]
  | .laxAby a16 => [0xBF, lo a16, hi a16]
  | .nopImmC2 d8 => [0xC2, d8]
  | .dcpIzx d8 => [0xC3, d8]
  | .dcpZp d8 => [0xC7, d8]
  | .axs d8 => [0xCB, d8]
  | .dcpAbs a16 => [0xCF, lo a16, hi a16]
  | .dcpIzy d8 => [0xD3, d8]
  | .nopZpxD4 d8 => [0xD4, d8]
  | .dcpZpx d8 => [0xD7, d8]
  | .nopDA => [0xDA]
  | .dcpAby a16 => [0xDB, lo a16, hi a16]
  | .nopAbxDC a16 => [0xDC, lo a16, hi a16]
  | .dcpAbx a16 => [0xDF, lo a16, hi a16]
  | .nopImmE2 d8 => [0xE2, d8]
  | .iscIzx d8 => [0xE3, d8]
  | .iscZp d8 => [0xE7, d8]
  | .sbcImmEB d8 => [0xEB, d8]
  | .iscAbs a16 => [0xEF, lo a16, hi a16]
  | .iscIzy d8 => [0xF3, d8]
  | .nopZpxF4 d8 => [0xF4, d8]
  | .iscZpx d8 => [0xF7, d8]
  | .nopFA => [0xFA]
  | .iscAby a16 => [0xFB, lo a16, hi a16]
  | .nopAbxFC a16 => [0xFC, lo a16, hi a16]
  | .iscAbx a16 => [0xFF, lo a16, hi a16]
  | .jam02 => [0x02]
  | .jam12 => [0x12]
  | .jam22 => [0x22]
  | .jam32 => [0x32]
  | .jam42 => [0x42]
  | .jam52 => [0x52]
  | .jam62 => [0x62]
  | .jam72 => [0x72]
  | .jam92 => [0x92]
  | .jamB2 => [0xB2]
  | .jamD2 => [0xD2]
  | .jamF2 => [0xF2]

/-- The byte number `k` of the number `w`, the first byte being the least significant. -/
def tableByte (w k : Nat) : Byte := BitVec.ofNat 8 (w / 2 ^ (8 * k))

/-- The bytes of an instruction whose bits are `w`, numbered as spec/opcode_table.json numbers them: byte `k` is bits
`8k + 7` to `8k`; every bit from `nbits` on is 0. Three bytes are the longest instruction (R120). -/
def tableBytes (nbits w : Nat) : List Byte :=
  let w := w % 2 ^ nbits
  [tableByte w 0, tableByte w 1, tableByte w 2]

/-- The instruction the decoder reads from an instruction word of the opcode table. -/
def decodeTableWord (nbits w : Nat) : Option Instr :=
  match decode (tableBytes nbits w) with
  | .ok (i, _) => some i
  | .error _ => none

end Sys2Proof
end

