-- ==== Sys2Proof/Machine/Cartridge.lean ====
section
/-! DEFINITION. The mapper: the contract of spec/20_memory.md R85 to R87 and the four variants R89 to R94. Addresses are
numbers here: a Cpu address of 0x4020 and above, a Ppu address below 0x2000, an offset into the image's data. -/

namespace Sys2Proof.Machine

/-- The byte at an offset of the image's PRG data; offsets beyond the data wrap (R87: bank numbers are reduced modulo the
number of banks). -/
def prgByte (c : Cartridge) (offset : Nat) : Byte := romRead c.prg (offset % c.prgSize)

/-- The offset into PRG data that `MMC1` shows at a Cpu address of 0x8000 and above (R92). -/
def Mmc1.prgOffset (r : Mmc1) (c : Cartridge) (a : Nat) : Nat :=
  let bank := (r.prg &&& 0x0F).toNat
  match ((r.control >>> 2) &&& 3).toNat with
  | 2 => if a < 0xC000 then a - 0x8000 else bank * 16384 + (a - 0xC000)
  | 3 => if a < 0xC000 then bank * 16384 + (a - 0x8000) else (c.prgBanks - 1) * 16384 + (a - 0xC000)
  | _ => (bank / 2) * 32768 + (a - 0x8000)

/-- The 8 KB PRG bank that `MMC3` shows at a Cpu address of 0x8000 and above (R93); `NB` is the number of such banks. -/
def Mmc3.prgBank (r : Mmc3) (c : Cartridge) (a : Nat) : Nat :=
  let nb := c.prgBanks * 2
  let r6 := (r.banks.getD 6 0).toNat
  let r7 := (r.banks.getD 7 0).toNat
  let swapped := r.bankSelect.getLsbD 6
  if a < 0xA000 then (if swapped then nb - 2 else r6)
  else if a < 0xC000 then r7
  else if a < 0xE000 then (if swapped then r6 else nb - 2)
  else nb - 1

/-- The offset into PRG data a Cpu address of 0x8000 and above reads (R89, R90, R92, R93), before wrapping. -/
def Mapper.prgOffset (m : Mapper) (c : Cartridge) (a : Nat) : Nat :=
  match m.regs with
  | .nrom => a - 0x8000
  | .uxrom bank => if a < 0xC000 then bank * 16384 + (a - 0x8000) else (c.prgBanks - 1) * 16384 + (a - 0xC000)
  | .mmc1 r => r.prgOffset c a
  | .mmc3 r => r.prgBank c a * 8192 + a % 8192

/-- Whether the variant answers reads of 0x6000 to 0x7FFF with its PRG RAM (R89, R90, R92, R93). -/
def Mapper.ramReadable (m : Mapper) (p : Params) : Bool :=
  match m.regs with
  | .nrom => p.nromPrgRam
  | .uxrom _ => false
  | .mmc1 r => !r.prg.getLsbD 4
  | .mmc3 r => r.ramProtect.getLsbD 7

/-- Whether the variant stores writes to 0x6000 to 0x7FFF in its PRG RAM (R89, R92, R93: bit 6 of the protect register
denies writes). -/
def Mapper.ramWritable (m : Mapper) (p : Params) : Bool :=
  match m.regs with
  | .nrom => p.nromPrgRam
  | .uxrom _ => false
  | .mmc1 r => !r.prg.getLsbD 4
  | .mmc3 r => r.ramProtect.getLsbD 7 && !r.ramProtect.getLsbD 6

/-- `prg_read` (R85): the byte, or `none` where the variant maps nothing (open bus). -/
def Mapper.prgRead (m : Mapper) (c : Cartridge) (p : Params) (epoch a : Nat) : Option Byte :=
  if 0x8000 ≤ a then some (prgByte c (m.prgOffset c a))
  else if 0x6000 ≤ a then
    (if m.ramReadable p then some (Memory.read epoch .prgRam m.prgRam (a - 0x6000)) else none)
  else none

/-- The serial port of `MMC1` (R91): one write, not filtered out, of `v` to the address `a` (0x8000 and above). -/
def Mmc1.serialWrite (r : Mmc1) (a : Nat) (v : Byte) : Mmc1 :=
  if v.getLsbD 7 then { r with shift := 0, count := 0, control := r.control ||| 0x0C }
  else
    let shifted := (r.shift >>> 1) ||| ((BitVec.ofBool (v.getLsbD 0)).setWidth 5 <<< 4)
    if r.count + 1 < 5 then { r with shift := shifted, count := r.count + 1 }
    else
      let done := { r with shift := 0, count := 0 }
      match a / 8192 % 4 with
      | 0 => { done with control := shifted }
      | 1 => { done with chr0 := shifted }
      | 2 => { done with chr1 := shifted }
      | _ => { done with prg := shifted }

/-- The register writes of `MMC3` (R93, R94): the register is selected by `a[14:13]` and `a[0]`. -/
def Mmc3.registerWrite (r : Mmc3) (a : Nat) (v : Byte) : Mmc3 :=
  match a / 8192 % 4, a % 2 with
  | 0, 0 => { r with bankSelect := v }
  | 0, _ => { r with banks := r.banks.set (r.bankSelect &&& 7).toNat v }
  | 1, 0 => { r with mirror := v.getLsbD 0 }
  | 1, _ => { r with ramProtect := v }
  | 2, 0 => { r with irqLatch := v }
  | 2, _ => { r with irqCounter := 0, irqReload := true }
  | _, 0 => { r with irqEnable := false, irqFlag := false }
  | _, _ => { r with irqEnable := true }

/-- The variant's registers after `prg_write` of `v` to 0x8000 and above; `afterWrite` says that the Cpu cycle before was a
write cycle too (R92). -/
def MapperRegs.write (regs : MapperRegs) (c : Cartridge) (afterWrite : Bool) (a : Nat) (v : Byte) : MapperRegs :=
  match regs with
  | .nrom => .nrom
  | .uxrom _ => .uxrom (v.toNat % c.prgBanks)
  | .mmc1 r => .mmc1 (if afterWrite then r else r.serialWrite a v)
  | .mmc3 r => .mmc3 (r.registerWrite a v)

/-- `prg_write` (R85, R87): never fails. -/
def Mapper.prgWrite (m : Mapper) (c : Cartridge) (p : Params) (afterWrite : Bool) (a : Nat) (v : Byte) : Mapper :=
  if 0x8000 ≤ a then { m with regs := m.regs.write c afterWrite a v }
  else if 0x6000 ≤ a && m.ramWritable p then { m with prgRam := m.prgRam.set (a - 0x6000) v }
  else m

/-- The offset into CHR data (or CHR RAM) that `MMC1` shows at a Ppu address below 0x2000 (R92). -/
def Mmc1.chrOffset (r : Mmc1) (a : Nat) : Nat :=
  if r.control.getLsbD 4 then (if a < 0x1000 then r.chr0.toNat else r.chr1.toNat) * 4096 + a % 4096
  else r.chr0.toNat / 2 * 8192 + a

/-- The offset into CHR data (or CHR RAM) that `MMC3` shows at a Ppu address below 0x2000 (R93). -/
def Mmc3.chrOffset (r : Mmc3) (a : Nat) : Nat :=
  let reg (k : Nat) : Nat := (r.banks.getD k 0).toNat
  let w := if r.bankSelect.getLsbD 7 then (a + 0x1000) % 0x2000 else a
  if w < 0x0800 then reg 0 / 2 * 2048 + w
  else if w < 0x1000 then reg 1 / 2 * 2048 + (w - 0x0800)
  else reg (2 + (w - 0x1000) / 1024) * 1024 + w % 1024

/-- The offset into CHR data (or CHR RAM) of a Ppu address below 0x2000, wrapped to its size (R87, R89, R90). -/
def Mapper.chrOffset (m : Mapper) (c : Cartridge) (a : Nat) : Nat :=
  (match m.regs with
    | .nrom => a
    | .uxrom _ => a
    | .mmc1 r => r.chrOffset a
    | .mmc3 r => r.chrOffset a) % c.chrSize

/-- `chr_read` (R85, R81). -/
def Mapper.chrRead (m : Mapper) (c : Cartridge) (epoch a : Nat) : Byte :=
  if c.chrBanks = 0 then Memory.read epoch .chrRam m.chrRam (m.chrOffset c a) else romRead c.chr (m.chrOffset c a)

/-- `chr_write` (R85, R89): stores only when CHR is RAM. -/
def Mapper.chrWrite (m : Mapper) (c : Cartridge) (a : Nat) (v : Byte) : Mapper :=
  if c.chrBanks = 0 then { m with chrRam := m.chrRam.set (m.chrOffset c a) v } else m

/-- `mirroring()` (R82, R89, R90, R92, R93). -/
def Mapper.mirroring (m : Mapper) (c : Cartridge) : Mirroring :=
  match m.regs with
  | .nrom => c.mirroring
  | .uxrom _ => c.mirroring
  | .mmc1 r =>
    match (r.control &&& 3).toNat with
    | 0 => .singleLower
    | 1 => .singleUpper
    | 2 => .vertical
    | _ => .horizontal
  | .mmc3 r => if c.mirroring = .fourScreen then .fourScreen else if r.mirror then .horizontal else .vertical

/-- `irq_line()` (R86, R94). -/
def Mapper.irqLine (m : Mapper) : Bool :=
  match m.regs with
  | .mmc3 r => r.irqFlag
  | .nrom => false
  | .uxrom _ => false
  | .mmc1 _ => false

/-- One step of the scanline counter of `MMC3` (R94), on a rise of Ppu address bit 12. -/
def Mmc3.clockCounter (r : Mmc3) : Mmc3 :=
  let counter := if r.irqCounter = 0 || r.irqReload then r.irqLatch else r.irqCounter - 1
  { r with irqCounter := counter, irqReload := false, irqFlag := r.irqFlag || (counter = 0 && r.irqEnable) }

/-- `MMC3` sees an address on the Ppu address lines (R94): a rise of bit 12 counts after bit 12 has been 0 for the filter
time. -/
def Mmc3.onPpuAddress (r : Mmc3) (p : Params) (a : Nat) : Mmc3 :=
  let high : Bool := a / 4096 % 2 = 1
  let counted := if high && !r.a12 && decide (p.mmc3A12Filter ≤ r.a12Low) then r.clockCounter else r
  { counted with a12 := high, a12Low := if high || r.a12 then 0 else r.a12Low }

/-- `on_ppu_address` (R84, R86): only `MMC3` counts Ppu accesses. -/
def Mapper.onPpuAddress (m : Mapper) (p : Params) (a : Nat) : Mapper :=
  match m.regs with
  | .mmc3 r => { m with regs := .mmc3 (r.onPpuAddress p a) }
  | .nrom => m
  | .uxrom _ => m
  | .mmc1 _ => m

/-- One dot passes: the time Ppu address bit 12 has been 0 grows (R94). -/
def Mapper.onDot (m : Mapper) : Mapper :=
  match m.regs with
  | .mmc3 r => { m with regs := .mmc3 { r with a12Low := if r.a12 then 0 else r.a12Low + 1 } }
  | .nrom => m
  | .uxrom _ => m
  | .mmc1 _ => m

/-- `on_cpu_cycle` (R86): no variant of the closed set counts Cpu cycles. -/
def Mapper.onCpuCycle (m : Mapper) : Mapper :=
  match m.regs with
  | .nrom => m
  | .uxrom _ => m
  | .mmc1 _ => m
  | .mmc3 _ => m

end Sys2Proof.Machine
end

