-- ==== Sys2Proof/Machine/Ppu.lean ====
section
/-! DEFINITION. The Ppu: its address space (spec/20_memory.md R80 to R84) and one dot step (spec/60_exceptions.md R370 to
R379). A dot step is a function of the Ppu and the mapper, the only component both bus paths touch (R43). -/

namespace Sys2Proof.Machine

/-- What the Ppu's steps read and never change: the image, the parameters, and which power-on this is. -/
structure Env where
  cart   : Cartridge
  params : Params
  epoch  : Nat
  deriving DecidableEq, Repr

/-! ## The Ppu address space -/

/-- The `vram` index (or, four-screen, the index into cartridge nametable RAM) of a nametable address below 0x3F00 (R80,
R82). -/
def nametableIndex (mode : Mirroring) (a : Nat) : Nat :=
  match mode with
  | .horizontal => a / 2048 % 2 * 1024 + a % 1024
  | .vertical => a / 1024 % 2 * 1024 + a % 1024
  | .singleLower => a % 1024
  | .singleUpper => 1024 + a % 1024
  | .fourScreen => a % 4096

/-- The palette RAM entry of a palette index (R83): 0x10, 0x14, 0x18 and 0x1C are 0x00, 0x04, 0x08 and 0x0C. -/
def paletteEntry (i : Nat) : Nat := if i % 32 / 16 = 1 ∧ i % 4 = 0 then i % 16 else i % 32

/-- The six stored bits of a palette RAM entry (R83). -/
def Ppu.paletteByte (p : Ppu) (epoch i : Nat) : Byte :=
  Memory.read epoch .palette p.palette (paletteEntry i) &&& 0x3F

/-- `PpuRead(a)` without the address notification (R80): pattern tables, nametables or palette. -/
def ppuPeek (e : Env) (p : Ppu) (m : Mapper) (a : Nat) : Byte :=
  if a < 0x2000 then m.chrRead e.cart e.epoch a
  else if a < 0x3F00 then
    let mode := m.mirroring e.cart
    if mode = .fourScreen then Memory.read e.epoch .cartNametable m.ntRam (nametableIndex mode a)
    else Memory.read e.epoch .vram p.vram (nametableIndex mode a)
  else p.paletteByte e.epoch a

/-- What the Ppu sees of `PpuWrite(a, v)` (R80, R82, R83): `vram` and palette RAM. -/
def ppuPokePpu (e : Env) (p : Ppu) (m : Mapper) (a : Nat) (v : Byte) : Ppu :=
  if a < 0x2000 then p
  else if a < 0x3F00 then
    let mode := m.mirroring e.cart
    if mode = .fourScreen then p else { p with vram := p.vram.set (nametableIndex mode a) v }
  else { p with palette := p.palette.set (paletteEntry a) (v &&& 0x3F) }

/-- What the mapper sees of `PpuWrite(a, v)` (R80, R82, R85): CHR and the cartridge's nametable RAM, and the address (R84). -/
def ppuPokeMapper (e : Env) (m : Mapper) (a : Nat) (v : Byte) : Mapper :=
  let stored :=
    if a < 0x2000 then m.chrWrite e.cart a v
    else if a < 0x3F00 && m.mirroring e.cart = .fourScreen then
      { m with ntRam := m.ntRam.set (nametableIndex .fourScreen a) v }
    else m
  stored.onPpuAddress e.params a

/-! ## Position -/

/-- The pre-render line: 261, or 311 for PAL (R370, R433). -/
def preRenderLine : Region → Nat
  | .ntsc => 261
  | .pal => 311

/-- "Rendering enabled" (R370, R382). -/
def Ppu.rendering (p : Ppu) : Bool := p.mask.getLsbD 3 || p.mask.getLsbD 4

/-- A visible line (R370). -/
def Ppu.visible (p : Ppu) : Bool := decide (p.scanline < 240)

/-- The pre-render line (R370). -/
def Ppu.preRender (p : Ppu) (r : Region) : Bool := p.scanline == preRenderLine r

/-- Rendering is in progress: enabled, on a visible or the pre-render line (R374, R385, R387). -/
def Ppu.active (p : Ppu) (r : Region) : Bool := p.rendering && (p.visible || p.preRender r)

/-- The end of a frame (R370, R431): the parity toggles and the finished FrameBuffer is handed over. -/
def Ppu.nextFrame (p : Ppu) : Ppu :=
  { p with dot := 0, scanline := 0, oddFrame := !p.oddFrame, lastFrame := p.frame, frame := [], frameDone := true }

/-- The dot step's change of position (R370), with the odd-frame skip (R373). -/
def Ppu.advance (p : Ppu) (r : Region) : Ppu :=
  if r = .ntsc ∧ p.oddFrame ∧ p.rendering ∧ p.scanline = 261 ∧ p.dot = 339 then p.nextFrame
  else if p.dot < 340 then { p with dot := p.dot + 1 }
  else if p.scanline < preRenderLine r then { p with dot := 0, scanline := p.scanline + 1 }
  else p.nextFrame

/-- The flag changes of a position: vblank is set at (241, 1) (R371), unless a status read in that cycle blocked it, and the three flags are cleared at dot 1 of the
pre-render line (R372). -/
def Ppu.flagsAt (p : Ppu) (r : Region) : Ppu :=
  if p.scanline = 241 ∧ p.dot = 1 then { p with vblank := !p.vblankBlocked, vblankBlocked := false }
  else if p.preRender r ∧ p.dot = 1 then { p with vblank := false, sprite0Hit := false, spriteOverflow := false }
  else p

/-! ## The scroll address -/

/-- The coarse x increment (R375). -/
def coarseXIncrement (v : BitVec 15) : BitVec 15 :=
  if v &&& 0x001F = 31 then (v &&& ~~~(0x001F : BitVec 15)) ^^^ 0x0400 else v + 1

/-- The y increment (R375). -/
def yIncrement (v : BitVec 15) : BitVec 15 :=
  if v &&& 0x7000 ≠ 0x7000 then v + 0x1000
  else
    let top := v &&& ~~~(0x7000 : BitVec 15)
    let y := (top &&& 0x03E0) >>> 5
    if y = 29 then ((top ^^^ 0x0800) &&& ~~~(0x03E0 : BitVec 15))
    else if y = 31 then (top &&& ~~~(0x03E0 : BitVec 15))
    else (top &&& ~~~(0x03E0 : BitVec 15)) ||| ((y + 1) <<< 5)

/-- The horizontal reload (R375). -/
def horizontalReload (v t : BitVec 15) : BitVec 15 := (v &&& ~~~(0x041F : BitVec 15)) ||| (t &&& 0x041F)

/-- The vertical reload (R372). -/
def verticalReload (v t : BitVec 15) : BitVec 15 := (v &&& 0x041F) ||| (t &&& 0x7BE0)

/-- The changes of `v` at a dot of a line on which rendering is in progress (R372, R375). -/
def Ppu.scrollAt (p : Ppu) (r : Region) : Ppu :=
  let d := p.dot
  let v1 := if d % 8 = 0 ∧ ((1 ≤ d ∧ d ≤ 256) ∨ d = 328 ∨ d = 336) then coarseXIncrement p.v else p.v
  let v2 := if d = 256 then yIncrement v1 else if d = 257 then horizontalReload v1 p.t else v1
  let v3 := if p.preRender r ∧ 280 ≤ d ∧ d ≤ 304 then verticalReload v2 p.t else v2
  { p with v := v3 }

/-! ## Background (R374) -/

/-- The shift of the four shift registers, at dots 2 to 257 and 322 to 337. -/
def Background.shift (b : Background) : Background :=
  { b with
    shiftLo := b.shiftLo <<< 1
    shiftHi := b.shiftHi <<< 1
    palLo := (b.palLo <<< 1) ||| (BitVec.ofBool b.latchLo).setWidth 8
    palHi := (b.palHi <<< 1) ||| (BitVec.ofBool b.latchHi).setWidth 8 }

/-- The load of a fetched tile, at dots 9, 17, ... 257, 329 and 337. -/
def Background.load (b : Background) : Background :=
  { b with
    shiftLo := (b.shiftLo &&& 0xFF00) ||| b.patLo.setWidth 16
    shiftHi := (b.shiftHi &&& 0xFF00) ||| b.patHi.setWidth 16
    latchLo := b.palette.getLsbD 0
    latchHi := b.palette.getLsbD 1 }

/-- Shift, then load, at one dot. -/
def Background.clock (b : Background) (d : Nat) : Background :=
  let shifted := if (2 ≤ d ∧ d ≤ 257) ∨ (322 ≤ d ∧ d ≤ 337) then b.shift else b
  if d % 8 = 1 ∧ ((9 ≤ d ∧ d ≤ 257) ∨ d = 329 ∨ d = 337) then shifted.load else shifted

/-- The address of the nametable byte. -/
def nametableAddr (v : BitVec 15) : Nat := 0x2000 + v.toNat % 4096

/-- The address of the attribute byte. -/
def attributeAddr (v : BitVec 15) : Nat :=
  0x23C0 ||| (v.toNat &&& 0x0C00) ||| (v.toNat >>> 4 &&& 0x38) ||| (v.toNat >>> 2 &&& 0x07)

/-- The 2-bit palette number an attribute byte gives a tile. -/
def attributePalette (v : BitVec 15) (b : Byte) : BitVec 2 :=
  (b >>> ((v.toNat >>> 4 &&& 4) ||| (v.toNat &&& 2))).setWidth 2

/-- The address of the tile's pattern low byte. -/
def patternAddr (ctrl : Byte) (v : BitVec 15) (nt : Byte) : Nat :=
  (if ctrl.getLsbD 4 then 0x1000 else 0) + nt.toNat * 16 + v.toNat / 4096 % 8

/-- The Ppu-space address the background reads at a dot, if any: each fetch takes two dots and is made at the second. -/
def Ppu.backgroundFetch (p : Ppu) : Option Nat :=
  let d := p.dot
  if (1 ≤ d ∧ d ≤ 256) ∨ (321 ≤ d ∧ d ≤ 336) then
    match d % 8 with
    | 2 => some (nametableAddr p.v)
    | 4 => some (attributeAddr p.v)
    | 6 => some (patternAddr p.ctrl p.v p.bg.ntByte)
    | 0 => some (patternAddr p.ctrl p.v p.bg.ntByte + 8)
    | _ => none
  else if d = 338 ∨ d = 340 then some (nametableAddr p.v)
  else none

/-- Where the byte the background reads at a dot goes. -/
def Background.latch (b : Background) (v : BitVec 15) (d : Nat) (byte : Byte) : Background :=
  if d = 338 ∨ d = 340 then { b with ntByte := byte }
  else
    match d % 8 with
    | 2 => { b with ntByte := byte }
    | 4 => { b with palette := attributePalette v byte }
    | 6 => { b with patLo := byte }
    | _ => { b with patHi := byte }

/-! ## Sprites (R376, R377) -/

/-- A byte of OAM. -/
def Ppu.oamByte (p : Ppu) (epoch a : Nat) : Byte := Memory.read epoch .oam p.oam a

/-- A byte of secondary OAM. -/
def Ppu.secondaryByte (p : Ppu) (epoch a : Nat) : Byte := Memory.read epoch .secondaryOam p.secondaryOam a

/-- Sprite height: 8, or 16 when `ppu_ctrl[5] = 1`. -/
def Ppu.spriteHeight (p : Ppu) : Nat := if p.ctrl.getLsbD 5 then 16 else 8

/-- Copy sprite `n` of OAM into the next free place of secondary OAM. -/
def Ppu.copySprite (p : Ppu) (epoch n : Nat) : Ppu :=
  let put (m : Memory) (k : Nat) : Memory := m.set (4 * p.spriteCount + k) (p.oamByte epoch (4 * n + k))
  { p with
    secondaryOam := put (put (put (put p.secondaryOam 0) 1) 2) 3
    spriteCount := p.spriteCount + 1
    sprite0Next := p.sprite0Next || n == 0 }

/-- Sprite evaluation visits sprite `n`: in range when `0 <= s - OAM[4n] < H`; the first 8 in range are copied. -/
def Ppu.visitSprite (p : Ppu) (epoch n : Nat) : Ppu :=
  let y := (p.oamByte epoch (4 * n)).toNat
  if y ≤ p.scanline ∧ p.scanline - y < p.spriteHeight ∧ p.spriteCount < 8 then p.copySprite epoch n else p

/-- Sprite evaluation at a dot of a visible line: dots 1 to 64 fill secondary OAM (one byte every second dot), dots 65 to 256
visit the 64 sprites (one every third dot), and the overflow rule may set its flag. At dot 1 of a visible or the
pre-render line no sprite is selected yet for the line after it (log entry 8). -/
def Ppu.evaluateAt (p : Ppu) (epoch : Nat) : Ppu :=
  let d := p.dot
  let begun := if d = 1 then { p with spriteCount := 0, sprite0Next := false } else p
  if p.visible then
    if d % 2 = 0 ∧ 2 ≤ d ∧ d ≤ 64 then { begun with secondaryOam := begun.secondaryOam.set (d / 2 - 1) 0xFF }
    else if 65 ≤ d ∧ d ≤ 256 then
      let visited := if (d - 65) % 3 = 0 then begun.visitSprite epoch ((d - 65) / 3) else begun
      let rule := Config.spriteOverflowDot ((List.range 256).map (p.oamByte epoch)) p.scanline p.spriteHeight
      { visited with spriteOverflow := visited.spriteOverflow || rule == some d }
    else begun
  else begun

/-- The row of a sprite's pattern that the next line shows (R376: `row = s - Y`, reversed when flipped vertically). DESIGN CHOICE (log
entry 8): where the sprite height was changed after the evaluation, so that `s - Y` may not be below it, the row is taken modulo
the height. -/
def Ppu.spriteRow (p : Ppu) (y attr : Byte) : Nat :=
  let h := p.spriteHeight
  let row := (p.scanline + 256 - y.toNat) % h
  if attr.getLsbD 7 then h - 1 - row else row

/-- The address of the pattern low byte of the sprite in slot `k` of secondary OAM; an unused slot fetches tile 0xFF. -/
def Ppu.spritePatternAddr (p : Ppu) (epoch k : Nat) : Nat :=
  let used := k < p.spriteCount
  let y := if used then p.secondaryByte epoch (4 * k) else 0xFF
  let tile := if used then (p.secondaryByte epoch (4 * k + 1)).toNat else 0xFF
  let attr := if used then p.secondaryByte epoch (4 * k + 2) else 0xFF
  let row := p.spriteRow y attr
  if p.ctrl.getLsbD 5 then tile % 2 * 4096 + (tile / 2 * 2 + row / 8) * 16 + row % 8
  else (if p.ctrl.getLsbD 3 then 0x1000 else 0) + tile * 16 + row

/-- The Ppu-space address a sprite fetch reads at a dot, if any: slot `k` reads its pattern low byte at dot 262 + 8k and its
high byte at dot 264 + 8k (log entry 8). -/
def Ppu.spriteFetch (p : Ppu) (epoch : Nat) : Option Nat :=
  if 257 ≤ p.dot ∧ p.dot ≤ 320 then
    match (p.dot - 257) % 8 with
    | 5 => some (p.spritePatternAddr epoch ((p.dot - 257) / 8))
    | 7 => some (p.spritePatternAddr epoch ((p.dot - 257) / 8) + 8)
    | _ => none
  else none

/-- Where the byte a sprite fetch reads goes: slot `k`'s output unit; an unused slot's unit shows nothing. -/
def Ppu.latchSprite (p : Ppu) (epoch : Nat) (byte : Byte) : Ppu :=
  let k := (p.dot - 257) / 8
  if k < p.spriteCount then
    let attr := p.secondaryByte epoch (4 * k + 2)
    let x := p.secondaryByte epoch (4 * k + 3)
    let old := p.sprites.getD k SpriteUnit.blank
    let unit : SpriteUnit :=
      if (p.dot - 257) % 8 = 5 then { x := x, attr := attr, lo := byte, hi := 0, zero := k == 0 && p.sprite0Next }
      else { old with hi := byte }
    { p with sprites := p.sprites.set k unit }
  else { p with sprites := p.sprites.set k SpriteUnit.blank }

/-! ## Pixels (R378, R379) -/

/-- The background value (0 to 3) at a pixel column: bit `15 - x` of the 16-bit registers; 0 when off. -/
def Ppu.backgroundValue (p : Ppu) (px : Nat) : Nat :=
  if p.mask.getLsbD 3 ∧ (8 ≤ px ∨ p.mask.getLsbD 1) then
    (p.bg.shiftLo.getLsbD (15 - p.x.toNat)).toNat + 2 * (p.bg.shiftHi.getLsbD (15 - p.x.toNat)).toNat
  else 0

/-- The background's palette number at a pixel: bit `7 - x` of the 8-bit registers. -/
def Ppu.backgroundPalette (p : Ppu) : Nat :=
  (p.bg.palLo.getLsbD (7 - p.x.toNat)).toNat + 2 * (p.bg.palHi.getLsbD (7 - p.x.toNat)).toNat

/-- The pattern value (0 to 3) of a sprite unit at a pixel column; 0 where the sprite does not cover it. -/
def SpriteUnit.value (u : SpriteUnit) (px : Nat) : Nat :=
  let x := u.x.toNat
  if x ≤ px ∧ px < x + 8 then
    let bit := if u.attr.getLsbD 6 then px - x else 7 - (px - x)
    (u.lo.getLsbD bit).toNat + 2 * (u.hi.getLsbD bit).toNat
  else 0

/-- Sprites show at a pixel column: sprite rendering is on, and the leftmost 8 columns only with `ppu_mask[2]`. -/
def Ppu.spritesShown (p : Ppu) (px : Nat) : Bool := p.mask.getLsbD 4 && (decide (8 ≤ px) || p.mask.getLsbD 2)

/-- The first unit, in slot order, with a non-zero value at a pixel column. -/
def Ppu.spriteAt (p : Ppu) (px : Nat) : Option SpriteUnit :=
  if p.spritesShown px then p.sprites.find? (fun u => u.value px != 0) else none

/-- The palette RAM index of a pixel (R379). -/
def Ppu.pixelIndex (p : Ppu) (px : Nat) : Nat :=
  let b := p.backgroundValue px
  let background := if b = 0 then 0 else p.backgroundPalette * 4 + b
  match p.spriteAt px with
  | none => background
  | some u => if b ≠ 0 ∧ u.attr.getLsbD 5 then background else 0x10 + (u.attr &&& 3).toNat * 4 + u.value px

/-- The stored value of a pixel (R379): masked to six bits, and to `0x30` when greyscale; `palette[0]` when rendering is
disabled. -/
def Ppu.pixel (p : Ppu) (epoch px : Nat) : Byte :=
  if p.rendering then
    let colour := p.paletteByte epoch (p.pixelIndex px)
    if p.mask.getLsbD 0 then colour &&& 0x30 else colour
  else p.paletteByte epoch 0

/-- The sprite-zero condition at a pixel column (R378). -/
def Ppu.sprite0At (p : Ppu) (px : Nat) : Bool :=
  p.mask.getLsbD 3 && p.mask.getLsbD 4 && px != 255
    && (decide (8 ≤ px) || (p.mask.getLsbD 1 && p.mask.getLsbD 2))
    && p.backgroundValue px != 0
    && p.sprites.any (fun u => u.zero && u.value px != 0)

/-- The pixel of dots 1 to 256 of a visible line: FrameBuffer and sprite-zero hit. -/
def Ppu.outputAt (p : Ppu) (epoch : Nat) : Ppu :=
  if p.visible ∧ 1 ≤ p.dot ∧ p.dot ≤ 256 then
    let px := p.dot - 1
    { p with
      frame := p.frame.set (p.scanline * 256 + px) (p.pixel epoch px)
      sprite0Hit := p.sprite0Hit || p.sprite0At px }
  else p

/-! ## The dot step -/

/-- What a dot does to the shift registers when rendering is in progress. -/
def Ppu.clockBackground (p : Ppu) (r : Region) : Ppu :=
  if p.active r then { p with bg := p.bg.clock p.dot } else p

/-- The Ppu-space address read at a dot, if any, with rendering in progress. -/
def Ppu.fetchAddr (p : Ppu) (e : Env) : Option Nat :=
  if p.active e.params.region then
    match p.backgroundFetch with
    | some a => some a
    | none => p.spriteFetch e.epoch
  else none

/-- The byte read at a dot goes to the background or to a sprite unit. -/
def Ppu.latchFetch (p : Ppu) (e : Env) (byte : Byte) : Ppu :=
  if 257 ≤ p.dot ∧ p.dot ≤ 320 then p.latchSprite e.epoch byte
  else { p with bg := p.bg.latch p.v p.dot byte }

/-- Sprite evaluation, scroll changes and the reset of `oam_addr` (R376) at a dot, with rendering in progress. DESIGN CHOICE (log
entry 8): `oam_addr` is set to 0 in these dots of the pre-render line too; the rule speaks of the visible lines. -/
def Ppu.lineWork (p : Ppu) (e : Env) : Ppu :=
  if p.active e.params.region then
    let scrolled := (p.evaluateAt e.epoch).scrollAt e.params.region
    if 257 ≤ p.dot ∧ p.dot ≤ 320 then { scrolled with oamAddr := 0 } else scrolled
  else p

/-- The Ppu at its new position, before the dot's memory access: flags, shift registers, pixel. -/
def Ppu.beforeFetch (p : Ppu) (e : Env) : Ppu :=
  (((p.advance e.params.region).flagsAt e.params.region).clockBackground e.params.region).outputAt e.epoch

/-- One `ppu_dot_step` (R370, R430), the Ppu's part. -/
def dotPpu (e : Env) (p : Ppu) (m : Mapper) : Ppu :=
  let q := p.beforeFetch e
  match q.fetchAddr e with
  | some a => (q.latchFetch e (ppuPeek e q m a)).lineWork e
  | none => q.lineWork e

/-- One `ppu_dot_step`, the mapper's part: it is notified of the dot's access (R84, R86). -/
def dotMapper (e : Env) (p : Ppu) (m : Mapper) : Mapper :=
  match (p.beforeFetch e).fetchAddr e with
  | some a => (m.onDot).onPpuAddress e.params a
  | none => m.onDot

end Sys2Proof.Machine
end

