-- ==== Sys2Proof/Machine/PpuRegisters.lean ====
section
/-! DEFINITION. The eight Ppu registers as the Cpu reaches them (spec/60_exceptions.md R380 to R387). Each access is split
into what it does to the Ppu, what the mapper sees of it, and how many free values it draws. `draw` is the number of the
next free value. -/

namespace Sys2Proof.Machine

/-! ## Status (R383) -/

/-- The value of a read of register 2. -/
def Ppu.statusByte (p : Ppu) : Byte :=
  (BitVec.ofBool p.vblank ++ BitVec.ofBool p.sprite0Hit ++ BitVec.ofBool p.spriteOverflow
    ++ p.ioLatch.extractLsb' 0 5 : BitVec 8)

/-- With `VBL_RACE_SUPPRESSION` on, a status read at (241, 0), which "coincides with the dot that sets the flag", suppresses the
flag and with it the NMI of that frame (R383, D27). -/
def Ppu.blocksVblank (p : Ppu) (q : Params) : Bool := q.vblRaceSuppression && p.scanline == 241 && p.dot == 0

/-! ## OAM data (R385) -/

/-- The value of a read of register 4. -/
def Ppu.oamDataByte (p : Ppu) (epoch : Nat) : Byte :=
  if p.rendering ∧ p.visible ∧ 1 ≤ p.dot ∧ p.dot ≤ 64 then 0xFF
  else
    let b := p.oamByte epoch p.oamAddr.toNat
    if p.oamAddr.toNat % 4 = 2 then b &&& 0xE3 else b

/-- A write to register 4. While rendering is in progress OAM keeps its content and `oam_addr` is afterwards any value
(U17): the free value number `draw`. -/
def Ppu.writeOamData (p : Ppu) (r : Region) (draw : Nat) (v : Byte) : Ppu :=
  if p.active r then { p with oamAddr := Config.freeByte draw }
  else { p with oam := p.oam.set p.oamAddr.toNat v, oamAddr := p.oamAddr + 1 }

/-! ## Control, scroll, address (R381, R386) -/

/-- A write to register 0. -/
def Ppu.writeControl (p : Ppu) (v : Byte) : Ppu :=
  { p with ctrl := v, t := (p.t &&& 0x73FF) ||| ((v &&& 3).setWidth 15 <<< 10) }

/-- A write to register 5. -/
def Ppu.writeScroll (p : Ppu) (v : Byte) : Ppu :=
  if p.w then
    { p with
      t := (p.t &&& 0x0C1F) ||| ((v &&& 7).setWidth 15 <<< 12) ||| ((v >>> 3).setWidth 15 <<< 5)
      w := false }
  else { p with t := (p.t &&& 0x7FE0) ||| (v >>> 3).setWidth 15, x := v.setWidth 3, w := true }

/-- `t` after the second write to register 6. -/
def Ppu.addressLow (p : Ppu) (v : Byte) : BitVec 15 := (p.t &&& 0x7F00) ||| v.setWidth 15

/-- A write to register 6. -/
def Ppu.writeAddress (p : Ppu) (v : Byte) : Ppu :=
  if p.w then { p with t := p.addressLow v, v := p.addressLow v, w := false }
  else { p with t := (p.t &&& 0x00FF) ||| ((v &&& 0x3F).setWidth 15 <<< 8), w := true }

/-! ## Data (R387) -/

/-- The increment of `v` by an access to register 7. -/
def Ppu.increment (p : Ppu) : BitVec 15 := if p.ctrl.getLsbD 2 then 32 else 1

/-- `v` after an access to register 7: plus the increment, or, while rendering is in progress, both increments of R375
(U18). -/
def Ppu.nextV (p : Ppu) (r : Region) : BitVec 15 :=
  if p.active r then yIncrement (coarseXIncrement p.v) else p.v + p.increment

/-- The Ppu address an access to register 7 goes to: `v & 0x3FFF`, or, while rendering is in progress, an address in flux
(U18): a free value. -/
def Ppu.dataAddr (p : Ppu) (r : Region) (draw : Nat) : Nat :=
  if p.active r then (Config.freePpuAddr draw).toNat else p.v.toNat % 0x4000

/-- The address `PpuRead` uses when register 7 is read: under a palette address, the nametable byte underneath. -/
def Ppu.bufferAddr (p : Ppu) (r : Region) (draw : Nat) : Nat :=
  let a := p.dataAddr r draw
  if a < 0x3F00 then a else a - 0x1000

/-- The value of a read of register 7: the read buffer, or at once the palette entry under the two upper bits of the latch;
while rendering is in progress, any value (U18). -/
def Ppu.dataByte (p : Ppu) (e : Env) (draw : Nat) : Byte :=
  if p.active e.params.region then Config.freeByte draw
  else
    let a := p.v.toNat % 0x4000
    if a < 0x3F00 then p.readBuffer else (p.ioLatch &&& 0xC0) ||| p.paletteByte e.epoch a

/-- The read buffer after a read of register 7. -/
def Ppu.nextBuffer (p : Ppu) (e : Env) (m : Mapper) (draw : Nat) : Byte :=
  if p.active e.params.region then Config.freeByte (draw + 1) else ppuPeek e p m (p.bufferAddr e.params.region draw)

/-! ## The registers by number (R380) -/

/-- The value of a read of register `n`: a write-only register returns the latch. -/
def Ppu.readValue (p : Ppu) (e : Env) (n draw : Nat) : Byte :=
  match n with
  | 2 => p.statusByte
  | 4 => p.oamDataByte e.epoch
  | 7 => p.dataByte e draw
  | _ => p.ioLatch

/-- The Ppu after a read of register `n`. -/
def Ppu.afterRead (p : Ppu) (e : Env) (m : Mapper) (n draw : Nat) : Ppu :=
  match n with
  | 2 => { p with ioLatch := p.statusByte, vblank := false, w := false, vblankBlocked := p.blocksVblank e.params }
  | 4 => { p with ioLatch := p.oamDataByte e.epoch }
  | 7 =>
    { p with
      ioLatch := p.dataByte e draw
      readBuffer := p.nextBuffer e m draw
      v := p.nextV e.params.region }
  | _ => p

/-- The mapper after a read of register `n`: register 7's access and the new `v` are on the Ppu address lines (R84, R387). -/
def Ppu.mapperAfterRead (p : Ppu) (e : Env) (m : Mapper) (n draw : Nat) : Mapper :=
  match n with
  | 7 =>
    (m.onPpuAddress e.params (p.bufferAddr e.params.region draw)).onPpuAddress e.params
      ((p.nextV e.params.region).toNat % 0x4000)
  | _ => m

/-- The Ppu after a write of `v` to register `n`. -/
def Ppu.afterWrite (p : Ppu) (e : Env) (m : Mapper) (n draw : Nat) (v : Byte) : Ppu :=
  let q := { p with ioLatch := v }
  match n with
  | 0 => q.writeControl v
  | 1 => { q with mask := v }
  | 3 => { q with oamAddr := v }
  | 4 => q.writeOamData e.params.region draw v
  | 5 => q.writeScroll v
  | 6 => q.writeAddress v
  | 7 => { ppuPokePpu e q m (p.dataAddr e.params.region draw) v with v := p.nextV e.params.region }
  | _ => q

/-- The mapper after a write of `v` to register `n`: register 6's new `v`, register 7's access and new `v` (R84, R386,
R387). -/
def Ppu.mapperAfterWrite (p : Ppu) (e : Env) (m : Mapper) (n draw : Nat) (v : Byte) : Mapper :=
  match n with
  | 6 => if p.w then m.onPpuAddress e.params ((p.addressLow v).toNat % 0x4000) else m
  | 7 =>
    (ppuPokeMapper e m (p.dataAddr e.params.region draw) v).onPpuAddress e.params
      ((p.nextV e.params.region).toNat % 0x4000)
  | _ => m

/-- How many free values an access to register `n` draws: those of U17 and U18. -/
def Ppu.drawsBy (p : Ppu) (r : Region) (n : Nat) : Nat :=
  if p.active r ∧ (n = 4 ∨ n = 7) then 2 else 0

end Sys2Proof.Machine
end

