-- ==== Sys2Proof/Machine/Ops.lean ====
section
/-! DEFINITION. The named operations of the machine: the bus (spec/20_memory.md R60 to R71, R97, R98), the Machine cycle
(spec/70_reset_and_hazards.md R430), the two DMA units (R100 to R106), the Cpu's read and write cycles and its interrupt
poll (R300, R325, R346), the stack (R13, R21), and taking an interrupt and returning from one (R349, R350, R249). -/

namespace Sys2Proof.Machine

/-! ## The bus -/

/-- What the Ppu's steps read of the machine and never change. -/
def State.env (s : State) : Env := { cart := s.cart, params := s.params, epoch := s.epoch }

/-- A byte of the 2 KB RAM (R35). -/
def State.ramByte (s : State) (k : Nat) : Byte := Memory.read s.epoch .ram s.ram k

/-- The byte of a ButtonSet, from bit 0 (shifted out first): A, B, Select, Start, Up, Down, Left, Right (R97). -/
def ButtonSet.byte (b : ButtonSet) : Byte :=
  (BitVec.ofBool b.right ++ BitVec.ofBool b.left ++ BitVec.ofBool b.down ++ BitVec.ofBool b.up ++ BitVec.ofBool b.start
    ++ BitVec.ofBool b.select ++ BitVec.ofBool b.b ++ BitVec.ofBool b.a : BitVec 8)

/-- The shift register a read of port 1 or 2 sees: while `strobe` is 1 it is continuously reloaded (R97). -/
def Controllers.port1 (c : Controllers) : Byte := if c.strobe then c.input1.byte else c.shift1

@[inherit_doc Controllers.port1] def Controllers.port2 (c : Controllers) : Byte :=
  if c.strobe then c.input2.byte else c.shift2

/-- A shift register after a read (R98): shifted by one with a 1 shifted in, unless `strobe` is 1. -/
def Controllers.shifted (c : Controllers) (sr : Byte) : Byte := if c.strobe then sr else (sr >>> 1) ||| 0x80

/-- A write to the controller strobe (R97): while it is 1, and at its change to 0, the registers hold the buttons. -/
def Controllers.write (c : Controllers) (v : Byte) : Controllers :=
  let on := v.getLsbD 0
  { c with
    strobe := on
    shift1 := if c.strobe || on then c.input1.byte else c.shift1
    shift2 := if c.strobe || on then c.input2.byte else c.shift2 }

/-- The byte a controller read gives: bits 7 to 5 from the open-bus latch, bit 0 from the shift register (R71, R98). -/
def controllerByte (latch sr : Byte) : Byte := (latch &&& 0xE0) ||| (sr &&& 1)

/-- What the open-bus latch reads as: the byte driven last, or, where `OPEN_BUS_DECAY` is given and that byte has not been driven
again for so long, what it has decayed to (R70, D14, log entry 30). -/
def State.openBus (s : State) : Byte :=
  match s.params.openBusDecay with
  | none => s.busLatch
  | some n => if s.cycle - s.busDriven < n then s.busLatch else Config.decayedLatch s.busLatch (s.cycle - s.busDriven)

/-- A byte is driven on the bus in this cycle: `bus_latch <- v` (R70). -/
def State.drive (s : State) (v : Byte) : State := { s with busLatch := v, busDriven := s.cycle }

/-- `MemRead(a, 1)`, the byte (R12, R61): what the target of a Cpu address answers, the open-bus latch where none answers
(R70). -/
def busValue (a : Addr) (s : State) : Byte :=
  let n := a.toNat
  if n < 0x2000 then s.ramByte (n % 0x0800)
  else if n < 0x4000 then s.ppu.readValue s.env (n % 8) s.draw
  else if n = 0x4015 then s.apu.status s.openBus
  else if n = 0x4016 then controllerByte s.openBus s.ctrl.port1
  else if n = 0x4017 then controllerByte s.openBus s.ctrl.port2
  else if n < 0x4020 then s.openBus
  else (s.mapper.prgRead s.cart s.params s.epoch n).getD s.openBus

/-- `MemRead(a, 1)`, its effects: the side effects of the address (R66) and the open-bus latch, which the byte of a target that
answers drives (R70; a read of 0x4015 does not, R396) and any other read leaves alone. -/
def busAfterRead (a : Addr) (s : State) : State :=
  let n := a.toNat
  let v := busValue a s
  if n < 0x2000 then s.drive v
  else if n < 0x4000 then
    { s.drive v with
      ppu := s.ppu.afterRead s.env s.mapper (n % 8) s.draw
      mapper := s.ppu.mapperAfterRead s.env s.mapper (n % 8) s.draw
      draw := s.draw + s.ppu.drawsBy s.params.region (n % 8) }
  else if n = 0x4015 then { s with apu := s.apu.afterStatusRead }
  else if n = 0x4016 then { s.drive v with ctrl := { s.ctrl with shift1 := s.ctrl.shifted s.ctrl.port1 } }
  else if n = 0x4017 then { s.drive v with ctrl := { s.ctrl with shift2 := s.ctrl.shifted s.ctrl.port2 } }
  else if n < 0x4020 then s
  else if (s.mapper.prgRead s.cart s.params s.epoch n).isSome then s.drive v
  else s

/-- `MemWrite(a, 1, v)` (R12, R61, R70): the byte is handed to the target of the address. -/
def busWrite (a : Addr) (v : Byte) (s : State) : State :=
  let n := a.toNat
  let s := s.drive v
  if n < 0x2000 then { s with ram := s.ram.set (n % 0x0800) v }
  else if n < 0x4000 then
    { s with
      ppu := s.ppu.afterWrite s.env s.mapper (n % 8) s.draw v
      mapper := s.ppu.mapperAfterWrite s.env s.mapper (n % 8) s.draw v
      draw := s.draw + s.ppu.drawsBy s.params.region (n % 8) }
  else if n < 0x4014 then { s with apu := s.apu.writeChannel n v }
  else if n = 0x4014 then { s with dma := { s.dma with oamPending := true, oamPage := v } }
  else if n = 0x4015 then { s with apu := s.apu.writeEnable v }
  else if n = 0x4016 then { s with ctrl := s.ctrl.write v }
  else if n = 0x4017 then { s with apu := s.apu.writeSequencer s.cycle v }
  else if n < 0x4020 then s
  else { s with mapper := s.mapper.prgWrite s.cart s.params s.prevWrite n v }

/-! ## The Machine cycle after its bus slot (R430, steps 2 to 6) -/

/-- One `ppu_dot_step` of the machine. -/
def dot (s : State) : State :=
  { s with ppu := dotPpu s.env s.ppu s.mapper, mapper := dotMapper s.env s.ppu s.mapper }

/-- `n` dot steps. -/
def dots : Nat → State → State
  | 0, s => s
  | n + 1, s => dots n (dot s)

/-- Dots in a Cpu cycle: 3, and for PAL 4 in one cycle of every five (R8, R433). -/
def State.dotsThisCycle (s : State) : Nat :=
  match s.params.region with
  | .ntsc => 3
  | .pal => if s.cycle % 5 = s.params.palPhase then 4 else 3

/-- One `apu_step`; a delta-modulation channel that wants a byte has a DMA request pending (R103, R395). -/
def apuStep (s : State) : State :=
  let apu := s.apu.stepCycle s.params.region s.cycle
  { s with apu := apu, dma := { s.dma with dmcPending := apu.dmc.wantsByte } }

/-- The mapper's per-cycle hook (R86). -/
def mapperTick (s : State) : State := { s with mapper := s.mapper.onCpuCycle }

/-- `nmi_line` (R342). -/
def State.nmiLine (s : State) : Bool := s.ppu.ctrl.getLsbD 7 && s.ppu.vblank

/-- With `VBL_RACE_SUPPRESSION` on, the dots (241, 1) and (241, 2), where a status read that comes next "returns 1 and still
suppresses the NMI" (R383, D27): a rise of the line is not taken there but at the end of the cycle after, if the line is still
up (log entry 29). -/
def State.inVblankRace (s : State) : Bool :=
  s.params.vblRaceSuppression && s.ppu.scanline == 241 && (s.ppu.dot == 1 || s.ppu.dot == 2)

/-- The NMI line as the edge detector samples it (R344), `prev` being `nmi_prev`: the line itself while
`VBL_RACE_SUPPRESSION` is off. -/
def State.nmiSeen (prev : Bool) (s : State) : Bool := s.nmiLine && (prev || !s.inVblankRace)

/-- `irq_line` (R343). -/
def State.irqLine (s : State) : Bool := s.apu.seq.irqFlag || s.apu.dmc.irqFlag || s.mapper.irqLine

/-- The interrupt detectors (R344, R345). -/
def detect (s : State) : State :=
  { s with
    cpu :=
      { s.cpu with
        nmiPending := s.cpu.nmiPending || (s.nmiSeen s.cpu.nmiPrev && !s.cpu.nmiPrev)
        nmiPrev := s.nmiSeen s.cpu.nmiPrev
        irqLevel := s.irqLine } }

/-- The rest of a Machine cycle after its bus slot; `wrote` says that the bus slot was a write. -/
def endCycle (wrote : Bool) (s : State) : State :=
  let t := detect (mapperTick (apuStep (dots s.dotsThisCycle s)))
  { t with cycle := t.cycle + 1, prevWrite := wrote }

/-! ## DMA (R100 to R106) -/

/-- One stolen cycle in which nothing is transferred (the OAM DMA's halt and alignment cycles, the first cycles of a
delta-modulation stall); `stall` counts the cycles still to be stolen (R31). -/
def idleStall (s : State) : State := endCycle false { s with dma := { s.dma with stall := s.dma.stall - 1 } }

/-- `n` such cycles. -/
def idleStalls : Nat → State → State
  | 0, s => s
  | n + 1, s => idleStalls n (idleStall s)

/-- The delta-modulation byte is read on the bus and handed to the channel (R103, R395). -/
def dmcTake (s : State) : State :=
  let a := s.apu.dmc.addr
  let b := busValue a s
  let t := busAfterRead a s
  { t with apu := { t.apu with dmc := t.apu.dmc.receive b }, dma := { t.dma with dmcPending := false } }

/-- The stolen cycle in which the delta-modulation byte is fetched (R103, R395). -/
def dmcFetch (s : State) : State :=
  let t := dmcTake s
  endCycle false { t with dma := { t.dma with stall := t.dma.stall - 1 } }

/-- One cycle of a delta-modulation stall, whose last cycle fetches the byte (R103). DESIGN CHOICE (log entry 31): the stall is
`DMC_STALL` cycles whatever the parity of its first, so that the fetch of a stall in which no OAM DMA is in progress can fall in
a put cycle, against R101. -/
def dmcStallCycle (s : State) : State :=
  let t := if s.dma.stall = 0 then { s with dma := { s.dma with stall := Config.dmcStall } } else s
  if t.dma.stall = 1 then dmcFetch t else idleStall t

/-- The whole stall of a pending delta-modulation fetch in front of a read cycle: `DMC_STALL` cycles, or those that are left of
them (R103; their parity as at `dmcStallCycle`). -/
def dmcDma (s : State) : State :=
  if s.dma.dmcPending then
    let n := if s.dma.stall = 0 then Config.dmcStall else s.dma.stall
    dmcFetch (idleStalls (n - 1) { s with dma := { s.dma with stall := n } })
  else s

/-- `DMC_OAM_COLLISION_EXTRA` (R104): by how many cycles a collision makes the stall grow where the OAM DMA has come to. -/
def State.collisionExtra (s : State) : Nat := Config.dmcOamCollisionExtra s.dma.oamIndex

/-- A delta-modulation fetch is pending of which the OAM DMA in progress has not yet settled when it is made (R104). -/
def State.collides (s : State) : Bool := s.dma.dmcPending && !s.dma.late

/-- The fetch comes after the last put cycle, where `n` cycles are added for it (log entry 4). -/
def putOff (n : Nat) (s : State) : State :=
  { s with dma := { s.dma with stall := s.dma.stall + n, owed := s.dma.owed + n, late := true } }

/-- The fetch takes the get cycle of the next pair, which two cycles put off to the next get cycle (R101, R104): the stall must
grow by two at least. -/
def State.defersPair (s : State) : Bool := s.collides && decide (2 ≤ s.collisionExtra)

/-- The get cycle of an OAM DMA that a pending delta-modulation fetch takes (R104). Of the cycles the stall grows by, two put the
pair off, and the rest come after the last put cycle. -/
def collisionFetch (s : State) : State :=
  let n := s.collisionExtra
  dmcFetch { s with dma := { s.dma with stall := s.dma.stall + n, owed := s.dma.owed + (n - 2) } }

/-- A delta-modulation fetch that defers the next pair of an OAM DMA: the fetch in the get cycle, nothing in the put cycle
(R101, R104). -/
def dmaCollision (s : State) : State := if s.defersPair then idleStall (collisionFetch s) else s

/-- What becomes of a fetch that does not defer the pair, in the pair's get cycle (log entry 4): one cycle more is enough for it
after the last put cycle; with none it shares the get cycle. -/
def oamMeet (s : State) : State :=
  if s.collides then
    match s.collisionExtra with
    | 0 => dmcTake s
    | 1 => putOff 1 s
    | _ => s
  else s

/-- The get cycle of an OAM DMA pair: `oam_dma_latch <- MemRead({oam_dma_page, i}, 1)` (R102). -/
def oamGet (s : State) : State :=
  let a := word s.dma.oamPage (BitVec.ofNat 8 s.dma.oamIndex)
  let b := busValue a s
  let t := busAfterRead a s
  endCycle false { t with dma := { t.dma with oamLatch := b, stall := t.dma.stall - 1 } }

/-- The put cycle of a pair: `MemWrite(0x2004, 1, oam_dma_latch)` (R102). -/
def oamPut (s : State) : State :=
  let t := busWrite 0x2004 s.dma.oamLatch s
  endCycle true { t with dma := { t.dma with oamIndex := t.dma.oamIndex + 1, stall := t.dma.stall - 1 } }

/-- After the last put cycle: a fetch that became pending in the last pair comes now (R104). -/
def oamLast (s : State) : State := if s.dma.oamIndex == 256 && s.collides then putOff s.collisionExtra s else s

/-- `n` pairs. The output unit can empty the sample buffer again in the very cycle that fills it, so that a second fetch is
pending at the next get cycle; a third cannot be, as the unit then has eight bits to shift out (R395). -/
def oamPairs : Nat → State → State
  | 0, s => s
  | n + 1, s => oamPairs n (oamLast (oamPut (oamGet (oamMeet (dmaCollision (dmaCollision s))))))

/-- A pending OAM DMA in front of a read cycle, up to its next get cycle (R102): its halt cycle and an alignment cycle when the
cycle after it is a put cycle (R101), 513 or 514 cycles being left to steal; or, where cycles of it were already made one at
a time (R430, R439), the idle cycles or the put cycle that come next. -/
def oamBegun (s : State) : State :=
  if s.dma.stall = 0 then
    let align := (s.cycle + 1) % 2
    idleStalls (1 + align) { s with dma := { s.dma with oamIndex := 0, stall := 513 + align, owed := 0, late := false } }
  else
    let left := 2 * (256 - s.dma.oamIndex) + s.dma.owed
    if s.dma.oamIndex = 256 then s
    else if s.dma.stall < left then oamLast (oamPut s) else idleStalls (s.dma.stall - left) s

/-- The first cycle after the last put cycle makes the fetch that was put off; the others are idle. -/
def lateCycle (s : State) : State :=
  if s.dma.late then dmcFetch { s with dma := { s.dma with late := false } } else idleStall s

/-- An OAM DMA with no cycle left is over. -/
def oamOver (s : State) : State := { s with dma := { s.dma with oamPending := false, owed := 0 } }

/-- What follows the last put cycle: the cycles that collisions added there. -/
def oamRest (s : State) : State := oamOver (if s.dma.stall = 0 then s else idleStalls (s.dma.stall - 1) (lateCycle s))

/-- A pending OAM DMA in front of a read cycle: all the cycles it has left (R102). -/
def oamDma (s : State) : State :=
  if s.dma.oamPending then
    let t := oamBegun s
    oamRest (oamPairs (256 - t.dma.oamIndex) t)
  else s

/-- A fetch that was put off, and for which no cycle was added, shares the get cycle that comes after the last put cycle with the
read the Cpu makes in it (log entry 4). -/
def sharedFetch (s : State) : State :=
  if s.dma.late && s.dma.dmcPending then
    let t := dmcTake s
    { t with dma := { t.dma with late := false } }
  else s

/-- Everything the DMA units do in front of a read cycle of the Cpu (R103, R105, R106): an OAM DMA, then a delta-modulation fetch,
and a second one when the cycle of the first emptied the sample buffer again (R395; a third cannot be pending, as at
`oamPairs`). -/
def stalls (s : State) : State := dmcDma (dmcDma (sharedFetch (oamDma s)))

/-! ## The Cpu's cycles -/

/-- The interrupt poll (R346). -/
def poll (s : State) : State :=
  { s with
    cpu :=
      { s.cpu with
        intDetected := s.cpu.intDetected || s.cpu.nmiPending || (s.cpu.irqLevel && !s.cpu.regs.p.i) } }

/-- Change the Cpu's registers and flags. -/
def State.mapRegs (s : State) (f : Regs → Regs) : State := { s with cpu := { s.cpu with regs := f s.cpu.regs } }

/-- Change the progress fields. -/
def State.mapProg (s : State) (f : Progress → Progress) : State := { s with cpu := { s.cpu with prog := f s.cpu.prog } }

/-- The machine at the start of a read cycle: DMA has had its cycles, the poll is made when the cycle is a poll point
(R325), the micro-op position advances (R29). -/
def beginRead (polled : Bool) (s : State) : State :=
  let t := stalls s
  (if polled then poll t else t).mapProg (fun g => { g with tcycle := g.tcycle + 1 })

/-- The byte a read cycle of the Cpu reads. -/
def readValue (polled : Bool) (a : Addr) (s : State) : Byte := busValue a (beginRead polled s)

/-- The machine after a read cycle of the Cpu (R300, R430). -/
def readCycle (polled : Bool) (a : Addr) (s : State) : State := endCycle false (busAfterRead a (beginRead polled s))

/-- The machine after a write cycle of the Cpu (R300, R430): DMA cannot stop the Cpu in front of it (R105). -/
def writeCycle (polled : Bool) (a : Addr) (v : Byte) (s : State) : State :=
  endCycle true (busWrite a v ((if polled then poll s else s).mapProg (fun g => { g with tcycle := g.tcycle + 1 })))

/-- `PC++` (R301). -/
def Regs.incPc (r : Regs) : Regs := { r with pc := r.pc + 1 }

/-- Cycle 1 of every instruction: `R pc0`, `ir <- byte`, `PC++` (R301). -/
def fetchOpcode (s : State) : State :=
  let b := readValue false s.cpu.regs.pc s
  ((readCycle false s.cpu.regs.pc s).mapProg (fun g => { g with ir := .opcode b })).mapRegs Regs.incPc

/-- A cycle that reads the byte at PC and steps PC; the byte goes where `f` puts it. -/
def fetchOperand (polled : Bool) (f : Progress → Progress) (s : State) : State :=
  ((readCycle polled s.cpu.regs.pc s).mapProg f).mapRegs Regs.incPc

/-- A dummy read of the byte at PC (R300). -/
def dummyFetch (polled : Bool) (s : State) : State := readCycle polled s.cpu.regs.pc s

/-- The end of an instruction or sequence: at the boundary the progress fields carry no information (R47). -/
def finish (s : State) : State := s.mapProg (fun _ => Progress.idle)

/-! ## The stack (R13, R21) -/

/-- The byte addressed by the stack pointer: `0x0100 + S`. -/
def Regs.stackAddr (r : Regs) : Addr := word 0x01 r.s

/-- `S <- (S - 1) mod 256`. -/
def Regs.decS (r : Regs) : Regs := { r with s := r.s - 1 }

/-- `S <- (S + 1) mod 256`. -/
def Regs.incS (r : Regs) : Regs := { r with s := r.s + 1 }

/-- `Push(v)`, one write cycle. -/
def push (polled : Bool) (v : Byte) (s : State) : State :=
  (writeCycle polled s.cpu.regs.stackAddr v s).mapRegs Regs.decS

/-- The dummy read of the stack before a pull, and the increment of S (R314, R315, R318). -/
def beforePull (s : State) : State := (readCycle false s.cpu.regs.stackAddr s).mapRegs Regs.incS

/-- The byte a read cycle at `0x0100 + S` reads. -/
def stackValue (polled : Bool) (s : State) : Byte := readValue polled s.cpu.regs.stackAddr s

/-- A read cycle at `0x0100 + S`. -/
def stackRead (polled : Bool) (s : State) : State := readCycle polled s.cpu.regs.stackAddr s

/-! ## Taking an interrupt and returning from one -/

/-- The vector chosen in the cycle that pushes P (R350): NMI when one is pending, else IRQ. -/
def State.chosenVector (s : State) : Addr := if s.cpu.nmiPending then Config.nmiVector else Config.irqVector

/-- Choosing the NMI vector clears `nmi_pending`; `nmi_pending` is 0 after the choice either way (R350). -/
def clearNmi (s : State) : State := { s with cpu := { s.cpu with nmiPending := false } }

/-- `PCL <- l` (R11). -/
def Regs.setPcl (l : Byte) (r : Regs) : Regs := { r with pc := word (hi r.pc) l }

/-- `PCH <- h` (R11). -/
def Regs.setPch (h : Byte) (r : Regs) : Regs := { r with pc := word h (lo r.pc) }

/-- `P.I <- 1`. -/
def Regs.setI (r : Regs) : Regs := { r with p := { r.p with i := true } }

/-- Load PC from a vector in two read cycles, low byte first, setting I in the first (R316, R319, R320); no poll. -/
def loadVector (vec : Addr) (s : State) : State :=
  let l := readValue false vec s
  let t := (readCycle false vec s).mapRegs (fun r => (r.setPcl l).setI)
  let h := readValue false (vec + 1) t
  (readCycle false (vec + 1) t).mapRegs (Regs.setPch h)

/-- TAKING AN INTERRUPT (R349, R350; cycles 3 to 7 of R316 and R319): push PCH, PCL and P with the B bit `b`, choose the
vector in the cycle that pushes P, set I, load PC from the vector. A, X, Y and the flags N, V, D, Z, C do not change. -/
def enterInterrupt (b : Bool) (s : State) : State :=
  let s1 := push false (hi s.cpu.regs.pc) s
  let s2 := push false (lo s.cpu.regs.pc) s1
  let s3 := push false (s2.cpu.regs.p.pack b) (clearNmi s2)
  loadVector s2.chosenVector s3

/-- The hardware interrupt sequence (R319), 7 cycles: two dummy reads at PC, then the entry with B = 0. -/
def interruptSequence (s : State) : State :=
  let s1 := (dummyFetch false (s.mapProg (fun g => { g with ir := .int })))
  let s2 := dummyFetch false { s1 with cpu := { s1.cpu with intDetected := false } }
  finish (enterInterrupt false s2)

/-- The RETURN FROM INTERRUPT (R249; cycles 3 to 6 of R315): pull P in cycle 4, then PC; the poll of cycle 6 uses the pulled
I. -/
def leaveInterrupt (s : State) : State :=
  let s3 := beforePull s
  let p := stackValue false s3
  let s4 := (stackRead false s3).mapRegs (fun r => { r with p := Flags.unpack p, s := r.s + 1 })
  let l := stackValue false s4
  let s5 := (stackRead false s4).mapRegs (fun r => (r.setPcl l).incS)
  let h := stackValue true s5
  (stackRead true s5).mapRegs (Regs.setPch h)

/-- The reset sequence (R320), 7 cycles: the interrupt sequence with its three writes turned into reads. -/
def resetSequence (s : State) : State :=
  let s2 := dummyFetch false (dummyFetch false (s.mapProg (fun g => { g with ir := .int })))
  let down (t : State) : State := (readCycle false t.cpu.regs.stackAddr t).mapRegs Regs.decS
  finish (loadVector Config.resetVector (down (down (down s2))))

/-- A cycle of the halted Cpu (R321, R359, R430): nothing on the bus, unless a DMA unit owns the cycle; a halted cycle counts
as a read cycle for a delta-modulation fetch. -/
def haltedCycle (s : State) : State :=
  if s.dma.dmcPending then dmcStallCycle s else endCycle false s

end Sys2Proof.Machine
end

