-- ==== Sys2Proof/Machine/Operands.lean ====
section
/-! DEFINITION. The operand forms: one shape per addressing mode and kind of access (spec/30_encoding.md R122 to R133;
spec/47_bus_cycle_sequences.md R302 to R310), cycle by cycle. A shape takes the instruction's operation; the bytes of the
operand are the instruction's own (the bus reads that fetch them are made and their bytes dropped, log entry 10). -/

namespace Sys2Proof.Machine

/-- The addressing modes with an address in memory (R122). -/
inductive AddrMode where
  | zp | zpx | zpy | abs | abx | aby | izx | izy
  deriving DecidableEq, Repr

/-- The modes with the cycle that reads at `EA_unfixed` (R307, R309). -/
def AddrMode.indexed : AddrMode → Bool
  | .abx => true
  | .aby => true
  | .izy => true
  | .zp => false
  | .zpx => false
  | .zpy => false
  | .abs => false
  | .izx => false

/-! ## Effective addresses (R125 to R130) -/

/-- Mode zp (R125): page 0. -/
def eaZp (d8 : Byte) : Addr := word 0 d8

/-- Modes zpx and zpy (R126): the sum wraps inside page 0. -/
def eaZpIndexed (d8 index : Byte) : Addr := word 0 (d8 + index)

/-- Modes abx and aby (R128): the sum wraps at 65536. -/
def eaIndexed (base : Addr) (index : Byte) : Addr := base + index.setWidth 16

/-- `crossed` (R128, R130): the sum of the low bytes carries. -/
def crossed (base : Addr) (index : Byte) : Bool := decide (256 ≤ (lo base).toNat + index.toNat)

/-- `EA_unfixed` (R128, R130): the address before the carry into the high byte. -/
def eaUnfixed (base : Addr) (index : Byte) : Addr := word (hi base) (lo base + index)

/-- `sext_16` of a byte (R10). -/
def sext (d8 : Byte) : Addr := d8.signExtend 16

/-! ## The address cycles -/

/-- The address `{adh, adl}`. -/
def State.target (s : State) : Addr := word s.cpu.prog.adh s.cpu.prog.adl

/-- Cycles 1 and 2 of mode zp (R304): `adl` is the operand. -/
def addrZp (d8 : Byte) (s : State) : State :=
  fetchOperand false (fun g => { g with adl := d8, adh := 0 }) (fetchOpcode s)

/-- Cycles 1 to 3 of modes zpx and zpy (R305): the dummy read at `{00, d8}`, then `adl <- (d8 + index) mod 256`. -/
def addrZpIndexed (index : Regs → Byte) (d8 : Byte) (s : State) : State :=
  let t := addrZp d8 s
  (readCycle false t.target t).mapProg (fun g => { g with adl := g.adl + index t.cpu.regs })

/-- Cycles 1 to 3 of mode abs (R306). -/
def addrAbs (a16 : Addr) (s : State) : State :=
  fetchOperand false (fun g => { g with adh := hi a16 })
    (fetchOperand false (fun g => { g with adl := lo a16 }) (fetchOpcode s))

/-- Add an index to `adl`, keeping the carry in `fixup` (R307, R309). -/
def Progress.addIndex (index : Byte) (g : Progress) : Progress :=
  { g with fixup := decide (256 ≤ g.adl.toNat + index.toNat), adl := g.adl + index }

/-- Cycles 1 to 3 of modes abx and aby (R307). -/
def addrIndexed (index : Regs → Byte) (a16 : Addr) (s : State) : State :=
  let t := addrAbs a16 s
  t.mapProg (Progress.addIndex (index t.cpu.regs))

/-- The two cycles that read a pointer in page 0, low byte first, its high byte from `(ptr + 1) mod 256` (R129, R130). -/
def readPointer (s : State) : State :=
  let l := word 0 s.cpu.prog.ptr
  let t := (readCycle false l s).mapProg (fun g => { g with adl := readValue false l s })
  let h := word 0 (s.cpu.prog.ptr + 1)
  (readCycle false h t).mapProg (fun g => { g with adh := readValue false h t })

/-- Cycles 1 to 5 of mode izx (R129, R308): the dummy read at `{00, d8}`, `ptr <- (d8 + X) mod 256`, the pointer. -/
def addrIzx (d8 : Byte) (s : State) : State :=
  let t := addrZp d8 s
  readPointer ((readCycle false t.target t).mapProg (fun g => { g with ptr := d8 + t.cpu.regs.x }))

/-- Cycles 1 to 4 of mode izy (R130, R309): the pointer, then Y added to its low byte. -/
def addrIzy (d8 : Byte) (s : State) : State :=
  let t := readPointer (fetchOperand false (fun g => { g with ptr := d8 }) (fetchOpcode s))
  t.mapProg (Progress.addIndex t.cpu.regs.y)

/-- The read at `EA_unfixed` whose byte is dropped, and the carry into `adh` (R307, R309). -/
def fixupCycle (s : State) : State :=
  (readCycle false s.target s).mapProg
    (fun g => { g with adh := g.adh + (BitVec.ofBool g.fixup).setWidth 8 })

/-! ## The access cycles -/

/-- The final cycle of a read instruction: `op(m)`. -/
def readTarget (op : Byte → Regs → Regs) (s : State) : State :=
  finish ((readCycle true s.target s).mapRegs (op (readValue true s.target s)))

/-- The last cycles of a read instruction in modes abx, aby and izy: one more cycle when the page is crossed (R307, R309,
R324). -/
def readTargetFixed (op : Byte → Regs → Regs) (s : State) : State :=
  if s.cpu.prog.fixup then readTarget op (fixupCycle s) else readTarget op s

/-- The final cycle of a store. -/
def storeTarget (val : Regs → Byte) (s : State) : State := finish (writeCycle true s.target (val s.cpu.regs) s)

/-- The last three cycles of a read-modify-write instruction (R210, R304): `old` is read, written back, then `new` is
written. -/
def rmwTarget (new : Flags → Byte → Byte) (op : Byte → Regs → Regs) (s : State) : State :=
  let old := readValue false s.target s
  let t := (readCycle false s.target s).mapProg (fun g => { g with data := old })
  let u := writeCycle false t.target t.cpu.prog.data t
  finish ((writeCycle true u.target (new u.cpu.regs.p old) u).mapRegs (op old))

/-- The last two cycles of SHA, SHX, SHY and TAS (R288 to R292): `v` is the register value and the base address's high byte
plus 1; on a page cross `v` is also the high byte of the address written. -/
def storeUnstable (val : Regs → Byte) (op : Regs → Regs) (s : State) : State :=
  let v := val s.cpu.regs &&& (s.cpu.prog.adh + 1)
  let t := fixupCycle s
  finish ((writeCycle true (if t.cpu.prog.fixup then word v t.cpu.prog.adl else t.target) v t).mapRegs op)

/-! ## The shapes: read instructions -/

/-- Modes imp and acc (R302). -/
def implied (op : Regs → Regs) (s : State) : State := finish ((dummyFetch true (fetchOpcode s)).mapRegs op)

/-- Mode imm (R303). -/
def readImm (op : Byte → Regs → Regs) (d8 : Byte) (s : State) : State :=
  finish ((fetchOperand true (fun g => { g with data := d8 }) (fetchOpcode s)).mapRegs (op d8))

/-- Mode zp, read (R304). -/
def readZp (op : Byte → Regs → Regs) (d8 : Byte) (s : State) : State := readTarget op (addrZp d8 s)

/-- Mode zpx, read (R305). -/
def readZpx (op : Byte → Regs → Regs) (d8 : Byte) (s : State) : State := readTarget op (addrZpIndexed Regs.x d8 s)

/-- Mode zpy, read (R305). -/
def readZpy (op : Byte → Regs → Regs) (d8 : Byte) (s : State) : State := readTarget op (addrZpIndexed Regs.y d8 s)

/-- Mode abs, read (R306). -/
def readAbs (op : Byte → Regs → Regs) (a16 : Addr) (s : State) : State := readTarget op (addrAbs a16 s)

/-- Mode abx, read (R307). -/
def readAbx (op : Byte → Regs → Regs) (a16 : Addr) (s : State) : State := readTargetFixed op (addrIndexed Regs.x a16 s)

/-- Mode aby, read (R307). -/
def readAby (op : Byte → Regs → Regs) (a16 : Addr) (s : State) : State := readTargetFixed op (addrIndexed Regs.y a16 s)

/-- Mode izx, read (R308). -/
def readIzx (op : Byte → Regs → Regs) (d8 : Byte) (s : State) : State := readTarget op (addrIzx d8 s)

/-- Mode izy, read (R309). -/
def readIzy (op : Byte → Regs → Regs) (d8 : Byte) (s : State) : State := readTargetFixed op (addrIzy d8 s)

/-! ## The shapes: stores -/

/-- Mode zp, store (R304). -/
def storeZp (val : Regs → Byte) (d8 : Byte) (s : State) : State := storeTarget val (addrZp d8 s)

/-- Mode zpx, store (R305). -/
def storeZpx (val : Regs → Byte) (d8 : Byte) (s : State) : State := storeTarget val (addrZpIndexed Regs.x d8 s)

/-- Mode zpy, store (R305). -/
def storeZpy (val : Regs → Byte) (d8 : Byte) (s : State) : State := storeTarget val (addrZpIndexed Regs.y d8 s)

/-- Mode abs, store (R306). -/
def storeAbs (val : Regs → Byte) (a16 : Addr) (s : State) : State := storeTarget val (addrAbs a16 s)

/-- Mode abx, store (R307): always the read at `EA_unfixed` first. -/
def storeAbx (val : Regs → Byte) (a16 : Addr) (s : State) : State :=
  storeTarget val (fixupCycle (addrIndexed Regs.x a16 s))

/-- Mode aby, store (R307). -/
def storeAby (val : Regs → Byte) (a16 : Addr) (s : State) : State :=
  storeTarget val (fixupCycle (addrIndexed Regs.y a16 s))

/-- Mode izx, store (R308). -/
def storeIzx (val : Regs → Byte) (d8 : Byte) (s : State) : State := storeTarget val (addrIzx d8 s)

/-- Mode izy, store (R309). -/
def storeIzy (val : Regs → Byte) (d8 : Byte) (s : State) : State := storeTarget val (fixupCycle (addrIzy d8 s))

/-! ## The shapes: read-modify-write -/

/-- Mode zp, read-modify-write (R304). -/
def rmwZp (new : Flags → Byte → Byte) (op : Byte → Regs → Regs) (d8 : Byte) (s : State) : State :=
  rmwTarget new op (addrZp d8 s)

/-- Mode zpx, read-modify-write (R305). -/
def rmwZpx (new : Flags → Byte → Byte) (op : Byte → Regs → Regs) (d8 : Byte) (s : State) : State :=
  rmwTarget new op (addrZpIndexed Regs.x d8 s)

/-- Mode abs, read-modify-write (R306). -/
def rmwAbs (new : Flags → Byte → Byte) (op : Byte → Regs → Regs) (a16 : Addr) (s : State) : State :=
  rmwTarget new op (addrAbs a16 s)

/-- Mode abx, read-modify-write (R307): always 7 cycles. -/
def rmwAbx (new : Flags → Byte → Byte) (op : Byte → Regs → Regs) (a16 : Addr) (s : State) : State :=
  rmwTarget new op (fixupCycle (addrIndexed Regs.x a16 s))

/-- Mode aby, read-modify-write (R307). -/
def rmwAby (new : Flags → Byte → Byte) (op : Byte → Regs → Regs) (a16 : Addr) (s : State) : State :=
  rmwTarget new op (fixupCycle (addrIndexed Regs.y a16 s))

/-- Mode izx, read-modify-write (R308). -/
def rmwIzx (new : Flags → Byte → Byte) (op : Byte → Regs → Regs) (d8 : Byte) (s : State) : State :=
  rmwTarget new op (addrIzx d8 s)

/-- Mode izy, read-modify-write (R309). -/
def rmwIzy (new : Flags → Byte → Byte) (op : Byte → Regs → Regs) (d8 : Byte) (s : State) : State :=
  rmwTarget new op (fixupCycle (addrIzy d8 s))

/-! ## The shapes: the unstable stores -/

/-- Modes abx and aby of SHA, SHX, SHY and TAS (R288 to R291). -/
def storeUnstableAbx (val : Regs → Byte) (op : Regs → Regs) (a16 : Addr) (s : State) : State :=
  storeUnstable val op (addrIndexed Regs.x a16 s)

@[inherit_doc storeUnstableAbx]
def storeUnstableAby (val : Regs → Byte) (op : Regs → Regs) (a16 : Addr) (s : State) : State :=
  storeUnstable val op (addrIndexed Regs.y a16 s)

/-- Mode izy of SHA (R288). -/
def storeUnstableIzy (val : Regs → Byte) (op : Regs → Regs) (d8 : Byte) (s : State) : State :=
  storeUnstable val op (addrIzy d8 s)

/-! ## What the operations do to the registers -/

/-- `A <- v; SetNZ(A)`. -/
def Regs.setA (v : Byte) (r : Regs) : Regs := { r with a := v, p := r.p.setNZ v }

/-- `X <- v; SetNZ(X)`. -/
def Regs.setX (v : Byte) (r : Regs) : Regs := { r with x := v, p := r.p.setNZ v }

/-- `Y <- v; SetNZ(Y)`. -/
def Regs.setY (v : Byte) (r : Regs) : Regs := { r with y := v, p := r.p.setNZ v }

/-- Change the flags. -/
def Regs.mapP (f : Flags → Flags) (r : Regs) : Regs := { r with p := f r.p }

/-- The addition of R186: `A`, N, V, Z, C from `A + m + C`. -/
def Regs.add (m : Byte) (r : Regs) : Regs := { r with a := sumByte r.a m r.p.c, p := r.p.afterSum r.a m r.p.c }

/-- The subtraction of R187: the addition of the complement. -/
def Regs.sub (m : Byte) (r : Regs) : Regs := r.add (m ^^^ 0xFF)

/-- No register changes. -/
def Regs.same (r : Regs) : Regs := r

end Sys2Proof.Machine
end

