-- ==== Sys2Proof/Machine/Control.lean ====
section
/-! DEFINITION. The meanings of control transfer (spec/44_control_transfer.md R220 to R233; spec/47_bus_cycle_sequences.md R310 to R314). -/

namespace Sys2Proof.Machine

/-- Set PC. -/
def State.jump (s : State) (a : Addr) : State := s.mapRegs (fun r => { r with pc := a })

/-- A conditional branch (R131, R224, R310): polls in cycle 2 and, when the page is crossed, in cycle 4 (R325). -/
def branch (cond : Flags → Bool) (d8 : Byte) (s : State) : State :=
  let t := fetchOperand true (fun g => { g with data := d8 }) (fetchOpcode s)
  if cond t.cpu.regs.p then
    let next := t.cpu.regs.pc
    let target := next + sext d8
    let u := (dummyFetch false t).jump (word (hi next) (lo target))
    if hi target = hi next then finish u else finish ((dummyFetch true u).jump target)
  else finish t

/-- JMP absolute (R220, R311). -/
def jmpAbs (a16 : Addr) (s : State) : State :=
  let t := fetchOperand false (fun g => { g with adl := lo a16 }) (fetchOpcode s)
  finish ((dummyFetch true t).jump (word (hi a16) t.cpu.prog.adl))

/-- JMP indirect (R132, R221, R312): both pointer bytes come from one page. -/
def jmpInd (a16 : Addr) (s : State) : State :=
  let t := addrAbs a16 s
  let u := (readCycle false t.target t).mapProg (fun g => { g with data := readValue false t.target t })
  let b := word u.cpu.prog.adh (u.cpu.prog.adl + 1)
  finish ((readCycle true b u).jump (word (readValue true b u) u.cpu.prog.data))

/-- JSR (R222, R313): the high byte of the target is read after the two pushes. -/
def jumpSubroutine (a16 : Addr) (s : State) : State :=
  let t := fetchOperand false (fun g => { g with adl := lo a16 }) (fetchOpcode s)
  let u := stackRead false t
  let v := push false (hi u.cpu.regs.pc) u
  let w := push false (lo v.cpu.regs.pc) v
  finish ((dummyFetch true w).jump (word (readValue true w.cpu.regs.pc w) w.cpu.prog.adl))

/-- RTS (R223, R314): the pulled address plus 1. -/
def returnSubroutine (s : State) : State :=
  let t := beforePull (dummyFetch false (fetchOpcode s))
  let u := (stackRead false t).mapRegs (fun r => (r.setPcl (stackValue false t)).incS)
  let w := (stackRead false u).mapRegs (Regs.setPch (stackValue false u))
  finish ((dummyFetch true w).mapRegs Regs.incPc)

/-- `BPL label`, opcode 0x10 (R225). -/
def execBpl (d8 : Byte) (s : State) : Result :=
  .next (branch (fun p => !p.n) d8 s)

/-- `JSR $hhll`, opcode 0x20 (R222). -/
def execJsr (a16 : Addr) (s : State) : Result :=
  .next (jumpSubroutine a16 s)

/-- `BMI label`, opcode 0x30 (R226). -/
def execBmi (d8 : Byte) (s : State) : Result :=
  .next (branch Flags.n d8 s)

/-- `JMP $hhll`, opcode 0x4C (R220). -/
def execJmpAbs (a16 : Addr) (s : State) : Result :=
  .next (jmpAbs a16 s)

/-- `BVC label`, opcode 0x50 (R227). -/
def execBvc (d8 : Byte) (s : State) : Result :=
  .next (branch (fun p => !p.v) d8 s)

/-- `RTS`, opcode 0x60 (R223). -/
def execRts (s : State) : Result :=
  .next (returnSubroutine s)

/-- `JMP ($hhll)`, opcode 0x6C (R221). -/
def execJmpInd (a16 : Addr) (s : State) : Result :=
  .next (jmpInd a16 s)

/-- `BVS label`, opcode 0x70 (R228). -/
def execBvs (d8 : Byte) (s : State) : Result :=
  .next (branch Flags.v d8 s)

/-- `BCC label`, opcode 0x90 (R229). -/
def execBcc (d8 : Byte) (s : State) : Result :=
  .next (branch (fun p => !p.c) d8 s)

/-- `BCS label`, opcode 0xB0 (R230). -/
def execBcs (d8 : Byte) (s : State) : Result :=
  .next (branch Flags.c d8 s)

/-- `BNE label`, opcode 0xD0 (R231). -/
def execBne (d8 : Byte) (s : State) : Result :=
  .next (branch (fun p => !p.z) d8 s)

/-- `BEQ label`, opcode 0xF0 (R232). -/
def execBeq (d8 : Byte) (s : State) : Result :=
  .next (branch Flags.z d8 s)

end Sys2Proof.Machine
end

