-- ==== Sys2Proof/Machine/FlagsSystem.lean ====
section
/-! DEFINITION. The meanings of flag and system instructions (spec/45_flags_system.md R240 to R250). -/

namespace Sys2Proof.Machine

/-- `BRK`, opcode 0x00 (R248). -/
def execBrk (s : State) : Result :=
  .next (finish (enterInterrupt true (fetchOperand false id (fetchOpcode s))))

/-- `CLC`, opcode 0x18 (R240). -/
def execClc (s : State) : Result :=
  .next (implied (fun r => r.mapP ({ · with c := false })) s)

/-- `SEC`, opcode 0x38 (R241). -/
def execSec (s : State) : Result :=
  .next (implied (fun r => r.mapP ({ · with c := true })) s)

/-- `RTI`, opcode 0x40 (R249). -/
def execRti (s : State) : Result :=
  .next (finish (leaveInterrupt (dummyFetch false (fetchOpcode s))))

/-- `CLI`, opcode 0x58 (R242). -/
def execCli (s : State) : Result :=
  .next (implied (fun r => r.mapP ({ · with i := false })) s)

/-- `SEI`, opcode 0x78 (R243). -/
def execSei (s : State) : Result :=
  .next (implied (fun r => r.mapP ({ · with i := true })) s)

/-- `CLV`, opcode 0xB8 (R244). -/
def execClv (s : State) : Result :=
  .next (implied (fun r => r.mapP ({ · with v := false })) s)

/-- `CLD`, opcode 0xD8 (R245). -/
def execCld (s : State) : Result :=
  .next (implied (fun r => r.mapP ({ · with d := false })) s)

/-- `NOP`, opcode 0xEA (R247). -/
def execNop (s : State) : Result :=
  .next (implied Regs.same s)

/-- `SED`, opcode 0xF8 (R246). -/
def execSed (s : State) : Result :=
  .next (implied (fun r => r.mapP ({ · with d := true })) s)

end Sys2Proof.Machine
end

