-- ==== Sys2Proof/Machine/LoadStore.lean ====
section
/-! DEFINITION. The meanings of loads, stores and register transfers (spec/40_load_store_transfer.md R150 to R162). -/

namespace Sys2Proof.Machine

/-- `STA ($dd,X)`, opcode 0x81 (R154). -/
def execStaIzx (d8 : Byte) (s : State) : Result :=
  .next (storeIzx Regs.a d8 s)

/-- `STY $dd`, opcode 0x84 (R156). -/
def execStyZp (d8 : Byte) (s : State) : Result :=
  .next (storeZp Regs.y d8 s)

/-- `STA $dd`, opcode 0x85 (R154). -/
def execStaZp (d8 : Byte) (s : State) : Result :=
  .next (storeZp Regs.a d8 s)

/-- `STX $dd`, opcode 0x86 (R155). -/
def execStxZp (d8 : Byte) (s : State) : Result :=
  .next (storeZp Regs.x d8 s)

/-- `TXA`, opcode 0x8A (R159). -/
def execTxa (s : State) : Result :=
  .next (implied (fun r => r.setA r.x) s)

/-- `STY $hhll`, opcode 0x8C (R156). -/
def execStyAbs (a16 : Addr) (s : State) : Result :=
  .next (storeAbs Regs.y a16 s)

/-- `STA $hhll`, opcode 0x8D (R154). -/
def execStaAbs (a16 : Addr) (s : State) : Result :=
  .next (storeAbs Regs.a a16 s)

/-- `STX $hhll`, opcode 0x8E (R155). -/
def execStxAbs (a16 : Addr) (s : State) : Result :=
  .next (storeAbs Regs.x a16 s)

/-- `STA ($dd),Y`, opcode 0x91 (R154). -/
def execStaIzy (d8 : Byte) (s : State) : Result :=
  .next (storeIzy Regs.a d8 s)

/-- `STY $dd,X`, opcode 0x94 (R156). -/
def execStyZpx (d8 : Byte) (s : State) : Result :=
  .next (storeZpx Regs.y d8 s)

/-- `STA $dd,X`, opcode 0x95 (R154). -/
def execStaZpx (d8 : Byte) (s : State) : Result :=
  .next (storeZpx Regs.a d8 s)

/-- `STX $dd,Y`, opcode 0x96 (R155). -/
def execStxZpy (d8 : Byte) (s : State) : Result :=
  .next (storeZpy Regs.x d8 s)

/-- `TYA`, opcode 0x98 (R160). -/
def execTya (s : State) : Result :=
  .next (implied (fun r => r.setA r.y) s)

/-- `STA $hhll,Y`, opcode 0x99 (R154). -/
def execStaAby (a16 : Addr) (s : State) : Result :=
  .next (storeAby Regs.a a16 s)

/-- `TXS`, opcode 0x9A (R162). -/
def execTxs (s : State) : Result :=
  .next (implied (fun r => { r with s := r.x }) s)

/-- `STA $hhll,X`, opcode 0x9D (R154). -/
def execStaAbx (a16 : Addr) (s : State) : Result :=
  .next (storeAbx Regs.a a16 s)

/-- `LDY #$dd`, opcode 0xA0 (R153). -/
def execLdyImm (d8 : Byte) (s : State) : Result :=
  .next (readImm Regs.setY d8 s)

/-- `LDA ($dd,X)`, opcode 0xA1 (R151). -/
def execLdaIzx (d8 : Byte) (s : State) : Result :=
  .next (readIzx Regs.setA d8 s)

/-- `LDX #$dd`, opcode 0xA2 (R152). -/
def execLdxImm (d8 : Byte) (s : State) : Result :=
  .next (readImm Regs.setX d8 s)

/-- `LDY $dd`, opcode 0xA4 (R153). -/
def execLdyZp (d8 : Byte) (s : State) : Result :=
  .next (readZp Regs.setY d8 s)

/-- `LDA $dd`, opcode 0xA5 (R151). -/
def execLdaZp (d8 : Byte) (s : State) : Result :=
  .next (readZp Regs.setA d8 s)

/-- `LDX $dd`, opcode 0xA6 (R152). -/
def execLdxZp (d8 : Byte) (s : State) : Result :=
  .next (readZp Regs.setX d8 s)

/-- `TAY`, opcode 0xA8 (R158). -/
def execTay (s : State) : Result :=
  .next (implied (fun r => r.setY r.a) s)

/-- `LDA #$dd`, opcode 0xA9 (R151). -/
def execLdaImm (d8 : Byte) (s : State) : Result :=
  .next (readImm Regs.setA d8 s)

/-- `TAX`, opcode 0xAA (R157). -/
def execTax (s : State) : Result :=
  .next (implied (fun r => r.setX r.a) s)

/-- `LDY $hhll`, opcode 0xAC (R153). -/
def execLdyAbs (a16 : Addr) (s : State) : Result :=
  .next (readAbs Regs.setY a16 s)

/-- `LDA $hhll`, opcode 0xAD (R151). -/
def execLdaAbs (a16 : Addr) (s : State) : Result :=
  .next (readAbs Regs.setA a16 s)

/-- `LDX $hhll`, opcode 0xAE (R152). -/
def execLdxAbs (a16 : Addr) (s : State) : Result :=
  .next (readAbs Regs.setX a16 s)

/-- `LDA ($dd),Y`, opcode 0xB1 (R151). -/
def execLdaIzy (d8 : Byte) (s : State) : Result :=
  .next (readIzy Regs.setA d8 s)

/-- `LDY $dd,X`, opcode 0xB4 (R153). -/
def execLdyZpx (d8 : Byte) (s : State) : Result :=
  .next (readZpx Regs.setY d8 s)

/-- `LDA $dd,X`, opcode 0xB5 (R151). -/
def execLdaZpx (d8 : Byte) (s : State) : Result :=
  .next (readZpx Regs.setA d8 s)

/-- `LDX $dd,Y`, opcode 0xB6 (R152). -/
def execLdxZpy (d8 : Byte) (s : State) : Result :=
  .next (readZpy Regs.setX d8 s)

/-- `LDA $hhll,Y`, opcode 0xB9 (R151). -/
def execLdaAby (a16 : Addr) (s : State) : Result :=
  .next (readAby Regs.setA a16 s)

/-- `TSX`, opcode 0xBA (R161). -/
def execTsx (s : State) : Result :=
  .next (implied (fun r => r.setX r.s) s)

/-- `LDY $hhll,X`, opcode 0xBC (R153). -/
def execLdyAbx (a16 : Addr) (s : State) : Result :=
  .next (readAbx Regs.setY a16 s)

/-- `LDA $hhll,X`, opcode 0xBD (R151). -/
def execLdaAbx (a16 : Addr) (s : State) : Result :=
  .next (readAbx Regs.setA a16 s)

/-- `LDX $hhll,Y`, opcode 0xBE (R152). -/
def execLdxAby (a16 : Addr) (s : State) : Result :=
  .next (readAby Regs.setX a16 s)

end Sys2Proof.Machine
end

