-- ==== Sys2Proof/Machine/LogicArith.lean ====
section
/-! DEFINITION. The meanings of logic, arithmetic and compare (spec/42_logic_arithmetic.md R180 to R190). -/

namespace Sys2Proof.Machine

/-- BIT (R183): Z from the and, N and V from bits 7 and 6 of the byte; A is not changed. -/
def Regs.bit (m : Byte) (r : Regs) : Regs :=
  { r with p := { r.p with z := r.a &&& m == 0, n := m.getLsbD 7, v := m.getLsbD 6 } }

/-- CMP, CPX, CPY (R188 to R190). -/
def Regs.compareA (m : Byte) (r : Regs) : Regs := { r with p := r.p.afterCompare r.a m }
@[inherit_doc Regs.compareA] def Regs.compareX (m : Byte) (r : Regs) : Regs := { r with p := r.p.afterCompare r.x m }
@[inherit_doc Regs.compareA] def Regs.compareY (m : Byte) (r : Regs) : Regs := { r with p := r.p.afterCompare r.y m }

/-- `ORA ($dd,X)`, opcode 0x01 (R181). -/
def execOraIzx (d8 : Byte) (s : State) : Result :=
  .next (readIzx (fun m r => r.setA (r.a ||| m)) d8 s)

/-- `ORA $dd`, opcode 0x05 (R181). -/
def execOraZp (d8 : Byte) (s : State) : Result :=
  .next (readZp (fun m r => r.setA (r.a ||| m)) d8 s)

/-- `ORA #$dd`, opcode 0x09 (R181). -/
def execOraImm (d8 : Byte) (s : State) : Result :=
  .next (readImm (fun m r => r.setA (r.a ||| m)) d8 s)

/-- `ORA $hhll`, opcode 0x0D (R181). -/
def execOraAbs (a16 : Addr) (s : State) : Result :=
  .next (readAbs (fun m r => r.setA (r.a ||| m)) a16 s)

/-- `ORA ($dd),Y`, opcode 0x11 (R181). -/
def execOraIzy (d8 : Byte) (s : State) : Result :=
  .next (readIzy (fun m r => r.setA (r.a ||| m)) d8 s)

/-- `ORA $dd,X`, opcode 0x15 (R181). -/
def execOraZpx (d8 : Byte) (s : State) : Result :=
  .next (readZpx (fun m r => r.setA (r.a ||| m)) d8 s)

/-- `ORA $hhll,Y`, opcode 0x19 (R181). -/
def execOraAby (a16 : Addr) (s : State) : Result :=
  .next (readAby (fun m r => r.setA (r.a ||| m)) a16 s)

/-- `ORA $hhll,X`, opcode 0x1D (R181). -/
def execOraAbx (a16 : Addr) (s : State) : Result :=
  .next (readAbx (fun m r => r.setA (r.a ||| m)) a16 s)

/-- `AND ($dd,X)`, opcode 0x21 (R180). -/
def execAndIzx (d8 : Byte) (s : State) : Result :=
  .next (readIzx (fun m r => r.setA (r.a &&& m)) d8 s)

/-- `BIT $dd`, opcode 0x24 (R183). -/
def execBitZp (d8 : Byte) (s : State) : Result :=
  .next (readZp Regs.bit d8 s)

/-- `AND $dd`, opcode 0x25 (R180). -/
def execAndZp (d8 : Byte) (s : State) : Result :=
  .next (readZp (fun m r => r.setA (r.a &&& m)) d8 s)

/-- `AND #$dd`, opcode 0x29 (R180). -/
def execAndImm (d8 : Byte) (s : State) : Result :=
  .next (readImm (fun m r => r.setA (r.a &&& m)) d8 s)

/-- `BIT $hhll`, opcode 0x2C (R183). -/
def execBitAbs (a16 : Addr) (s : State) : Result :=
  .next (readAbs Regs.bit a16 s)

/-- `AND $hhll`, opcode 0x2D (R180). -/
def execAndAbs (a16 : Addr) (s : State) : Result :=
  .next (readAbs (fun m r => r.setA (r.a &&& m)) a16 s)

/-- `AND ($dd),Y`, opcode 0x31 (R180). -/
def execAndIzy (d8 : Byte) (s : State) : Result :=
  .next (readIzy (fun m r => r.setA (r.a &&& m)) d8 s)

/-- `AND $dd,X`, opcode 0x35 (R180). -/
def execAndZpx (d8 : Byte) (s : State) : Result :=
  .next (readZpx (fun m r => r.setA (r.a &&& m)) d8 s)

/-- `AND $hhll,Y`, opcode 0x39 (R180). -/
def execAndAby (a16 : Addr) (s : State) : Result :=
  .next (readAby (fun m r => r.setA (r.a &&& m)) a16 s)

/-- `AND $hhll,X`, opcode 0x3D (R180). -/
def execAndAbx (a16 : Addr) (s : State) : Result :=
  .next (readAbx (fun m r => r.setA (r.a &&& m)) a16 s)

/-- `EOR ($dd,X)`, opcode 0x41 (R182). -/
def execEorIzx (d8 : Byte) (s : State) : Result :=
  .next (readIzx (fun m r => r.setA (r.a ^^^ m)) d8 s)

/-- `EOR $dd`, opcode 0x45 (R182). -/
def execEorZp (d8 : Byte) (s : State) : Result :=
  .next (readZp (fun m r => r.setA (r.a ^^^ m)) d8 s)

/-- `EOR #$dd`, opcode 0x49 (R182). -/
def execEorImm (d8 : Byte) (s : State) : Result :=
  .next (readImm (fun m r => r.setA (r.a ^^^ m)) d8 s)

/-- `EOR $hhll`, opcode 0x4D (R182). -/
def execEorAbs (a16 : Addr) (s : State) : Result :=
  .next (readAbs (fun m r => r.setA (r.a ^^^ m)) a16 s)

/-- `EOR ($dd),Y`, opcode 0x51 (R182). -/
def execEorIzy (d8 : Byte) (s : State) : Result :=
  .next (readIzy (fun m r => r.setA (r.a ^^^ m)) d8 s)

/-- `EOR $dd,X`, opcode 0x55 (R182). -/
def execEorZpx (d8 : Byte) (s : State) : Result :=
  .next (readZpx (fun m r => r.setA (r.a ^^^ m)) d8 s)

/-- `EOR $hhll,Y`, opcode 0x59 (R182). -/
def execEorAby (a16 : Addr) (s : State) : Result :=
  .next (readAby (fun m r => r.setA (r.a ^^^ m)) a16 s)

/-- `EOR $hhll,X`, opcode 0x5D (R182). -/
def execEorAbx (a16 : Addr) (s : State) : Result :=
  .next (readAbx (fun m r => r.setA (r.a ^^^ m)) a16 s)

/-- `ADC ($dd,X)`, opcode 0x61 (R186). -/
def execAdcIzx (d8 : Byte) (s : State) : Result :=
  .next (readIzx Regs.add d8 s)

/-- `ADC $dd`, opcode 0x65 (R186). -/
def execAdcZp (d8 : Byte) (s : State) : Result :=
  .next (readZp Regs.add d8 s)

/-- `ADC #$dd`, opcode 0x69 (R186). -/
def execAdcImm (d8 : Byte) (s : State) : Result :=
  .next (readImm Regs.add d8 s)

/-- `ADC $hhll`, opcode 0x6D (R186). -/
def execAdcAbs (a16 : Addr) (s : State) : Result :=
  .next (readAbs Regs.add a16 s)

/-- `ADC ($dd),Y`, opcode 0x71 (R186). -/
def execAdcIzy (d8 : Byte) (s : State) : Result :=
  .next (readIzy Regs.add d8 s)

/-- `ADC $dd,X`, opcode 0x75 (R186). -/
def execAdcZpx (d8 : Byte) (s : State) : Result :=
  .next (readZpx Regs.add d8 s)

/-- `ADC $hhll,Y`, opcode 0x79 (R186). -/
def execAdcAby (a16 : Addr) (s : State) : Result :=
  .next (readAby Regs.add a16 s)

/-- `ADC $hhll,X`, opcode 0x7D (R186). -/
def execAdcAbx (a16 : Addr) (s : State) : Result :=
  .next (readAbx Regs.add a16 s)

/-- `CPY #$dd`, opcode 0xC0 (R190). -/
def execCpyImm (d8 : Byte) (s : State) : Result :=
  .next (readImm Regs.compareY d8 s)

/-- `CMP ($dd,X)`, opcode 0xC1 (R188). -/
def execCmpIzx (d8 : Byte) (s : State) : Result :=
  .next (readIzx Regs.compareA d8 s)

/-- `CPY $dd`, opcode 0xC4 (R190). -/
def execCpyZp (d8 : Byte) (s : State) : Result :=
  .next (readZp Regs.compareY d8 s)

/-- `CMP $dd`, opcode 0xC5 (R188). -/
def execCmpZp (d8 : Byte) (s : State) : Result :=
  .next (readZp Regs.compareA d8 s)

/-- `CMP #$dd`, opcode 0xC9 (R188). -/
def execCmpImm (d8 : Byte) (s : State) : Result :=
  .next (readImm Regs.compareA d8 s)

/-- `CPY $hhll`, opcode 0xCC (R190). -/
def execCpyAbs (a16 : Addr) (s : State) : Result :=
  .next (readAbs Regs.compareY a16 s)

/-- `CMP $hhll`, opcode 0xCD (R188). -/
def execCmpAbs (a16 : Addr) (s : State) : Result :=
  .next (readAbs Regs.compareA a16 s)

/-- `CMP ($dd),Y`, opcode 0xD1 (R188). -/
def execCmpIzy (d8 : Byte) (s : State) : Result :=
  .next (readIzy Regs.compareA d8 s)

/-- `CMP $dd,X`, opcode 0xD5 (R188). -/
def execCmpZpx (d8 : Byte) (s : State) : Result :=
  .next (readZpx Regs.compareA d8 s)

/-- `CMP $hhll,Y`, opcode 0xD9 (R188). -/
def execCmpAby (a16 : Addr) (s : State) : Result :=
  .next (readAby Regs.compareA a16 s)

/-- `CMP $hhll,X`, opcode 0xDD (R188). -/
def execCmpAbx (a16 : Addr) (s : State) : Result :=
  .next (readAbx Regs.compareA a16 s)

/-- `CPX #$dd`, opcode 0xE0 (R189). -/
def execCpxImm (d8 : Byte) (s : State) : Result :=
  .next (readImm Regs.compareX d8 s)

/-- `SBC ($dd,X)`, opcode 0xE1 (R187). -/
def execSbcIzx (d8 : Byte) (s : State) : Result :=
  .next (readIzx Regs.sub d8 s)

/-- `CPX $dd`, opcode 0xE4 (R189). -/
def execCpxZp (d8 : Byte) (s : State) : Result :=
  .next (readZp Regs.compareX d8 s)

/-- `SBC $dd`, opcode 0xE5 (R187). -/
def execSbcZp (d8 : Byte) (s : State) : Result :=
  .next (readZp Regs.sub d8 s)

/-- `SBC #$dd`, opcode 0xE9 (R187). -/
def execSbcImm (d8 : Byte) (s : State) : Result :=
  .next (readImm Regs.sub d8 s)

/-- `CPX $hhll`, opcode 0xEC (R189). -/
def execCpxAbs (a16 : Addr) (s : State) : Result :=
  .next (readAbs Regs.compareX a16 s)

/-- `SBC $hhll`, opcode 0xED (R187). -/
def execSbcAbs (a16 : Addr) (s : State) : Result :=
  .next (readAbs Regs.sub a16 s)

/-- `SBC ($dd),Y`, opcode 0xF1 (R187). -/
def execSbcIzy (d8 : Byte) (s : State) : Result :=
  .next (readIzy Regs.sub d8 s)

/-- `SBC $dd,X`, opcode 0xF5 (R187). -/
def execSbcZpx (d8 : Byte) (s : State) : Result :=
  .next (readZpx Regs.sub d8 s)

/-- `SBC $hhll,Y`, opcode 0xF9 (R187). -/
def execSbcAby (a16 : Addr) (s : State) : Result :=
  .next (readAby Regs.sub a16 s)

/-- `SBC $hhll,X`, opcode 0xFD (R187). -/
def execSbcAbx (a16 : Addr) (s : State) : Result :=
  .next (readAbx Regs.sub a16 s)

end Sys2Proof.Machine
end

