-- ==== Sys2Proof/Machine/ShiftIncDec.lean ====
section
/-! DEFINITION. The meanings of shifts, rotates, increments, decrements (spec/43_shift_incdec.md R200 to R210). -/

namespace Sys2Proof.Machine

/-- The byte a shift or rotate writes to memory (R200 to R203, R210). -/
def Shift.memory (k : Shift) (p : Flags) (old : Byte) : Byte := k.result p.c old

/-- The flags after the memory form of a shift or rotate. -/
def Regs.shiftMemory (k : Shift) (old : Byte) (r : Regs) : Regs := { r with p := r.p.afterShift k old }

/-- The acc form of a shift or rotate. -/
def Regs.shiftA (k : Shift) (r : Regs) : Regs := { r with a := k.result r.p.c r.a, p := r.p.afterShift k r.a }

/-- `ASL $dd`, opcode 0x06 (R200). -/
def execAslZp (d8 : Byte) (s : State) : Result :=
  .next (rmwZp (Shift.asl.memory) (Regs.shiftMemory .asl) d8 s)

/-- `ASL A`, opcode 0x0A (R200). -/
def execAslAcc (s : State) : Result :=
  .next (implied (Regs.shiftA .asl) s)

/-- `ASL $hhll`, opcode 0x0E (R200). -/
def execAslAbs (a16 : Addr) (s : State) : Result :=
  .next (rmwAbs (Shift.asl.memory) (Regs.shiftMemory .asl) a16 s)

/-- `ASL $dd,X`, opcode 0x16 (R200). -/
def execAslZpx (d8 : Byte) (s : State) : Result :=
  .next (rmwZpx (Shift.asl.memory) (Regs.shiftMemory .asl) d8 s)

/-- `ASL $hhll,X`, opcode 0x1E (R200). -/
def execAslAbx (a16 : Addr) (s : State) : Result :=
  .next (rmwAbx (Shift.asl.memory) (Regs.shiftMemory .asl) a16 s)

/-- `ROL $dd`, opcode 0x26 (R202). -/
def execRolZp (d8 : Byte) (s : State) : Result :=
  .next (rmwZp (Shift.rol.memory) (Regs.shiftMemory .rol) d8 s)

/-- `ROL A`, opcode 0x2A (R202). -/
def execRolAcc (s : State) : Result :=
  .next (implied (Regs.shiftA .rol) s)

/-- `ROL $hhll`, opcode 0x2E (R202). -/
def execRolAbs (a16 : Addr) (s : State) : Result :=
  .next (rmwAbs (Shift.rol.memory) (Regs.shiftMemory .rol) a16 s)

/-- `ROL $dd,X`, opcode 0x36 (R202). -/
def execRolZpx (d8 : Byte) (s : State) : Result :=
  .next (rmwZpx (Shift.rol.memory) (Regs.shiftMemory .rol) d8 s)

/-- `ROL $hhll,X`, opcode 0x3E (R202). -/
def execRolAbx (a16 : Addr) (s : State) : Result :=
  .next (rmwAbx (Shift.rol.memory) (Regs.shiftMemory .rol) a16 s)

/-- `LSR $dd`, opcode 0x46 (R201). -/
def execLsrZp (d8 : Byte) (s : State) : Result :=
  .next (rmwZp (Shift.lsr.memory) (Regs.shiftMemory .lsr) d8 s)

/-- `LSR A`, opcode 0x4A (R201). -/
def execLsrAcc (s : State) : Result :=
  .next (implied (Regs.shiftA .lsr) s)

/-- `LSR $hhll`, opcode 0x4E (R201). -/
def execLsrAbs (a16 : Addr) (s : State) : Result :=
  .next (rmwAbs (Shift.lsr.memory) (Regs.shiftMemory .lsr) a16 s)

/-- `LSR $dd,X`, opcode 0x56 (R201). -/
def execLsrZpx (d8 : Byte) (s : State) : Result :=
  .next (rmwZpx (Shift.lsr.memory) (Regs.shiftMemory .lsr) d8 s)

/-- `LSR $hhll,X`, opcode 0x5E (R201). -/
def execLsrAbx (a16 : Addr) (s : State) : Result :=
  .next (rmwAbx (Shift.lsr.memory) (Regs.shiftMemory .lsr) a16 s)

/-- `ROR $dd`, opcode 0x66 (R203). -/
def execRorZp (d8 : Byte) (s : State) : Result :=
  .next (rmwZp (Shift.ror.memory) (Regs.shiftMemory .ror) d8 s)

/-- `ROR A`, opcode 0x6A (R203). -/
def execRorAcc (s : State) : Result :=
  .next (implied (Regs.shiftA .ror) s)

/-- `ROR $hhll`, opcode 0x6E (R203). -/
def execRorAbs (a16 : Addr) (s : State) : Result :=
  .next (rmwAbs (Shift.ror.memory) (Regs.shiftMemory .ror) a16 s)

/-- `ROR $dd,X`, opcode 0x76 (R203). -/
def execRorZpx (d8 : Byte) (s : State) : Result :=
  .next (rmwZpx (Shift.ror.memory) (Regs.shiftMemory .ror) d8 s)

/-- `ROR $hhll,X`, opcode 0x7E (R203). -/
def execRorAbx (a16 : Addr) (s : State) : Result :=
  .next (rmwAbx (Shift.ror.memory) (Regs.shiftMemory .ror) a16 s)

/-- `DEY`, opcode 0x88 (R209). -/
def execDey (s : State) : Result :=
  .next (implied (fun r => r.setY (r.y - 1)) s)

/-- `DEC $dd`, opcode 0xC6 (R205). -/
def execDecZp (d8 : Byte) (s : State) : Result :=
  .next (rmwZp (fun _ old => old - 1) (fun old r => r.mapP (·.setNZ (old - 1))) d8 s)

/-- `INY`, opcode 0xC8 (R207). -/
def execIny (s : State) : Result :=
  .next (implied (fun r => r.setY (r.y + 1)) s)

/-- `DEX`, opcode 0xCA (R208). -/
def execDex (s : State) : Result :=
  .next (implied (fun r => r.setX (r.x - 1)) s)

/-- `DEC $hhll`, opcode 0xCE (R205). -/
def execDecAbs (a16 : Addr) (s : State) : Result :=
  .next (rmwAbs (fun _ old => old - 1) (fun old r => r.mapP (·.setNZ (old - 1))) a16 s)

/-- `DEC $dd,X`, opcode 0xD6 (R205). -/
def execDecZpx (d8 : Byte) (s : State) : Result :=
  .next (rmwZpx (fun _ old => old - 1) (fun old r => r.mapP (·.setNZ (old - 1))) d8 s)

/-- `DEC $hhll,X`, opcode 0xDE (R205). -/
def execDecAbx (a16 : Addr) (s : State) : Result :=
  .next (rmwAbx (fun _ old => old - 1) (fun old r => r.mapP (·.setNZ (old - 1))) a16 s)

/-- `INC $dd`, opcode 0xE6 (R204). -/
def execIncZp (d8 : Byte) (s : State) : Result :=
  .next (rmwZp (fun _ old => old + 1) (fun old r => r.mapP (·.setNZ (old + 1))) d8 s)

/-- `INX`, opcode 0xE8 (R206). -/
def execInx (s : State) : Result :=
  .next (implied (fun r => r.setX (r.x + 1)) s)

/-- `INC $hhll`, opcode 0xEE (R204). -/
def execIncAbs (a16 : Addr) (s : State) : Result :=
  .next (rmwAbs (fun _ old => old + 1) (fun old r => r.mapP (·.setNZ (old + 1))) a16 s)

/-- `INC $dd,X`, opcode 0xF6 (R204). -/
def execIncZpx (d8 : Byte) (s : State) : Result :=
  .next (rmwZpx (fun _ old => old + 1) (fun old r => r.mapP (·.setNZ (old + 1))) d8 s)

/-- `INC $hhll,X`, opcode 0xFE (R204). -/
def execIncAbx (a16 : Addr) (s : State) : Result :=
  .next (rmwAbx (fun _ old => old + 1) (fun old r => r.mapP (·.setNZ (old + 1))) a16 s)

end Sys2Proof.Machine
end

