-- ==== Sys2Proof/Machine/Stack.lean ====
section
/-! DEFINITION. The meanings of the stack instructions (spec/41_stack.md R170 to R173; spec/47_bus_cycle_sequences.md R317, R318). -/

namespace Sys2Proof.Machine

/-- PHA and PHP (R317). -/
def pushRegister (val : Regs → Byte) (s : State) : State :=
  let t := dummyFetch false (fetchOpcode s)
  finish (push true (val t.cpu.regs) t)

/-- PLA and PLP (R318); PLP's new I is written after this cycle's poll (R325, R348). -/
def pullRegister (op : Byte → Regs → Regs) (s : State) : State :=
  let t := beforePull (dummyFetch false (fetchOpcode s))
  finish ((stackRead true t).mapRegs (op (stackValue true t)))

/-- `PHP`, opcode 0x08 (R171). -/
def execPhp (s : State) : Result :=
  .next (pushRegister (fun r => r.p.pack true) s)

/-- `PLP`, opcode 0x28 (R173). -/
def execPlp (s : State) : Result :=
  .next (pullRegister (fun v r => { r with p := Flags.unpack v }) s)

/-- `PHA`, opcode 0x48 (R170). -/
def execPha (s : State) : Result :=
  .next (pushRegister Regs.a s)

/-- `PLA`, opcode 0x68 (R172). -/
def execPla (s : State) : Result :=
  .next (pullRegister Regs.setA s)

end Sys2Proof.Machine
end

