-- ==== Sys2Proof/Machine/Undocumented.lean ====
section
/-! DEFINITION. The meanings of the undocumented opcodes (spec/46_undocumented.md R260 to R292). -/

namespace Sys2Proof.Machine

/-- SLO (R261): the shift, then ORA. -/
def Regs.slo (old : Byte) (r : Regs) : Regs :=
  let r' := r.shiftMemory .asl old
  r'.setA (r.a ||| Shift.asl.result r.p.c old)

/-- RLA (R262): the rotate, then AND. -/
def Regs.rla (old : Byte) (r : Regs) : Regs :=
  let r' := r.shiftMemory .rol old
  r'.setA (r.a &&& Shift.rol.result r.p.c old)

/-- SRE (R263): the shift, then EOR. -/
def Regs.sre (old : Byte) (r : Regs) : Regs :=
  let r' := r.shiftMemory .lsr old
  r'.setA (r.a ^^^ Shift.lsr.result r.p.c old)

/-- RRA (R264): the rotate, then the addition with the bit shifted out as carry-in. -/
def Regs.rra (old : Byte) (r : Regs) : Regs := (r.shiftMemory .ror old).add (Shift.ror.result r.p.c old)

/-- DCP (R267): the decrement, then CMP. -/
def Regs.dcp (old : Byte) (r : Regs) : Regs := r.compareA (old - 1)

/-- ISC (R268): the increment, then SBC. -/
def Regs.isc (old : Byte) (r : Regs) : Regs := r.sub (old + 1)

/-- LAX (R266). -/
def Regs.setAX (m : Byte) (r : Regs) : Regs := { r with a := m, x := m, p := r.p.setNZ m }

/-- ANC (R269). -/
def Regs.anc (d8 : Byte) (r : Regs) : Regs :=
  let r' := r.setA (r.a &&& d8)
  r'.mapP ({ · with c := r'.a.getLsbD 7 })

/-- ALR (R270). -/
def Regs.alr (d8 : Byte) (r : Regs) : Regs :=
  let t := r.a &&& d8
  (r.setA (t >>> 1)).mapP ({ · with c := t.getLsbD 0 })

/-- ARR (R271): C is bit 6 of the result and V bit 6 exclusive or bit 5. -/
def Regs.arr (d8 : Byte) (r : Regs) : Regs :=
  let t := Shift.ror.result r.p.c (r.a &&& d8)
  (r.setA t).mapP ({ · with c := t.getLsbD 6, v := t.getLsbD 6 != t.getLsbD 5 })

/-- AXS (R272): the difference goes to X; V and the incoming C play no part. -/
def Regs.axs (d8 : Byte) (r : Regs) : Regs :=
  let t := r.a &&& r.x
  { r with x := sumByte t (d8 ^^^ 0xFF) true, p := r.p.afterCompare t d8 }

/-- LAS (R285). -/
def Regs.las (m : Byte) (r : Regs) : Regs :=
  let v := m &&& r.s
  { r with a := v, x := v, s := v, p := r.p.setNZ v }

/-- XAA (R286), with its `UNSTABLE_MAGIC`. -/
def Regs.xaa (magic : Byte) (d8 : Byte) (r : Regs) : Regs := r.setA ((r.a ||| magic) &&& r.x &&& d8)

/-- LXA (R287), with its `UNSTABLE_MAGIC`. -/
def Regs.lxa (magic : Byte) (d8 : Byte) (r : Regs) : Regs := r.setAX ((r.a ||| magic) &&& d8)

/-- JAM (R284, R321): PC is past the opcode, and the Cpu is halted. -/
def jam (s : State) : State :=
  let t := dummyFetch false (fetchOpcode s)
  finish { t with cpu := { t.cpu with halted := true } }

/-- `JAM`, opcode 0x02 (R284). -/
def execJam02 (s : State) : Result :=
  .next (jam s)

/-- `SLO ($dd,X)`, opcode 0x03 (R261). -/
def execSloIzx (d8 : Byte) (s : State) : Result :=
  .next (rmwIzx (Shift.asl.memory) Regs.slo d8 s)

/-- `NOP $dd`, opcode 0x04 (R276). -/
def execNopZp04 (d8 : Byte) (s : State) : Result :=
  .next (readZp (fun _ r => r.same) d8 s)

/-- `SLO $dd`, opcode 0x07 (R261). -/
def execSloZp (d8 : Byte) (s : State) : Result :=
  .next (rmwZp (Shift.asl.memory) Regs.slo d8 s)

/-- `ANC #$dd`, opcode 0x0B (R269). -/
def execAnc0B (d8 : Byte) (s : State) : Result :=
  .next (readImm Regs.anc d8 s)

/-- `NOP $hhll`, opcode 0x0C (R276). -/
def execNopAbs (a16 : Addr) (s : State) : Result :=
  .next (readAbs (fun _ r => r.same) a16 s)

/-- `SLO $hhll`, opcode 0x0F (R261). -/
def execSloAbs (a16 : Addr) (s : State) : Result :=
  .next (rmwAbs (Shift.asl.memory) Regs.slo a16 s)

/-- `JAM`, opcode 0x12 (R284). -/
def execJam12 (s : State) : Result :=
  .next (jam s)

/-- `SLO ($dd),Y`, opcode 0x13 (R261). -/
def execSloIzy (d8 : Byte) (s : State) : Result :=
  .next (rmwIzy (Shift.asl.memory) Regs.slo d8 s)

/-- `NOP $dd,X`, opcode 0x14 (R276). -/
def execNopZpx14 (d8 : Byte) (s : State) : Result :=
  .next (readZpx (fun _ r => r.same) d8 s)

/-- `SLO $dd,X`, opcode 0x17 (R261). -/
def execSloZpx (d8 : Byte) (s : State) : Result :=
  .next (rmwZpx (Shift.asl.memory) Regs.slo d8 s)

/-- `NOP`, opcode 0x1A (R274). -/
def execNop1A (s : State) : Result :=
  .next (implied Regs.same s)

/-- `SLO $hhll,Y`, opcode 0x1B (R261). -/
def execSloAby (a16 : Addr) (s : State) : Result :=
  .next (rmwAby (Shift.asl.memory) Regs.slo a16 s)

/-- `NOP $hhll,X`, opcode 0x1C (R276). -/
def execNopAbx1C (a16 : Addr) (s : State) : Result :=
  .next (readAbx (fun _ r => r.same) a16 s)

/-- `SLO $hhll,X`, opcode 0x1F (R261). -/
def execSloAbx (a16 : Addr) (s : State) : Result :=
  .next (rmwAbx (Shift.asl.memory) Regs.slo a16 s)

/-- `JAM`, opcode 0x22 (R284). -/
def execJam22 (s : State) : Result :=
  .next (jam s)

/-- `RLA ($dd,X)`, opcode 0x23 (R262). -/
def execRlaIzx (d8 : Byte) (s : State) : Result :=
  .next (rmwIzx (Shift.rol.memory) Regs.rla d8 s)

/-- `RLA $dd`, opcode 0x27 (R262). -/
def execRlaZp (d8 : Byte) (s : State) : Result :=
  .next (rmwZp (Shift.rol.memory) Regs.rla d8 s)

/-- `ANC #$dd`, opcode 0x2B (R269). -/
def execAnc2B (d8 : Byte) (s : State) : Result :=
  .next (readImm Regs.anc d8 s)

/-- `RLA $hhll`, opcode 0x2F (R262). -/
def execRlaAbs (a16 : Addr) (s : State) : Result :=
  .next (rmwAbs (Shift.rol.memory) Regs.rla a16 s)

/-- `JAM`, opcode 0x32 (R284). -/
def execJam32 (s : State) : Result :=
  .next (jam s)

/-- `RLA ($dd),Y`, opcode 0x33 (R262). -/
def execRlaIzy (d8 : Byte) (s : State) : Result :=
  .next (rmwIzy (Shift.rol.memory) Regs.rla d8 s)

/-- `NOP $dd,X`, opcode 0x34 (R276). -/
def execNopZpx34 (d8 : Byte) (s : State) : Result :=
  .next (readZpx (fun _ r => r.same) d8 s)

/-- `RLA $dd,X`, opcode 0x37 (R262). -/
def execRlaZpx (d8 : Byte) (s : State) : Result :=
  .next (rmwZpx (Shift.rol.memory) Regs.rla d8 s)

/-- `NOP`, opcode 0x3A (R274). -/
def execNop3A (s : State) : Result :=
  .next (implied Regs.same s)

/-- `RLA $hhll,Y`, opcode 0x3B (R262). -/
def execRlaAby (a16 : Addr) (s : State) : Result :=
  .next (rmwAby (Shift.rol.memory) Regs.rla a16 s)

/-- `NOP $hhll,X`, opcode 0x3C (R276). -/
def execNopAbx3C (a16 : Addr) (s : State) : Result :=
  .next (readAbx (fun _ r => r.same) a16 s)

/-- `RLA $hhll,X`, opcode 0x3F (R262). -/
def execRlaAbx (a16 : Addr) (s : State) : Result :=
  .next (rmwAbx (Shift.rol.memory) Regs.rla a16 s)

/-- `JAM`, opcode 0x42 (R284). -/
def execJam42 (s : State) : Result :=
  .next (jam s)

/-- `SRE ($dd,X)`, opcode 0x43 (R263). -/
def execSreIzx (d8 : Byte) (s : State) : Result :=
  .next (rmwIzx (Shift.lsr.memory) Regs.sre d8 s)

/-- `NOP $dd`, opcode 0x44 (R276). -/
def execNopZp44 (d8 : Byte) (s : State) : Result :=
  .next (readZp (fun _ r => r.same) d8 s)

/-- `SRE $dd`, opcode 0x47 (R263). -/
def execSreZp (d8 : Byte) (s : State) : Result :=
  .next (rmwZp (Shift.lsr.memory) Regs.sre d8 s)

/-- `ALR #$dd`, opcode 0x4B (R270). -/
def execAlr (d8 : Byte) (s : State) : Result :=
  .next (readImm Regs.alr d8 s)

/-- `SRE $hhll`, opcode 0x4F (R263). -/
def execSreAbs (a16 : Addr) (s : State) : Result :=
  .next (rmwAbs (Shift.lsr.memory) Regs.sre a16 s)

/-- `JAM`, opcode 0x52 (R284). -/
def execJam52 (s : State) : Result :=
  .next (jam s)

/-- `SRE ($dd),Y`, opcode 0x53 (R263). -/
def execSreIzy (d8 : Byte) (s : State) : Result :=
  .next (rmwIzy (Shift.lsr.memory) Regs.sre d8 s)

/-- `NOP $dd,X`, opcode 0x54 (R276). -/
def execNopZpx54 (d8 : Byte) (s : State) : Result :=
  .next (readZpx (fun _ r => r.same) d8 s)

/-- `SRE $dd,X`, opcode 0x57 (R263). -/
def execSreZpx (d8 : Byte) (s : State) : Result :=
  .next (rmwZpx (Shift.lsr.memory) Regs.sre d8 s)

/-- `NOP`, opcode 0x5A (R274). -/
def execNop5A (s : State) : Result :=
  .next (implied Regs.same s)

/-- `SRE $hhll,Y`, opcode 0x5B (R263). -/
def execSreAby (a16 : Addr) (s : State) : Result :=
  .next (rmwAby (Shift.lsr.memory) Regs.sre a16 s)

/-- `NOP $hhll,X`, opcode 0x5C (R276). -/
def execNopAbx5C (a16 : Addr) (s : State) : Result :=
  .next (readAbx (fun _ r => r.same) a16 s)

/-- `SRE $hhll,X`, opcode 0x5F (R263). -/
def execSreAbx (a16 : Addr) (s : State) : Result :=
  .next (rmwAbx (Shift.lsr.memory) Regs.sre a16 s)

/-- `JAM`, opcode 0x62 (R284). -/
def execJam62 (s : State) : Result :=
  .next (jam s)

/-- `RRA ($dd,X)`, opcode 0x63 (R264). -/
def execRraIzx (d8 : Byte) (s : State) : Result :=
  .next (rmwIzx (Shift.ror.memory) Regs.rra d8 s)

/-- `NOP $dd`, opcode 0x64 (R276). -/
def execNopZp64 (d8 : Byte) (s : State) : Result :=
  .next (readZp (fun _ r => r.same) d8 s)

/-- `RRA $dd`, opcode 0x67 (R264). -/
def execRraZp (d8 : Byte) (s : State) : Result :=
  .next (rmwZp (Shift.ror.memory) Regs.rra d8 s)

/-- `ARR #$dd`, opcode 0x6B (R271). -/
def execArr (d8 : Byte) (s : State) : Result :=
  .next (readImm Regs.arr d8 s)

/-- `RRA $hhll`, opcode 0x6F (R264). -/
def execRraAbs (a16 : Addr) (s : State) : Result :=
  .next (rmwAbs (Shift.ror.memory) Regs.rra a16 s)

/-- `JAM`, opcode 0x72 (R284). -/
def execJam72 (s : State) : Result :=
  .next (jam s)

/-- `RRA ($dd),Y`, opcode 0x73 (R264). -/
def execRraIzy (d8 : Byte) (s : State) : Result :=
  .next (rmwIzy (Shift.ror.memory) Regs.rra d8 s)

/-- `NOP $dd,X`, opcode 0x74 (R276). -/
def execNopZpx74 (d8 : Byte) (s : State) : Result :=
  .next (readZpx (fun _ r => r.same) d8 s)

/-- `RRA $dd,X`, opcode 0x77 (R264). -/
def execRraZpx (d8 : Byte) (s : State) : Result :=
  .next (rmwZpx (Shift.ror.memory) Regs.rra d8 s)

/-- `NOP`, opcode 0x7A (R274). -/
def execNop7A (s : State) : Result :=
  .next (implied Regs.same s)

/-- `RRA $hhll,Y`, opcode 0x7B (R264). -/
def execRraAby (a16 : Addr) (s : State) : Result :=
  .next (rmwAby (Shift.ror.memory) Regs.rra a16 s)

/-- `NOP $hhll,X`, opcode 0x7C (R276). -/
def execNopAbx7C (a16 : Addr) (s : State) : Result :=
  .next (readAbx (fun _ r => r.same) a16 s)

/-- `RRA $hhll,X`, opcode 0x7F (R264). -/
def execRraAbx (a16 : Addr) (s : State) : Result :=
  .next (rmwAbx (Shift.ror.memory) Regs.rra a16 s)

/-- `NOP #$dd`, opcode 0x80 (R275). -/
def execNopImm80 (d8 : Byte) (s : State) : Result :=
  .next (readImm (fun _ r => r.same) d8 s)

/-- `NOP #$dd`, opcode 0x82 (R275). -/
def execNopImm82 (d8 : Byte) (s : State) : Result :=
  .next (readImm (fun _ r => r.same) d8 s)

/-- `SAX ($dd,X)`, opcode 0x83 (R265). -/
def execSaxIzx (d8 : Byte) (s : State) : Result :=
  .next (storeIzx (fun r => r.a &&& r.x) d8 s)

/-- `SAX $dd`, opcode 0x87 (R265). -/
def execSaxZp (d8 : Byte) (s : State) : Result :=
  .next (storeZp (fun r => r.a &&& r.x) d8 s)

/-- `NOP #$dd`, opcode 0x89 (R275). -/
def execNopImm89 (d8 : Byte) (s : State) : Result :=
  .next (readImm (fun _ r => r.same) d8 s)

/-- `XAA #$dd`, opcode 0x8B (R286). -/
def execXaa (d8 : Byte) (s : State) : Result :=
  .next (readImm (Regs.xaa s.params.magicXaa) d8 s)

/-- `SAX $hhll`, opcode 0x8F (R265). -/
def execSaxAbs (a16 : Addr) (s : State) : Result :=
  .next (storeAbs (fun r => r.a &&& r.x) a16 s)

/-- `JAM`, opcode 0x92 (R284). -/
def execJam92 (s : State) : Result :=
  .next (jam s)

/-- `SHA ($dd),Y`, opcode 0x93 (R288). -/
def execShaIzy (d8 : Byte) (s : State) : Result :=
  .next (storeUnstableIzy (fun r => r.a &&& r.x) Regs.same d8 s)

/-- `SAX $dd,Y`, opcode 0x97 (R265). -/
def execSaxZpy (d8 : Byte) (s : State) : Result :=
  .next (storeZpy (fun r => r.a &&& r.x) d8 s)

/-- `TAS $hhll,Y`, opcode 0x9B (R291). -/
def execTas (a16 : Addr) (s : State) : Result :=
  .next (storeUnstableAby (fun r => r.a &&& r.x) (fun r => { r with s := r.a &&& r.x }) a16 s)

/-- `SHY $hhll,X`, opcode 0x9C (R290). -/
def execShy (a16 : Addr) (s : State) : Result :=
  .next (storeUnstableAbx Regs.y Regs.same a16 s)

/-- `SHX $hhll,Y`, opcode 0x9E (R289). -/
def execShx (a16 : Addr) (s : State) : Result :=
  .next (storeUnstableAby Regs.x Regs.same a16 s)

/-- `SHA $hhll,Y`, opcode 0x9F (R288). -/
def execShaAby (a16 : Addr) (s : State) : Result :=
  .next (storeUnstableAby (fun r => r.a &&& r.x) Regs.same a16 s)

/-- `LAX ($dd,X)`, opcode 0xA3 (R266). -/
def execLaxIzx (d8 : Byte) (s : State) : Result :=
  .next (readIzx Regs.setAX d8 s)

/-- `LAX $dd`, opcode 0xA7 (R266). -/
def execLaxZp (d8 : Byte) (s : State) : Result :=
  .next (readZp Regs.setAX d8 s)

/-- `LXA #$dd`, opcode 0xAB (R287). -/
def execLxa (d8 : Byte) (s : State) : Result :=
  .next (readImm (Regs.lxa s.params.magicLxa) d8 s)

/-- `LAX $hhll`, opcode 0xAF (R266). -/
def execLaxAbs (a16 : Addr) (s : State) : Result :=
  .next (readAbs Regs.setAX a16 s)

/-- `JAM`, opcode 0xB2 (R284). -/
def execJamB2 (s : State) : Result :=
  .next (jam s)

/-- `LAX ($dd),Y`, opcode 0xB3 (R266). -/
def execLaxIzy (d8 : Byte) (s : State) : Result :=
  .next (readIzy Regs.setAX d8 s)

/-- `LAX $dd,Y`, opcode 0xB7 (R266). -/
def execLaxZpy (d8 : Byte) (s : State) : Result :=
  .next (readZpy Regs.setAX d8 s)

/-- `LAS $hhll,Y`, opcode 0xBB (R285). -/
def execLas (a16 : Addr) (s : State) : Result :=
  .next (readAby Regs.las a16 s)

/-- `LAX $hhll,Y`, opcode 0xBF (R266). -/
def execLaxAby (a16 : Addr) (s : State) : Result :=
  .next (readAby Regs.setAX a16 s)

/-- `NOP #$dd`, opcode 0xC2 (R275). -/
def execNopImmC2 (d8 : Byte) (s : State) : Result :=
  .next (readImm (fun _ r => r.same) d8 s)

/-- `DCP ($dd,X)`, opcode 0xC3 (R267). -/
def execDcpIzx (d8 : Byte) (s : State) : Result :=
  .next (rmwIzx (fun _ old => old - 1) Regs.dcp d8 s)

/-- `DCP $dd`, opcode 0xC7 (R267). -/
def execDcpZp (d8 : Byte) (s : State) : Result :=
  .next (rmwZp (fun _ old => old - 1) Regs.dcp d8 s)

/-- `AXS #$dd`, opcode 0xCB (R272). -/
def execAxs (d8 : Byte) (s : State) : Result :=
  .next (readImm Regs.axs d8 s)

/-- `DCP $hhll`, opcode 0xCF (R267). -/
def execDcpAbs (a16 : Addr) (s : State) : Result :=
  .next (rmwAbs (fun _ old => old - 1) Regs.dcp a16 s)

/-- `JAM`, opcode 0xD2 (R284). -/
def execJamD2 (s : State) : Result :=
  .next (jam s)

/-- `DCP ($dd),Y`, opcode 0xD3 (R267). -/
def execDcpIzy (d8 : Byte) (s : State) : Result :=
  .next (rmwIzy (fun _ old => old - 1) Regs.dcp d8 s)

/-- `NOP $dd,X`, opcode 0xD4 (R276). -/
def execNopZpxD4 (d8 : Byte) (s : State) : Result :=
  .next (readZpx (fun _ r => r.same) d8 s)

/-- `DCP $dd,X`, opcode 0xD7 (R267). -/
def execDcpZpx (d8 : Byte) (s : State) : Result :=
  .next (rmwZpx (fun _ old => old - 1) Regs.dcp d8 s)

/-- `NOP`, opcode 0xDA (R274). -/
def execNopDA (s : State) : Result :=
  .next (implied Regs.same s)

/-- `DCP $hhll,Y`, opcode 0xDB (R267). -/
def execDcpAby (a16 : Addr) (s : State) : Result :=
  .next (rmwAby (fun _ old => old - 1) Regs.dcp a16 s)

/-- `NOP $hhll,X`, opcode 0xDC (R276). -/
def execNopAbxDC (a16 : Addr) (s : State) : Result :=
  .next (readAbx (fun _ r => r.same) a16 s)

/-- `DCP $hhll,X`, opcode 0xDF (R267). -/
def execDcpAbx (a16 : Addr) (s : State) : Result :=
  .next (rmwAbx (fun _ old => old - 1) Regs.dcp a16 s)

/-- `NOP #$dd`, opcode 0xE2 (R275). -/
def execNopImmE2 (d8 : Byte) (s : State) : Result :=
  .next (readImm (fun _ r => r.same) d8 s)

/-- `ISC ($dd,X)`, opcode 0xE3 (R268). -/
def execIscIzx (d8 : Byte) (s : State) : Result :=
  .next (rmwIzx (fun _ old => old + 1) Regs.isc d8 s)

/-- `ISC $dd`, opcode 0xE7 (R268). -/
def execIscZp (d8 : Byte) (s : State) : Result :=
  .next (rmwZp (fun _ old => old + 1) Regs.isc d8 s)

/-- `SBC #$dd`, opcode 0xEB (R273). -/
def execSbcImmEB (d8 : Byte) (s : State) : Result :=
  .next (readImm Regs.sub d8 s)

/-- `ISC $hhll`, opcode 0xEF (R268). -/
def execIscAbs (a16 : Addr) (s : State) : Result :=
  .next (rmwAbs (fun _ old => old + 1) Regs.isc a16 s)

/-- `JAM`, opcode 0xF2 (R284). -/
def execJamF2 (s : State) : Result :=
  .next (jam s)

/-- `ISC ($dd),Y`, opcode 0xF3 (R268). -/
def execIscIzy (d8 : Byte) (s : State) : Result :=
  .next (rmwIzy (fun _ old => old + 1) Regs.isc d8 s)

/-- `NOP $dd,X`, opcode 0xF4 (R276). -/
def execNopZpxF4 (d8 : Byte) (s : State) : Result :=
  .next (readZpx (fun _ r => r.same) d8 s)

/-- `ISC $dd,X`, opcode 0xF7 (R268). -/
def execIscZpx (d8 : Byte) (s : State) : Result :=
  .next (rmwZpx (fun _ old => old + 1) Regs.isc d8 s)

/-- `NOP`, opcode 0xFA (R274). -/
def execNopFA (s : State) : Result :=
  .next (implied Regs.same s)

/-- `ISC $hhll,Y`, opcode 0xFB (R268). -/
def execIscAby (a16 : Addr) (s : State) : Result :=
  .next (rmwAby (fun _ old => old + 1) Regs.isc a16 s)

/-- `NOP $hhll,X`, opcode 0xFC (R276). -/
def execNopAbxFC (a16 : Addr) (s : State) : Result :=
  .next (readAbx (fun _ r => r.same) a16 s)

/-- `ISC $hhll,X`, opcode 0xFF (R268). -/
def execIscAbx (a16 : Addr) (s : State) : Result :=
  .next (rmwAbx (fun _ old => old + 1) Regs.isc a16 s)

end Sys2Proof.Machine
end

