-- ==== Sys2Proof/Machine/Dispatch.lean ====
section
/-! DEFINITION. The meaning of every instruction: one arm per constructor of Instr, each one direct call. -/

namespace Sys2Proof.Machine

def exec (i : Instr) (s : State) : Host.Outcome State Fault Refusal :=
  match i with
  -- Loads, stores and register transfers (spec/40_load_store_transfer.md)
  | .staIzx d8 => Sys2Proof.Machine.execStaIzx d8 s
  | .styZp d8 => Sys2Proof.Machine.execStyZp d8 s
  | .staZp d8 => Sys2Proof.Machine.execStaZp d8 s
  | .stxZp d8 => Sys2Proof.Machine.execStxZp d8 s
  | .txa => Sys2Proof.Machine.execTxa s
  | .styAbs a16 => Sys2Proof.Machine.execStyAbs a16 s
  | .staAbs a16 => Sys2Proof.Machine.execStaAbs a16 s
  | .stxAbs a16 => Sys2Proof.Machine.execStxAbs a16 s
  | .staIzy d8 => Sys2Proof.Machine.execStaIzy d8 s
  | .styZpx d8 => Sys2Proof.Machine.execStyZpx d8 s
  | .staZpx d8 => Sys2Proof.Machine.execStaZpx d8 s
  | .stxZpy d8 => Sys2Proof.Machine.execStxZpy d8 s
  | .tya => Sys2Proof.Machine.execTya s
  | .staAby a16 => Sys2Proof.Machine.execStaAby a16 s
  | .txs => Sys2Proof.Machine.execTxs s
  | .staAbx a16 => Sys2Proof.Machine.execStaAbx a16 s
  | .ldyImm d8 => Sys2Proof.Machine.execLdyImm d8 s
  | .ldaIzx d8 => Sys2Proof.Machine.execLdaIzx d8 s
  | .ldxImm d8 => Sys2Proof.Machine.execLdxImm d8 s
  | .ldyZp d8 => Sys2Proof.Machine.execLdyZp d8 s
  | .ldaZp d8 => Sys2Proof.Machine.execLdaZp d8 s
  | .ldxZp d8 => Sys2Proof.Machine.execLdxZp d8 s
  | .tay => Sys2Proof.Machine.execTay s
  | .ldaImm d8 => Sys2Proof.Machine.execLdaImm d8 s
  | .tax => Sys2Proof.Machine.execTax s
  | .ldyAbs a16 => Sys2Proof.Machine.execLdyAbs a16 s
  | .ldaAbs a16 => Sys2Proof.Machine.execLdaAbs a16 s
  | .ldxAbs a16 => Sys2Proof.Machine.execLdxAbs a16 s
  | .ldaIzy d8 => Sys2Proof.Machine.execLdaIzy d8 s
  | .ldyZpx d8 => Sys2Proof.Machine.execLdyZpx d8 s
  | .ldaZpx d8 => Sys2Proof.Machine.execLdaZpx d8 s
  | .ldxZpy d8 => Sys2Proof.Machine.execLdxZpy d8 s
  | .ldaAby a16 => Sys2Proof.Machine.execLdaAby a16 s
  | .tsx => Sys2Proof.Machine.execTsx s
  | .ldyAbx a16 => Sys2Proof.Machine.execLdyAbx a16 s
  | .ldaAbx a16 => Sys2Proof.Machine.execLdaAbx a16 s
  | .ldxAby a16 => Sys2Proof.Machine.execLdxAby a16 s
  -- Stack (spec/41_stack.md)
  | .php => Sys2Proof.Machine.execPhp s
  | .plp => Sys2Proof.Machine.execPlp s
  | .pha => Sys2Proof.Machine.execPha s
  | .pla => Sys2Proof.Machine.execPla s
  -- Logic, arithmetic, compare (spec/42_logic_arithmetic.md)
  | .oraIzx d8 => Sys2Proof.Machine.execOraIzx d8 s
  | .oraZp d8 => Sys2Proof.Machine.execOraZp d8 s
  | .oraImm d8 => Sys2Proof.Machine.execOraImm d8 s
  | .oraAbs a16 => Sys2Proof.Machine.execOraAbs a16 s
  | .oraIzy d8 => Sys2Proof.Machine.execOraIzy d8 s
  | .oraZpx d8 => Sys2Proof.Machine.execOraZpx d8 s
  | .oraAby a16 => Sys2Proof.Machine.execOraAby a16 s
  | .oraAbx a16 => Sys2Proof.Machine.execOraAbx a16 s
  | .andIzx d8 => Sys2Proof.Machine.execAndIzx d8 s
  | .bitZp d8 => Sys2Proof.Machine.execBitZp d8 s
  | .andZp d8 => Sys2Proof.Machine.execAndZp d8 s
  | .andImm d8 => Sys2Proof.Machine.execAndImm d8 s
  | .bitAbs a16 => Sys2Proof.Machine.execBitAbs a16 s
  | .andAbs a16 => Sys2Proof.Machine.execAndAbs a16 s
  | .andIzy d8 => Sys2Proof.Machine.execAndIzy d8 s
  | .andZpx d8 => Sys2Proof.Machine.execAndZpx d8 s
  | .andAby a16 => Sys2Proof.Machine.execAndAby a16 s
  | .andAbx a16 => Sys2Proof.Machine.execAndAbx a16 s
  | .eorIzx d8 => Sys2Proof.Machine.execEorIzx d8 s
  | .eorZp d8 => Sys2Proof.Machine.execEorZp d8 s
  | .eorImm d8 => Sys2Proof.Machine.execEorImm d8 s
  | .eorAbs a16 => Sys2Proof.Machine.execEorAbs a16 s
  | .eorIzy d8 => Sys2Proof.Machine.execEorIzy d8 s
  | .eorZpx d8 => Sys2Proof.Machine.execEorZpx d8 s
  | .eorAby a16 => Sys2Proof.Machine.execEorAby a16 s
  | .eorAbx a16 => Sys2Proof.Machine.execEorAbx a16 s
  | .adcIzx d8 => Sys2Proof.Machine.execAdcIzx d8 s
  | .adcZp d8 => Sys2Proof.Machine.execAdcZp d8 s
  | .adcImm d8 => Sys2Proof.Machine.execAdcImm d8 s
  | .adcAbs a16 => Sys2Proof.Machine.execAdcAbs a16 s
  | .adcIzy d8 => Sys2Proof.Machine.execAdcIzy d8 s
  | .adcZpx d8 => Sys2Proof.Machine.execAdcZpx d8 s
  | .adcAby a16 => Sys2Proof.Machine.execAdcAby a16 s
  | .adcAbx a16 => Sys2Proof.Machine.execAdcAbx a16 s
  | .cpyImm d8 => Sys2Proof.Machine.execCpyImm d8 s
  | .cmpIzx d8 => Sys2Proof.Machine.execCmpIzx d8 s
  | .cpyZp d8 => Sys2Proof.Machine.execCpyZp d8 s
  | .cmpZp d8 => Sys2Proof.Machine.execCmpZp d8 s
  | .cmpImm d8 => Sys2Proof.Machine.execCmpImm d8 s
  | .cpyAbs a16 => Sys2Proof.Machine.execCpyAbs a16 s
  | .cmpAbs a16 => Sys2Proof.Machine.execCmpAbs a16 s
  | .cmpIzy d8 => Sys2Proof.Machine.execCmpIzy d8 s
  | .cmpZpx d8 => Sys2Proof.Machine.execCmpZpx d8 s
  | .cmpAby a16 => Sys2Proof.Machine.execCmpAby a16 s
  | .cmpAbx a16 => Sys2Proof.Machine.execCmpAbx a16 s
  | .cpxImm d8 => Sys2Proof.Machine.execCpxImm d8 s
  | .sbcIzx d8 => Sys2Proof.Machine.execSbcIzx d8 s
  | .cpxZp d8 => Sys2Proof.Machine.execCpxZp d8 s
  | .sbcZp d8 => Sys2Proof.Machine.execSbcZp d8 s
  | .sbcImm d8 => Sys2Proof.Machine.execSbcImm d8 s
  | .cpxAbs a16 => Sys2Proof.Machine.execCpxAbs a16 s
  | .sbcAbs a16 => Sys2Proof.Machine.execSbcAbs a16 s
  | .sbcIzy d8 => Sys2Proof.Machine.execSbcIzy d8 s
  | .sbcZpx d8 => Sys2Proof.Machine.execSbcZpx d8 s
  | .sbcAby a16 => Sys2Proof.Machine.execSbcAby a16 s
  | .sbcAbx a16 => Sys2Proof.Machine.execSbcAbx a16 s
  -- Shifts, rotates, increments, decrements (spec/43_shift_incdec.md)
  | .aslZp d8 => Sys2Proof.Machine.execAslZp d8 s
  | .aslAcc => Sys2Proof.Machine.execAslAcc s
  | .aslAbs a16 => Sys2Proof.Machine.execAslAbs a16 s
  | .aslZpx d8 => Sys2Proof.Machine.execAslZpx d8 s
  | .aslAbx a16 => Sys2Proof.Machine.execAslAbx a16 s
  | .rolZp d8 => Sys2Proof.Machine.execRolZp d8 s
  | .rolAcc => Sys2Proof.Machine.execRolAcc s
  | .rolAbs a16 => Sys2Proof.Machine.execRolAbs a16 s
  | .rolZpx d8 => Sys2Proof.Machine.execRolZpx d8 s
  | .rolAbx a16 => Sys2Proof.Machine.execRolAbx a16 s
  | .lsrZp d8 => Sys2Proof.Machine.execLsrZp d8 s
  | .lsrAcc => Sys2Proof.Machine.execLsrAcc s
  | .lsrAbs a16 => Sys2Proof.Machine.execLsrAbs a16 s
  | .lsrZpx d8 => Sys2Proof.Machine.execLsrZpx d8 s
  | .lsrAbx a16 => Sys2Proof.Machine.execLsrAbx a16 s
  | .rorZp d8 => Sys2Proof.Machine.execRorZp d8 s
  | .rorAcc => Sys2Proof.Machine.execRorAcc s
  | .rorAbs a16 => Sys2Proof.Machine.execRorAbs a16 s
  | .rorZpx d8 => Sys2Proof.Machine.execRorZpx d8 s
  | .rorAbx a16 => Sys2Proof.Machine.execRorAbx a16 s
  | .dey => Sys2Proof.Machine.execDey s
  | .decZp d8 => Sys2Proof.Machine.execDecZp d8 s
  | .iny => Sys2Proof.Machine.execIny s
  | .dex => Sys2Proof.Machine.execDex s
  | .decAbs a16 => Sys2Proof.Machine.execDecAbs a16 s
  | .decZpx d8 => Sys2Proof.Machine.execDecZpx d8 s
  | .decAbx a16 => Sys2Proof.Machine.execDecAbx a16 s
  | .incZp d8 => Sys2Proof.Machine.execIncZp d8 s
  | .inx => Sys2Proof.Machine.execInx s
  | .incAbs a16 => Sys2Proof.Machine.execIncAbs a16 s
  | .incZpx d8 => Sys2Proof.Machine.execIncZpx d8 s
  | .incAbx a16 => Sys2Proof.Machine.execIncAbx a16 s
  -- Control transfer (spec/44_control_transfer.md)
  | .bpl d8 => Sys2Proof.Machine.execBpl d8 s
  | .jsr a16 => Sys2Proof.Machine.execJsr a16 s
  | .bmi d8 => Sys2Proof.Machine.execBmi d8 s
  | .jmpAbs a16 => Sys2Proof.Machine.execJmpAbs a16 s
  | .bvc d8 => Sys2Proof.Machine.execBvc d8 s
  | .rts => Sys2Proof.Machine.execRts s
  | .jmpInd a16 => Sys2Proof.Machine.execJmpInd a16 s
  | .bvs d8 => Sys2Proof.Machine.execBvs d8 s
  | .bcc d8 => Sys2Proof.Machine.execBcc d8 s
  | .bcs d8 => Sys2Proof.Machine.execBcs d8 s
  | .bne d8 => Sys2Proof.Machine.execBne d8 s
  | .beq d8 => Sys2Proof.Machine.execBeq d8 s
  -- Flags and system (spec/45_flags_system.md)
  | .brk => Sys2Proof.Machine.execBrk s
  | .clc => Sys2Proof.Machine.execClc s
  | .sec => Sys2Proof.Machine.execSec s
  | .rti => Sys2Proof.Machine.execRti s
  | .cli => Sys2Proof.Machine.execCli s
  | .sei => Sys2Proof.Machine.execSei s
  | .clv => Sys2Proof.Machine.execClv s
  | .cld => Sys2Proof.Machine.execCld s
  | .nop => Sys2Proof.Machine.execNop s
  | .sed => Sys2Proof.Machine.execSed s
  -- Undocumented opcodes (spec/46_undocumented.md)
  | .sloIzx d8 => Sys2Proof.Machine.execSloIzx d8 s
  | .nopZp04 d8 => Sys2Proof.Machine.execNopZp04 d8 s
  | .sloZp d8 => Sys2Proof.Machine.execSloZp d8 s
  | .anc0B d8 => Sys2Proof.Machine.execAnc0B d8 s
  | .nopAbs a16 => Sys2Proof.Machine.execNopAbs a16 s
  | .sloAbs a16 => Sys2Proof.Machine.execSloAbs a16 s
  | .sloIzy d8 => Sys2Proof.Machine.execSloIzy d8 s
  | .nopZpx14 d8 => Sys2Proof.Machine.execNopZpx14 d8 s
  | .sloZpx d8 => Sys2Proof.Machine.execSloZpx d8 s
  | .nop1A => Sys2Proof.Machine.execNop1A s
  | .sloAby a16 => Sys2Proof.Machine.execSloAby a16 s
  | .nopAbx1C a16 => Sys2Proof.Machine.execNopAbx1C a16 s
  | .sloAbx a16 => Sys2Proof.Machine.execSloAbx a16 s
  | .rlaIzx d8 => Sys2Proof.Machine.execRlaIzx d8 s
  | .rlaZp d8 => Sys2Proof.Machine.execRlaZp d8 s
  | .anc2B d8 => Sys2Proof.Machine.execAnc2B d8 s
  | .rlaAbs a16 => Sys2Proof.Machine.execRlaAbs a16 s
  | .rlaIzy d8 => Sys2Proof.Machine.execRlaIzy d8 s
  | .nopZpx34 d8 => Sys2Proof.Machine.execNopZpx34 d8 s
  | .rlaZpx d8 => Sys2Proof.Machine.execRlaZpx d8 s
  | .nop3A => Sys2Proof.Machine.execNop3A s
  | .rlaAby a16 => Sys2Proof.Machine.execRlaAby a16 s
  | .nopAbx3C a16 => Sys2Proof.Machine.execNopAbx3C a16 s
  | .rlaAbx a16 => Sys2Proof.Machine.execRlaAbx a16 s
  | .sreIzx d8 => Sys2Proof.Machine.execSreIzx d8 s
  | .nopZp44 d8 => Sys2Proof.Machine.execNopZp44 d8 s
  | .sreZp d8 => Sys2Proof.Machine.execSreZp d8 s
  | .alr d8 => Sys2Proof.Machine.execAlr d8 s
  | .sreAbs a16 => Sys2Proof.Machine.execSreAbs a16 s
  | .sreIzy d8 => Sys2Proof.Machine.execSreIzy d8 s
  | .nopZpx54 d8 => Sys2Proof.Machine.execNopZpx54 d8 s
  | .sreZpx d8 => Sys2Proof.Machine.execSreZpx d8 s
  | .nop5A => Sys2Proof.Machine.execNop5A s
  | .sreAby a16 => Sys2Proof.Machine.execSreAby a16 s
  | .nopAbx5C a16 => Sys2Proof.Machine.execNopAbx5C a16 s
  | .sreAbx a16 => Sys2Proof.Machine.execSreAbx a16 s
  | .rraIzx d8 => Sys2Proof.Machine.execRraIzx d8 s
  | .nopZp64 d8 => Sys2Proof.Machine.execNopZp64 d8 s
  | .rraZp d8 => Sys2Proof.Machine.execRraZp d8 s
  | .arr d8 => Sys2Proof.Machine.execArr d8 s
  | .rraAbs a16 => Sys2Proof.Machine.execRraAbs a16 s
  | .rraIzy d8 => Sys2Proof.Machine.execRraIzy d8 s
  | .nopZpx74 d8 => Sys2Proof.Machine.execNopZpx74 d8 s
  | .rraZpx d8 => Sys2Proof.Machine.execRraZpx d8 s
  | .nop7A => Sys2Proof.Machine.execNop7A s
  | .rraAby a16 => Sys2Proof.Machine.execRraAby a16 s
  | .nopAbx7C a16 => Sys2Proof.Machine.execNopAbx7C a16 s
  | .rraAbx a16 => Sys2Proof.Machine.execRraAbx a16 s
  | .nopImm80 d8 => Sys2Proof.Machine.execNopImm80 d8 s
  | .nopImm82 d8 => Sys2Proof.Machine.execNopImm82 d8 s
  | .saxIzx d8 => Sys2Proof.Machine.execSaxIzx d8 s
  | .saxZp d8 => Sys2Proof.Machine.execSaxZp d8 s
  | .nopImm89 d8 => Sys2Proof.Machine.execNopImm89 d8 s
  | .xaa d8 => Sys2Proof.Machine.execXaa d8 s
  | .saxAbs a16 => Sys2Proof.Machine.execSaxAbs a16 s
  | .shaIzy d8 => Sys2Proof.Machine.execShaIzy d8 s
  | .saxZpy d8 => Sys2Proof.Machine.execSaxZpy d8 s
  | .tas a16 => Sys2Proof.Machine.execTas a16 s
  | .shy a16 => Sys2Proof.Machine.execShy a16 s
  | .shx a16 => Sys2Proof.Machine.execShx a16 s
  | .shaAby a16 => Sys2Proof.Machine.execShaAby a16 s
  | .laxIzx d8 => Sys2Proof.Machine.execLaxIzx d8 s
  | .laxZp d8 => Sys2Proof.Machine.execLaxZp d8 s
  | .lxa d8 => Sys2Proof.Machine.execLxa d8 s
  | .laxAbs a16 => Sys2Proof.Machine.execLaxAbs a16 s
  | .laxIzy d8 => Sys2Proof.Machine.execLaxIzy d8 s
  | .laxZpy d8 => Sys2Proof.Machine.execLaxZpy d8 s
  | .las a16 => Sys2Proof.Machine.execLas a16 s
  | .laxAby a16 => Sys2Proof.Machine.execLaxAby a16 s
  | .nopImmC2 d8 => Sys2Proof.Machine.execNopImmC2 d8 s
  | .dcpIzx d8 => Sys2Proof.Machine.execDcpIzx d8 s
  | .dcpZp d8 => Sys2Proof.Machine.execDcpZp d8 s
  | .axs d8 => Sys2Proof.Machine.execAxs d8 s
  | .dcpAbs a16 => Sys2Proof.Machine.execDcpAbs a16 s
  | .dcpIzy d8 => Sys2Proof.Machine.execDcpIzy d8 s
  | .nopZpxD4 d8 => Sys2Proof.Machine.execNopZpxD4 d8 s
  | .dcpZpx d8 => Sys2Proof.Machine.execDcpZpx d8 s
  | .nopDA => Sys2Proof.Machine.execNopDA s
  | .dcpAby a16 => Sys2Proof.Machine.execDcpAby a16 s
  | .nopAbxDC a16 => Sys2Proof.Machine.execNopAbxDC a16 s
  | .dcpAbx a16 => Sys2Proof.Machine.execDcpAbx a16 s
  | .nopImmE2 d8 => Sys2Proof.Machine.execNopImmE2 d8 s
  | .iscIzx d8 => Sys2Proof.Machine.execIscIzx d8 s
  | .iscZp d8 => Sys2Proof.Machine.execIscZp d8 s
  | .sbcImmEB d8 => Sys2Proof.Machine.execSbcImmEB d8 s
  | .iscAbs a16 => Sys2Proof.Machine.execIscAbs a16 s
  | .iscIzy d8 => Sys2Proof.Machine.execIscIzy d8 s
  | .nopZpxF4 d8 => Sys2Proof.Machine.execNopZpxF4 d8 s
  | .iscZpx d8 => Sys2Proof.Machine.execIscZpx d8 s
  | .nopFA => Sys2Proof.Machine.execNopFA s
  | .iscAby a16 => Sys2Proof.Machine.execIscAby a16 s
  | .nopAbxFC a16 => Sys2Proof.Machine.execNopAbxFC a16 s
  | .iscAbx a16 => Sys2Proof.Machine.execIscAbx a16 s
  | .jam02 => Sys2Proof.Machine.execJam02 s
  | .jam12 => Sys2Proof.Machine.execJam12 s
  | .jam22 => Sys2Proof.Machine.execJam22 s
  | .jam32 => Sys2Proof.Machine.execJam32 s
  | .jam42 => Sys2Proof.Machine.execJam42 s
  | .jam52 => Sys2Proof.Machine.execJam52 s
  | .jam62 => Sys2Proof.Machine.execJam62 s
  | .jam72 => Sys2Proof.Machine.execJam72 s
  | .jam92 => Sys2Proof.Machine.execJam92 s
  | .jamB2 => Sys2Proof.Machine.execJamB2 s
  | .jamD2 => Sys2Proof.Machine.execJamD2 s
  | .jamF2 => Sys2Proof.Machine.execJamF2 s

end Sys2Proof.Machine
end

