-- ==== Sys2Proof/Machine/Cycle.lean ====
section
/-! DEFINITION. The machine one cycle at a time (spec/70_reset_and_hazards.md R430, R439 `step_cycle`; spec/10_state.md R29:
"an explicit instruction-local micro-step index rather than an opaque multi-cycle procedure"): the tables of
spec/47_bus_cycle_sequences.md as data, row by row, and `machine_step_cycle`. Operand bytes come from the bus here. -/

namespace Sys2Proof.Machine

/-- What an instruction does, as one of the sequences of R302 to R318 and R321 with its operation. -/
inductive Shape where
  | implied (op : Regs → Regs)
  | imm (op : Byte → Regs → Regs)
  | read (mode : AddrMode) (op : Byte → Regs → Regs)
  | store (mode : AddrMode) (val : Regs → Byte)
  | rmw (mode : AddrMode) (new : Flags → Byte → Byte) (op : Byte → Regs → Regs)
  | unstable (mode : AddrMode) (val : Regs → Byte) (op : Regs → Regs)
  | branch (cond : Flags → Bool)
  | jmpAbs
  | jmpInd
  | jsr
  | rts
  | rti
  | brk
  | pushOf (val : Regs → Byte)
  | pullTo (op : Byte → Regs → Regs)
  | jam

/-- The sequences of row 0x of the opcode matrix (R134). -/
def shapeRow0 (_ : Params) : List Shape :=
  [.brk,
   .read .izx (fun m r => r.setA (r.a ||| m)),
   .jam,
   .rmw .izx (Shift.asl.memory) Regs.slo,
   .read .zp (fun _ r => r.same),
   .read .zp (fun m r => r.setA (r.a ||| m)),
   .rmw .zp (Shift.asl.memory) (Regs.shiftMemory .asl),
   .rmw .zp (Shift.asl.memory) Regs.slo,
   .pushOf (fun r => r.p.pack true),
   .imm (fun m r => r.setA (r.a ||| m)),
   .implied (Regs.shiftA .asl),
   .imm Regs.anc,
   .read .abs (fun _ r => r.same),
   .read .abs (fun m r => r.setA (r.a ||| m)),
   .rmw .abs (Shift.asl.memory) (Regs.shiftMemory .asl),
   .rmw .abs (Shift.asl.memory) Regs.slo]

/-- The sequences of row 1x of the opcode matrix (R134). -/
def shapeRow1 (_ : Params) : List Shape :=
  [.branch (fun p => !p.n),
   .read .izy (fun m r => r.setA (r.a ||| m)),
   .jam,
   .rmw .izy (Shift.asl.memory) Regs.slo,
   .read .zpx (fun _ r => r.same),
   .read .zpx (fun m r => r.setA (r.a ||| m)),
   .rmw .zpx (Shift.asl.memory) (Regs.shiftMemory .asl),
   .rmw .zpx (Shift.asl.memory) Regs.slo,
   .implied (fun r => r.mapP ({ · with c := false })),
   .read .aby (fun m r => r.setA (r.a ||| m)),
   .implied Regs.same,
   .rmw .aby (Shift.asl.memory) Regs.slo,
   .read .abx (fun _ r => r.same),
   .read .abx (fun m r => r.setA (r.a ||| m)),
   .rmw .abx (Shift.asl.memory) (Regs.shiftMemory .asl),
   .rmw .abx (Shift.asl.memory) Regs.slo]

/-- The sequences of row 2x of the opcode matrix (R134). -/
def shapeRow2 (_ : Params) : List Shape :=
  [.jsr,
   .read .izx (fun m r => r.setA (r.a &&& m)),
   .jam,
   .rmw .izx (Shift.rol.memory) Regs.rla,
   .read .zp Regs.bit,
   .read .zp (fun m r => r.setA (r.a &&& m)),
   .rmw .zp (Shift.rol.memory) (Regs.shiftMemory .rol),
   .rmw .zp (Shift.rol.memory) Regs.rla,
   .pullTo (fun v r => { r with p := Flags.unpack v }),
   .imm (fun m r => r.setA (r.a &&& m)),
   .implied (Regs.shiftA .rol),
   .imm Regs.anc,
   .read .abs Regs.bit,
   .read .abs (fun m r => r.setA (r.a &&& m)),
   .rmw .abs (Shift.rol.memory) (Regs.shiftMemory .rol),
   .rmw .abs (Shift.rol.memory) Regs.rla]

/-- The sequences of row 3x of the opcode matrix (R134). -/
def shapeRow3 (_ : Params) : List Shape :=
  [.branch Flags.n,
   .read .izy (fun m r => r.setA (r.a &&& m)),
   .jam,
   .rmw .izy (Shift.rol.memory) Regs.rla,
   .read .zpx (fun _ r => r.same),
   .read .zpx (fun m r => r.setA (r.a &&& m)),
   .rmw .zpx (Shift.rol.memory) (Regs.shiftMemory .rol),
   .rmw .zpx (Shift.rol.memory) Regs.rla,
   .implied (fun r => r.mapP ({ · with c := true })),
   .read .aby (fun m r => r.setA (r.a &&& m)),
   .implied Regs.same,
   .rmw .aby (Shift.rol.memory) Regs.rla,
   .read .abx (fun _ r => r.same),
   .read .abx (fun m r => r.setA (r.a &&& m)),
   .rmw .abx (Shift.rol.memory) (Regs.shiftMemory .rol),
   .rmw .abx (Shift.rol.memory) Regs.rla]

/-- The sequences of row 4x of the opcode matrix (R134). -/
def shapeRow4 (_ : Params) : List Shape :=
  [.rti,
   .read .izx (fun m r => r.setA (r.a ^^^ m)),
   .jam,
   .rmw .izx (Shift.lsr.memory) Regs.sre,
   .read .zp (fun _ r => r.same),
   .read .zp (fun m r => r.setA (r.a ^^^ m)),
   .rmw .zp (Shift.lsr.memory) (Regs.shiftMemory .lsr),
   .rmw .zp (Shift.lsr.memory) Regs.sre,
   .pushOf Regs.a,
   .imm (fun m r => r.setA (r.a ^^^ m)),
   .implied (Regs.shiftA .lsr),
   .imm Regs.alr,
   .jmpAbs,
   .read .abs (fun m r => r.setA (r.a ^^^ m)),
   .rmw .abs (Shift.lsr.memory) (Regs.shiftMemory .lsr),
   .rmw .abs (Shift.lsr.memory) Regs.sre]

/-- The sequences of row 5x of the opcode matrix (R134). -/
def shapeRow5 (_ : Params) : List Shape :=
  [.branch (fun p => !p.v),
   .read .izy (fun m r => r.setA (r.a ^^^ m)),
   .jam,
   .rmw .izy (Shift.lsr.memory) Regs.sre,
   .read .zpx (fun _ r => r.same),
   .read .zpx (fun m r => r.setA (r.a ^^^ m)),
   .rmw .zpx (Shift.lsr.memory) (Regs.shiftMemory .lsr),
   .rmw .zpx (Shift.lsr.memory) Regs.sre,
   .implied (fun r => r.mapP ({ · with i := false })),
   .read .aby (fun m r => r.setA (r.a ^^^ m)),
   .implied Regs.same,
   .rmw .aby (Shift.lsr.memory) Regs.sre,
   .read .abx (fun _ r => r.same),
   .read .abx (fun m r => r.setA (r.a ^^^ m)),
   .rmw .abx (Shift.lsr.memory) (Regs.shiftMemory .lsr),
   .rmw .abx (Shift.lsr.memory) Regs.sre]

/-- The sequences of row 6x of the opcode matrix (R134). -/
def shapeRow6 (_ : Params) : List Shape :=
  [.rts,
   .read .izx Regs.add,
   .jam,
   .rmw .izx (Shift.ror.memory) Regs.rra,
   .read .zp (fun _ r => r.same),
   .read .zp Regs.add,
   .rmw .zp (Shift.ror.memory) (Regs.shiftMemory .ror),
   .rmw .zp (Shift.ror.memory) Regs.rra,
   .pullTo Regs.setA,
   .imm Regs.add,
   .implied (Regs.shiftA .ror),
   .imm Regs.arr,
   .jmpInd,
   .read .abs Regs.add,
   .rmw .abs (Shift.ror.memory) (Regs.shiftMemory .ror),
   .rmw .abs (Shift.ror.memory) Regs.rra]

/-- The sequences of row 7x of the opcode matrix (R134). -/
def shapeRow7 (_ : Params) : List Shape :=
  [.branch Flags.v,
   .read .izy Regs.add,
   .jam,
   .rmw .izy (Shift.ror.memory) Regs.rra,
   .read .zpx (fun _ r => r.same),
   .read .zpx Regs.add,
   .rmw .zpx (Shift.ror.memory) (Regs.shiftMemory .ror),
   .rmw .zpx (Shift.ror.memory) Regs.rra,
   .implied (fun r => r.mapP ({ · with i := true })),
   .read .aby Regs.add,
   .implied Regs.same,
   .rmw .aby (Shift.ror.memory) Regs.rra,
   .read .abx (fun _ r => r.same),
   .read .abx Regs.add,
   .rmw .abx (Shift.ror.memory) (Regs.shiftMemory .ror),
   .rmw .abx (Shift.ror.memory) Regs.rra]

/-- The sequences of row 8x of the opcode matrix (R134). -/
def shapeRow8 (p : Params) : List Shape :=
  [.imm (fun _ r => r.same),
   .store .izx Regs.a,
   .imm (fun _ r => r.same),
   .store .izx (fun r => r.a &&& r.x),
   .store .zp Regs.y,
   .store .zp Regs.a,
   .store .zp Regs.x,
   .store .zp (fun r => r.a &&& r.x),
   .implied (fun r => r.setY (r.y - 1)),
   .imm (fun _ r => r.same),
   .implied (fun r => r.setA r.x),
   .imm (Regs.xaa p.magicXaa),
   .store .abs Regs.y,
   .store .abs Regs.a,
   .store .abs Regs.x,
   .store .abs (fun r => r.a &&& r.x)]

/-- The sequences of row 9x of the opcode matrix (R134). -/
def shapeRow9 (_ : Params) : List Shape :=
  [.branch (fun p => !p.c),
   .store .izy Regs.a,
   .jam,
   .unstable .izy (fun r => r.a &&& r.x) Regs.same,
   .store .zpx Regs.y,
   .store .zpx Regs.a,
   .store .zpy Regs.x,
   .store .zpy (fun r => r.a &&& r.x),
   .implied (fun r => r.setA r.y),
   .store .aby Regs.a,
   .implied (fun r => { r with s := r.x }),
   .unstable .aby (fun r => r.a &&& r.x) (fun r => { r with s := r.a &&& r.x }),
   .unstable .abx Regs.y Regs.same,
   .store .abx Regs.a,
   .unstable .aby Regs.x Regs.same,
   .unstable .aby (fun r => r.a &&& r.x) Regs.same]

/-- The sequences of row Ax of the opcode matrix (R134). -/
def shapeRowA (p : Params) : List Shape :=
  [.imm Regs.setY,
   .read .izx Regs.setA,
   .imm Regs.setX,
   .read .izx Regs.setAX,
   .read .zp Regs.setY,
   .read .zp Regs.setA,
   .read .zp Regs.setX,
   .read .zp Regs.setAX,
   .implied (fun r => r.setY r.a),
   .imm Regs.setA,
   .implied (fun r => r.setX r.a),
   .imm (Regs.lxa p.magicLxa),
   .read .abs Regs.setY,
   .read .abs Regs.setA,
   .read .abs Regs.setX,
   .read .abs Regs.setAX]

/-- The sequences of row Bx of the opcode matrix (R134). -/
def shapeRowB (_ : Params) : List Shape :=
  [.branch Flags.c,
   .read .izy Regs.setA,
   .jam,
   .read .izy Regs.setAX,
   .read .zpx Regs.setY,
   .read .zpx Regs.setA,
   .read .zpy Regs.setX,
   .read .zpy Regs.setAX,
   .implied (fun r => r.mapP ({ · with v := false })),
   .read .aby Regs.setA,
   .implied (fun r => r.setX r.s),
   .read .aby Regs.las,
   .read .abx Regs.setY,
   .read .abx Regs.setA,
   .read .aby Regs.setX,
   .read .aby Regs.setAX]

/-- The sequences of row Cx of the opcode matrix (R134). -/
def shapeRowC (_ : Params) : List Shape :=
  [.imm Regs.compareY,
   .read .izx Regs.compareA,
   .imm (fun _ r => r.same),
   .rmw .izx (fun _ old => old - 1) Regs.dcp,
   .read .zp Regs.compareY,
   .read .zp Regs.compareA,
   .rmw .zp (fun _ old => old - 1) (fun old r => r.mapP (·.setNZ (old - 1))),
   .rmw .zp (fun _ old => old - 1) Regs.dcp,
   .implied (fun r => r.setY (r.y + 1)),
   .imm Regs.compareA,
   .implied (fun r => r.setX (r.x - 1)),
   .imm Regs.axs,
   .read .abs Regs.compareY,
   .read .abs Regs.compareA,
   .rmw .abs (fun _ old => old - 1) (fun old r => r.mapP (·.setNZ (old - 1))),
   .rmw .abs (fun _ old => old - 1) Regs.dcp]

/-- The sequences of row Dx of the opcode matrix (R134). -/
def shapeRowD (_ : Params) : List Shape :=
  [.branch (fun p => !p.z),
   .read .izy Regs.compareA,
   .jam,
   .rmw .izy (fun _ old => old - 1) Regs.dcp,
   .read .zpx (fun _ r => r.same),
   .read .zpx Regs.compareA,
   .rmw .zpx (fun _ old => old - 1) (fun old r => r.mapP (·.setNZ (old - 1))),
   .rmw .zpx (fun _ old => old - 1) Regs.dcp,
   .implied (fun r => r.mapP ({ · with d := false })),
   .read .aby Regs.compareA,
   .implied Regs.same,
   .rmw .aby (fun _ old => old - 1) Regs.dcp,
   .read .abx (fun _ r => r.same),
   .read .abx Regs.compareA,
   .rmw .abx (fun _ old => old - 1) (fun old r => r.mapP (·.setNZ (old - 1))),
   .rmw .abx (fun _ old => old - 1) Regs.dcp]

/-- The sequences of row Ex of the opcode matrix (R134). -/
def shapeRowE (_ : Params) : List Shape :=
  [.imm Regs.compareX,
   .read .izx Regs.sub,
   .imm (fun _ r => r.same),
   .rmw .izx (fun _ old => old + 1) Regs.isc,
   .read .zp Regs.compareX,
   .read .zp Regs.sub,
   .rmw .zp (fun _ old => old + 1) (fun old r => r.mapP (·.setNZ (old + 1))),
   .rmw .zp (fun _ old => old + 1) Regs.isc,
   .implied (fun r => r.setX (r.x + 1)),
   .imm Regs.sub,
   .implied Regs.same,
   .imm Regs.sub,
   .read .abs Regs.compareX,
   .read .abs Regs.sub,
   .rmw .abs (fun _ old => old + 1) (fun old r => r.mapP (·.setNZ (old + 1))),
   .rmw .abs (fun _ old => old + 1) Regs.isc]

/-- The sequences of row Fx of the opcode matrix (R134). -/
def shapeRowF (_ : Params) : List Shape :=
  [.branch Flags.z,
   .read .izy Regs.sub,
   .jam,
   .rmw .izy (fun _ old => old + 1) Regs.isc,
   .read .zpx (fun _ r => r.same),
   .read .zpx Regs.sub,
   .rmw .zpx (fun _ old => old + 1) (fun old r => r.mapP (·.setNZ (old + 1))),
   .rmw .zpx (fun _ old => old + 1) Regs.isc,
   .implied (fun r => r.mapP ({ · with d := true })),
   .read .aby Regs.sub,
   .implied Regs.same,
   .rmw .aby (fun _ old => old + 1) Regs.isc,
   .read .abx (fun _ r => r.same),
   .read .abx Regs.sub,
   .rmw .abx (fun _ old => old + 1) (fun old r => r.mapP (·.setNZ (old + 1))),
   .rmw .abx (fun _ old => old + 1) Regs.isc]

/-- A row of the opcode matrix by its number (R134). -/
def shapeRow (p : Params) : Nat → List Shape
  | 0 => shapeRow0 p
  | 1 => shapeRow1 p
  | 2 => shapeRow2 p
  | 3 => shapeRow3 p
  | 4 => shapeRow4 p
  | 5 => shapeRow5 p
  | 6 => shapeRow6 p
  | 7 => shapeRow7 p
  | 8 => shapeRow8 p
  | 9 => shapeRow9 p
  | 10 => shapeRowA p
  | 11 => shapeRowB p
  | 12 => shapeRowC p
  | 13 => shapeRowD p
  | 14 => shapeRowE p
  | _ => shapeRowF p

/-- The sequence of an opcode byte. -/
def shapeOf (p : Params) (op : Byte) : Shape := (shapeRow p (op.toNat / 16)).getD (op.toNat % 16) .jam

/-- One row of a table of R302 to R321: the poll (R325), the bus access, and what the Cpu does with the byte. -/
structure MicroOp where
  polled : Bool
  /-- The byte written; `none` for a read. -/
  write  : Option Byte
  addr   : Addr
  after  : Byte → State → State

/-- A read row. -/
def readRow (polled : Bool) (a : Addr) (f : Byte → State → State) : MicroOp :=
  { polled := polled, write := none, addr := a, after := f }

/-- A read row whose byte is dropped. -/
def dummyRow (polled : Bool) (a : Addr) (f : State → State) : MicroOp := readRow polled a (fun _ => f)

/-- A write row. -/
def writeRow (polled : Bool) (a : Addr) (v : Byte) (f : State → State) : MicroOp :=
  { polled := polled, write := some v, addr := a, after := fun _ => f }

/-- A row that reads the byte at PC and steps PC. -/
def fetchRow (polled : Bool) (s : State) (f : Byte → Progress → Progress) : MicroOp :=
  readRow polled s.cpu.regs.pc (fun b t => (t.mapProg (f b)).mapRegs Regs.incPc)

/-- How many cycles, the opcode fetch among them, put the address together. -/
def AddrMode.cycles : AddrMode → Nat
  | .zp => 2
  | .zpx => 3
  | .zpy => 3
  | .abs => 3
  | .abx => 3
  | .aby => 3
  | .izx => 5
  | .izy => 4

/-- Row `n` (from 2 on) of the address cycles of a mode (R304 to R309). -/
def AddrMode.row (mode : AddrMode) (n : Nat) (s : State) : MicroOp :=
  let g := s.cpu.prog
  let r := s.cpu.regs
  let zero := fetchRow false s (fun b g => { g with adl := b, adh := 0 })
  let index (i : Byte) := dummyRow false s.target (·.mapProg (fun g => { g with adl := g.adl + i }))
  let low := fetchRow false s (fun b g => { g with adl := b })
  let high (f : Progress → Progress) := fetchRow false s (fun b g => f { g with adh := b })
  let pointerLow := readRow false (word 0 g.ptr) (fun b t => t.mapProg (fun g => { g with adl := b }))
  let pointerHigh (f : Progress → Progress) :=
    readRow false (word 0 (g.ptr + 1)) (fun b t => t.mapProg (fun g => f { g with adh := b }))
  match mode, n with
  | .zp, _ => zero
  | .zpx, 2 => zero
  | .zpx, _ => index r.x
  | .zpy, 2 => zero
  | .zpy, _ => index r.y
  | .abs, 2 => low
  | .abs, _ => high id
  | .abx, 2 => low
  | .abx, _ => high (Progress.addIndex r.x)
  | .aby, 2 => low
  | .aby, _ => high (Progress.addIndex r.y)
  | .izx, 2 => zero
  | .izx, 3 => dummyRow false s.target (·.mapProg (fun g => { g with ptr := g.adl + r.x }))
  | .izx, 4 => pointerLow
  | .izx, _ => pointerHigh id
  | .izy, 2 => fetchRow false s (fun b g => { g with ptr := b })
  | .izy, 3 => pointerLow
  | .izy, _ => pointerHigh (Progress.addIndex r.y)

/-- The row that reads at `EA_unfixed`, its byte dropped, and carries into `adh`. -/
def fixupRow (s : State) : MicroOp :=
  dummyRow false s.target (·.mapProg (fun g => { g with adh := g.adh + (BitVec.ofBool g.fixup).setWidth 8 }))

/-- The final row of a read instruction. -/
def readTargetRow (op : Byte → Regs → Regs) (s : State) : MicroOp :=
  readRow true s.target (fun m t => finish (t.mapRegs (op m)))

/-- Row `k` (from 1 on) after the address cycles, of a read-modify-write instruction's three. -/
def rmwRow (new : Flags → Byte → Byte) (op : Byte → Regs → Regs) (k : Nat) (s : State) : MicroOp :=
  let old := s.cpu.prog.data
  match k with
  | 1 => readRow false s.target (fun b t => t.mapProg (fun g => { g with data := b }))
  | 2 => writeRow false s.target old id
  | _ => writeRow true s.target (new s.cpu.regs.p old) (fun t => finish (t.mapRegs (op old)))

/-- The final row of SHA, SHX, SHY and TAS, after the read at `EA_unfixed`: `adh` is the base's high byte plus `fixup`. -/
def unstableRow (val : Regs → Byte) (op : Regs → Regs) (s : State) : MicroOp :=
  let g := s.cpu.prog
  let v := val s.cpu.regs &&& (if g.fixup then g.adh else g.adh + 1)
  writeRow true (if g.fixup then word v g.adl else s.target) v (fun t => finish (t.mapRegs op))

/-- Row 2 of the sequences that drop the byte after the opcode. -/
def dropRow (s : State) : MicroOp := dummyRow false s.cpu.regs.pc id

/-- A push row. -/
def pushRow (polled : Bool) (v : Byte) (s : State) (f : State → State) : MicroOp :=
  writeRow polled s.cpu.regs.stackAddr v (fun t => f (t.mapRegs Regs.decS))

/-- The row before a pull: a dropped read of the stack, then S steps up. -/
def beforePullRow (s : State) : MicroOp := dummyRow false s.cpu.regs.stackAddr (·.mapRegs Regs.incS)

/-- Rows 3 to 7 of BRK and of the interrupt sequence (R316, R319), whose P is pushed with the B bit `b`. The vector's address
is kept in `{adh, adl}` from cycle 5 on. The vector is chosen before the detectors sample in cycle 5, so what is pending after
that cycle is an edge of that cycle only (R350). -/
def entryRow (b : Bool) (n : Nat) (s : State) : MicroOp :=
  let r := s.cpu.regs
  match n with
  | 3 => pushRow false (hi r.pc) s id
  | 4 => pushRow false (lo r.pc) s id
  | 5 =>
    pushRow false (r.p.pack b) s
      (fun t =>
        { t with cpu := { t.cpu with nmiPending := t.cpu.nmiPrev && !s.cpu.nmiPrev } }.mapProg
          (fun g => { g with adl := lo s.chosenVector, adh := hi s.chosenVector }))
  | 6 =>
    readRow false s.target (fun l t => t.mapRegs (fun r => (r.setPcl l).setI))
  | _ => readRow false (s.target + 1) (fun h t => finish (t.mapRegs (Regs.setPch h)))

/-- Row `n` (from 2 on) of an instruction's sequence. -/
def Shape.row (sh : Shape) (n : Nat) (s : State) : MicroOp :=
  let g := s.cpu.prog
  let r := s.cpu.regs
  match sh with
  | .implied op => dummyRow true r.pc (fun t => finish (t.mapRegs op))
  | .imm op => readRow true r.pc (fun b t => finish ((t.mapRegs Regs.incPc).mapRegs (op b)))
  | .read mode op =>
    if n ≤ mode.cycles then mode.row n s
    else if mode.indexed && n == mode.cycles + 1 && g.fixup then fixupRow s
    else readTargetRow op s
  | .store mode val =>
    if n ≤ mode.cycles then mode.row n s
    else if mode.indexed && n == mode.cycles + 1 then fixupRow s
    else writeRow true s.target (val r) finish
  | .rmw mode new op =>
    if n ≤ mode.cycles then mode.row n s
    else if mode.indexed then (if n = mode.cycles + 1 then fixupRow s else rmwRow new op (n - mode.cycles - 1) s)
    else rmwRow new op (n - mode.cycles) s
  | .unstable mode val op =>
    if n ≤ mode.cycles then mode.row n s
    else if n = mode.cycles + 1 then fixupRow s
    else unstableRow val op s
  | .branch cond =>
    let target := r.pc + sext g.data
    match n with
    | 2 =>
      readRow true r.pc
        (fun b t =>
          let u := (t.mapProg (fun g => { g with data := b })).mapRegs Regs.incPc
          if cond u.cpu.regs.p then u else finish u)
    | 3 =>
      dummyRow false r.pc
        (fun t =>
          if hi target = hi r.pc then finish (t.jump target)
          else
            (t.jump (word (hi r.pc) (lo target))).mapProg (fun g => { g with adl := lo target, adh := hi target }))
    | _ => dummyRow true r.pc (fun t => finish (t.jump s.target))
  | .jmpAbs =>
    match n with
    | 2 => fetchRow false s (fun b g => { g with adl := b })
    | _ => readRow true r.pc (fun h t => finish (t.jump (word h t.cpu.prog.adl)))
  | .jmpInd =>
    match n with
    | 2 => fetchRow false s (fun b g => { g with adl := b })
    | 3 => fetchRow false s (fun b g => { g with adh := b })
    | 4 => readRow false s.target (fun b t => t.mapProg (fun g => { g with data := b }))
    | _ => readRow true (word g.adh (g.adl + 1)) (fun h t => finish (t.jump (word h t.cpu.prog.data)))
  | .jsr =>
    match n with
    | 2 => fetchRow false s (fun b g => { g with adl := b })
    | 3 => dummyRow false r.stackAddr id
    | 4 => pushRow false (hi r.pc) s id
    | 5 => pushRow false (lo r.pc) s id
    | _ => readRow true r.pc (fun h t => finish (t.jump (word h t.cpu.prog.adl)))
  | .rts =>
    match n with
    | 2 => dropRow s
    | 3 => beforePullRow s
    | 4 => readRow false r.stackAddr (fun l t => t.mapRegs (fun r => (r.setPcl l).incS))
    | 5 => readRow false r.stackAddr (fun h t => t.mapRegs (Regs.setPch h))
    | _ => dummyRow true r.pc (fun t => finish (t.mapRegs Regs.incPc))
  | .rti =>
    match n with
    | 2 => dropRow s
    | 3 => beforePullRow s
    | 4 => readRow false r.stackAddr (fun p t => t.mapRegs (fun r => { r with p := Flags.unpack p, s := r.s + 1 }))
    | 5 => readRow false r.stackAddr (fun l t => t.mapRegs (fun r => (r.setPcl l).incS))
    | _ => readRow true r.stackAddr (fun h t => finish (t.mapRegs (Regs.setPch h)))
  | .brk =>
    match n with
    | 2 => dummyRow false r.pc (·.mapRegs Regs.incPc)
    | _ => entryRow true n s
  | .pushOf val =>
    match n with
    | 2 => dropRow s
    | _ => pushRow true (val r) s finish
  | .pullTo op =>
    match n with
    | 2 => dropRow s
    | 3 => beforePullRow s
    | _ => readRow true r.stackAddr (fun v t => finish (t.mapRegs (op v)))
  | .jam => dummyRow false r.pc (fun t => finish { t with cpu := { t.cpu with halted := true } })

/-- The row the Cpu performs next (R301, R319, R349). -/
def State.nextRow (s : State) : MicroOp :=
  let n := s.cpu.prog.tcycle + 1
  match s.cpu.prog.ir with
  | .nothing =>
    if s.cpu.intDetected then
      dummyRow false s.cpu.regs.pc
        (fun t => { t with cpu := { t.cpu with intDetected := false, prog := { t.cpu.prog with ir := .int } } })
    else fetchRow false s (fun b g => { g with ir := .opcode b })
  | .opcode op => (shapeOf s.params op).row n s
  | .int => if n = 2 then dropRow s else entryRow false n s

/-- A row begins: the poll, when it is a poll point, and the micro-op position. -/
def MicroOp.begun (m : MicroOp) (s : State) : State :=
  (if m.polled then poll s else s).mapProg (fun g => { g with tcycle := g.tcycle + 1 })

/-- The Cpu performs its next row; a fetch that was put off to it comes first in a read row. -/
def cpuCycle (s : State) : State :=
  let m := s.nextRow
  match m.write with
  | some v => m.after 0 (endCycle true (busWrite m.addr v (m.begun s)))
  | none =>
    let t := m.begun (sharedFetch s)
    m.after (busValue m.addr t) (endCycle false (busAfterRead m.addr t))

/-- A DMA unit has work that takes a cycle, so that it owns the next cycle that is not a write cycle of the Cpu (R102 to R105). -/
def State.dmaWaiting (s : State) : Bool := s.dma.oamPending || s.collides || s.dma.stall != 0

/-- An OAM DMA goes on, or is over when it has no cycle left. -/
def oamEnd (s : State) : State := if s.dma.stall = 0 then oamOver s else s

/-- One cycle of a DMA unit (R102 to R104): while `oam_dma_pending` is 1 the stall is the OAM transfer's; `stall` then tells
halt and alignment, get and put cycles apart. -/
def dmaCycle (s : State) : State :=
  if s.dma.oamPending then
    let left := 2 * (256 - s.dma.oamIndex) + s.dma.owed
    if s.dma.stall = 0 then
      idleStall { s with dma := { s.dma with oamIndex := 0, stall := 513 + (s.cycle + 1) % 2, owed := 0, late := false } }
    else if s.dma.oamIndex = 256 then oamEnd (lateCycle s)
    else if left < s.dma.stall then idleStall s
    else if left = s.dma.stall then (if s.defersPair then collisionFetch s else oamGet (oamMeet s))
    else oamEnd (oamLast (oamPut s))
  else dmcStallCycle s

/-- `machine_step_cycle` (R430), `step_cycle()` (R439). -/
def stepCycle (s : State) : State :=
  if s.cpu.halted then haltedCycle s
  else if s.nextRow.write.isNone && s.dmaWaiting then dmaCycle s
  else cpuCycle s

/-- The Cpu is at an instruction boundary (R47): no instruction is in flight. -/
def State.atBoundary (s : State) : Bool := s.cpu.prog == Progress.idle

/-! ## To the end of what is in flight -/

/-- The next row with the DMA cycles in front of it (R105): as many cycles of `stepCycle` as that takes. -/
def runRow (s : State) : State :=
  let m := s.nextRow
  match m.write with
  | some v => m.after 0 (writeCycle m.polled m.addr v s)
  | none => m.after (readValue m.polled m.addr s) (readCycle m.polled m.addr s)

/-- Rows until no instruction is in flight or the Cpu is halted, at most `n`. -/
def runRows : Nat → State → State
  | 0, s => s
  | n + 1, s => if s.atBoundary || s.cpu.halted then s else runRows n (runRow s)

/-- The instruction or interrupt sequence in flight completes (R422, R431 (3), R439); no sequence has more than eight rows. -/
def completeInFlight (s : State) : State := runRows 8 s

/-- `n` calls of `step_cycle()`. -/
def cyclesAfter : Nat → State → State
  | 0, s => s
  | n + 1, s => cyclesAfter n (stepCycle s)

end Sys2Proof.Machine
end

