-- ==== Sys2Proof/Machine/Fetch.lean ====
section
/-! DEFINITION. Fetching: which instruction stands at PC, and how one is placed there from outside the machine. -/

namespace Sys2Proof.Machine

/-- The machine after the cycle that reads the first operand byte. -/
def afterOperand (s : State) : State := fetchOperand false id (fetchOpcode s)

/-- The opcode byte the next instruction's cycle 1 reads (R301). -/
def State.nextOpcode (s : State) : Byte := readValue false s.cpu.regs.pc s

/-- The byte its cycle 2 reads at PC. -/
def State.nextOperand1 (s : State) : Byte := readValue false (fetchOpcode s).cpu.regs.pc (fetchOpcode s)

/-- The byte the cycle after that reads at PC (format F3). -/
def State.nextOperand2 (s : State) : Byte := readValue false (afterOperand s).cpu.regs.pc (afterOperand s)

/-- The instruction the next instruction cycles fetch (R120, R121): the opcode byte decides how many operand bytes are read,
and each is read in a cycle of its own, in the state its cycle finds. -/
def State.fetched (s : State) : Instr :=
  match formatOf s.nextOpcode with
  | .f1 i => i
  | .f2 i => i s.nextOperand1
  | .f3 i => i (word s.nextOperand2 s.nextOperand1)

/-! ## Placing an instruction from outside (log entry 2) -/

/-- An address whose byte can be placed and will be read back: RAM, PRG data, PRG RAM the variant answers with. -/
def State.placeable (s : State) (a : Addr) : Bool :=
  let n := a.toNat
  decide (n < 0x2000) || decide (0x8000 ≤ n) || (decide (0x6000 ≤ n) && s.mapper.ramReadable s.params)

/-- Put one byte at a placeable address. -/
def State.placeByte (s : State) (a : Addr) (v : Byte) : State :=
  let n := a.toNat
  if n < 0x2000 then { s with ram := s.ram.set (n % 0x0800) v }
  else if 0x8000 ≤ n then
    { s with cart := { s.cart with prg := romSet s.cart.prg (s.mapper.prgOffset s.cart n % s.cart.prgSize) v } }
  else { s with mapper := { s.mapper with prgRam := s.mapper.prgRam.set (n - 0x6000) v } }

/-- Put bytes at rising addresses. -/
def State.placeBytes (s : State) (a : Addr) : List Byte → State
  | [] => s
  | v :: vs => (s.placeByte a v).placeBytes (a + 1) vs

/-- The machine with the given bytes where its next instruction is fetched: it is at a boundary, neither halted nor about to
take an interrupt, and PC is 0x0000 if a byte could not be placed at the old PC. -/
def State.placeProgram (s : State) (bytes : List Byte) : State :=
  let pc := s.cpu.regs.pc
  let at' := if s.placeable pc && s.placeable (pc + 1) && s.placeable (pc + 2) then pc else 0
  let t :=
    { s with
      cpu :=
        { s.cpu with halted := false, intDetected := false, prog := Progress.idle, regs := { s.cpu.regs with pc := at' } } }
  t.placeBytes at' bytes

end Sys2Proof.Machine
end

