-- ==== Sys2Proof/Machine/Step.lean ====
section
/-! DEFINITION. One step of the machine, from one instruction boundary to the next (spec/70_reset_and_hazards.md R439
`step_instruction`), and placing the instruction it runs. -/

namespace Sys2Proof.Machine

/-- `step_instruction` (R439, R346, R349), which ends where the Cpu "next reaches an instruction boundary": a halted Cpu lets one
cycle pass; an instruction that single cycles began is completed; at a boundary, a detected interrupt runs the interrupt
sequence, and otherwise the instruction at PC runs. -/
def step (s : State) : Host.Outcome State Fault Refusal :=
  if s.cpu.halted then .next (haltedCycle s)
  else if !s.atBoundary then .next (completeInFlight s)
  else if s.cpu.intDetected then .next (interruptSequence s)
  else exec s.fetched s

/-- The machine with the instruction word of an opcode-table row where its next instruction is fetched (log entry 2). -/
def State.withFetchWord (s : State) (nbits w : Nat) : State := s.placeProgram (tableBytes nbits w)

end Sys2Proof.Machine
end

