-- ==== Sys2Proof/Machine/Views.lean ====
section
/-! DEFINITION. How statements look at the machine: bytes of memory, effective addresses (spec/30_encoding.md R125 to R130,
R133) and the states in which an instruction's last accesses find it. No step uses this file. -/

namespace Sys2Proof.Machine

/-- A byte of the cartridge's PRG RAM. -/
def State.prgRamByte (s : State) (k : Nat) : Byte := Memory.read s.epoch .prgRam s.mapper.prgRam k

/-- The byte memory holds at a Cpu address: RAM, or what the mapper answers; `none` at a device register and where nothing
answers. -/
def State.memByte (s : State) (a : Addr) : Option Byte :=
  let n := a.toNat
  if n < 0x2000 then some (s.ramByte (n % 0x0800))
  else if n < 0x4020 then none
  else s.mapper.prgRead s.cart s.params s.epoch n

/-- The memory a program can store to and the image, all as before: RAM, PRG RAM, the CartridgeImage, the parameters. -/
def SameMemory (s t : State) : Prop :=
  (∀ k, t.ramByte k = s.ramByte k) ∧ (∀ k, t.prgRamByte k = s.prgRamByte k) ∧ t.cart = s.cart ∧ t.params = s.params
    ∧ t.epoch = s.epoch

/-- A byte `v` was stored at Cpu address `a` and at no other: the RAM byte, or the PRG RAM byte where the variant stores it,
reads `v`, and every other byte of RAM and PRG RAM reads as before. -/
def StoredAt (a : Addr) (v : Byte) (s t : State) : Prop :=
  let n := a.toNat
  (∀ k, t.ramByte k = if n < 0x2000 ∧ k = n % 0x0800 then v else s.ramByte k)
    ∧ (∀ k, t.prgRamByte k =
        if 0x6000 ≤ n ∧ n < 0x8000 ∧ s.mapper.ramWritable s.params = true ∧ k = n - 0x6000 then v else s.prgRamByte k)
    ∧ t.cart = s.cart ∧ t.params = s.params ∧ t.epoch = s.epoch

/-- The pointer of mode izx read from RAM (R129). -/
def eaIzx (d8 : Byte) (s : State) : Addr :=
  let z := d8 + s.cpu.regs.x
  word (s.ramByte (z + 1).toNat) (s.ramByte z.toNat)

/-- The base address of mode izy read from RAM (R130). -/
def baseIzy (d8 : Byte) (s : State) : Addr := word (s.ramByte (d8 + 1).toNat) (s.ramByte d8.toNat)

/-- The address the index is added to; the operand is `d8` in the low byte, or `a16`. -/
def AddrMode.base (mode : AddrMode) (operand : Addr) (s : State) : Addr :=
  match mode with
  | .izy => baseIzy (lo operand) s
  | .zp => operand
  | .zpx => operand
  | .zpy => operand
  | .abs => operand
  | .abx => operand
  | .aby => operand
  | .izx => operand

/-- The index of the modes abx, aby and izy. -/
def AddrMode.index (mode : AddrMode) (s : State) : Byte :=
  match mode with
  | .abx => s.cpu.regs.x
  | .aby => s.cpu.regs.y
  | .izy => s.cpu.regs.y
  | .zp => 0
  | .zpx => 0
  | .zpy => 0
  | .abs => 0
  | .izx => 0

/-- `EA` (R133). -/
def AddrMode.ea (mode : AddrMode) (operand : Addr) (s : State) : Addr :=
  match mode with
  | .zp => eaZp (lo operand)
  | .zpx => eaZpIndexed (lo operand) s.cpu.regs.x
  | .zpy => eaZpIndexed (lo operand) s.cpu.regs.y
  | .abs => operand
  | .abx => eaIndexed operand s.cpu.regs.x
  | .aby => eaIndexed operand s.cpu.regs.y
  | .izx => eaIzx (lo operand) s
  | .izy => eaIndexed (baseIzy (lo operand) s) s.cpu.regs.y

/-- `crossed` (R128, R130); the other modes never cross. -/
def AddrMode.crosses (mode : AddrMode) (operand : Addr) (s : State) : Bool :=
  mode.indexed && crossed (mode.base operand s) (mode.index s)

/-- The length of an instruction of the mode (R140). -/
def AddrMode.length (mode : AddrMode) : Addr :=
  match mode with
  | .abs => 3
  | .abx => 3
  | .aby => 3
  | .zp => 2
  | .zpx => 2
  | .zpy => 2
  | .izx => 2
  | .izy => 2

/-- The machine after the address cycles. -/
def AddrMode.addressed (mode : AddrMode) (operand : Addr) (s : State) : State :=
  match mode with
  | .zp => addrZp (lo operand) s
  | .zpx => addrZpIndexed Regs.x (lo operand) s
  | .zpy => addrZpIndexed Regs.y (lo operand) s
  | .abs => addrAbs operand s
  | .abx => addrIndexed Regs.x operand s
  | .aby => addrIndexed Regs.y operand s
  | .izx => addrIzx (lo operand) s
  | .izy => addrIzy (lo operand) s

/-- The machine before the final cycle of a read instruction: one more cycle was made when the page was crossed (R324). -/
def AddrMode.beforeRead (mode : AddrMode) (operand : Addr) (s : State) : State :=
  let u := mode.addressed operand s
  if mode.crosses operand s then fixupCycle u else u

/-- The machine before the first access to `EA` of a store or read-modify-write instruction (R307, R309). -/
def AddrMode.beforeWrite (mode : AddrMode) (operand : Addr) (s : State) : State :=
  let u := mode.addressed operand s
  if mode.indexed then fixupCycle u else u

/-- The address SHA, SHX, SHY and TAS write to (R288 to R291). -/
def AddrMode.unstableEa (mode : AddrMode) (v : Byte) (operand : Addr) (s : State) : Addr :=
  if mode.crosses operand s then word v (lo (mode.ea operand s)) else mode.ea operand s

/-- The registers with PC moved on. -/
def Regs.advance (r : Regs) (n : Addr) : Regs := { r with pc := r.pc + n }

/-- The word a vector holds (R64); memory always answers there (R85). -/
def State.vectorWord (s : State) (vec : Addr) : Addr := word ((s.memByte (vec + 1)).getD 0) ((s.memByte vec).getD 0)

/-- The RAM address of the stack byte `S` names (R21). -/
def stackIndex (sp : Byte) : Nat := 0x0100 + sp.toNat

/-- The RAM of a machine in which three bytes were pushed: `v1` first (R349). -/
def Pushed3 (sp v1 v2 v3 : Byte) (s t : State) : Prop :=
  ∀ k, t.ramByte k =
    if k = stackIndex (sp - 2) then v3 else if k = stackIndex (sp - 1) then v2 else if k = stackIndex sp then v1
    else s.ramByte k

/-- The RAM of a machine in which two bytes were pushed: `v1` first (R222). -/
def Pushed2 (sp v1 v2 : Byte) (s t : State) : Prop :=
  ∀ k, t.ramByte k = if k = stackIndex (sp - 1) then v2 else if k = stackIndex sp then v1 else s.ramByte k

/-- PRG RAM, the image and the parameters as before. -/
def SameCartridge (s t : State) : Prop :=
  (∀ k, t.prgRamByte k = s.prgRamByte k) ∧ t.cart = s.cart ∧ t.params = s.params ∧ t.epoch = s.epoch

end Sys2Proof.Machine
end

