-- ==== Sys2Proof/Machine/Timing.lean ====
section
/-! DEFINITION. How many Cpu cycles an instruction takes (spec/30_encoding.md R134, spec/47_bus_cycle_sequences.md R322, R324),
as a table of its own. No step uses it: a step takes the cycles its accesses take, and statements compare the two. -/

namespace Sys2Proof.Machine

/-- Row 0x of the cycle counts (R134), page-cross and branch cycles left out. -/
def cycleRow0 : List Nat :=
  [7, 6, 2, 8, 3, 3, 5, 5, 3, 2, 2, 2, 4, 4, 6, 6]

/-- Row 1x of the cycle counts (R134), page-cross and branch cycles left out. -/
def cycleRow1 : List Nat :=
  [2, 5, 2, 8, 4, 4, 6, 6, 2, 4, 2, 7, 4, 4, 7, 7]

/-- Row 2x of the cycle counts (R134), page-cross and branch cycles left out. -/
def cycleRow2 : List Nat :=
  [6, 6, 2, 8, 3, 3, 5, 5, 4, 2, 2, 2, 4, 4, 6, 6]

/-- Row 3x of the cycle counts (R134), page-cross and branch cycles left out. -/
def cycleRow3 : List Nat :=
  [2, 5, 2, 8, 4, 4, 6, 6, 2, 4, 2, 7, 4, 4, 7, 7]

/-- Row 4x of the cycle counts (R134), page-cross and branch cycles left out. -/
def cycleRow4 : List Nat :=
  [6, 6, 2, 8, 3, 3, 5, 5, 3, 2, 2, 2, 3, 4, 6, 6]

/-- Row 5x of the cycle counts (R134), page-cross and branch cycles left out. -/
def cycleRow5 : List Nat :=
  [2, 5, 2, 8, 4, 4, 6, 6, 2, 4, 2, 7, 4, 4, 7, 7]

/-- Row 6x of the cycle counts (R134), page-cross and branch cycles left out. -/
def cycleRow6 : List Nat :=
  [6, 6, 2, 8, 3, 3, 5, 5, 4, 2, 2, 2, 5, 4, 6, 6]

/-- Row 7x of the cycle counts (R134), page-cross and branch cycles left out. -/
def cycleRow7 : List Nat :=
  [2, 5, 2, 8, 4, 4, 6, 6, 2, 4, 2, 7, 4, 4, 7, 7]

/-- Row 8x of the cycle counts (R134), page-cross and branch cycles left out. -/
def cycleRow8 : List Nat :=
  [2, 6, 2, 6, 3, 3, 3, 3, 2, 2, 2, 2, 4, 4, 4, 4]

/-- Row 9x of the cycle counts (R134), page-cross and branch cycles left out. -/
def cycleRow9 : List Nat :=
  [2, 6, 2, 6, 4, 4, 4, 4, 2, 5, 2, 5, 5, 5, 5, 5]

/-- Row Ax of the cycle counts (R134), page-cross and branch cycles left out. -/
def cycleRowA : List Nat :=
  [2, 6, 2, 6, 3, 3, 3, 3, 2, 2, 2, 2, 4, 4, 4, 4]

/-- Row Bx of the cycle counts (R134), page-cross and branch cycles left out. -/
def cycleRowB : List Nat :=
  [2, 5, 2, 5, 4, 4, 4, 4, 2, 4, 2, 4, 4, 4, 4, 4]

/-- Row Cx of the cycle counts (R134), page-cross and branch cycles left out. -/
def cycleRowC : List Nat :=
  [2, 6, 2, 8, 3, 3, 5, 5, 2, 2, 2, 2, 4, 4, 6, 6]

/-- Row Dx of the cycle counts (R134), page-cross and branch cycles left out. -/
def cycleRowD : List Nat :=
  [2, 5, 2, 8, 4, 4, 6, 6, 2, 4, 2, 7, 4, 4, 7, 7]

/-- Row Ex of the cycle counts (R134), page-cross and branch cycles left out. -/
def cycleRowE : List Nat :=
  [2, 6, 2, 8, 3, 3, 5, 5, 2, 2, 2, 2, 4, 4, 6, 6]

/-- Row Fx of the cycle counts (R134), page-cross and branch cycles left out. -/
def cycleRowF : List Nat :=
  [2, 5, 2, 8, 4, 4, 6, 6, 2, 4, 2, 7, 4, 4, 7, 7]

/-- A row of the cycle counts by its number. -/
def cycleRow : Nat → List Nat
  | 0 => cycleRow0
  | 1 => cycleRow1
  | 2 => cycleRow2
  | 3 => cycleRow3
  | 4 => cycleRow4
  | 5 => cycleRow5
  | 6 => cycleRow6
  | 7 => cycleRow7
  | 8 => cycleRow8
  | 9 => cycleRow9
  | 10 => cycleRowA
  | 11 => cycleRowB
  | 12 => cycleRowC
  | 13 => cycleRowD
  | 14 => cycleRowE
  | _ => cycleRowF

/-- The cycle count of an opcode, page-cross and branch cycles left out (R134). -/
def baseCycles (op : Byte) : Nat := (cycleRow (op.toNat / 16)).getD (op.toNat % 16) 0

/-- The opcodes that take one more cycle when the page is crossed (R324), by mode. -/
def plusOpcodes : AddrMode → List Byte
  | .abx => [0x1C, 0x1D, 0x3C, 0x3D, 0x5C, 0x5D, 0x7C, 0x7D, 0xBC, 0xBD, 0xDC, 0xDD, 0xFC, 0xFD]
  | .aby => [0x19, 0x39, 0x59, 0x79, 0xB9, 0xBB, 0xBE, 0xBF, 0xD9, 0xF9]
  | .izy => [0x11, 0x31, 0x51, 0x71, 0xB1, 0xB3, 0xD1, 0xF1]
  | .zp => []
  | .zpx => []
  | .zpy => []
  | .abs => []
  | .izx => []

/-- The mode of an opcode that takes a page-cross cycle. -/
def plusMode (op : Byte) : Option AddrMode :=
  [AddrMode.abx, .aby, .izy].find? (fun m => (plusOpcodes m).contains op)

/-- The eight conditional branches have the opcodes `ffv10000` (R225 to R232). -/
def isBranch (op : Byte) : Bool := op &&& 0x1F == 0x10

/-- The flag a branch tests: N, V, C, Z for `ff` = 0 to 3. -/
def branchFlag (op : Byte) (p : Flags) : Bool :=
  match (op >>> 6).toNat with
  | 0 => p.n
  | 1 => p.v
  | 2 => p.c
  | _ => p.z

/-- A branch is taken when its flag has the value `v` of its opcode (R225 to R232). -/
def branchTaken (op : Byte) (p : Flags) : Bool := branchFlag op p == op.getLsbD 5

/-- The cycles beyond the base count: one for a crossed page (R324); for a branch one when taken, two when taken to another
page (R224, R310). -/
def extraCycles (op : Byte) (operand : Addr) (s : State) : Nat :=
  match plusMode op with
  | some m => if m.crosses operand s then 1 else 0
  | none =>
    if isBranch op && branchTaken op s.cpu.regs.p then
      let next := s.cpu.regs.pc + 2
      if hi (next + sext (lo operand)) = hi next then 1 else 2
    else 0

/-- The cycle count of the instruction with an opcode and an operand (R322). -/
def cyclesOf (op : Byte) (operand : Addr) (s : State) : Nat := baseCycles op + extraCycles op operand s

/-- The opcode byte of an instruction's encoding. -/
def opcodeByte (i : Instr) : Byte := (encode i).headD 0

/-- The operand of an instruction's encoding as an address: a byte operand in the low byte, 0 where there is none. -/
def operandAddr (i : Instr) : Addr :=
  match encode i with
  | [_, d] => word 0 d
  | [_, l, h] => word h l
  | _ => 0

/-- No DMA unit has work and none will get any: no OAM DMA, the delta-modulation channel has no byte left to fetch. -/
def State.dmaQuiet (s : State) : Bool :=
  !(s.dma.oamPending || s.dma.dmcPending || s.dma.stall != 0) && s.apu.dmc.remaining == 0

end Sys2Proof.Machine
end

