-- ==== Sys2Proof/Machine/Claims.lean ====
section
/-! DEFINITION. The forms that statements about instructions take: one per kind of access. Each says that `exec` answers a next
state on every state, which opcode byte the instruction has, what the registers become, which byte is read or stored and
where, and that everything else a program can store to, the image and the parameters are as before. No step uses this file. -/

namespace Sys2Proof.Machine

/-- The opcode byte of the instruction's encoding. -/
def HasOpcode (i : Instr) (op : Byte) : Prop := (encode i).head? = some op

/-- The instruction took `n` Cpu cycles, when no DMA unit had work (R322: cycles stolen by DMA are not part of the count). -/
def Takes (n : Nat) (s t : State) : Prop := s.dmaQuiet = true → t.cycle = s.cycle + n

/-- An instruction that reads nothing but its own bytes: `f` acts on the registers with PC past the instruction. -/
def ActsOnRegisters (op : Byte) (i : Instr) (length : Addr) (f : Regs → Regs) (s : State) : Prop :=
  HasOpcode i op ∧ ∃ t, exec i s = .next t
    ∧ t.cpu.regs = f (s.cpu.regs.advance length) ∧ SameMemory s t ∧ t.cpu.halted = s.cpu.halted ∧ Takes 2 s t

/-- An instruction that reads the byte `m` at the effective address and nothing else of memory; `m` is what the bus answers in
that cycle, which is memory's byte where memory holds one. The read is a bus read with the effects of its address. -/
def ReadsOperand (op : Byte) (i : Instr) (mode : AddrMode) (operand : Addr) (f : Byte → Regs → Regs) (s : State) : Prop :=
  let ea := mode.ea operand s
  let m := readValue true ea (mode.beforeRead operand s)
  HasOpcode i op ∧ (∀ b, s.memByte ea = some b → m = b) ∧ ∃ t, exec i s = .next t
    ∧ t = finish ((readCycle true ea (mode.beforeRead operand s)).mapRegs (f m))
    ∧ t.cpu.regs = f m (s.cpu.regs.advance mode.length) ∧ SameMemory s t ∧ t.cpu.halted = s.cpu.halted
    ∧ Takes (cyclesOf op operand s) s t

/-- A store of the byte `v` to the effective address: the bus write of the last cycle is the only one. -/
def StoresByte (op : Byte) (i : Instr) (mode : AddrMode) (operand : Addr) (v : Byte) (s : State) : Prop :=
  let ea := mode.ea operand s
  HasOpcode i op ∧ ∃ t, exec i s = .next t
    ∧ t = finish (writeCycle true ea v (mode.beforeWrite operand s))
    ∧ t.cpu.regs = s.cpu.regs.advance mode.length ∧ StoredAt ea v s t ∧ t.cpu.halted = s.cpu.halted
    ∧ Takes (cyclesOf op operand s) s t

/-- The three accesses of a read-modify-write instruction (R210) in the state `u` after the address cycles: `old` is read,
`old` is written, `new` is written. -/
def afterThreeAccesses (ea : Addr) (old new : Byte) (u : State) : State :=
  writeCycle true ea new
    (writeCycle false ea old ((readCycle false ea u).mapProg (fun g => { g with data := old })))

/-- A read-modify-write instruction: the byte `old` at the effective address is read and `new old` is stored there. -/
def ModifiesByte (op : Byte) (i : Instr) (mode : AddrMode) (operand : Addr) (new : Byte → Byte) (f : Byte → Regs → Regs)
    (s : State) : Prop :=
  let ea := mode.ea operand s
  let u := mode.beforeWrite operand s
  let old := readValue false ea u
  HasOpcode i op ∧ (∀ b, s.memByte ea = some b → old = b) ∧ ∃ t, exec i s = .next t
    ∧ t = finish ((afterThreeAccesses ea old (new old) u).mapRegs (f old))
    ∧ t.cpu.regs = f old (s.cpu.regs.advance mode.length) ∧ StoredAt ea (new old) s t
    ∧ t.cpu.halted = s.cpu.halted ∧ Takes (cyclesOf op operand s) s t

/-- A conditional branch (R224): PC is past the instruction or at the target; no flag, no other register, no memory changes. -/
def Branches (op : Byte) (i : Byte → Instr) (cond : Flags → Bool) (s : State) : Prop :=
  ∀ d8, HasOpcode (i d8) op ∧ ∃ t, exec (i d8) s = .next t
    ∧ t.cpu.regs =
        { s.cpu.regs with pc := if cond s.cpu.regs.p = true then s.cpu.regs.pc + 2 + sext d8 else s.cpu.regs.pc + 2 }
    ∧ SameMemory s t ∧ t.cpu.halted = s.cpu.halted ∧ Takes (cyclesOf op (word 0 d8) s) s t

/-! ## The stack, the unstable stores, the branches -/

/-- The byte of P that is pushed (R24), as a number: N, V, 1, B, D, I, Z, C from bit 7 down. -/
def Flags.byte (p : Flags) (b : Bool) : Byte :=
  BitVec.ofNat 8
    (128 * p.n.toNat + 64 * p.v.toNat + 32 + 16 * b.toNat + 8 * p.d.toNat + 4 * p.i.toNat + 2 * p.z.toNat + p.c.toNat)

/-- The flags a pulled byte gives (R24): bits 5 and 4 are ignored. -/
def flagsOf (v : Byte) : Flags :=
  { n := v.getLsbD 7, v := v.getLsbD 6, d := v.getLsbD 3, i := v.getLsbD 2, z := v.getLsbD 1, c := v.getLsbD 0 }

/-- A one-byte instruction that pushes `v`: the byte goes to `0x0100 + S`, S steps down, nothing else changes. -/
def PushesByte (op : Byte) (i : Instr) (v : Byte) (s : State) : Prop :=
  let r := s.cpu.regs
  HasOpcode i op ∧ ∃ t, exec i s = .next t
    ∧ t.cpu.regs = { r with pc := r.pc + 1, s := r.s - 1 }
    ∧ (∀ k, t.ramByte k = if k = stackIndex r.s then v else s.ramByte k)
    ∧ SameCartridge s t ∧ t.cpu.halted = s.cpu.halted ∧ Takes 3 s t

/-- What an interrupt poll makes of `int_detected` in a state, with the flag `i` (R346). -/
def State.polled (s : State) (i : Bool) : Bool :=
  s.cpu.intDetected || s.cpu.nmiPending || (s.cpu.irqLevel && !i)

/-- A one-byte instruction that pulls a byte: S steps up, the byte at `0x0100 + S` is `b`, and `f b` acts on the registers. Its
poll, at the start of the last cycle, uses the flag I as it was (R325, R348). -/
def PullsByte (op : Byte) (i : Instr) (f : Byte → Regs → Regs) (s : State) : Prop :=
  let r := s.cpu.regs
  HasOpcode i op ∧ ∃ t, exec i s = .next t
    ∧ t.cpu.regs = f (s.ramByte (stackIndex (r.s + 1))) { r with pc := r.pc + 1, s := r.s + 1 }
    ∧ t.cpu.intDetected = (stalls (beforePull (dummyFetch false (fetchOpcode s)))).polled r.p.i
    ∧ SameMemory s t ∧ t.cpu.halted = s.cpu.halted ∧ Takes 4 s t

/-- An unstable store (R288 to R291): the byte stored is `reg` and the base address's high byte plus 1; where the index
crosses a page that byte is also the high byte of the address written. -/
def StoresAndHigh (op : Byte) (i : Instr) (mode : AddrMode) (operand : Addr) (reg : Byte) (f : Regs → Regs) (s : State) :
    Prop :=
  let v := reg &&& (hi (mode.base operand s) + 1)
  HasOpcode i op ∧ ∃ t, exec i s = .next t
    ∧ t.cpu.regs = f (s.cpu.regs.advance mode.length)
    ∧ t = finish ((writeCycle true (mode.unstableEa v operand s) v (mode.beforeWrite operand s)).mapRegs f)
    ∧ StoredAt (mode.unstableEa v operand s) v s t ∧ t.cpu.halted = s.cpu.halted ∧ Takes (cyclesOf op operand s) s t

/-- The eight branches with their conditions (R225 to R232). -/
def branchInstrs : List ((Byte → Instr) × (Flags → Bool)) :=
  [(.bpl, fun p => !p.n), (.bmi, fun p => p.n), (.bvc, fun p => !p.v), (.bvs, fun p => p.v),
   (.bcc, fun p => !p.c), (.bcs, fun p => p.c), (.bne, fun p => !p.z), (.beq, fun p => p.z)]

/-- RTI before its last cycle (R315): P and the low byte of PC are pulled. -/
def beforeLastPull (s : State) : State :=
  let t := beforePull (dummyFetch false (fetchOpcode s))
  let u := (stackRead false t).mapRegs (fun r => { r with p := flagsOf (stackValue false t), s := r.s + 1 })
  (stackRead false u).mapRegs (fun r => (r.setPcl (stackValue false u)).incS)

/-- A taken branch that crosses a page, before its fourth cycle (R310): the wrong page is in PC. -/
def beforeFourthCycle (d8 : Byte) (s : State) : State :=
  let next := s.cpu.regs.pc + 2
  let t := fetchOperand true (fun g => { g with data := d8 }) (fetchOpcode s)
  (dummyFetch false t).jump (word (hi next) (lo (next + sext d8)))

/-- BRK or an interrupt sequence after the pushes of PC, from the state `u` in front of them (R316, R319, R350). -/
def afterPushesOfPc (u : State) : State := push false (lo u.cpu.regs.pc) (push false (hi u.cpu.regs.pc) u)

/-- The interrupt sequence before its pushes (R319). -/
def beforeEntry (s : State) : State :=
  let t := dummyFetch false (s.mapProg (fun g => { g with ir := .int }))
  dummyFetch false { t with cpu := { t.cpu with intDetected := false } }

/-- Interrupt entry (R349, R350) from the state `u` in front of the pushes: PC and P with the B bit `b` are pushed, I is set, PC
is the word at the vector, which is NMI's exactly when an NMI is pending after the pushes of PC; then no NMI is pending before
the push of P. `s` is the machine before the sequence. -/
def Enters (b : Bool) (u s t : State) : Prop :=
  let r := u.cpu.regs
  let w := afterPushesOfPc u
  let vec : Addr := if w.cpu.nmiPending = true then 0xFFFA else 0xFFFE
  t = finish (loadVector vec (push false (r.p.byte b) { w with cpu := { w.cpu with nmiPending := false } }))
    ∧ t.cpu.regs = { r with s := r.s - 3, pc := s.vectorWord vec, p := { r.p with i := true } }
    ∧ Pushed3 r.s (hi r.pc) (lo r.pc) (r.p.byte b) s t
    ∧ SameCartridge s t ∧ t.cpu.halted = s.cpu.halted

/-! ## Devices -/

/-- The device registers a program writes and no clock changes: the picture unit's latches, the channel registers, enables and
sequencer control of the audio unit, the controller ports, the OAM DMA trigger. -/
def State.deviceRegisters (s : State) : List Nat × Memory × FrameSequencer × Controllers × Bool :=
  ([s.ppu.ctrl.toNat, s.ppu.mask.toNat, s.ppu.t.toNat, s.ppu.x.toNat, s.ppu.w.toNat, s.ppu.readBuffer.toNat,
      s.ppu.ioLatch.toNat, s.apu.pulse1.ctrl.toNat, s.apu.pulse1.sweep.toNat, s.apu.pulse2.ctrl.toNat,
      s.apu.pulse2.sweep.toNat, s.apu.tri.ctrl.toNat, s.apu.tri.period.toNat, s.apu.noise.ctrl.toNat, s.apu.noise.mode.toNat,
      s.apu.dmc.ctrl.toNat, s.apu.dmc.addrReg.toNat, s.apu.dmc.lenReg.toNat, s.apu.enables.toNat, s.dma.oamPage.toNat],
    s.ppu.oam, { s.apu.seq with count := 0, delay := 0, irqFlag := false }, s.ctrl, s.dma.oamPending)

/-- The dots of the machine: where the next dot step leaves the position (R370, R373). -/
def Ppu.nextPosition (p : Ppu) (r : Region) : Nat × Nat :=
  if r = .ntsc ∧ p.oddFrame = true ∧ p.rendering = true ∧ p.scanline = 261 ∧ p.dot = 339 then (0, 0)
  else if p.dot < 340 then (p.scanline, p.dot + 1)
  else if p.scanline < preRenderLine r then (p.scanline + 1, 0)
  else (0, 0)

/-! ## Results in numbers

The operations of the instruction rules written with the numbers the bytes stand for, so that a statement does not repeat the
bit formulas of `Machine/Flags.lean`. -/

/-- N and Z from a byte (R13 `SetNZ`). -/
def Flags.nz (p : Flags) (v : Byte) : Flags := { p with n := decide (128 ≤ v.toNat), z := decide (v.toNat = 0) }

/-- The registers after adding `m` and the carry `c` to A (R185, R186). -/
def Regs.plus (r : Regs) (m : Byte) (c : Bool) : Regs :=
  let total := r.a.toNat + m.toNat + c.toNat
  let sum : Byte := BitVec.ofNat 8 total
  { r with a := sum, p := { r.p.nz sum with c := decide (256 ≤ total), v := ((r.a ^^^ sum) &&& (m ^^^ sum)).getLsbD 7 } }

/-- The registers after subtracting `m` and the borrow `1 - C` from A (R187): "the value computed is `A - m - (1 - C)` modulo
256; C = 1 afterwards means no borrow". -/
def Regs.minus (r : Regs) (m : Byte) : Regs :=
  let diff : Byte := BitVec.ofInt 8 ((r.a.toNat : Int) - (m.toNat : Int) - (1 - (r.p.c.toNat : Int)))
  { r with
    a := diff
    p := { r.p.nz diff with
      c := decide (m.toNat + 1 ≤ r.a.toNat + r.p.c.toNat)
      v := ((r.a ^^^ diff) &&& ((m ^^^ 0xFF) ^^^ diff)).getLsbD 7 } }

/-- The registers after comparing the byte `x` with `m` (R188): "C = 1 exactly when A >= m as unsigned numbers, Z = 1 exactly
when A = m, N is bit 7 of `(A - m) mod 256`". -/
def Regs.compared (r : Regs) (x m : Byte) : Regs :=
  { r with
    p := { r.p with
      n := decide (128 ≤ (x.toNat + 256 - m.toNat) % 256), z := decide (x.toNat = m.toNat), c := decide (m.toNat ≤ x.toNat) } }

/-- The result of a shift or rotate of `v` with carry-in `c` (R200 to R203). -/
def shifted : Shift → Bool → Byte → Byte
  | .asl, _, v => BitVec.ofNat 8 (2 * v.toNat)
  | .lsr, _, v => BitVec.ofNat 8 (v.toNat / 2)
  | .rol, c, v => BitVec.ofNat 8 (2 * v.toNat + c.toNat)
  | .ror, c, v => BitVec.ofNat 8 (v.toNat / 2 + 128 * c.toNat)

/-- The bit a shift or rotate moves to C: the highest or the lowest of `v`. -/
def shiftedOut : Shift → Byte → Bool
  | .asl, v => decide (128 ≤ v.toNat)
  | .rol, v => decide (128 ≤ v.toNat)
  | .lsr, v => decide (v.toNat % 2 = 1)
  | .ror, v => decide (v.toNat % 2 = 1)

/-- The flags after a shift or rotate of `v`. -/
def Flags.shifted (p : Flags) (k : Shift) (v : Byte) : Flags :=
  { p.nz (Machine.shifted k p.c v) with c := shiftedOut k v }

end Sys2Proof.Machine
end

