-- ==== Sys2Proof/Machine/Invariant.lean ====
section
/-! DEFINITION. The invariant of the machine at an instruction boundary: memories in canonical form and inside their sizes,
every counter inside its range, the DMA units where single cycles can leave them, the mapper's registers those of the image's
variant. -/

namespace Sys2Proof.Machine

/-- A memory in canonical form whose addresses lie below `n`. -/
def Memory.bounded (m : Memory) (n : Nat) : Bool := m.wf && m.all (fun c => decide (c.1 < n))

/-- The memories of the Ppu inside their sizes (R36, R37, R41). -/
def Ppu.memoriesFit (p : Ppu) : Bool :=
  p.oam.bounded 256 && p.secondaryOam.bounded 32 && p.palette.bounded 32 && p.vram.bounded 2048
    && p.frame.bounded 61440 && p.lastFrame.bounded 61440

/-- The Ppu's counters in the ranges of R36 and R376: dot [0, 340], scanline [0, 261] or [0, 311] for PAL, at most 8 sprites. -/
def Ppu.countersFit (p : Ppu) (r : Region) : Bool :=
  decide (p.dot ≤ 340) && decide (p.scanline ≤ preRenderLine r) && decide (p.spriteCount ≤ 8) && p.sprites.length == 8

/-- The Apu's counters in their ranges (R391 to R397); the noise register is never 0. -/
def Apu.countersFit (s : Apu) : Bool :=
  decide (s.pulse1.step < 8) && decide (s.pulse2.step < 8) && decide (s.tri.step < 32)
    && decide (1 ≤ s.dmc.bits ∧ s.dmc.bits ≤ 8) && s.noise.lfsr != 0 && decide (0x8000 ≤ s.dmc.addr.toNat)
    && decide (s.pulse1.env.decay ≤ 15) && decide (s.pulse2.env.decay ≤ 15) && decide (s.noise.env.decay ≤ 15)

/-- The mapper's registers are those of the image's variant and fit it (R85, R91, R93); its memories are inside their
sizes (R81, R82, R89). -/
def Mapper.fits (m : Mapper) (c : Cartridge) : Bool :=
  (match m.regs, c.mapper with
    | .nrom, .nrom => true
    | .uxrom _, .uxrom => true
    | .mmc1 r, .mmc1 => decide (r.count < 5)
    | .mmc3 r, .mmc3 => r.banks.length == 8
    | _, _ => false)
    && m.prgRam.bounded 0x2000 && m.chrRam.bounded c.chrSize && m.ntRam.bounded 4096

/-- The DMA units are where single cycles can leave them (R31, R102 to R105): a delta-modulation fetch is pending exactly when
the channel wants a byte; only a read cycle of a running Cpu is being held up; an OAM DMA of which cycles are over has its
remaining pairs, and what is owed, ahead of it; any other stall is that of a pending fetch; only a pending fetch is put off,
to the end of an OAM DMA of which cycles are over, or to the read it then shares a cycle with. -/
def State.dmaSound (s : State) : Bool :=
  let left := 2 * (256 - s.dma.oamIndex) + s.dma.owed
  s.dma.dmcPending == s.apu.dmc.wantsByte
    && (s.dma.stall == 0 || s.cpu.halted || s.nextRow.write.isNone)
    && (if s.dma.oamPending then
          !s.cpu.halted
            && (s.dma.stall == 0 || s.dma.oamIndex == 256
                || decide (s.dma.oamIndex < 256) && decide (left ≤ s.dma.stall + 1))
        else s.dma.stall == 0 || s.dma.dmcPending)
    && (!s.dma.late
        || (s.dma.dmcPending
            && (if s.dma.oamPending then s.dma.stall != 0
                else s.dma.stall == 0 && !s.cpu.halted && s.nextRow.write.isNone)))

/-- The invariant every step keeps. -/
def State.inv (s : State) : Bool :=
  s.ram.bounded 2048 && s.ppu.memoriesFit && s.ppu.countersFit s.params.region && s.apu.countersFit && s.mapper.fits s.cart
    && decide (s.dma.oamIndex ≤ 256) && s.dmaSound && s.cpu.prog == Progress.idle

end Sys2Proof.Machine
end

