-- ==== Sys2Proof/Machine/HostInterface.lean ====
section
/-! DEFINITION. What the host can do to the machine between steps (spec/70_reset_and_hazards.md R420 to R423, R431, R436 to
R442): load, reset, power-cycle, run a frame, save and load a state, look at it. None of it is a step. -/

namespace Sys2Proof.Machine

/-! ## Loading a cartridge (R88, R436) -/

/-- Why a load attempt fails (R436). -/
inductive LoadError where
  /-- Bytes 0 to 3 of the file are not the header's. -/
  | badHeader
  /-- No variant has the mapper number. -/
  | unsupportedMapper
  /-- Fewer bytes follow than the header's sizes require. -/
  | truncatedData
  deriving DecidableEq, Repr

/-- The variant of a mapper number (R89 to R94). -/
def mapperOfNumber : Nat → Option MapperKind
  | 0 => some .nrom
  | 1 => some .mmc1
  | 2 => some .uxrom
  | 4 => some .mmc3
  | _ => none

/-- The bytes of a list that are not zero, with their offsets from `k`. -/
def cellsOf : Nat → List Byte → List Host.Cell
  | _, [] => []
  | k, b :: bs => if b = 0 then cellsOf (k + 1) bs else (k, b) :: cellsOf (k + 1) bs

/-- The mirroring mode of header byte 6: bit 3 four-screen, else bit 0 (R88). -/
def headerMirroring (b6 : Byte) : Mirroring :=
  if b6.getLsbD 3 then .fourScreen else if b6.getLsbD 0 then .vertical else .horizontal

/-- Parse the header and the data after it (R88). Where a file has more than one fault the spec names no order; the header is
judged first, then its mapper number, then the length of the data (DESIGN CHOICE, log entry 25). -/
def parseImage (bytes : List Byte) : Except LoadError Cartridge :=
  let b (k : Nat) : Byte := bytes.getD k 0
  if bytes.take 4 ≠ [0x4E, 0x45, 0x53, 0x1A] then .error .badHeader
  else if bytes.length < 16 then .error .truncatedData
  else
    match mapperOfNumber ((b 6 >>> 4) ||| (b 7 &&& 0xF0)).toNat with
    | none => .error .unsupportedMapper
    | some kind =>
      let prgBanks := (b 4).toNat
      let chrBanks := (b 5).toNat
      let start := if (b 6).getLsbD 2 then 16 + 512 else 16
      if bytes.length < start + prgBanks * 16384 + chrBanks * 8192 then .error .truncatedData
      else
        let data := bytes.drop start
        .ok
          { mapper := kind, prgBanks := prgBanks, chrBanks := chrBanks
            prg := cellsOf 0 (data.take (prgBanks * 16384))
            chr := cellsOf 0 ((data.drop (prgBanks * 16384)).take (chrBanks * 8192))
            mirroring := headerMirroring (b 6), battery := (b 6).getLsbD 1 }

/-- The machine at power-on number `epoch`, after the reset sequence (R421). -/
def State.started (cart : Cartridge) (params : Params) (epoch : Nat) (prgRam : Memory) : State :=
  resetSequence (State.powerOn cart params epoch prgRam)

/-- `load(rom_bytes)` (R436): "parses the cartridge header, constructs CartridgeImage and the matching Mapper variant, returns
a powered-on Machine". `prgRam` is the battery RAM the caller kept. -/
def load (params : Params) (epoch : Nat) (prgRam : Memory) (bytes : List Byte) : Except LoadError State :=
  match parseImage bytes with
  | .ok cart => .ok (State.started cart params epoch prgRam)
  | .error e => .error e

/-! ## Reset and power-cycle -/

/-- Every byte of battery RAM, written or not (R423: it "keeps its content"). -/
def State.batteryRam (s : State) : Memory :=
  (List.range 0x2000).map (fun a => (a, Memory.read s.epoch .prgRam s.mapper.prgRam a))

/-- `power_cycle()` (R423): a new power-on with the same image and parameters; what is unspecified is drawn anew, battery RAM
keeps its content. The counter of the free values drawn (`draw`) goes on, so that the accesses after a power-cycle draw values of
their own (DESIGN CHOICE, log entry 3). -/
def powerCycle (s : State) : State :=
  resetSequence
    { State.powerOn s.cart s.params (s.epoch + 1) (if s.cart.battery then s.batteryRam else []) with draw := s.draw }

/-- The Ppu state the column "after reset" of R46 names. -/
def Ppu.afterReset (p : Ppu) : Ppu :=
  { p with
    ctrl := 0, mask := 0, sprite0Hit := false, spriteOverflow := false, w := false, t := 0, x := 0, readBuffer := 0
    dot := 0, scanline := 0, oddFrame := false }

/-- The value of register 0x4017 that gives the frame sequencer's mode and inhibit bits. -/
def FrameSequencer.register (q : FrameSequencer) : Byte :=
  (BitVec.ofBool q.fiveStep ++ BitVec.ofBool q.inhibit ++ (0 : BitVec 6) : BitVec 8)

/-- The Apu state the column "after reset" of R46 names: every channel disabled, the sequencer restarted as if its old value
had been written again, both interrupt flags 0. -/
def Apu.afterReset (s : Apu) (cycle : Nat) : Apu :=
  let off := s.writeEnable 0
  let restarted := off.writeSequencer cycle off.seq.register
  { restarted with seq := { restarted.seq with irqFlag := false } }

/-- What `reset()` changes before its reset sequence (R422, R44 to R46). -/
def State.resetRequest (s : State) : State :=
  { s with
    cpu := { s.cpu with halted := false, nmiPending := false, nmiPrev := false, intDetected := false }
    ppu := s.ppu.afterReset
    apu := s.apu.afterReset s.cycle
    dma :=
      { oamPending := false, oamPage := 0, oamIndex := 0, oamLatch := 0, dmcPending := false, stall := 0, owed := 0
        late := false } }

/-- `reset()` (R422), at an instruction boundary or on a halted Cpu: RAM, A, X, Y, the flags other than I, mapper registers
and `cycle` keep their values, then the reset sequence runs. -/
def hostReset (s : State) : State := resetSequence s.resetRequest

/-- `reset()` requested at any cycle (R422): "the in-flight instruction completes", and the request takes effect at the boundary.
DESIGN CHOICE (log entry 19): DMA is abandoned there and not at the request, so that a delta-modulation stall which holds up the
middle of the instruction runs to its end, its fetch included. -/
def requestReset (s : State) : State := hostReset (completeInFlight s)

/-! ## Running frames (R431, R437) -/

/-- The machine with the ButtonSets of a `run_frame` call on its ports, and no frame finished yet. -/
def State.withInputs (s : State) (port1 port2 : ButtonSet) : State :=
  { s with ctrl := { s.ctrl with input1 := port1, input2 := port2 }, ppu := { s.ppu with frameDone := false } }

/-- Single cycles until a frame is finished, at most `fuel` (R431 (2)). -/
def runUntilFrame : Nat → State → State
  | 0, s => s
  | fuel + 1, s => if s.ppu.frameDone then s else runUntilFrame fuel (stepCycle s)

/-- Cycles that are enough for a frame: it has at most 106392 dots, and a cycle makes at least 3. -/
def frameFuel : Nat := 35464

/-- What `run_frame` returns: the FrameBuffer, the samples since the call before, oldest first, and the machine with its
sample buffer cleared (R431, R437, R441, R442). -/
structure FrameResult where
  frame   : Memory
  samples : List Rat
  machine : State
  deriving DecidableEq, Repr

/-- What is returned from the state a frame's run ends in. -/
def State.frameResult (s : State) : FrameResult :=
  { frame := s.ppu.lastFrame, samples := s.apu.samples.reverse, machine := { s with apu := { s.apu with samples := [] } } }

/-- `run_frame(controller_inputs)` (R431, R437): to the end of the frame, then to an instruction boundary (or the Cpu is
halted), "so that a snapshot taken between frames is valid". -/
def runFrame (s : State) (port1 port2 : ButtonSet) : FrameResult :=
  (completeInFlight (runUntilFrame frameFuel (s.withInputs port1 port2))).frameResult

/-! ## Snapshots (R438) -/

end Sys2Proof.Machine

namespace Sys2Proof

/-- A mapper variant as a number, that of the header (R89 to R94). -/
def MapperKind.code : MapperKind → Nat
  | .nrom => 0
  | .mmc1 => 1
  | .uxrom => 2
  | .mmc3 => 4

/-- A mirroring mode as a number (R82). -/
def Mirroring.code : Mirroring → Nat
  | .horizontal => 0
  | .vertical => 1
  | .singleLower => 2
  | .singleUpper => 3
  | .fourScreen => 4

/-- Bytes with their offsets as numbers: each offset, then its byte. -/
def cellsCode : List Host.Cell → List Nat
  | [] => []
  | (a, b) :: cs => a :: b.toNat :: cellsCode cs

/-- Everything a CartridgeImage holds (R42) as a list of numbers: two images with one code are one image. -/
def Cartridge.code (c : Cartridge) : List Nat :=
  [c.mapper.code, c.prgBanks, c.chrBanks, c.mirroring.code, c.battery.toNat, c.prg.length] ++ (cellsCode c.prg ++ cellsCode c.chr)

/-- What a snapshot says of the cartridge it belongs to (R438, log entry 14). -/
def Cartridge.identity (c : Cartridge) : List Nat := Config.identityCode c.code

end Sys2Proof

namespace Sys2Proof.Machine

/-- A snapshot: "the whole Machine state [...] that carries information at a boundary, not the CartridgeImage". The image's place
in `machine` is blank; `identity` and `variant` say which cartridge and which mapper variant it belongs to (log entry 14). -/
structure Snapshot where
  machine  : State
  identity : List Nat
  variant  : MapperKind
  deriving DecidableEq, Repr

/-- Why a snapshot is not loaded (R438). -/
inductive SnapshotError where
  /-- It belongs to another cartridge or mapper variant. -/
  | mismatched
  /-- It holds no state a machine with this cartridge can have at an instruction boundary. -/
  | malformed
  deriving DecidableEq, Repr

/-- `save_state()` (R438): refused when the Cpu is not at an instruction boundary, which it can be after `step_cycle()`. -/
def saveState (s : State) : Option Snapshot :=
  if s.atBoundary then
    some
      { machine := { s with cart := Cartridge.blank }, identity := s.cart.identity, variant := s.cart.mapper }
  else none

/-- The machine of a snapshot with the image and the parameters of the running machine `s`. -/
def Snapshot.restored (snap : Snapshot) (s : State) : State := { snap.machine with cart := s.cart, params := s.params }

/-- A snapshot that fits the running machine `s`: no image is in it, and what it restores satisfies the invariant, so that it is
at a boundary, every counter and memory is inside its range, and the mapper's registers are those of the variant. -/
def Snapshot.wellFormed (snap : Snapshot) (s : State) : Bool :=
  snap.machine.cart == Cartridge.blank && (snap.restored s).inv

/-- `load_state()` into a machine (R438): a snapshot of another cartridge or variant is rejected; a failed load changes nothing. The running machine's image and parameters stay. -/
def loadState (snap : Snapshot) (s : State) : Except SnapshotError State :=
  if snap.identity ≠ s.cart.identity ∨ snap.variant ≠ s.cart.mapper then .error .mismatched
  else if snap.wellFormed s then .ok (snap.restored s)
  else .error .malformed

/-! ## Introspection (R439) -/

/-- What the step functions return for inspection: registers, Ppu dot and scanline (R439). -/
def State.introspect (s : State) : Regs × Nat × Nat := (s.cpu.regs, s.ppu.dot, s.ppu.scanline)

/-- A cooperative breakpoint on PC (R364, R439): evaluated by the host, it changes nothing. -/
def State.atBreakpoint (s : State) (points : List Addr) : Bool := points.contains s.cpu.regs.pc

end Sys2Proof.Machine
end

