-- ==== Sys2Proof/Certificates/Slice0/Obligations.lean ====
section
/-! DEFINITION. The statements for the provers. The forms most of them take (`ReadsOperand`, `ModifiesByte`, `Takes`, …) stand
in `Machine/Claims.lean`; each says that `exec` answers a next state and what it holds. -/

open Sys2Proof Sys2Proof.Machine

/-- O1. Every instruction is well formed, and decoding its encoding followed by any bytes gives that instruction and
those bytes, for every value of every operand. (R120, R121, R134, R140) -/
def Obligations.DecodeEncode : Prop :=
  ∀ (i : Instr) (rest : List Byte), i.wellFormed = true ∧ decode (encode i ++ rest) = .ok (i, rest)

/-- O2. Where decoding bytes gives an instruction and a rest, the encoding of that instruction followed by the rest is
those bytes: no bit of an encoding is dropped. (R120, R121, R134) -/
def Obligations.EncodeDecode : Prop :=
  ∀ (bytes : List Byte) (i : Instr) (rest : List Byte), decode bytes = .ok (i, rest) → encode i ++ rest = bytes

/-- O3. For every opcode byte and any two bytes after it the decoder gives an instruction of that opcode, 1 to 3 bytes
long; two instructions of one opcode have encodings of one length; and no instruction traps: it answers a next state on
every state. (R120) -/
def Obligations.EveryOpcodeDecodes : Prop :=
  (∀ (op b1 b2 : Byte) (rest : List Byte), ∃ i, HasOpcode i op
      ∧ decode (op :: b1 :: b2 :: rest) = .ok (i, (op :: b1 :: b2 :: rest).drop (encode i).length)
      ∧ 1 ≤ (encode i).length ∧ (encode i).length ≤ 3 ∧ ∀ s, ∃ t, exec i s = .next t)
    ∧ ∀ i j : Instr, (encode i).head? = (encode j).head? → (encode i).length = (encode j).length

/-- O4. One word per family, written from the spec's opcode lists: LDA, STA, PHA, ADC, ROR, JMP, BNE, BRK, SEI, SLO,
SHX, JAM, with the low operand byte first. (R121, R135, R136) -/
def Obligations.SampleWords : Prop :=
  decodeTableWord 16 0x42A9 = some (.ldaImm 0x42) ∧ decodeTableWord 24 0x12349D = some (.staAbx 0x1234)
    ∧ decodeTableWord 8 0x48 = some .pha ∧ decodeTableWord 16 0x8071 = some (.adcIzy 0x80)
    ∧ decodeTableWord 8 0x6A = some .rorAcc ∧ decodeTableWord 24 0x02FF6C = some (.jmpInd 0x02FF)
    ∧ decodeTableWord 16 0xFDD0 = some (.bne 0xFD) ∧ decodeTableWord 8 0x00 = some .brk
    ∧ decodeTableWord 8 0x78 = some .sei ∧ decodeTableWord 16 0x1003 = some (.sloIzx 0x10)
    ∧ decodeTableWord 24 0x02F89E = some (.shx 0x02F8) ∧ decodeTableWord 8 0xF2 = some .jamF2

/-- O5. The pushed byte has N, V, 1, B, D, I, Z, C from bit 7 down, whatever the flags and B; pulling a byte loads the
six flags from bits 7, 6, 3, 2, 1, 0 and ignores bits 5 and 4; pulling a pushed byte gives the flags back. (R24) -/
def Obligations.StatusByte : Prop :=
  ∀ (p : Flags) (b : Bool) (v : Byte),
    p.pack b = p.byte b ∧ Flags.unpack v = flagsOf v ∧ Flags.unpack (p.pack b) = p
      ∧ Flags.unpack (v ||| 0x30) = Flags.unpack v ∧ Flags.unpack (v &&& 0xCF) = Flags.unpack v

/-- O6. Modes zp, zpx, zpy wrap inside page 0; abs is the operand; abx and aby wrap at 65536; izx and izy read their
pointer in page 0 with its second byte from (z + 1) mod 256; a page is crossed exactly when the high byte of the address
is not the base's, equivalently when the low bytes' sum carries. (R125, R126, R127, R128, R129, R130) -/
def Obligations.EffectiveAddresses : Prop :=
  ∀ (s : State) (d8 : Byte) (a16 : Addr),
    let x := s.cpu.regs.x.toNat
    let y := s.cpu.regs.y.toNat
    let d := d8.toNat
    let a := a16.toNat
    let pointer := fun z : Nat => s.ramByte (z % 256) |>.toNat
    let base := pointer d + 256 * pointer (d + 1)
    (AddrMode.zp.ea (word 0 d8) s).toNat = d ∧ (AddrMode.zpx.ea (word 0 d8) s).toNat = (d + x) % 256
      ∧ (AddrMode.zpy.ea (word 0 d8) s).toNat = (d + y) % 256 ∧ AddrMode.abs.ea a16 s = a16
      ∧ (AddrMode.abx.ea a16 s).toNat = (a + x) % 65536 ∧ (AddrMode.aby.ea a16 s).toNat = (a + y) % 65536
      ∧ (AddrMode.izx.ea (word 0 d8) s).toNat = pointer (d + x) + 256 * pointer ((d + x) % 256 + 1)
      ∧ (AddrMode.izy.ea (word 0 d8) s).toNat = (base + y) % 65536
      ∧ (AddrMode.abx.crosses a16 s = decide (256 ≤ a % 256 + x)
        ∧ AddrMode.abx.crosses a16 s = decide (hi (AddrMode.abx.ea a16 s) ≠ hi a16))
      ∧ (AddrMode.aby.crosses a16 s = decide (256 ≤ a % 256 + y)
        ∧ AddrMode.aby.crosses a16 s = decide (hi (AddrMode.aby.ea a16 s) ≠ hi a16))
      ∧ (AddrMode.izy.crosses (word 0 d8) s = decide (256 ≤ base % 256 + y)
        ∧ AddrMode.izy.crosses (word 0 d8) s = decide (hi (AddrMode.izy.ea (word 0 d8) s) ≠ hi (baseIzy d8 s)))

/-- O7. LDA, LDX and LDY in every mode answer a next state in which the register holds the byte at the effective address
(the operand, for imm), N and Z are that byte's, PC is past the instruction, and no other register, flag or byte of
memory has changed. (R151, R152, R153) -/
def Obligations.LoadRegisters : Prop :=
  ∀ (s : State) (d8 : Byte) (a16 : Addr),
    ReadsOperand 0xA1 (.ldaIzx d8) .izx (word 0 d8) (fun m r => { r with a := m, p := r.p.nz m }) s
      ∧ ReadsOperand 0xA5 (.ldaZp d8) .zp (word 0 d8) (fun m r => { r with a := m, p := r.p.nz m }) s
      ∧ ActsOnRegisters 0xA9 (.ldaImm d8) 2 (fun r => { r with a := d8, p := r.p.nz d8 }) s
      ∧ ReadsOperand 0xAD (.ldaAbs a16) .abs a16 (fun m r => { r with a := m, p := r.p.nz m }) s
      ∧ ReadsOperand 0xB1 (.ldaIzy d8) .izy (word 0 d8) (fun m r => { r with a := m, p := r.p.nz m }) s
      ∧ ReadsOperand 0xB5 (.ldaZpx d8) .zpx (word 0 d8) (fun m r => { r with a := m, p := r.p.nz m }) s
      ∧ ReadsOperand 0xB9 (.ldaAby a16) .aby a16 (fun m r => { r with a := m, p := r.p.nz m }) s
      ∧ ReadsOperand 0xBD (.ldaAbx a16) .abx a16 (fun m r => { r with a := m, p := r.p.nz m }) s
      ∧ ActsOnRegisters 0xA2 (.ldxImm d8) 2 (fun r => { r with x := d8, p := r.p.nz d8 }) s
      ∧ ReadsOperand 0xA6 (.ldxZp d8) .zp (word 0 d8) (fun m r => { r with x := m, p := r.p.nz m }) s
      ∧ ReadsOperand 0xAE (.ldxAbs a16) .abs a16 (fun m r => { r with x := m, p := r.p.nz m }) s
      ∧ ReadsOperand 0xB6 (.ldxZpy d8) .zpy (word 0 d8) (fun m r => { r with x := m, p := r.p.nz m }) s
      ∧ ReadsOperand 0xBE (.ldxAby a16) .aby a16 (fun m r => { r with x := m, p := r.p.nz m }) s
      ∧ ActsOnRegisters 0xA0 (.ldyImm d8) 2 (fun r => { r with y := d8, p := r.p.nz d8 }) s
      ∧ ReadsOperand 0xA4 (.ldyZp d8) .zp (word 0 d8) (fun m r => { r with y := m, p := r.p.nz m }) s
      ∧ ReadsOperand 0xAC (.ldyAbs a16) .abs a16 (fun m r => { r with y := m, p := r.p.nz m }) s
      ∧ ReadsOperand 0xB4 (.ldyZpx d8) .zpx (word 0 d8) (fun m r => { r with y := m, p := r.p.nz m }) s
      ∧ ReadsOperand 0xBC (.ldyAbx a16) .abx a16 (fun m r => { r with y := m, p := r.p.nz m }) s

/-- O8. STA, STX and STY in every mode answer the state after a write cycle of the register's byte at the effective
address; every other byte of memory and every register but PC are unchanged, flags included. (R154, R155, R156) -/
def Obligations.StoreRegisters : Prop :=
  ∀ (s : State) (d8 : Byte) (a16 : Addr),
    StoresByte 0x81 (.staIzx d8) .izx (word 0 d8) s.cpu.regs.a s
      ∧ StoresByte 0x85 (.staZp d8) .zp (word 0 d8) s.cpu.regs.a s
      ∧ StoresByte 0x8D (.staAbs a16) .abs a16 s.cpu.regs.a s
      ∧ StoresByte 0x91 (.staIzy d8) .izy (word 0 d8) s.cpu.regs.a s
      ∧ StoresByte 0x95 (.staZpx d8) .zpx (word 0 d8) s.cpu.regs.a s
      ∧ StoresByte 0x99 (.staAby a16) .aby a16 s.cpu.regs.a s
      ∧ StoresByte 0x9D (.staAbx a16) .abx a16 s.cpu.regs.a s
      ∧ StoresByte 0x86 (.stxZp d8) .zp (word 0 d8) s.cpu.regs.x s
      ∧ StoresByte 0x8E (.stxAbs a16) .abs a16 s.cpu.regs.x s
      ∧ StoresByte 0x96 (.stxZpy d8) .zpy (word 0 d8) s.cpu.regs.x s
      ∧ StoresByte 0x84 (.styZp d8) .zp (word 0 d8) s.cpu.regs.y s
      ∧ StoresByte 0x8C (.styAbs a16) .abs a16 s.cpu.regs.y s
      ∧ StoresByte 0x94 (.styZpx d8) .zpx (word 0 d8) s.cpu.regs.y s

/-- O9. TAX, TAY, TXA, TYA, TSX, INX, INY, DEX, DEY write their destination and its N and Z; TXS writes S and no flag;
nothing else changes. (R157, R158, R159, R160, R161, R162, R206, R207, R208, R209) -/
def Obligations.RegisterInstructions : Prop :=
  ∀ (s : State),
    ActsOnRegisters 0xAA .tax 1 (fun r => { r with x := r.a, p := r.p.nz r.a }) s
      ∧ ActsOnRegisters 0xA8 .tay 1 (fun r => { r with y := r.a, p := r.p.nz r.a }) s
      ∧ ActsOnRegisters 0x8A .txa 1 (fun r => { r with a := r.x, p := r.p.nz r.x }) s
      ∧ ActsOnRegisters 0x98 .tya 1 (fun r => { r with a := r.y, p := r.p.nz r.y }) s
      ∧ ActsOnRegisters 0xBA .tsx 1 (fun r => { r with x := r.s, p := r.p.nz r.s }) s
      ∧ ActsOnRegisters 0x9A .txs 1 (fun r => { r with s := r.x }) s
      ∧ ActsOnRegisters 0xE8 .inx 1 (fun r => { r with x := r.x + 1, p := r.p.nz (r.x + 1) }) s
      ∧ ActsOnRegisters 0xC8 .iny 1 (fun r => { r with y := r.y + 1, p := r.p.nz (r.y + 1) }) s
      ∧ ActsOnRegisters 0xCA .dex 1 (fun r => { r with x := r.x - 1, p := r.p.nz (r.x - 1) }) s
      ∧ ActsOnRegisters 0x88 .dey 1 (fun r => { r with y := r.y - 1, p := r.p.nz (r.y - 1) }) s

/-- O10. PHA and PHP store A or the byte of P with B = 1 at 0x0100 + S and step S down; PLA and PLP step S up and load A
(with N and Z) or the six flags from 0x0100 + S; S wraps; the poll of a pull uses the old I; nothing else changes.
(R170, R171, R172, R173) -/
def Obligations.StackInstructions : Prop :=
  ∀ s : State,
    PushesByte 0x48 .pha s.cpu.regs.a s
      ∧ PushesByte 0x08 .php (s.cpu.regs.p.byte true) s
      ∧ PullsByte 0x68 .pla (fun v r => { r with a := v, p := r.p.nz v }) s
      ∧ PullsByte 0x28 .plp (fun v r => { r with p := flagsOf v }) s

/-- O11. AND, ORA and EOR in every mode put the bitwise result in A and set N and Z from it; BIT sets Z from A and m, N
and V from bits 7 and 6 of m, and changes no register; nothing else changes. (R180, R181, R182, R183) -/
def Obligations.BitwiseLogic : Prop :=
  ∀ (s : State) (d8 : Byte) (a16 : Addr),
    ReadsOperand 0x21 (.andIzx d8) .izx (word 0 d8) (fun m r => { r with a := r.a &&& m, p := r.p.nz (r.a &&& m) }) s
      ∧ ReadsOperand 0x25 (.andZp d8) .zp (word 0 d8) (fun m r => { r with a := r.a &&& m, p := r.p.nz (r.a &&& m) }) s
      ∧ ActsOnRegisters 0x29 (.andImm d8) 2 (fun r => { r with a := r.a &&& d8, p := r.p.nz (r.a &&& d8) }) s
      ∧ ReadsOperand 0x2D (.andAbs a16) .abs a16 (fun m r => { r with a := r.a &&& m, p := r.p.nz (r.a &&& m) }) s
      ∧ ReadsOperand 0x31 (.andIzy d8) .izy (word 0 d8) (fun m r => { r with a := r.a &&& m, p := r.p.nz (r.a &&& m) }) s
      ∧ ReadsOperand 0x35 (.andZpx d8) .zpx (word 0 d8) (fun m r => { r with a := r.a &&& m, p := r.p.nz (r.a &&& m) }) s
      ∧ ReadsOperand 0x39 (.andAby a16) .aby a16 (fun m r => { r with a := r.a &&& m, p := r.p.nz (r.a &&& m) }) s
      ∧ ReadsOperand 0x3D (.andAbx a16) .abx a16 (fun m r => { r with a := r.a &&& m, p := r.p.nz (r.a &&& m) }) s
      ∧ ReadsOperand 0x01 (.oraIzx d8) .izx (word 0 d8) (fun m r => { r with a := r.a ||| m, p := r.p.nz (r.a ||| m) }) s
      ∧ ReadsOperand 0x05 (.oraZp d8) .zp (word 0 d8) (fun m r => { r with a := r.a ||| m, p := r.p.nz (r.a ||| m) }) s
      ∧ ActsOnRegisters 0x09 (.oraImm d8) 2 (fun r => { r with a := r.a ||| d8, p := r.p.nz (r.a ||| d8) }) s
      ∧ ReadsOperand 0x0D (.oraAbs a16) .abs a16 (fun m r => { r with a := r.a ||| m, p := r.p.nz (r.a ||| m) }) s
      ∧ ReadsOperand 0x11 (.oraIzy d8) .izy (word 0 d8) (fun m r => { r with a := r.a ||| m, p := r.p.nz (r.a ||| m) }) s
      ∧ ReadsOperand 0x15 (.oraZpx d8) .zpx (word 0 d8) (fun m r => { r with a := r.a ||| m, p := r.p.nz (r.a ||| m) }) s
      ∧ ReadsOperand 0x19 (.oraAby a16) .aby a16 (fun m r => { r with a := r.a ||| m, p := r.p.nz (r.a ||| m) }) s
      ∧ ReadsOperand 0x1D (.oraAbx a16) .abx a16 (fun m r => { r with a := r.a ||| m, p := r.p.nz (r.a ||| m) }) s
      ∧ ReadsOperand 0x41 (.eorIzx d8) .izx (word 0 d8) (fun m r => { r with a := r.a ^^^ m, p := r.p.nz (r.a ^^^ m) }) s
      ∧ ReadsOperand 0x45 (.eorZp d8) .zp (word 0 d8) (fun m r => { r with a := r.a ^^^ m, p := r.p.nz (r.a ^^^ m) }) s
      ∧ ActsOnRegisters 0x49 (.eorImm d8) 2 (fun r => { r with a := r.a ^^^ d8, p := r.p.nz (r.a ^^^ d8) }) s
      ∧ ReadsOperand 0x4D (.eorAbs a16) .abs a16 (fun m r => { r with a := r.a ^^^ m, p := r.p.nz (r.a ^^^ m) }) s
      ∧ ReadsOperand 0x51 (.eorIzy d8) .izy (word 0 d8) (fun m r => { r with a := r.a ^^^ m, p := r.p.nz (r.a ^^^ m) }) s
      ∧ ReadsOperand 0x55 (.eorZpx d8) .zpx (word 0 d8) (fun m r => { r with a := r.a ^^^ m, p := r.p.nz (r.a ^^^ m) }) s
      ∧ ReadsOperand 0x59 (.eorAby a16) .aby a16 (fun m r => { r with a := r.a ^^^ m, p := r.p.nz (r.a ^^^ m) }) s
      ∧ ReadsOperand 0x5D (.eorAbx a16) .abx a16 (fun m r => { r with a := r.a ^^^ m, p := r.p.nz (r.a ^^^ m) }) s
      ∧ ReadsOperand 0x24 (.bitZp d8) .zp (word 0 d8) (fun m r => { r with p := { r.p with z := decide (r.a &&& m = 0), n := m.getLsbD 7, v := m.getLsbD 6 } }) s
      ∧ ReadsOperand 0x2C (.bitAbs a16) .abs a16 (fun m r => { r with p := { r.p with z := decide (r.a &&& m = 0), n := m.getLsbD 7, v := m.getLsbD 6 } }) s

/-- O12. ADC in every mode: A receives A + m + C modulo 256 whatever D is; C is the carry, V the signed overflow, N and
Z are the result's; nothing else changes. (R186) -/
def Obligations.AddWithCarry : Prop :=
  ∀ (s : State) (d8 : Byte) (a16 : Addr),
    ReadsOperand 0x61 (.adcIzx d8) .izx (word 0 d8) (fun m r => r.plus m r.p.c) s
      ∧ ReadsOperand 0x65 (.adcZp d8) .zp (word 0 d8) (fun m r => r.plus m r.p.c) s
      ∧ ActsOnRegisters 0x69 (.adcImm d8) 2 (fun r => r.plus d8 r.p.c) s
      ∧ ReadsOperand 0x6D (.adcAbs a16) .abs a16 (fun m r => r.plus m r.p.c) s
      ∧ ReadsOperand 0x71 (.adcIzy d8) .izy (word 0 d8) (fun m r => r.plus m r.p.c) s
      ∧ ReadsOperand 0x75 (.adcZpx d8) .zpx (word 0 d8) (fun m r => r.plus m r.p.c) s
      ∧ ReadsOperand 0x79 (.adcAby a16) .aby a16 (fun m r => r.plus m r.p.c) s
      ∧ ReadsOperand 0x7D (.adcAbx a16) .abx a16 (fun m r => r.plus m r.p.c) s

/-- O13. SBC in every mode, and its duplicate EB: A receives A - m - (1 - C) modulo 256 whatever D is; C means no
borrow; V is the signed overflow; N and Z are the result's; nothing else changes. (R187, R273) -/
def Obligations.SubtractWithCarry : Prop :=
  ∀ (s : State) (d8 : Byte) (a16 : Addr),
    ReadsOperand 0xE1 (.sbcIzx d8) .izx (word 0 d8) (fun m r => r.minus m) s
      ∧ ReadsOperand 0xE5 (.sbcZp d8) .zp (word 0 d8) (fun m r => r.minus m) s
      ∧ ActsOnRegisters 0xE9 (.sbcImm d8) 2 (fun r => r.minus d8) s
      ∧ ActsOnRegisters 0xEB (.sbcImmEB d8) 2 (fun r => r.minus d8) s
      ∧ ReadsOperand 0xED (.sbcAbs a16) .abs a16 (fun m r => r.minus m) s
      ∧ ReadsOperand 0xF1 (.sbcIzy d8) .izy (word 0 d8) (fun m r => r.minus m) s
      ∧ ReadsOperand 0xF5 (.sbcZpx d8) .zpx (word 0 d8) (fun m r => r.minus m) s
      ∧ ReadsOperand 0xF9 (.sbcAby a16) .aby a16 (fun m r => r.minus m) s
      ∧ ReadsOperand 0xFD (.sbcAbx a16) .abx a16 (fun m r => r.minus m) s

/-- O14. For any two bytes and carry-in, bit 7 of (a ^ r) & (b ^ r) is 1 exactly when the signed sum lies outside -128
to 127; for a subtraction, exactly when the signed difference does. (R185) -/
def Obligations.SignedOverflow : Prop :=
  ∀ (a b : Byte) (c : Bool) (r : Regs), r.a = a →
    ((r.plus b c).p.v = true ↔ ¬ (-128 ≤ a.toInt + b.toInt + c.toNat ∧ a.toInt + b.toInt + c.toNat ≤ 127))
      ∧ (r.p.c = c → ((r.minus b).p.v = true
        ↔ ¬ (-128 ≤ a.toInt - b.toInt - (1 - (c.toNat : Int)) ∧ a.toInt - b.toInt - (1 - (c.toNat : Int)) ≤ 127)))

/-- O15. CMP, CPX and CPY in every mode: C is 1 exactly when the register is at least m, Z when they are equal, N is bit
7 of the difference; V, the registers and memory are unchanged. (R188, R189, R190) -/
def Obligations.Compares : Prop :=
  ∀ (s : State) (d8 : Byte) (a16 : Addr),
    ReadsOperand 0xC1 (.cmpIzx d8) .izx (word 0 d8) (fun m r => r.compared r.a m) s
      ∧ ReadsOperand 0xC5 (.cmpZp d8) .zp (word 0 d8) (fun m r => r.compared r.a m) s
      ∧ ActsOnRegisters 0xC9 (.cmpImm d8) 2 (fun r => r.compared r.a d8) s
      ∧ ReadsOperand 0xCD (.cmpAbs a16) .abs a16 (fun m r => r.compared r.a m) s
      ∧ ReadsOperand 0xD1 (.cmpIzy d8) .izy (word 0 d8) (fun m r => r.compared r.a m) s
      ∧ ReadsOperand 0xD5 (.cmpZpx d8) .zpx (word 0 d8) (fun m r => r.compared r.a m) s
      ∧ ReadsOperand 0xD9 (.cmpAby a16) .aby a16 (fun m r => r.compared r.a m) s
      ∧ ReadsOperand 0xDD (.cmpAbx a16) .abx a16 (fun m r => r.compared r.a m) s
      ∧ ActsOnRegisters 0xE0 (.cpxImm d8) 2 (fun r => r.compared r.x d8) s
      ∧ ReadsOperand 0xE4 (.cpxZp d8) .zp (word 0 d8) (fun m r => r.compared r.x m) s
      ∧ ReadsOperand 0xEC (.cpxAbs a16) .abs a16 (fun m r => r.compared r.x m) s
      ∧ ActsOnRegisters 0xC0 (.cpyImm d8) 2 (fun r => r.compared r.y d8) s
      ∧ ReadsOperand 0xC4 (.cpyZp d8) .zp (word 0 d8) (fun m r => r.compared r.y m) s
      ∧ ReadsOperand 0xCC (.cpyAbs a16) .abs a16 (fun m r => r.compared r.y m) s

/-- O16. Each shift or rotate gives its result to A or, by read, write back and write, to memory; N and Z are the
result's, C the bit shifted out; nothing else changes. (R200, R201, R202, R203) -/
def Obligations.ShiftsAndRotates : Prop :=
  ∀ (s : State) (d8 : Byte) (a16 : Addr),
    ModifiesByte 0x06 (.aslZp d8) .zp (word 0 d8) (shifted .asl s.cpu.regs.p.c) (fun old r => { r with p := r.p.shifted .asl old }) s
      ∧ ActsOnRegisters 0x0A .aslAcc 1 (fun r => { r with a := shifted .asl r.p.c r.a, p := r.p.shifted .asl r.a }) s
      ∧ ModifiesByte 0x0E (.aslAbs a16) .abs a16 (shifted .asl s.cpu.regs.p.c) (fun old r => { r with p := r.p.shifted .asl old }) s
      ∧ ModifiesByte 0x16 (.aslZpx d8) .zpx (word 0 d8) (shifted .asl s.cpu.regs.p.c) (fun old r => { r with p := r.p.shifted .asl old }) s
      ∧ ModifiesByte 0x1E (.aslAbx a16) .abx a16 (shifted .asl s.cpu.regs.p.c) (fun old r => { r with p := r.p.shifted .asl old }) s
      ∧ ModifiesByte 0x46 (.lsrZp d8) .zp (word 0 d8) (shifted .lsr s.cpu.regs.p.c) (fun old r => { r with p := r.p.shifted .lsr old }) s
      ∧ ActsOnRegisters 0x4A .lsrAcc 1 (fun r => { r with a := shifted .lsr r.p.c r.a, p := r.p.shifted .lsr r.a }) s
      ∧ ModifiesByte 0x4E (.lsrAbs a16) .abs a16 (shifted .lsr s.cpu.regs.p.c) (fun old r => { r with p := r.p.shifted .lsr old }) s
      ∧ ModifiesByte 0x56 (.lsrZpx d8) .zpx (word 0 d8) (shifted .lsr s.cpu.regs.p.c) (fun old r => { r with p := r.p.shifted .lsr old }) s
      ∧ ModifiesByte 0x5E (.lsrAbx a16) .abx a16 (shifted .lsr s.cpu.regs.p.c) (fun old r => { r with p := r.p.shifted .lsr old }) s
      ∧ ModifiesByte 0x26 (.rolZp d8) .zp (word 0 d8) (shifted .rol s.cpu.regs.p.c) (fun old r => { r with p := r.p.shifted .rol old }) s
      ∧ ActsOnRegisters 0x2A .rolAcc 1 (fun r => { r with a := shifted .rol r.p.c r.a, p := r.p.shifted .rol r.a }) s
      ∧ ModifiesByte 0x2E (.rolAbs a16) .abs a16 (shifted .rol s.cpu.regs.p.c) (fun old r => { r with p := r.p.shifted .rol old }) s
      ∧ ModifiesByte 0x36 (.rolZpx d8) .zpx (word 0 d8) (shifted .rol s.cpu.regs.p.c) (fun old r => { r with p := r.p.shifted .rol old }) s
      ∧ ModifiesByte 0x3E (.rolAbx a16) .abx a16 (shifted .rol s.cpu.regs.p.c) (fun old r => { r with p := r.p.shifted .rol old }) s
      ∧ ModifiesByte 0x66 (.rorZp d8) .zp (word 0 d8) (shifted .ror s.cpu.regs.p.c) (fun old r => { r with p := r.p.shifted .ror old }) s
      ∧ ActsOnRegisters 0x6A .rorAcc 1 (fun r => { r with a := shifted .ror r.p.c r.a, p := r.p.shifted .ror r.a }) s
      ∧ ModifiesByte 0x6E (.rorAbs a16) .abs a16 (shifted .ror s.cpu.regs.p.c) (fun old r => { r with p := r.p.shifted .ror old }) s
      ∧ ModifiesByte 0x76 (.rorZpx d8) .zpx (word 0 d8) (shifted .ror s.cpu.regs.p.c) (fun old r => { r with p := r.p.shifted .ror old }) s
      ∧ ModifiesByte 0x7E (.rorAbx a16) .abx a16 (shifted .ror s.cpu.regs.p.c) (fun old r => { r with p := r.p.shifted .ror old }) s

/-- O17. INC and DEC read the byte, write it back, write it plus or minus one modulo 256, and set N and Z from the new
byte; nothing else changes. (R204, R205) -/
def Obligations.IncrementDecrementMemory : Prop :=
  ∀ (s : State) (d8 : Byte) (a16 : Addr),
    ModifiesByte 0xE6 (.incZp d8) .zp (word 0 d8) (fun old => old + 1) (fun old r => { r with p := r.p.nz (old + 1) }) s
      ∧ ModifiesByte 0xEE (.incAbs a16) .abs a16 (fun old => old + 1) (fun old r => { r with p := r.p.nz (old + 1) }) s
      ∧ ModifiesByte 0xF6 (.incZpx d8) .zpx (word 0 d8) (fun old => old + 1) (fun old r => { r with p := r.p.nz (old + 1) }) s
      ∧ ModifiesByte 0xFE (.incAbx a16) .abx a16 (fun old => old + 1) (fun old r => { r with p := r.p.nz (old + 1) }) s
      ∧ ModifiesByte 0xC6 (.decZp d8) .zp (word 0 d8) (fun old => old - 1) (fun old r => { r with p := r.p.nz (old - 1) }) s
      ∧ ModifiesByte 0xCE (.decAbs a16) .abs a16 (fun old => old - 1) (fun old r => { r with p := r.p.nz (old - 1) }) s
      ∧ ModifiesByte 0xD6 (.decZpx d8) .zpx (word 0 d8) (fun old => old - 1) (fun old r => { r with p := r.p.nz (old - 1) }) s
      ∧ ModifiesByte 0xDE (.decAbx a16) .abx a16 (fun old => old - 1) (fun old r => { r with p := r.p.nz (old - 1) }) s

/-- O18. JMP loads PC with its operand; JMP indirect loads it from two bytes of one page, low byte first, the second
from the same page as the first; no flag, no other register and no memory changes; 3 and 5 cycles. (R220, R221) -/
def Obligations.Jumps : Prop :=
  ∀ (s : State) (a16 : Addr),
    (HasOpcode (.jmpAbs a16) 0x4C ∧ ∃ t, exec (.jmpAbs a16) s = .next t ∧ t.cpu.regs = { s.cpu.regs with pc := a16 }
        ∧ SameMemory s t ∧ t.cpu.halted = s.cpu.halted ∧ Takes 3 s t)
      ∧ (let u := addrAbs a16 s
        let l := readValue false a16 u
        let w := (readCycle false a16 u).mapProg (fun g => { g with data := l })
        let second := word (hi a16) (lo a16 + 1)
        let h := readValue true second w
        HasOpcode (.jmpInd a16) 0x6C ∧ (∀ b, s.memByte a16 = some b → l = b) ∧ (∀ b, s.memByte second = some b → h = b)
          ∧ ∃ t, exec (.jmpInd a16) s = .next t ∧ t.cpu.regs = { s.cpu.regs with pc := word h l }
            ∧ SameMemory s t ∧ t.cpu.halted = s.cpu.halted ∧ Takes 5 s t)

/-- O19. JSR pushes the address of its third byte, high byte first, then reads the target's high byte at that address,
from memory as the pushes left it, and jumps; where that byte is the operand's and the pushes did not land there, PC is
the operand. RTS pulls a word and jumps to it plus 1. No flag, no other register and no other byte changes; 6 cycles
each. (R222, R223) -/
def Obligations.Subroutines : Prop :=
  ∀ (s : State) (a16 : Addr),
    let r := s.cpu.regs
    let ret := r.pc + 2
    let b := fun k : Byte => s.ramByte (stackIndex (r.s + k))
    (HasOpcode (.jsr a16) 0x20 ∧ ∃ t h, exec (.jsr a16) s = .next t ∧ t.cpu.regs = { r with s := r.s - 2, pc := word h (lo a16) }
        ∧ (∀ m, t.memByte ret = some m → h = m) ∧ (t.memByte ret = some (hi a16) → t.cpu.regs.pc = a16)
        ∧ Pushed2 r.s (hi ret) (lo ret) s t ∧ SameCartridge s t ∧ t.cpu.halted = s.cpu.halted ∧ Takes 6 s t)
      ∧ (HasOpcode .rts 0x60 ∧ ∃ t, exec .rts s = .next t ∧ t.cpu.regs = { r with s := r.s + 2, pc := word (b 2) (b 1) + 1 }
        ∧ SameMemory s t ∧ t.cpu.halted = s.cpu.halted ∧ Takes 6 s t)

/-- O20. Each branch tests its flag: PC is past the instruction, or that plus the sign-extended offset modulo 65536; it
takes 2 cycles, 3 when taken, 4 when taken to another page; no flag, other register or memory changes. (R224, R225,
R226, R227, R228, R229, R230, R231, R232) -/
def Obligations.ConditionalBranches : Prop :=
  ∀ (s : State),
    Branches 0x10 .bpl (fun p => !p.n) s
      ∧ Branches 0x30 .bmi (fun p => p.n) s
      ∧ Branches 0x50 .bvc (fun p => !p.v) s
      ∧ Branches 0x70 .bvs (fun p => p.v) s
      ∧ Branches 0x90 .bcc (fun p => !p.c) s
      ∧ Branches 0xB0 .bcs (fun p => p.c) s
      ∧ Branches 0xD0 .bne (fun p => !p.z) s
      ∧ Branches 0xF0 .beq (fun p => p.z) s

/-- O21. CLC, SEC, CLI, SEI, CLV, CLD, SED write their one flag; NOP writes none; PC moves on by 1; nothing else
changes. (R240, R241, R242, R243, R244, R245, R246, R247) -/
def Obligations.FlagInstructions : Prop :=
  ∀ (s : State),
    ActsOnRegisters 0x18 .clc 1 (fun r => { r with p := { r.p with c := false } }) s
      ∧ ActsOnRegisters 0x38 .sec 1 (fun r => { r with p := { r.p with c := true } }) s
      ∧ ActsOnRegisters 0x58 .cli 1 (fun r => { r with p := { r.p with i := false } }) s
      ∧ ActsOnRegisters 0x78 .sei 1 (fun r => { r with p := { r.p with i := true } }) s
      ∧ ActsOnRegisters 0xB8 .clv 1 (fun r => { r with p := { r.p with v := false } }) s
      ∧ ActsOnRegisters 0xD8 .cld 1 (fun r => { r with p := { r.p with d := false } }) s
      ∧ ActsOnRegisters 0xF8 .sed 1 (fun r => { r with p := { r.p with d := true } }) s
      ∧ ActsOnRegisters 0xEA .nop 1 id s

/-- O22. BRK answers the state after interrupt entry with B = 1 and PC two past the opcode: PC and the byte of P are
pushed, I is set, PC is the word at 0xFFFE, or at 0xFFFA when an NMI is pending after the pushes of PC, which is then no
longer pending; 7 cycles; no other flag or register changes; I masks nothing. (R248) -/
def Obligations.Break : Prop :=
  ∀ s : State, HasOpcode .brk 0x00 ∧ ∃ t, exec .brk s = .next t
    ∧ Enters true (fetchOperand false id (fetchOpcode s)) s t
    ∧ (fetchOperand false id (fetchOpcode s)).cpu.regs = { s.cpu.regs with pc := s.cpu.regs.pc + 2 } ∧ Takes 7 s t

/-- O23. RTI loads the six flags from the byte at 0x0100 + S + 1 and PC from the two bytes above it, steps S up by 3,
polls with the pulled I, takes 6 cycles and changes no memory and no other register. (R249) -/
def Obligations.ReturnFromInterrupt : Prop :=
  ∀ s : State,
    let r := s.cpu.regs
    let b := fun k : Byte => s.ramByte (stackIndex (r.s + k))
    HasOpcode .rti 0x40 ∧ ∃ t, exec .rti s = .next t
      ∧ t.cpu.regs = { r with s := r.s + 3, pc := word (b 3) (b 2), p := flagsOf (b 1) }
      ∧ t.cpu.intDetected = (stalls (beforeLastPull s)).polled (flagsOf (b 1)).i
      ∧ SameMemory s t ∧ t.cpu.halted = s.cpu.halted ∧ Takes 6 s t

/-- O24. SLO, RLA and SRE in every mode shift or rotate the byte in memory by the three accesses, then OR, AND or
exclusive-or A with the result; N and Z are A's, C the bit shifted out; nothing else changes. (R261, R262, R263) -/
def Obligations.ShiftThenLogic : Prop :=
  ∀ (s : State) (d8 : Byte) (a16 : Addr),
    ModifiesByte 0x03 (.sloIzx d8) .izx (word 0 d8) (shifted .asl s.cpu.regs.p.c) (fun old r => { r with a := r.a ||| shifted .asl r.p.c old, p := { r.p.nz (r.a ||| shifted .asl r.p.c old) with c := shiftedOut .asl old } }) s
      ∧ ModifiesByte 0x07 (.sloZp d8) .zp (word 0 d8) (shifted .asl s.cpu.regs.p.c) (fun old r => { r with a := r.a ||| shifted .asl r.p.c old, p := { r.p.nz (r.a ||| shifted .asl r.p.c old) with c := shiftedOut .asl old } }) s
      ∧ ModifiesByte 0x0F (.sloAbs a16) .abs a16 (shifted .asl s.cpu.regs.p.c) (fun old r => { r with a := r.a ||| shifted .asl r.p.c old, p := { r.p.nz (r.a ||| shifted .asl r.p.c old) with c := shiftedOut .asl old } }) s
      ∧ ModifiesByte 0x13 (.sloIzy d8) .izy (word 0 d8) (shifted .asl s.cpu.regs.p.c) (fun old r => { r with a := r.a ||| shifted .asl r.p.c old, p := { r.p.nz (r.a ||| shifted .asl r.p.c old) with c := shiftedOut .asl old } }) s
      ∧ ModifiesByte 0x17 (.sloZpx d8) .zpx (word 0 d8) (shifted .asl s.cpu.regs.p.c) (fun old r => { r with a := r.a ||| shifted .asl r.p.c old, p := { r.p.nz (r.a ||| shifted .asl r.p.c old) with c := shiftedOut .asl old } }) s
      ∧ ModifiesByte 0x1B (.sloAby a16) .aby a16 (shifted .asl s.cpu.regs.p.c) (fun old r => { r with a := r.a ||| shifted .asl r.p.c old, p := { r.p.nz (r.a ||| shifted .asl r.p.c old) with c := shiftedOut .asl old } }) s
      ∧ ModifiesByte 0x1F (.sloAbx a16) .abx a16 (shifted .asl s.cpu.regs.p.c) (fun old r => { r with a := r.a ||| shifted .asl r.p.c old, p := { r.p.nz (r.a ||| shifted .asl r.p.c old) with c := shiftedOut .asl old } }) s
      ∧ ModifiesByte 0x23 (.rlaIzx d8) .izx (word 0 d8) (shifted .rol s.cpu.regs.p.c) (fun old r => { r with a := r.a &&& shifted .rol r.p.c old, p := { r.p.nz (r.a &&& shifted .rol r.p.c old) with c := shiftedOut .rol old } }) s
      ∧ ModifiesByte 0x27 (.rlaZp d8) .zp (word 0 d8) (shifted .rol s.cpu.regs.p.c) (fun old r => { r with a := r.a &&& shifted .rol r.p.c old, p := { r.p.nz (r.a &&& shifted .rol r.p.c old) with c := shiftedOut .rol old } }) s
      ∧ ModifiesByte 0x2F (.rlaAbs a16) .abs a16 (shifted .rol s.cpu.regs.p.c) (fun old r => { r with a := r.a &&& shifted .rol r.p.c old, p := { r.p.nz (r.a &&& shifted .rol r.p.c old) with c := shiftedOut .rol old } }) s
      ∧ ModifiesByte 0x33 (.rlaIzy d8) .izy (word 0 d8) (shifted .rol s.cpu.regs.p.c) (fun old r => { r with a := r.a &&& shifted .rol r.p.c old, p := { r.p.nz (r.a &&& shifted .rol r.p.c old) with c := shiftedOut .rol old } }) s
      ∧ ModifiesByte 0x37 (.rlaZpx d8) .zpx (word 0 d8) (shifted .rol s.cpu.regs.p.c) (fun old r => { r with a := r.a &&& shifted .rol r.p.c old, p := { r.p.nz (r.a &&& shifted .rol r.p.c old) with c := shiftedOut .rol old } }) s
      ∧ ModifiesByte 0x3B (.rlaAby a16) .aby a16 (shifted .rol s.cpu.regs.p.c) (fun old r => { r with a := r.a &&& shifted .rol r.p.c old, p := { r.p.nz (r.a &&& shifted .rol r.p.c old) with c := shiftedOut .rol old } }) s
      ∧ ModifiesByte 0x3F (.rlaAbx a16) .abx a16 (shifted .rol s.cpu.regs.p.c) (fun old r => { r with a := r.a &&& shifted .rol r.p.c old, p := { r.p.nz (r.a &&& shifted .rol r.p.c old) with c := shiftedOut .rol old } }) s
      ∧ ModifiesByte 0x43 (.sreIzx d8) .izx (word 0 d8) (shifted .lsr s.cpu.regs.p.c) (fun old r => { r with a := r.a ^^^ shifted .lsr r.p.c old, p := { r.p.nz (r.a ^^^ shifted .lsr r.p.c old) with c := shiftedOut .lsr old } }) s
      ∧ ModifiesByte 0x47 (.sreZp d8) .zp (word 0 d8) (shifted .lsr s.cpu.regs.p.c) (fun old r => { r with a := r.a ^^^ shifted .lsr r.p.c old, p := { r.p.nz (r.a ^^^ shifted .lsr r.p.c old) with c := shiftedOut .lsr old } }) s
      ∧ ModifiesByte 0x4F (.sreAbs a16) .abs a16 (shifted .lsr s.cpu.regs.p.c) (fun old r => { r with a := r.a ^^^ shifted .lsr r.p.c old, p := { r.p.nz (r.a ^^^ shifted .lsr r.p.c old) with c := shiftedOut .lsr old } }) s
      ∧ ModifiesByte 0x53 (.sreIzy d8) .izy (word 0 d8) (shifted .lsr s.cpu.regs.p.c) (fun old r => { r with a := r.a ^^^ shifted .lsr r.p.c old, p := { r.p.nz (r.a ^^^ shifted .lsr r.p.c old) with c := shiftedOut .lsr old } }) s
      ∧ ModifiesByte 0x57 (.sreZpx d8) .zpx (word 0 d8) (shifted .lsr s.cpu.regs.p.c) (fun old r => { r with a := r.a ^^^ shifted .lsr r.p.c old, p := { r.p.nz (r.a ^^^ shifted .lsr r.p.c old) with c := shiftedOut .lsr old } }) s
      ∧ ModifiesByte 0x5B (.sreAby a16) .aby a16 (shifted .lsr s.cpu.regs.p.c) (fun old r => { r with a := r.a ^^^ shifted .lsr r.p.c old, p := { r.p.nz (r.a ^^^ shifted .lsr r.p.c old) with c := shiftedOut .lsr old } }) s
      ∧ ModifiesByte 0x5F (.sreAbx a16) .abx a16 (shifted .lsr s.cpu.regs.p.c) (fun old r => { r with a := r.a ^^^ shifted .lsr r.p.c old, p := { r.p.nz (r.a ^^^ shifted .lsr r.p.c old) with c := shiftedOut .lsr old } }) s

/-- O25. RRA rotates the byte in memory and adds it to A with the bit rotated out as carry; DCP decrements it and
compares A with it; ISC increments it and subtracts it from A; flags are those of the second operation; nothing else
changes. (R264, R267, R268) -/
def Obligations.ModifyThenArithmetic : Prop :=
  ∀ (s : State) (d8 : Byte) (a16 : Addr),
    ModifiesByte 0x63 (.rraIzx d8) .izx (word 0 d8) (shifted .ror s.cpu.regs.p.c) (fun old r => r.plus (shifted .ror r.p.c old) (shiftedOut .ror old)) s
      ∧ ModifiesByte 0x67 (.rraZp d8) .zp (word 0 d8) (shifted .ror s.cpu.regs.p.c) (fun old r => r.plus (shifted .ror r.p.c old) (shiftedOut .ror old)) s
      ∧ ModifiesByte 0x6F (.rraAbs a16) .abs a16 (shifted .ror s.cpu.regs.p.c) (fun old r => r.plus (shifted .ror r.p.c old) (shiftedOut .ror old)) s
      ∧ ModifiesByte 0x73 (.rraIzy d8) .izy (word 0 d8) (shifted .ror s.cpu.regs.p.c) (fun old r => r.plus (shifted .ror r.p.c old) (shiftedOut .ror old)) s
      ∧ ModifiesByte 0x77 (.rraZpx d8) .zpx (word 0 d8) (shifted .ror s.cpu.regs.p.c) (fun old r => r.plus (shifted .ror r.p.c old) (shiftedOut .ror old)) s
      ∧ ModifiesByte 0x7B (.rraAby a16) .aby a16 (shifted .ror s.cpu.regs.p.c) (fun old r => r.plus (shifted .ror r.p.c old) (shiftedOut .ror old)) s
      ∧ ModifiesByte 0x7F (.rraAbx a16) .abx a16 (shifted .ror s.cpu.regs.p.c) (fun old r => r.plus (shifted .ror r.p.c old) (shiftedOut .ror old)) s
      ∧ ModifiesByte 0xC3 (.dcpIzx d8) .izx (word 0 d8) (fun old => old - 1) (fun old r => r.compared r.a (old - 1)) s
      ∧ ModifiesByte 0xC7 (.dcpZp d8) .zp (word 0 d8) (fun old => old - 1) (fun old r => r.compared r.a (old - 1)) s
      ∧ ModifiesByte 0xCF (.dcpAbs a16) .abs a16 (fun old => old - 1) (fun old r => r.compared r.a (old - 1)) s
      ∧ ModifiesByte 0xD3 (.dcpIzy d8) .izy (word 0 d8) (fun old => old - 1) (fun old r => r.compared r.a (old - 1)) s
      ∧ ModifiesByte 0xD7 (.dcpZpx d8) .zpx (word 0 d8) (fun old => old - 1) (fun old r => r.compared r.a (old - 1)) s
      ∧ ModifiesByte 0xDB (.dcpAby a16) .aby a16 (fun old => old - 1) (fun old r => r.compared r.a (old - 1)) s
      ∧ ModifiesByte 0xDF (.dcpAbx a16) .abx a16 (fun old => old - 1) (fun old r => r.compared r.a (old - 1)) s
      ∧ ModifiesByte 0xE3 (.iscIzx d8) .izx (word 0 d8) (fun old => old + 1) (fun old r => r.minus (old + 1)) s
      ∧ ModifiesByte 0xE7 (.iscZp d8) .zp (word 0 d8) (fun old => old + 1) (fun old r => r.minus (old + 1)) s
      ∧ ModifiesByte 0xEF (.iscAbs a16) .abs a16 (fun old => old + 1) (fun old r => r.minus (old + 1)) s
      ∧ ModifiesByte 0xF3 (.iscIzy d8) .izy (word 0 d8) (fun old => old + 1) (fun old r => r.minus (old + 1)) s
      ∧ ModifiesByte 0xF7 (.iscZpx d8) .zpx (word 0 d8) (fun old => old + 1) (fun old r => r.minus (old + 1)) s
      ∧ ModifiesByte 0xFB (.iscAby a16) .aby a16 (fun old => old + 1) (fun old r => r.minus (old + 1)) s
      ∧ ModifiesByte 0xFF (.iscAbx a16) .abx a16 (fun old => old + 1) (fun old r => r.minus (old + 1)) s

/-- O26. SAX in every mode stores A and X, changing no register and no flag; LAX in every mode loads A and X with the
byte and sets N and Z; nothing else changes. (R265, R266) -/
def Obligations.StoreAndLoadBoth : Prop :=
  ∀ (s : State) (d8 : Byte) (a16 : Addr),
    StoresByte 0x83 (.saxIzx d8) .izx (word 0 d8) (s.cpu.regs.a &&& s.cpu.regs.x) s
      ∧ StoresByte 0x87 (.saxZp d8) .zp (word 0 d8) (s.cpu.regs.a &&& s.cpu.regs.x) s
      ∧ StoresByte 0x8F (.saxAbs a16) .abs a16 (s.cpu.regs.a &&& s.cpu.regs.x) s
      ∧ StoresByte 0x97 (.saxZpy d8) .zpy (word 0 d8) (s.cpu.regs.a &&& s.cpu.regs.x) s
      ∧ ReadsOperand 0xA3 (.laxIzx d8) .izx (word 0 d8) (fun m r => { r with a := m, x := m, p := r.p.nz m }) s
      ∧ ReadsOperand 0xA7 (.laxZp d8) .zp (word 0 d8) (fun m r => { r with a := m, x := m, p := r.p.nz m }) s
      ∧ ReadsOperand 0xAF (.laxAbs a16) .abs a16 (fun m r => { r with a := m, x := m, p := r.p.nz m }) s
      ∧ ReadsOperand 0xB3 (.laxIzy d8) .izy (word 0 d8) (fun m r => { r with a := m, x := m, p := r.p.nz m }) s
      ∧ ReadsOperand 0xB7 (.laxZpy d8) .zpy (word 0 d8) (fun m r => { r with a := m, x := m, p := r.p.nz m }) s
      ∧ ReadsOperand 0xBF (.laxAby a16) .aby a16 (fun m r => { r with a := m, x := m, p := r.p.nz m }) s

/-- O27. The four immediate combinations compute A, or X for AXS, and the flags of their rule, and change nothing else.
(R269, R270, R271, R272) -/
def Obligations.ImmediateCombinations : Prop :=
  ∀ (s : State) (d8 : Byte),
    ActsOnRegisters 0x0B (.anc0B d8) 2 (fun r => { r with a := r.a &&& d8, p := { r.p.nz (r.a &&& d8) with c := (r.a &&& d8).getLsbD 7 } }) s
      ∧ ActsOnRegisters 0x2B (.anc2B d8) 2 (fun r => { r with a := r.a &&& d8, p := { r.p.nz (r.a &&& d8) with c := (r.a &&& d8).getLsbD 7 } }) s
      ∧ ActsOnRegisters 0x4B (.alr d8) 2 (fun r => { r with a := shifted .lsr false (r.a &&& d8), p := r.p.shifted .lsr (r.a &&& d8) }) s
      ∧ ActsOnRegisters 0x6B (.arr d8) 2 (fun r => let t := shifted .ror r.p.c (r.a &&& d8); { r with a := t, p := { r.p.nz t with c := t.getLsbD 6, v := xor (t.getLsbD 6) (t.getLsbD 5) } }) s
      ∧ ActsOnRegisters 0xCB (.axs d8) 2 (fun r => { r.compared (r.a &&& r.x) d8 with x := (r.a &&& r.x) - d8 }) s

/-- O28. Each undocumented NOP moves PC past itself, makes the reads of its mode in its cycles, and changes no register,
flag or byte of memory. (R274, R275, R276) -/
def Obligations.UndocumentedNoOperations : Prop :=
  ∀ (s : State) (d8 : Byte) (a16 : Addr),
    ReadsOperand 0x04 (.nopZp04 d8) .zp (word 0 d8) (fun _ r => r) s
      ∧ ReadsOperand 0x0C (.nopAbs a16) .abs a16 (fun _ r => r) s
      ∧ ReadsOperand 0x14 (.nopZpx14 d8) .zpx (word 0 d8) (fun _ r => r) s
      ∧ ActsOnRegisters 0x1A .nop1A 1 id s
      ∧ ReadsOperand 0x1C (.nopAbx1C a16) .abx a16 (fun _ r => r) s
      ∧ ReadsOperand 0x34 (.nopZpx34 d8) .zpx (word 0 d8) (fun _ r => r) s
      ∧ ActsOnRegisters 0x3A .nop3A 1 id s
      ∧ ReadsOperand 0x3C (.nopAbx3C a16) .abx a16 (fun _ r => r) s
      ∧ ReadsOperand 0x44 (.nopZp44 d8) .zp (word 0 d8) (fun _ r => r) s
      ∧ ReadsOperand 0x54 (.nopZpx54 d8) .zpx (word 0 d8) (fun _ r => r) s
      ∧ ActsOnRegisters 0x5A .nop5A 1 id s
      ∧ ReadsOperand 0x5C (.nopAbx5C a16) .abx a16 (fun _ r => r) s
      ∧ ReadsOperand 0x64 (.nopZp64 d8) .zp (word 0 d8) (fun _ r => r) s
      ∧ ReadsOperand 0x74 (.nopZpx74 d8) .zpx (word 0 d8) (fun _ r => r) s
      ∧ ActsOnRegisters 0x7A .nop7A 1 id s
      ∧ ReadsOperand 0x7C (.nopAbx7C a16) .abx a16 (fun _ r => r) s
      ∧ ActsOnRegisters 0x80 (.nopImm80 d8) 2 id s
      ∧ ActsOnRegisters 0x82 (.nopImm82 d8) 2 id s
      ∧ ActsOnRegisters 0x89 (.nopImm89 d8) 2 id s
      ∧ ActsOnRegisters 0xC2 (.nopImmC2 d8) 2 id s
      ∧ ReadsOperand 0xD4 (.nopZpxD4 d8) .zpx (word 0 d8) (fun _ r => r) s
      ∧ ActsOnRegisters 0xDA .nopDA 1 id s
      ∧ ReadsOperand 0xDC (.nopAbxDC a16) .abx a16 (fun _ r => r) s
      ∧ ActsOnRegisters 0xE2 (.nopImmE2 d8) 2 id s
      ∧ ReadsOperand 0xF4 (.nopZpxF4 d8) .zpx (word 0 d8) (fun _ r => r) s
      ∧ ActsOnRegisters 0xFA .nopFA 1 id s
      ∧ ReadsOperand 0xFC (.nopAbxFC a16) .abx a16 (fun _ r => r) s

/-- O29. Each JAM opcode leaves PC one past it and halted = 1, in 2 cycles, with no other register and no memory
changed; a step of a halted Cpu then changes no register, flag or byte of memory, takes no interrupt whatever is
pending, and leaves it halted. (R284) -/
def Obligations.JamHaltsTheCpu : Prop :=
  (∀ p ∈ [((0x02 : Byte), Instr.jam02), (0x12, .jam12), (0x22, .jam22), (0x32, .jam32), (0x42, .jam42), (0x52, .jam52),
      (0x62, .jam62), (0x72, .jam72), (0x92, .jam92), (0xB2, .jamB2), (0xD2, .jamD2), (0xF2, .jamF2)],
    ∀ s : State, HasOpcode p.2 p.1 ∧ ∃ t, exec p.2 s = .next t
      ∧ t.cpu.regs = { s.cpu.regs with pc := s.cpu.regs.pc + 1 } ∧ t.cpu.halted = true ∧ SameMemory s t ∧ Takes 2 s t)
    ∧ ∀ s : State, s.cpu.halted = true → ∃ t, step s = .next t
      ∧ t.cpu.regs = s.cpu.regs ∧ t.cpu.halted = true ∧ SameMemory s t

/-- O30. LAS loads A, X and S with the byte and S; XAA and LXA compute with the machine's parameter UNSTABLE_MAGIC; N
and Z are the result's; nothing else changes. (R285, R286, R287) -/
def Obligations.LasXaaLxa : Prop :=
  ∀ (s : State) (d8 : Byte) (a16 : Addr),
    ReadsOperand 0xBB (.las a16) .aby a16 (fun m r => { r with a := m &&& r.s, x := m &&& r.s, s := m &&& r.s, p := r.p.nz (m &&& r.s) }) s
      ∧ ActsOnRegisters 0x8B (.xaa d8) 2 (fun r => { r with a := (r.a ||| s.params.magicXaa) &&& r.x &&& d8, p := r.p.nz ((r.a ||| s.params.magicXaa) &&& r.x &&& d8) }) s
      ∧ ActsOnRegisters 0xAB (.lxa d8) 2 (fun r => { r with a := (r.a ||| s.params.magicLxa) &&& d8, x := (r.a ||| s.params.magicLxa) &&& d8, p := r.p.nz ((r.a ||| s.params.magicLxa) &&& d8) }) s

/-- O31. SHA, SHX, SHY and TAS store their register value and the base's high byte plus 1, after the read at the
uncorrected address; on a page cross that value is also the high byte of the address written; TAS also loads S with A
and X; no flag and nothing else changes. (R288, R289, R290, R291) -/
def Obligations.UnstableStores : Prop :=
  ∀ (s : State) (d8 : Byte) (a16 : Addr),
    let r := s.cpu.regs
    StoresAndHigh 0x9F (.shaAby a16) .aby a16 (r.a &&& r.x) id s
      ∧ StoresAndHigh 0x93 (.shaIzy d8) .izy (word 0 d8) (r.a &&& r.x) id s
      ∧ StoresAndHigh 0x9E (.shx a16) .aby a16 r.x id s
      ∧ StoresAndHigh 0x9C (.shy a16) .abx a16 r.y id s
      ∧ StoresAndHigh 0x9B (.tas a16) .aby a16 (r.a &&& r.x) (fun r => { r with s := r.a &&& r.x }) s

/-- O32. At an instruction boundary, when the Cpu is not halted and no interrupt was detected, and memory at PC holds
bytes that decode to an instruction, a step is exec of that instruction at that state, PC still on its opcode; where PC
is anywhere at all, it is exec of the instruction the fetch cycles read. (R120, R301, R346, R439) -/
def Obligations.StepRunsDecoded : Prop :=
  ∀ s : State, s.cpu.prog = Progress.idle → s.cpu.halted = false → s.cpu.intDetected = false →
    step s = exec s.fetched s
      ∧ ∀ (bytes : List Byte) (i : Instr), decode bytes = .ok (i, []) →
        (∀ (k : Nat) (b : Byte), bytes[k]? = some b → s.memByte (s.cpu.regs.pc + BitVec.ofNat 16 k) = some b) →
        step s = exec i s

/-- O33. Every instruction and every step, from every state, answers a next state; the image, the parameters and the
power-on number never change and the cycle counter never falls. (R14, R355, R443) -/
def Obligations.EveryStepContinues : Prop :=
  ∀ s : State,
    (∀ i : Instr, ∃ t, exec i s = .next t
        ∧ t.cart = s.cart ∧ t.params = s.params ∧ t.epoch = s.epoch ∧ s.cycle ≤ t.cycle)
      ∧ ∃ t, step s = .next t ∧ t.cart = s.cart ∧ t.params = s.params ∧ t.epoch = s.epoch ∧ s.cycle ≤ t.cycle

/-- O34. When no DMA unit has work, every instruction takes the cycles the table of its opcode, the page crossing and
the branch give, an interrupt sequence 7, and a step of a halted Cpu 1. (R322) -/
def Obligations.InstructionCycles : Prop :=
  ∀ s : State, s.dmaQuiet = true →
    (∀ i : Instr, ∃ t, exec i s = .next t ∧ t.cycle = s.cycle + cyclesOf (opcodeByte i) (operandAddr i) s)
      ∧ (interruptSequence s).cycle = s.cycle + 7 ∧ (resetSequence s).cycle = s.cycle + 7
      ∧ (s.cpu.halted = true → ∃ t, step s = .next t ∧ t.cycle = s.cycle + 1)

/-- O35. From every state whose DMA units are where single cycles can leave them (dmaSound), in the middle of an
instruction or of a DMA stall too, a step is some number of single Machine cycles of the cycle-by-cycle machine: one
cycle of a halted Cpu, otherwise cycles up to an instruction boundary. A single cycle keeps dmaSound. (R29, R103, R430,
R432, R439) -/
def Obligations.StepIsCycles : Prop :=
  ∀ s : State, s.dmaSound = true → (stepCycle s).dmaSound = true
    ∧ ∃ n, 1 ≤ n ∧ step s = .next (cyclesAfter n s) ∧ (s.cpu.halted = true → n = 1)
      ∧ (s.cpu.halted = false → (cyclesAfter n s).atBoundary = true)

/-- O36. A step of a Cpu at an instruction boundary, not halted, with an interrupt detected makes two dummy reads at PC,
pushes PC and the byte of P with B = 0, chooses the vector after the pushes of PC, sets I, loads PC from the vector; A,
X, Y and the other flags are unchanged; 7 cycles. (R349) -/
def Obligations.InterruptEntry : Prop :=
  ∀ s : State, s.cpu.prog = Progress.idle → s.cpu.halted = false → s.cpu.intDetected = true →
    ∃ t, step s = .next t ∧ Enters false (beforeEntry s) s t ∧ (beforeEntry s).cpu.regs = s.cpu.regs
      ∧ t.cpu.intDetected = false ∧ Takes 7 s t

/-- O37. A step of a halted Cpu answers a next state with the same registers, still halted; nmi_prev and irq_level are
the lines at its end (with VBL_RACE_SUPPRESSION on, nmi_prev is the line as log entry 29 has it sampled); a rise of what
is sampled is latched and an NMI already pending stays pending; a reset request clears it with halted. (R359, R284,
R344) -/
def Obligations.HaltedCpuKeepsDetecting : Prop :=
  ∀ s : State, s.cpu.halted = true → (∃ t, step s = .next t ∧ t.cpu.halted = true ∧ t.cpu.regs = s.cpu.regs
      ∧ t.cpu.nmiPrev = t.nmiSeen s.cpu.nmiPrev ∧ (t.params.vblRaceSuppression = false → t.cpu.nmiPrev = t.nmiLine)
      ∧ t.cpu.irqLevel = t.irqLine
      ∧ t.cpu.nmiPending = (s.cpu.nmiPending || (t.cpu.nmiPrev && !s.cpu.nmiPrev)))
    ∧ s.resetRequest.cpu.halted = false ∧ s.resetRequest.cpu.nmiPending = false

/-- O38. The interrupt poll of CLI, SEI and PLP uses the I flag from before the instruction, that of RTI the pulled one;
a pending NMI is seen by each of them. (R346, R348) -/
def Obligations.MaskDelay : Prop :=
  ∀ s : State,
    let old := s.cpu.regs.p.i
    let pulled := (s.ramByte (stackIndex (s.cpu.regs.s + 1))).getLsbD 2
    (∃ t, exec .cli s = .next t ∧ t.cpu.regs.p.i = false ∧ t.cpu.intDetected = (stalls (fetchOpcode s)).polled old)
      ∧ (∃ t, exec .sei s = .next t ∧ t.cpu.regs.p.i = true ∧ t.cpu.intDetected = (stalls (fetchOpcode s)).polled old)
      ∧ (∃ t, exec .plp s = .next t ∧ t.cpu.regs.p.i = pulled
        ∧ t.cpu.intDetected = (stalls (beforePull (dummyFetch false (fetchOpcode s)))).polled old)
      ∧ (∃ t, exec .rti s = .next t ∧ t.cpu.regs.p.i = pulled
        ∧ t.cpu.intDetected = (stalls (beforeLastPull s)).polled pulled)

/-- O39. A branch polls at the start of its cycle 2; a taken branch does not poll at the start of cycle 3; one that
crosses a page polls again at the start of its cycle 4. (R347) -/
def Obligations.BranchPoll : Prop :=
  ∀ p ∈ branchInstrs, ∀ (d8 : Byte) (s : State),
    let next := s.cpu.regs.pc + 2
    let i := s.cpu.regs.p.i
    ∃ t, exec (p.1 d8) s = .next t ∧ t.cpu.intDetected =
      if p.2 s.cpu.regs.p = true ∧ hi (next + sext d8) ≠ hi next then (stalls (beforeFourthCycle d8 s)).polled i
      else (stalls (fetchOpcode s)).polled i

/-- O40. At the end of every single Machine cycle, stall cycles included, nmi_prev is the NMI line (with
VBL_RACE_SUPPRESSION on, the line as log entry 29 has it sampled), irq_level the IRQ line; a rise of nmi_prev makes
nmi_pending 1, nothing else does, and only the cycle that fetches the vector in BRK or an interrupt sequence clears it.
(R344, R345, R350) -/
def Obligations.Detectors : Prop :=
  ∀ s : State,
    let t := stepCycle s
    t.cycle = s.cycle + 1 ∧ t.cpu.nmiPrev = t.nmiSeen s.cpu.nmiPrev
      ∧ (t.params.vblRaceSuppression = false → t.cpu.nmiPrev = t.nmiLine)
      ∧ t.nmiLine = (t.ppu.ctrl.getLsbD 7 && t.ppu.vblank)
      ∧ t.cpu.irqLevel = (t.apu.seq.irqFlag || t.apu.dmc.irqFlag || t.mapper.irqLine)
      ∧ ((t.cpu.nmiPrev && !s.cpu.nmiPrev) = true → t.cpu.nmiPending = true)
      ∧ (t.cpu.nmiPending = true → s.cpu.nmiPending = true ∨ (t.cpu.nmiPrev && !s.cpu.nmiPrev) = true)
      ∧ (s.cpu.nmiPending = true → t.cpu.nmiPending = false →
        s.cpu.prog.tcycle = 4 ∧ (s.cpu.prog.ir = .opcode 0x00 ∨ s.cpu.prog.ir = .int))

/-- O41. A read at an address below 0x2000 gives RAM byte a & 0x07FF and changes nothing but what drives the open-bus
latch; a write there changes that byte and no other; addresses that agree in their low 11 bits are the same byte. (R62)
-/
def Obligations.RamMirrors : Prop :=
  ∀ (s : State) (a : Addr) (v : Byte), a.toNat ≤ 0x1FFF →
    busValue a s = s.ramByte (a &&& 0x07FF).toNat ∧ busAfterRead a s = s.drive (busValue a s)
      ∧ (∀ k, (busWrite a v s).ramByte k = if k = (a &&& 0x07FF).toNat then v else s.ramByte k)
      ∧ (busWrite a v s).mapper = s.mapper ∧ (busWrite a v s).ppu = s.ppu ∧ (busWrite a v s).apu = s.apu
      ∧ ∀ b : Addr, b.toNat ≤ 0x1FFF → b &&& 0x07FF = a &&& 0x07FF → busValue b (busWrite a v s) = v

/-- O42. A read of 0x4000 to 0x4014, of 0x4018 to 0x5FFF, or of 0x6000 to 0x7FFF where the variant maps nothing, gives
the open-bus latch and changes nothing; every write drives its byte on the latch, and so does every other read, but for
that of 0x4015; the latch reads as the byte driven last, where OPEN_BUS_DECAY is given for fewer than that many cycles
(log entry 30). (R61, R70, R396) -/
def Obligations.OpenBus : Prop :=
  ∀ (s : State) (a : Addr) (v : Byte),
    let n := a.toNat
    let unanswered := (0x4000 ≤ n ∧ n ≤ 0x4014) ∨ (0x4018 ≤ n ∧ n ≤ 0x5FFF)
      ∨ (0x6000 ≤ n ∧ n ≤ 0x7FFF ∧ s.mapper.ramReadable s.params = false)
    (unanswered → busValue a s = s.openBus ∧ busAfterRead a s = s)
      ∧ (¬ unanswered → n ≠ 0x4015 →
        (busAfterRead a s).busLatch = busValue a s ∧ (busAfterRead a s).busDriven = s.cycle)
      ∧ ((busWrite a v s).busLatch = v ∧ (busWrite a v s).busDriven = s.cycle)
      ∧ (s.params.openBusDecay = none → s.openBus = s.busLatch)
      ∧ ∀ k, s.params.openBusDecay = some k → s.cycle - s.busDriven < k → s.openBus = s.busLatch

/-- O43. A read of register 2 or a mirror gives vblank, sprite-zero hit, overflow and the latch's low five bits; then
vblank and w are 0; nothing else but the two latches changes. The rule gives no way to reproduce the race
VBL_RACE_SUPPRESSION names: that, with it on, a read at (241, 0) blocks the flag the next dot would set is the model's
choice (log entry 29, DEDUCED). (R383) -/
def Obligations.PpuStatusRead : Prop :=
  ∀ (s : State) (a : Addr), 0x2000 ≤ a.toNat → a.toNat ≤ 0x3FFF → a.toNat % 8 = 2 →
    let p := s.ppu
    let v := busValue a s
    let blocked := s.params.vblRaceSuppression && p.scanline == 241 && p.dot == 0
    v.toNat = 128 * p.vblank.toNat + 64 * p.sprite0Hit.toNat + 32 * p.spriteOverflow.toNat + p.ioLatch.toNat % 32
      ∧ busAfterRead a s = { s.drive v with ppu := { p with vblank := false, w := false, ioLatch := v, vblankBlocked := blocked } }

/-- O44. The first and second writes to registers 5 and 6 change t, x, w, and for the second write to 6 also v, by the
rule's formulas; besides them only the two latches change, and at the second write to 6 what the mapper sees of the new
v: the whole next state is stated. (R386) -/
def Obligations.ScrollAndAddressWrites : Prop :=
  ∀ (s : State) (a : Addr) (v : Byte), 0x2000 ≤ a.toNat → a.toNat ≤ 0x3FFF →
    let p := s.ppu
    let q := (busWrite a v s).ppu
    let t := p.t.toNat
    let n := v.toNat
    (a.toNat % 8 = 5 → p.w = false → q.t.toNat = (t &&& 0x7FE0) ||| (n / 8) ∧ q.x.toNat = n % 8
        ∧ busWrite a v s = { s.drive v with ppu := { p with t := q.t, x := q.x, w := true, ioLatch := v } })
      ∧ (a.toNat % 8 = 5 → p.w = true → q.t.toNat = (t &&& 0x0C1F) ||| (n % 8 * 4096) ||| (n / 8 * 32)
        ∧ busWrite a v s = { s.drive v with ppu := { p with t := q.t, w := false, ioLatch := v } })
      ∧ (a.toNat % 8 = 6 → p.w = false → q.t.toNat = (t &&& 0x00FF) ||| (n % 64 * 256)
        ∧ busWrite a v s = { s.drive v with ppu := { p with t := q.t, w := true, ioLatch := v } })
      ∧ (a.toNat % 8 = 6 → p.w = true → q.t.toNat = (t &&& 0x7F00) ||| n
        ∧ busWrite a v s =
          { s.drive v with
            ppu := { p with t := q.t, v := q.t, w := false, ioLatch := v }
            mapper := s.mapper.onPpuAddress s.params (q.t.toNat % 0x4000) })

/-- O45. With rendering not in progress a read of register 7 gives the read buffer where the address is below 0x3F00,
and from 0x3F00 up the palette entry with the latch's top bits; it refills the buffer from the address, from 0x3F00 up
from the one 0x1000 below it, and steps v by 1 or 32; a write stores at the address and steps v; while rendering is in
progress v makes both increments at once. That the mapper sees the address of the access (0x1000 below for a palette
read) and then the new v is the model's choice (log entry 16, DEDUCED from R84). (R387, R84) -/
def Obligations.PpuDataPort : Prop :=
  ∀ (s : State) (addr : Addr) (v : Byte), 0x2000 ≤ addr.toNat → addr.toNat ≤ 0x3FFF → addr.toNat % 8 = 7 →
    let p := s.ppu
    let a := p.v.toNat % 0x4000
    let inc := if p.ctrl.getLsbD 2 = true then 32 else 1
    let source := if a < 0x3F00 then a else a - 0x1000
    let u := busAfterRead addr s
    let w := busWrite addr v s
    (p.active s.params.region = false →
        (a < 0x3F00 → busValue addr s = p.readBuffer)
          ∧ (0x3F00 ≤ a → busValue addr s = (p.ioLatch &&& 0xC0) ||| p.paletteByte s.epoch a)
          ∧ u.ppu = { p with ioLatch := busValue addr s, readBuffer := ppuPeek s.env p s.mapper source, v := u.ppu.v }
          ∧ u.ppu.v.toNat = (p.v.toNat + inc) % 0x8000 ∧ w.ppu.v.toNat = (p.v.toNat + inc) % 0x8000
          ∧ u.mapper = (s.mapper.onPpuAddress s.params source).onPpuAddress s.params (u.ppu.v.toNat % 0x4000)
          ∧ w.ppu = { ppuPokePpu s.env { p with ioLatch := v } s.mapper a v with v := w.ppu.v }
          ∧ w.mapper = (ppuPokeMapper s.env s.mapper a v).onPpuAddress s.params (w.ppu.v.toNat % 0x4000))
      ∧ (p.active s.params.region = true →
        u.ppu.v = yIncrement (coarseXIncrement p.v) ∧ w.ppu.v = yIncrement (coarseXIncrement p.v))

/-- O46. A dot step that makes the position (241, 1) sets the vblank flag unless a status read blocked it (only with
VBL_RACE_SUPPRESSION on; how that race is reproduced is the model's choice, log entry 29, DEDUCED from R383), and with
the NMI enable the NMI line is then 1; one that makes dot 1 of the pre-render line clears it with the sprite flags; no
other dot step changes it, or blocks it; at dots 280 to 304 of the pre-render line with rendering enabled the vertical
bits of v are those of t. (R371, R372, R342, R383) -/
def Obligations.VblankFlag : Prop :=
  ∀ s : State,
    let p := s.ppu
    let r := s.params.region
    let q := (dot s).ppu
    let position := p.nextPosition r
    (position = (241, 1) → q.vblank = !p.vblankBlocked ∧ q.vblankBlocked = false
        ∧ (p.vblankBlocked = false → p.ctrl.getLsbD 7 = true → (dot s).nmiLine = true))
      ∧ (position = (preRenderLine r, 1) → q.vblank = false ∧ q.sprite0Hit = false ∧ q.spriteOverflow = false)
      ∧ (position ≠ (241, 1) → position ≠ (preRenderLine r, 1) → q.vblank = p.vblank)
      ∧ (position ≠ (241, 1) → q.vblankBlocked = p.vblankBlocked)
      ∧ (position.1 = preRenderLine r → 280 ≤ position.2 → position.2 ≤ 304 → p.rendering = true →
        q.v &&& 0x7BE0 = p.t &&& 0x7BE0)

/-- O47. A dot step moves to the next dot, the next line, or (0, 0); on an odd NTSC frame with rendering enabled (261,
339) goes to (0, 0) at once, otherwise not; at (0, 0) the parity toggles and the finished frame is handed over, and
nowhere else. (R370, R373, R431) -/
def Obligations.DotPosition : Prop :=
  ∀ s : State,
    let p := s.ppu
    let r := s.params.region
    let q := (dot s).ppu
    (q.scanline, q.dot) = p.nextPosition r
      ∧ (p.nextPosition r = (0, 0) → q.oddFrame = !p.oddFrame ∧ q.lastFrame = p.frame ∧ q.frame = [] ∧ q.frameDone = true)
      ∧ (p.nextPosition r ≠ (0, 0) → q.oddFrame = p.oddFrame ∧ q.lastFrame = p.lastFrame ∧ q.frameDone = p.frameDone)

/-- O48. When a transfer is pending, the delta-modulation unit has no work and rendering is off, the cycles stolen in
front of the next read cycle are 513 when the write cycle was even and 514 when it was odd; OAM byte (oam_addr + i) mod
256 is then byte i of the page, for every i and every page memory holds; oam_addr is as before and nothing is pending.
(R101, R102, R385) -/
def Obligations.OamDma : Prop :=
  ∀ s : State, s.dma.oamPending = true → s.dma.dmcPending = false → s.dma.stall = 0 → s.apu.dmc.remaining = 0 →
    s.ppu.rendering = false →
    let t := stalls s
    t.cycle = s.cycle + (if s.cycle % 2 = 1 then 513 else 514)
      ∧ (∀ (i : Byte) (b : Byte), s.memByte (word s.dma.oamPage i) = some b →
        t.ppu.oamByte t.epoch (s.ppu.oamAddr + i).toNat = b)
      ∧ t.ppu.oamAddr = s.ppu.oamAddr ∧ t.dmaQuiet = true ∧ t.cpu.regs = s.cpu.regs ∧ SameMemory s t

/-- O49. A read of port 1 or 2 gives the latch's top three bits and bit 0 of the port's shift register, which is the
buttons while strobe is 1; with strobe 0 it is shifted with a 1 shifted in; a write of the strobe register sets strobe
to bit 0 and loads the registers with the buttons when strobe is or was 1 (R97: while it is 1 they are reloaded
continuously). The buttons from bit 0 are A, B, Select, Start, Up, Down, Left, Right. (R97, R98) -/
def Obligations.Controllers : Prop :=
  ∀ (s : State) (v : Byte),
    let c := s.ctrl
    let sr1 := if c.strobe = true then c.input1.byte else c.shift1
    let sr2 := if c.strobe = true then c.input2.byte else c.shift2
    ((busValue 0x4016 s).toNat = s.openBus.toNat / 32 * 32 + sr1.toNat % 2
        ∧ busAfterRead 0x4016 s =
          { s.drive (busValue 0x4016 s) with
            ctrl := { c with shift1 := if c.strobe = true then sr1 else (sr1 >>> 1) ||| 0x80 } })
      ∧ ((busValue 0x4017 s).toNat = s.openBus.toNat / 32 * 32 + sr2.toNat % 2
        ∧ busAfterRead 0x4017 s =
          { s.drive (busValue 0x4017 s) with
            ctrl := { c with shift2 := if c.strobe = true then sr2 else (sr2 >>> 1) ||| 0x80 } })
      ∧ (busWrite 0x4016 v s =
          { s.drive v with
            ctrl := { c with
              strobe := v.getLsbD 0
              shift1 := if c.strobe = true ∨ v.getLsbD 0 = true then c.input1.byte else c.shift1
              shift2 := if c.strobe = true ∨ v.getLsbD 0 = true then c.input2.byte else c.shift2 } })
      ∧ ∀ b : ButtonSet, b.byte.toNat = b.a.toNat + 2 * b.b.toNat + 4 * b.select.toNat + 8 * b.start.toNat + 16 * b.up.toNat
          + 32 * b.down.toNat + 64 * b.left.toNat + 128 * b.right.toNat

/-- O50. A read of 0x4015 gives the length counters, the bytes remaining, bit 5 of the latch and the two interrupt
flags; it clears the frame interrupt flag and changes nothing else, the latch included. A write clears the
delta-modulation interrupt, forces disabled channels' length counters to 0, which a later load cannot change, and stops
or restarts the delta-modulation sample. (R396) -/
def Obligations.ApuStatus : Prop :=
  ∀ (s : State) (v : Byte),
    let u := s.apu
    let w := (busWrite 0x4015 v s).apu
    let keep := fun (bit n : Nat) => if v.getLsbD bit = true then n else 0
    ((busValue 0x4015 s).toNat = (decide (0 < u.pulse1.length)).toNat + 2 * (decide (0 < u.pulse2.length)).toNat
          + 4 * (decide (0 < u.tri.length)).toNat + 8 * (decide (0 < u.noise.length)).toNat
          + 16 * (decide (0 < u.dmc.remaining)).toNat + 32 * (s.openBus.getLsbD 5).toNat + 64 * u.seq.irqFlag.toNat
          + 128 * u.dmc.irqFlag.toNat
        ∧ busAfterRead 0x4015 s = { s with apu := { u with seq := { u.seq with irqFlag := false } } })
      ∧ (w.pulse1.length = keep 0 u.pulse1.length ∧ w.pulse2.length = keep 1 u.pulse2.length
        ∧ w.tri.length = keep 2 u.tri.length ∧ w.noise.length = keep 3 u.noise.length)
      ∧ (w.dmc.irqFlag = false ∧ (v.getLsbD 4 = false → w.dmc.remaining = 0)
        ∧ (v.getLsbD 4 = true → u.dmc.remaining = 0 →
          w.dmc.remaining = u.dmc.lenReg.toNat * 16 + 1 ∧ w.dmc.addr.toNat = 0xC000 + u.dmc.addrReg.toNat * 64)
        ∧ (v.getLsbD 4 = true → u.dmc.remaining ≠ 0 →
          w.dmc.remaining = u.dmc.remaining ∧ w.dmc.addr = u.dmc.addr))
      ∧ ∀ (bit : Nat) (n : Byte), bit < 4 → v.getLsbD bit = false →
        let last := (w.writeChannel (0x4003 + 4 * bit) n)
        [last.pulse1.length, last.pulse2.length, last.tri.length, last.noise.length].getD bit 1 = 0

/-- O51. When the noise timer expires bit 0 and bit 1 (or 6 in mode 1) feed bit 14 of the shifted register, and the
timer is reloaded with half the table's Cpu cycles less one (log entry 9 reads the table's Cpu cycles as two per Apu
cycle); otherwise the timer counts down; the register never becomes 0; the output is 0 when bit 0 is 1 or the length
counter is 0. (R393) -/
def Obligations.NoiseShiftRegister : Prop :=
  ∀ (u : Noise) (r : Region),
    let tap := if u.mode.getLsbD 7 = true then u.lfsr.toNat / 64 % 2 else u.lfsr.toNat / 2 % 2
    (u.timer = 0 → (u.tick r).lfsr.toNat = u.lfsr.toNat / 2 + (u.lfsr.toNat % 2 + tap) % 2 * 16384
        ∧ ((u.tick r).timer + 1) * 2 = (noisePeriods r).getD (u.mode.toNat % 16) 0)
      ∧ (u.timer ≠ 0 → u.tick r = { u with timer := u.timer - 1 })
      ∧ (u.lfsr ≠ 0 → (u.tick r).lfsr ≠ 0)
      ∧ (u.lfsr.toNat % 2 = 1 ∨ u.length = 0 → u.output = 0)
      ∧ (u.lfsr.toNat % 2 = 0 → u.length ≠ 0 → u.output = u.env.output u.ctrl)

/-- O52. A received byte fills the buffer, steps the address with 0xFFFF going to 0x8000, counts the bytes remaining
down and at their end restarts the sample or raises the interrupt; an output clock moves the level by 2 inside 0 to 127
by the shifted-out bit and takes the buffer after 8 bits. (R395) -/
def Obligations.DmcReader : Prop :=
  ∀ (u : Dmc) (b : Byte),
    let g := u.receive b
    let o := u.clockOutput
    (g.buffer = some b ∧ g.irqFlag = (u.irqFlag || (u.remaining - 1 == 0 && !u.ctrl.getLsbD 6 && u.ctrl.getLsbD 7)))
      ∧ (u.remaining - 1 ≠ 0 ∨ u.ctrl.getLsbD 6 = false →
        g.remaining = u.remaining - 1 ∧ g.addr = if u.addr = 0xFFFF then 0x8000 else u.addr + 1)
      ∧ (u.remaining - 1 = 0 → u.ctrl.getLsbD 6 = true →
        g.remaining = u.lenReg.toNat * 16 + 1 ∧ g.addr.toNat = 0xC000 + u.addrReg.toNat * 64)
      ∧ (u.silence = true → o.level = u.level)
      ∧ (u.silence = false → o.level.toNat =
        if u.shift.toNat % 2 = 1 then (if u.level.toNat ≤ 125 then u.level.toNat + 2 else u.level.toNat)
        else (if 2 ≤ u.level.toNat then u.level.toNat - 2 else u.level.toNat))
      ∧ (u.bits - 1 ≠ 0 → o.bits = u.bits - 1 ∧ o.shift = u.shift >>> 1 ∧ o.silence = u.silence ∧ o.buffer = u.buffer)
      ∧ (u.bits - 1 = 0 → o.bits = 8 ∧ o.buffer = none ∧ o.silence = u.buffer.isNone
        ∧ ∀ x, u.buffer = some x → o.shift = x)

/-- O53. A write with bit 7 set empties the port and sets the fixed-bank bits; five other writes that are not filtered,
from an empty port, put the value of their low bits, first bit least significant, in the register that bits 14:13 of the
fifth address select, and leave the port empty; a write in the cycle after a write cycle is ignored. (R91, R92) -/
def Obligations.Mmc1Serial : Prop :=
  ∀ (m : Mapper) (r : Mmc1) (c : Cartridge) (p : Params), m.regs = .mmc1 r →
    (∀ (a : Nat) (v : Byte), 0x8000 ≤ a → (m.prgWrite c p true a v) = m
        ∧ (v.getLsbD 7 = true →
          (m.prgWrite c p false a v).regs = .mmc1 { r with shift := 0, count := 0, control := r.control ||| 0x0C }))
      ∧ ∀ (a0 a1 a2 a3 a4 : Nat) (v0 v1 v2 v3 v4 : Byte), r.count = 0 →
        (∀ a ∈ [a0, a1, a2, a3, a4], 0x8000 ≤ a) → (∀ v ∈ [v0, v1, v2, v3, v4], v.getLsbD 7 = false) →
        let value : BitVec 5 := BitVec.ofNat 5
          (v0.toNat % 2 + 2 * (v1.toNat % 2) + 4 * (v2.toNat % 2) + 8 * (v3.toNat % 2) + 16 * (v4.toNat % 2))
        let done := { r with shift := 0, count := 0 }
        (((((m.prgWrite c p false a0 v0).prgWrite c p false a1 v1).prgWrite c p false a2 v2).prgWrite c p false a3
            v3).prgWrite c p false a4 v4).regs =
          .mmc1 (match a4 / 8192 % 4 with
            | 0 => { done with control := value }
            | 1 => { done with chr0 := value }
            | 2 => { done with chr1 := value }
            | _ => { done with prg := value })

/-- O54. A rise of Ppu address bit 12 after the filter time (counted in dots, its length the machine's parameter: log
entry 6) reloads the counter when it is 0 or a reload is asked for, else counts it down, and at 0 with the interrupt
enabled raises the flag; other addresses leave the counter alone; the four registers write the latch, the reload, the
acknowledge and the enable; the interrupt line is the flag. (R94) -/
def Obligations.Mmc3ScanlineInterrupt : Prop :=
  ∀ (m : Mapper) (r : Mmc3) (c : Cartridge) (p : Params), m.regs = .mmc3 r →
    m.irqLine = r.irqFlag
      ∧ (∀ a : Nat, ∃ q, (m.onPpuAddress p a).regs = .mmc3 q ∧ q.a12 = decide (a / 4096 % 2 = 1)
        ∧ (a / 4096 % 2 = 1 ∧ r.a12 = false ∧ p.mmc3A12Filter ≤ r.a12Low →
          q.irqCounter = (if r.irqCounter = 0 ∨ r.irqReload = true then r.irqLatch else r.irqCounter - 1)
            ∧ q.irqReload = false ∧ q.irqFlag = (r.irqFlag || (decide (q.irqCounter = 0) && r.irqEnable)))
        ∧ (¬ (a / 4096 % 2 = 1 ∧ r.a12 = false ∧ p.mmc3A12Filter ≤ r.a12Low) →
          q.irqCounter = r.irqCounter ∧ q.irqReload = r.irqReload ∧ q.irqFlag = r.irqFlag))
      ∧ ∀ (a : Nat) (v : Byte) (after : Bool), 0xC000 ≤ a → a ≤ 0xFFFF →
        (m.prgWrite c p after a v).regs = .mmc3
          (if a < 0xE000 then
            (if a % 2 = 0 then { r with irqLatch := v } else { r with irqCounter := 0, irqReload := true })
          else (if a % 2 = 0 then { r with irqEnable := false, irqFlag := false } else { r with irqEnable := true }))

/-- O55. NROM shows its PRG data repeated from 0x8000, its PRG RAM at 0x6000 when configured, and ignores other writes;
UXROM shows the bank its register selects at 0x8000 and the last bank at 0xC000, open bus below, and a write from 0x8000
up sets the register modulo the number of banks. For both, CHR is read at the address and written only when it is RAM,
mirroring is the header's, and there is no interrupt; UXROM powers on with bank 0. (R89, R90) -/
def Obligations.NromAndUxromBanks : Prop :=
  ∀ (m : Mapper) (c : Cartridge) (p : Params) (e a : Nat) (v : Byte) (w : Bool), a ≤ 0xFFFF → 1 ≤ c.prgBanks →
    (m.regs = .nrom →
        (0x8000 ≤ a → m.prgRead c p e a = some (romRead c.prg ((a - 0x8000) % (c.prgBanks * 16384))) ∧ m.prgWrite c p w a v = m)
          ∧ (0x6000 ≤ a → a ≤ 0x7FFF → p.nromPrgRam = true →
            m.prgRead c p e a = some (Memory.read e .prgRam m.prgRam (a - 0x6000))
              ∧ m.prgWrite c p w a v = { m with prgRam := m.prgRam.set (a - 0x6000) v })
          ∧ (a < 0x6000 ∨ (a ≤ 0x7FFF ∧ p.nromPrgRam = false) → m.prgRead c p e a = none ∧ m.prgWrite c p w a v = m))
      ∧ (∀ bank, m.regs = .uxrom bank →
        (0x8000 ≤ a → a < 0xC000 → bank < c.prgBanks →
            m.prgRead c p e a = some (romRead c.prg (bank * 16384 + (a - 0x8000))))
          ∧ (0xC000 ≤ a → m.prgRead c p e a = some (romRead c.prg ((c.prgBanks - 1) * 16384 + (a - 0xC000))))
          ∧ (a < 0x8000 → m.prgRead c p e a = none ∧ m.prgWrite c p w a v = m)
          ∧ (0x8000 ≤ a → m.prgWrite c p w a v = { m with regs := .uxrom (v.toNat % c.prgBanks) }))
      ∧ ((m.regs = .nrom ∨ ∃ bank, m.regs = .uxrom bank) → m.mirroring c = c.mirroring ∧ m.irqLine = false
        ∧ (a < 0x2000 → c.chrBanks = 1 → m.chrRead c e a = romRead c.chr a ∧ m.chrWrite c a v = m)
        ∧ (a < 0x2000 → c.chrBanks = 0 → m.chrRead c e a = Memory.read e .chrRam m.chrRam a
          ∧ m.chrWrite c a v = { m with chrRam := m.chrRam.set a v }))
      ∧ MapperRegs.powerOn e .uxrom = .uxrom 0

/-- O56. For every image, parameters, power-on number and kept PRG RAM, the machine after the power-on sequence is at
cycle 7 with A, X, Y 0, S 0xFD, only I set, PC the word at the reset vector, nothing detected or pending, nothing in
flight, RAM as drawn at power-on; on NTSC the picture unit is at line 0, dot 21. (R44, R45, R46, R421) -/
def Obligations.PowerOnState : Prop :=
  ∀ (cart : Cartridge) (params : Params) (epoch : Nat) (prgRam : Memory),
    let s := State.started cart params epoch prgRam
    s.cpu.regs =
        { a := 0, x := 0, y := 0, s := 0xFD, pc := s.vectorWord 0xFFFC
          p := { n := false, v := false, d := false, i := true, z := false, c := false } }
      ∧ s.cpu.prog = Progress.idle ∧ s.cpu.halted = false ∧ s.cpu.intDetected = false ∧ s.cpu.nmiPending = false
      ∧ s.cycle = 7 ∧ (∀ k, s.ramByte k = Config.powerOnByte epoch .ram k) ∧ s.mapper.prgRam = prgRam
      ∧ s.cart = cart ∧ s.params = params ∧ s.ppu.ctrl = 0 ∧ s.ppu.mask = 0 ∧ s.apu.enables = 0
      ∧ (params.region = .ntsc → s.ppu.scanline = 0 ∧ s.ppu.dot = 21 ∧ s.ppu.oddFrame = false)

/-- O57. After reset the Cpu is not halted, nothing is pending or detected, RAM, PRG RAM, A, X, Y and the flags other
than I are as before, S is 3 less with nothing written, I is 1, PC is the word at the reset vector, 7 cycles have
passed; the control and mask registers and channel enables are 0; on NTSC the picture unit is at line 0, dot 21 of an
even frame. (R46, R422) -/
def Obligations.HostReset : Prop :=
  ∀ s : State,
    let r := s.cpu.regs
    let t := hostReset s
    t.cpu.regs = { r with s := r.s - 3, pc := s.vectorWord 0xFFFC, p := { r.p with i := true } }
      ∧ t.cpu.halted = false ∧ t.cpu.intDetected = false ∧ t.cpu.nmiPending = false ∧ t.cpu.prog = Progress.idle
      ∧ SameMemory s t ∧ t.cycle = s.cycle + 7 ∧ t.ppu.ctrl = 0 ∧ t.ppu.mask = 0 ∧ t.apu.enables = 0
      ∧ t.apu.dmc.remaining = 0 ∧ t.dmaQuiet = true
      ∧ (s.params.region = .ntsc → t.ppu.scanline = 0 ∧ t.ppu.dot = 21 ∧ t.ppu.oddFrame = false)

/-- O58. A read or write cycle at a RAM or cartridge address, with no DMA work, leaves the picture unit's registers,
latches and OAM, the audio unit's registers, the controller ports and the DMA trigger unchanged, whatever the clocks of
the devices do in it. (R61, R66, R106) -/
def Obligations.MemoryAccessKeepsDeviceRegisters : Prop :=
  ∀ (s : State) (a : Addr) (polled : Bool) (v : Byte), a.toNat < 0x2000 ∨ 0x4020 ≤ a.toNat → s.dmaQuiet = true →
    (readCycle polled a s).deviceRegisters = s.deviceRegisters
      ∧ (writeCycle polled a v s).deviceRegisters = s.deviceRegisters

/-- O59. If the memories are in canonical form and inside their sizes, every counter is in its range, the DMA units are
where single cycles can leave them, the noise register is not 0, the mapper registers are those of the image's variant
and the Cpu is at an instruction boundary, then the same holds after any step, and every step answers a next state.
(R35, R36, R47, R376, R393, R395) -/
def Obligations.StepKeepsInvariant : Prop :=
  ∀ s : State, s.inv = true → ∃ t, step s = .next t ∧ t.inv = true

/-- O60. The machine right after reset meets the invariant of StepKeepsInvariant. (R44, R45, R46) -/
def Obligations.ResetInvariant : Prop := State.reset.inv = true
end

