-- ==== Sys2Proof/Laws/Audio.lean ====
section
/-! SUPPORT. What one `apu_step` leaves alone: the registers a program writes; and the ranges of its counters. -/

namespace Sys2Proof.Machine

/-- What no `apu_step` changes: the registers as written, the enable bits, the sequencer's two control bits. -/
structure Apu.SameRegisters (s t : Apu) : Prop where
  ctrl1    : t.pulse1.ctrl = s.pulse1.ctrl
  sweep1   : t.pulse1.sweep = s.pulse1.sweep
  ctrl2    : t.pulse2.ctrl = s.pulse2.ctrl
  sweep2   : t.pulse2.sweep = s.pulse2.sweep
  ctrl3    : t.tri.ctrl = s.tri.ctrl
  period3  : t.tri.period = s.tri.period
  ctrl4    : t.noise.ctrl = s.noise.ctrl
  mode4    : t.noise.mode = s.noise.mode
  ctrl5    : t.dmc.ctrl = s.dmc.ctrl
  addrReg  : t.dmc.addrReg = s.dmc.addrReg
  lenReg   : t.dmc.lenReg = s.dmc.lenReg
  enables  : t.enables = s.enables
  fiveStep : t.seq.fiveStep = s.seq.fiveStep
  inhibit  : t.seq.inhibit = s.seq.inhibit

theorem Apu.SameRegisters.refl (s : Apu) : s.SameRegisters s :=
  ⟨rfl, rfl, rfl, rfl, rfl, rfl, rfl, rfl, rfl, rfl, rfl, rfl, rfl, rfl⟩

theorem Apu.SameRegisters.trans {s t u : Apu} (h : s.SameRegisters t) (h' : t.SameRegisters u) : s.SameRegisters u :=
  ⟨h'.ctrl1.trans h.ctrl1, h'.sweep1.trans h.sweep1, h'.ctrl2.trans h.ctrl2, h'.sweep2.trans h.sweep2,
    h'.ctrl3.trans h.ctrl3, h'.period3.trans h.period3, h'.ctrl4.trans h.ctrl4, h'.mode4.trans h.mode4,
    h'.ctrl5.trans h.ctrl5, h'.addrReg.trans h.addrReg, h'.lenReg.trans h.lenReg, h'.enables.trans h.enables,
    h'.fiveStep.trans h.fiveStep, h'.inhibit.trans h.inhibit⟩

theorem Apu.quarter_registers (s : Apu) : s.SameRegisters s.quarter :=
  ⟨rfl, rfl, rfl, rfl, rfl, rfl, rfl, rfl, rfl, rfl, rfl, rfl, rfl, rfl⟩

theorem Apu.half_registers (s : Apu) : s.SameRegisters s.half :=
  ⟨rfl, rfl, rfl, rfl, rfl, rfl, rfl, rfl, rfl, rfl, rfl, rfl, rfl, rfl⟩

theorem Apu.sequence_registers (s : Apu) (r : Region) : s.SameRegisters (s.sequence r) := by
  unfold Apu.sequence
  dsimp only
  split
  · split
    · exact ⟨rfl, rfl, rfl, rfl, rfl, rfl, rfl, rfl, rfl, rfl, rfl, rfl, rfl, rfl⟩
    · exact ⟨rfl, rfl, rfl, rfl, rfl, rfl, rfl, rfl, rfl, rfl, rfl, rfl, rfl, rfl⟩
  · split <;> split <;> exact ⟨rfl, rfl, rfl, rfl, rfl, rfl, rfl, rfl, rfl, rfl, rfl, rfl, rfl, rfl⟩

theorem Pulse.tick_registers (u : Pulse) : u.tick.ctrl = u.ctrl ∧ u.tick.sweep = u.sweep ∧ u.tick.env = u.env := by
  unfold Pulse.tick
  split <;> exact ⟨rfl, rfl, rfl⟩

theorem Triangle.tick_registers (u : Triangle) : u.tick.ctrl = u.ctrl ∧ u.tick.period = u.period := by
  unfold Triangle.tick
  split <;> exact ⟨rfl, rfl⟩

theorem Noise.tick_registers (u : Noise) (r : Region) :
    (u.tick r).ctrl = u.ctrl ∧ (u.tick r).mode = u.mode ∧ (u.tick r).env = u.env := by
  unfold Noise.tick
  split <;> exact ⟨rfl, rfl, rfl⟩

theorem Dmc.clockOutput_registers (u : Dmc) :
    u.clockOutput.ctrl = u.ctrl ∧ u.clockOutput.addrReg = u.addrReg ∧ u.clockOutput.lenReg = u.lenReg
      ∧ u.clockOutput.addr = u.addr := by
  unfold Dmc.clockOutput
  dsimp only
  split
  · split <;> exact ⟨rfl, rfl, rfl, rfl⟩
  · exact ⟨rfl, rfl, rfl, rfl⟩

theorem Dmc.tick_registers (u : Dmc) (r : Region) :
    (u.tick r).ctrl = u.ctrl ∧ (u.tick r).addrReg = u.addrReg ∧ (u.tick r).lenReg = u.lenReg ∧ (u.tick r).addr = u.addr := by
  unfold Dmc.tick
  split
  · exact u.clockOutput_registers
  · exact ⟨rfl, rfl, rfl, rfl⟩

theorem Apu.tick_registers (s : Apu) (r : Region) (c : Nat) : s.SameRegisters (s.tick r c) := by
  have h1 := s.pulse1.tick_registers
  have h2 := s.pulse2.tick_registers
  have h3 := s.tri.tick_registers
  have h4 := s.noise.tick_registers r
  have h5 := s.dmc.tick_registers r
  unfold Apu.tick
  split
  · exact ⟨h1.1, h1.2.1, h2.1, h2.2.1, h3.1, h3.2, h4.1, h4.2.1, h5.1, h5.2.1, h5.2.2.1, rfl, rfl, rfl⟩
  · exact ⟨rfl, rfl, rfl, rfl, h3.1, h3.2, rfl, rfl, rfl, rfl, rfl, rfl, rfl, rfl⟩

/-- One `apu_step` changes no register a program writes. -/
theorem Apu.stepCycle_registers (s : Apu) (r : Region) (c : Nat) : s.SameRegisters (s.stepCycle r c) :=
  ((s.sequence_registers r).trans (Apu.tick_registers _ r c)).trans
    ⟨rfl, rfl, rfl, rfl, rfl, rfl, rfl, rfl, rfl, rfl, rfl, rfl, rfl, rfl⟩

/-! ## The ranges of the counters -/

theorem Apu.countersFit_iff (s : Apu) :
    s.countersFit = true ↔ s.pulse1.step < 8 ∧ s.pulse2.step < 8 ∧ s.tri.step < 32 ∧ (1 ≤ s.dmc.bits ∧ s.dmc.bits ≤ 8)
      ∧ s.noise.lfsr ≠ 0 ∧ 0x8000 ≤ s.dmc.addr.toNat ∧ s.pulse1.env.decay ≤ 15 ∧ s.pulse2.env.decay ≤ 15
      ∧ s.noise.env.decay ≤ 15 := by
  simp [Apu.countersFit, and_assoc]

theorem Envelope.quarter_decay (e : Envelope) (c : Byte) (h : e.decay ≤ 15) : (e.quarter c).decay ≤ 15 := by
  unfold Envelope.quarter
  dsimp only
  split
  · exact Nat.le_refl _
  · split
    · dsimp only
      split
      · omega
      · split <;> omega
    · exact h

theorem Apu.quarter_fits (s : Apu) (h : s.countersFit = true) : s.quarter.countersFit = true := by
  rw [Apu.countersFit_iff] at h ⊢
  obtain ⟨h1, h2, h3, h4, h5, h6, h7, h8, h9⟩ := h
  exact ⟨h1, h2, h3, h4, h5, h6, Envelope.quarter_decay _ _ h7, Envelope.quarter_decay _ _ h8, Envelope.quarter_decay _ _ h9⟩

theorem Apu.half_fits (s : Apu) (h : s.countersFit = true) : s.half.countersFit = true := h

theorem Apu.sequence_fits (s : Apu) (r : Region) (h : s.countersFit = true) : (s.sequence r).countersFit = true := by
  unfold Apu.sequence
  dsimp only
  split
  · split
    · exact Apu.half_fits _ (Apu.quarter_fits _ h)
    · exact h
  · have h1 : (if s.seq.isQuarter r (s.seq.count + 1) then s.quarter else s).countersFit = true := by
      split
      · exact Apu.quarter_fits s h
      · exact h
    generalize (if s.seq.isQuarter r (s.seq.count + 1) then s.quarter else s) = s1 at h1
    have h2 : (if s.seq.isHalf r (s.seq.count + 1) then s1.half else s1).countersFit = true := by
      split
      · exact Apu.half_fits s1 h1
      · exact h1
    exact h2

theorem Pulse.tick_step (u : Pulse) (h : u.step < 8) : u.tick.step < 8 := by
  unfold Pulse.tick
  split
  · exact Nat.mod_lt _ (by omega)
  · exact h

theorem Triangle.tick_step (u : Triangle) (h : u.step < 32) : u.tick.step < 32 := by
  unfold Triangle.tick
  split
  · dsimp only
    split
    · exact Nat.mod_lt _ (by omega)
    · exact h
  · exact h

/-- The shift register after a shift with the bit `f` shifted in. -/
theorem lfsr_shift (x : BitVec 15) (f : Bool) :
    ((x >>> 1) ||| ((BitVec.ofBool f).setWidth 15 <<< 14) : BitVec 15).toNat = x.toNat / 2 + f.toNat * 16384 := by
  have hx := x.isLt
  cases f
  · simp [Nat.shiftRight_eq_div_pow]
  · have e : ((BitVec.ofBool true).setWidth 15 <<< 14 : BitVec 15) = 16384#15 := by decide
    have h := Nat.two_pow_add_eq_or_of_lt (i := 14) (b := x.toNat / 2) (by omega) 1
    rw [e, BitVec.toNat_or, BitVec.toNat_ushiftRight, Nat.or_comm, Nat.shiftRight_eq_div_pow]
    simp at h ⊢
    omega

/-- The feedback of the noise register is 1 when only bit 0 is set, so the register never becomes 0. -/
theorem Noise.tick_lfsr (u : Noise) (r : Region) (h : u.lfsr ≠ 0) : (u.tick r).lfsr ≠ 0 := by
  unfold Noise.tick
  split
  · dsimp only
    intro h0
    have h1 := congrArg BitVec.toNat h0
    rw [lfsr_shift] at h1
    have z : (0 : BitVec 15).toNat = 0 := rfl
    rw [z] at h1
    have h2 : u.lfsr.toNat ≠ 0 := fun x => h (BitVec.eq_of_toNat_eq x)
    have h3 : u.lfsr = 1 := BitVec.eq_of_toNat_eq (by show u.lfsr.toNat = 1; omega)
    rw [h3] at h1
    split at h1 <;> simp at h1
  · exact h

theorem Dmc.clockOutput_bits (u : Dmc) (h : 1 ≤ u.bits ∧ u.bits ≤ 8) : 1 ≤ u.clockOutput.bits ∧ u.clockOutput.bits ≤ 8 := by
  unfold Dmc.clockOutput
  dsimp only
  split
  · split <;> exact ⟨by simp, Nat.le_refl 8⟩
  · dsimp only; omega

theorem Dmc.tick_bits (u : Dmc) (r : Region) (h : 1 ≤ u.bits ∧ u.bits ≤ 8) : 1 ≤ (u.tick r).bits ∧ (u.tick r).bits ≤ 8 := by
  unfold Dmc.tick
  split
  · exact u.clockOutput_bits h
  · exact h

theorem Apu.stepCycle_fits (s : Apu) (r : Region) (c : Nat) (h : s.countersFit = true) :
    (s.stepCycle r c).countersFit = true := by
  have h' := s.sequence_fits r h
  show ((s.sequence r).tick r c).countersFit = true
  generalize s.sequence r = t at h'
  rw [Apu.countersFit_iff] at h' ⊢
  obtain ⟨h1, h2, h3, h4, h5, h6, h7, h8, h9⟩ := h'
  unfold Apu.tick
  split
  · refine ⟨Pulse.tick_step _ h1, Pulse.tick_step _ h2, Triangle.tick_step _ h3, Dmc.tick_bits _ _ h4,
      Noise.tick_lfsr _ _ h5, ?_, ?_, ?_, ?_⟩
    · rw [(t.dmc.tick_registers r).2.2.2]; exact h6
    · rw [t.pulse1.tick_registers.2.2]; exact h7
    · rw [t.pulse2.tick_registers.2.2]; exact h8
    · rw [(t.noise.tick_registers r).2.2]; exact h9
  · exact ⟨h1, h2, Triangle.tick_step _ h3, h4, h5, h6, h7, h8, h9⟩

theorem Dmc.restart_addr (u : Dmc) : u.restart.addr.toNat = 0xC000 + u.addrReg.toNat * 64 := by
  have k : ∀ x : Byte, ((0xC000 : BitVec 16) + x.setWidth 16 * 64).toNat = 0xC000 + x.toNat * 64 := by decide +kernel
  exact k _

/-- A received byte leaves the reader's address at 0x8000 or above and the other counters alone. -/
theorem Dmc.receive_fits (u : Dmc) (b : Byte) (h : 0x8000 ≤ u.addr.toNat) :
    0x8000 ≤ (u.receive b).addr.toNat ∧ (u.receive b).bits = u.bits := by
  have hn : 0x8000 ≤ (if u.addr = 0xFFFF then 0x8000 else u.addr + 1 : Addr).toNat := by
    have hlt := u.addr.isLt
    split
    · decide
    · next hne =>
      have : u.addr.toNat ≠ 0xFFFF := fun x => hne (BitVec.eq_of_toNat_eq x)
      rw [BitVec.toNat_add]
      show 0x8000 ≤ (u.addr.toNat + 1) % 65536
      omega
  unfold Dmc.receive
  dsimp only
  split
  · split
    · exact ⟨by rw [Dmc.restart_addr]; dsimp only; omega, rfl⟩
    · split <;> exact ⟨hn, rfl⟩
  · exact ⟨hn, rfl⟩

theorem Apu.writeChannel_fits (s : Apu) (a : Nat) (v : Byte) (h : s.countersFit = true) :
    (s.writeChannel a v).countersFit = true := by
  rw [Apu.countersFit_iff] at h ⊢
  obtain ⟨h1, h2, h3, h4, h5, h6, h7, h8, h9⟩ := h
  unfold Apu.writeChannel
  generalize a % 4 = k
  dsimp only
  have hp (u : Pulse) (e : Bool) (k : Nat) (q1 : u.step < 8) (q2 : u.env.decay ≤ 15) :
      (u.write e k v).step < 8 ∧ (u.write e k v).env.decay ≤ 15 := by
    unfold Pulse.write
    split
    · exact ⟨q1, q2⟩
    · exact ⟨q1, q2⟩
    · exact ⟨q1, q2⟩
    · exact ⟨by simp, q2⟩
  repeat' split
  · obtain ⟨a1, a2⟩ := hp s.pulse1 (s.enables.getLsbD 0) k h1 h7
    exact ⟨a1, h2, h3, h4, h5, h6, a2, h8, h9⟩
  · obtain ⟨a1, a2⟩ := hp s.pulse2 (s.enables.getLsbD 1) k h2 h8
    exact ⟨h1, a1, h3, h4, h5, h6, h7, a2, h9⟩
  · refine ⟨h1, h2, ?_, h4, h5, h6, h7, h8, h9⟩
    unfold Triangle.write
    split <;> exact h3
  · have hn : (s.noise.write (s.enables.getLsbD 3) k v).lfsr ≠ 0
        ∧ (s.noise.write (s.enables.getLsbD 3) k v).env.decay ≤ 15 := by
      unfold Noise.write
      split <;> exact ⟨h5, h9⟩
    exact ⟨h1, h2, h3, h4, hn.1, h6, h7, h8, hn.2⟩
  · have hd : (s.dmc.write k v).bits = s.dmc.bits ∧ (s.dmc.write k v).addr = s.dmc.addr := by
      unfold Dmc.write
      split <;> exact ⟨rfl, rfl⟩
    exact ⟨h1, h2, h3, by rw [hd.1]; exact h4, h5, by rw [hd.2]; exact h6, h7, h8, h9⟩

theorem Apu.writeEnable_fits (s : Apu) (v : Byte) (h : s.countersFit = true) : (s.writeEnable v).countersFit = true := by
  rw [Apu.countersFit_iff] at h ⊢
  obtain ⟨h1, h2, h3, h4, h5, h6, h7, h8, h9⟩ := h
  unfold Apu.writeEnable
  dsimp only
  refine ⟨h1, h2, h3, ?_, h5, ?_, h7, h8, h9⟩
  · split
    · split <;> exact h4
    · exact h4
  · split
    · split
      · rw [Dmc.restart_addr]; dsimp only; omega
      · exact h6
    · exact h6

end Sys2Proof.Machine
end

