-- ==== Sys2Proof/Laws/State.lean ====
section
/-! SUPPORT. One lemma per field per update, true by `rfl`: what each small operation of the machine leaves alone, and what it
makes of the fields it changes. Later proofs rewrite with these and never unfold a record update. -/

namespace Sys2Proof.Machine

/-! ## `State.mapRegs` -/

@[simp] theorem mapRegs_regs (s : State) (f : Regs → Regs) : (s.mapRegs f).cpu.regs = f s.cpu.regs := rfl
@[simp] theorem mapRegs_prog (s : State) (f : Regs → Regs) : (s.mapRegs f).cpu.prog = s.cpu.prog := rfl
@[simp] theorem mapRegs_nmiPrev (s : State) (f : Regs → Regs) : (s.mapRegs f).cpu.nmiPrev = s.cpu.nmiPrev := rfl
@[simp] theorem mapRegs_nmiPending (s : State) (f : Regs → Regs) : (s.mapRegs f).cpu.nmiPending = s.cpu.nmiPending := rfl
@[simp] theorem mapRegs_irqLevel (s : State) (f : Regs → Regs) : (s.mapRegs f).cpu.irqLevel = s.cpu.irqLevel := rfl
@[simp] theorem mapRegs_intDetected (s : State) (f : Regs → Regs) : (s.mapRegs f).cpu.intDetected = s.cpu.intDetected := rfl
@[simp] theorem mapRegs_halted (s : State) (f : Regs → Regs) : (s.mapRegs f).cpu.halted = s.cpu.halted := rfl
@[simp] theorem mapRegs_ram (s : State) (f : Regs → Regs) : (s.mapRegs f).ram = s.ram := rfl
@[simp] theorem mapRegs_ppu (s : State) (f : Regs → Regs) : (s.mapRegs f).ppu = s.ppu := rfl
@[simp] theorem mapRegs_apu (s : State) (f : Regs → Regs) : (s.mapRegs f).apu = s.apu := rfl
@[simp] theorem mapRegs_mapper (s : State) (f : Regs → Regs) : (s.mapRegs f).mapper = s.mapper := rfl
@[simp] theorem mapRegs_ctrl (s : State) (f : Regs → Regs) : (s.mapRegs f).ctrl = s.ctrl := rfl
@[simp] theorem mapRegs_dma (s : State) (f : Regs → Regs) : (s.mapRegs f).dma = s.dma := rfl
@[simp] theorem mapRegs_busLatch (s : State) (f : Regs → Regs) : (s.mapRegs f).busLatch = s.busLatch := rfl
@[simp] theorem mapRegs_busDriven (s : State) (f : Regs → Regs) : (s.mapRegs f).busDriven = s.busDriven := rfl
@[simp] theorem mapRegs_prevWrite (s : State) (f : Regs → Regs) : (s.mapRegs f).prevWrite = s.prevWrite := rfl
@[simp] theorem mapRegs_cycle (s : State) (f : Regs → Regs) : (s.mapRegs f).cycle = s.cycle := rfl
@[simp] theorem mapRegs_cart (s : State) (f : Regs → Regs) : (s.mapRegs f).cart = s.cart := rfl
@[simp] theorem mapRegs_params (s : State) (f : Regs → Regs) : (s.mapRegs f).params = s.params := rfl
@[simp] theorem mapRegs_epoch (s : State) (f : Regs → Regs) : (s.mapRegs f).epoch = s.epoch := rfl
@[simp] theorem mapRegs_draw (s : State) (f : Regs → Regs) : (s.mapRegs f).draw = s.draw := rfl

/-! ## `State.mapProg` -/

@[simp] theorem mapProg_regs (s : State) (f : Progress → Progress) : (s.mapProg f).cpu.regs = s.cpu.regs := rfl
@[simp] theorem mapProg_prog (s : State) (f : Progress → Progress) : (s.mapProg f).cpu.prog = f s.cpu.prog := rfl
@[simp] theorem mapProg_nmiPrev (s : State) (f : Progress → Progress) : (s.mapProg f).cpu.nmiPrev = s.cpu.nmiPrev := rfl
@[simp] theorem mapProg_nmiPending (s : State) (f : Progress → Progress) : (s.mapProg f).cpu.nmiPending = s.cpu.nmiPending := rfl
@[simp] theorem mapProg_irqLevel (s : State) (f : Progress → Progress) : (s.mapProg f).cpu.irqLevel = s.cpu.irqLevel := rfl
@[simp] theorem mapProg_intDetected (s : State) (f : Progress → Progress) : (s.mapProg f).cpu.intDetected = s.cpu.intDetected := rfl
@[simp] theorem mapProg_halted (s : State) (f : Progress → Progress) : (s.mapProg f).cpu.halted = s.cpu.halted := rfl
@[simp] theorem mapProg_ram (s : State) (f : Progress → Progress) : (s.mapProg f).ram = s.ram := rfl
@[simp] theorem mapProg_ppu (s : State) (f : Progress → Progress) : (s.mapProg f).ppu = s.ppu := rfl
@[simp] theorem mapProg_apu (s : State) (f : Progress → Progress) : (s.mapProg f).apu = s.apu := rfl
@[simp] theorem mapProg_mapper (s : State) (f : Progress → Progress) : (s.mapProg f).mapper = s.mapper := rfl
@[simp] theorem mapProg_ctrl (s : State) (f : Progress → Progress) : (s.mapProg f).ctrl = s.ctrl := rfl
@[simp] theorem mapProg_dma (s : State) (f : Progress → Progress) : (s.mapProg f).dma = s.dma := rfl
@[simp] theorem mapProg_busLatch (s : State) (f : Progress → Progress) : (s.mapProg f).busLatch = s.busLatch := rfl
@[simp] theorem mapProg_busDriven (s : State) (f : Progress → Progress) : (s.mapProg f).busDriven = s.busDriven := rfl
@[simp] theorem mapProg_prevWrite (s : State) (f : Progress → Progress) : (s.mapProg f).prevWrite = s.prevWrite := rfl
@[simp] theorem mapProg_cycle (s : State) (f : Progress → Progress) : (s.mapProg f).cycle = s.cycle := rfl
@[simp] theorem mapProg_cart (s : State) (f : Progress → Progress) : (s.mapProg f).cart = s.cart := rfl
@[simp] theorem mapProg_params (s : State) (f : Progress → Progress) : (s.mapProg f).params = s.params := rfl
@[simp] theorem mapProg_epoch (s : State) (f : Progress → Progress) : (s.mapProg f).epoch = s.epoch := rfl
@[simp] theorem mapProg_draw (s : State) (f : Progress → Progress) : (s.mapProg f).draw = s.draw := rfl

/-! ## `finish` -/

@[simp] theorem finish_regs (s : State) : (finish s).cpu.regs = s.cpu.regs := rfl
@[simp] theorem finish_prog (s : State) : (finish s).cpu.prog = Progress.idle := rfl
@[simp] theorem finish_nmiPrev (s : State) : (finish s).cpu.nmiPrev = s.cpu.nmiPrev := rfl
@[simp] theorem finish_nmiPending (s : State) : (finish s).cpu.nmiPending = s.cpu.nmiPending := rfl
@[simp] theorem finish_irqLevel (s : State) : (finish s).cpu.irqLevel = s.cpu.irqLevel := rfl
@[simp] theorem finish_intDetected (s : State) : (finish s).cpu.intDetected = s.cpu.intDetected := rfl
@[simp] theorem finish_halted (s : State) : (finish s).cpu.halted = s.cpu.halted := rfl
@[simp] theorem finish_ram (s : State) : (finish s).ram = s.ram := rfl
@[simp] theorem finish_ppu (s : State) : (finish s).ppu = s.ppu := rfl
@[simp] theorem finish_apu (s : State) : (finish s).apu = s.apu := rfl
@[simp] theorem finish_mapper (s : State) : (finish s).mapper = s.mapper := rfl
@[simp] theorem finish_ctrl (s : State) : (finish s).ctrl = s.ctrl := rfl
@[simp] theorem finish_dma (s : State) : (finish s).dma = s.dma := rfl
@[simp] theorem finish_busLatch (s : State) : (finish s).busLatch = s.busLatch := rfl
@[simp] theorem finish_busDriven (s : State) : (finish s).busDriven = s.busDriven := rfl
@[simp] theorem finish_prevWrite (s : State) : (finish s).prevWrite = s.prevWrite := rfl
@[simp] theorem finish_cycle (s : State) : (finish s).cycle = s.cycle := rfl
@[simp] theorem finish_cart (s : State) : (finish s).cart = s.cart := rfl
@[simp] theorem finish_params (s : State) : (finish s).params = s.params := rfl
@[simp] theorem finish_epoch (s : State) : (finish s).epoch = s.epoch := rfl
@[simp] theorem finish_draw (s : State) : (finish s).draw = s.draw := rfl

/-! ## `State.drive` -/

@[simp] theorem drive_cpu (s : State) (v : Byte) : (s.drive v).cpu = s.cpu := rfl
@[simp] theorem drive_ram (s : State) (v : Byte) : (s.drive v).ram = s.ram := rfl
@[simp] theorem drive_ppu (s : State) (v : Byte) : (s.drive v).ppu = s.ppu := rfl
@[simp] theorem drive_apu (s : State) (v : Byte) : (s.drive v).apu = s.apu := rfl
@[simp] theorem drive_mapper (s : State) (v : Byte) : (s.drive v).mapper = s.mapper := rfl
@[simp] theorem drive_ctrl (s : State) (v : Byte) : (s.drive v).ctrl = s.ctrl := rfl
@[simp] theorem drive_dma (s : State) (v : Byte) : (s.drive v).dma = s.dma := rfl
@[simp] theorem drive_prevWrite (s : State) (v : Byte) : (s.drive v).prevWrite = s.prevWrite := rfl
@[simp] theorem drive_cycle (s : State) (v : Byte) : (s.drive v).cycle = s.cycle := rfl
@[simp] theorem drive_cart (s : State) (v : Byte) : (s.drive v).cart = s.cart := rfl
@[simp] theorem drive_params (s : State) (v : Byte) : (s.drive v).params = s.params := rfl
@[simp] theorem drive_epoch (s : State) (v : Byte) : (s.drive v).epoch = s.epoch := rfl
@[simp] theorem drive_draw (s : State) (v : Byte) : (s.drive v).draw = s.draw := rfl
@[simp] theorem drive_busLatch (s : State) (v : Byte) : (s.drive v).busLatch = v := rfl
@[simp] theorem drive_busDriven (s : State) (v : Byte) : (s.drive v).busDriven = s.cycle := rfl

/-! ## The open-bus latch -/

/-- While `OPEN_BUS_DECAY` is not given, the latch reads as the byte driven last. -/
theorem State.openBus_none (s : State) (h : s.params.openBusDecay = none) : s.openBus = s.busLatch := by
  unfold State.openBus
  rw [h]

/-- A byte driven less than the decay time ago is still there. -/
theorem State.openBus_fresh (s : State) {n : Nat} (h : s.params.openBusDecay = some n) (hn : s.cycle - s.busDriven < n) :
    s.openBus = s.busLatch := by
  unfold State.openBus
  rw [h]
  exact if_pos hn

/-! ## The bytes of PC -/

/-- Writing PCH after PCL makes the word, whatever happened to the other registers in between. -/
theorem Regs.setPch_of_lo (r : Regs) {l : Byte} (hl : lo r.pc = l) (h : Byte) : r.setPch h = { r with pc := word h l } := by
  rw [← hl]; rfl

@[simp] theorem Regs.setPcl_lo (r : Regs) (l : Byte) : lo (r.setPcl l).pc = l := by
  show lo (word (hi r.pc) l) = l
  unfold lo word
  simp

/-! ## `poll` -/

@[simp] theorem poll_regs (s : State) : (poll s).cpu.regs = s.cpu.regs := rfl
@[simp] theorem poll_prog (s : State) : (poll s).cpu.prog = s.cpu.prog := rfl
@[simp] theorem poll_nmiPrev (s : State) : (poll s).cpu.nmiPrev = s.cpu.nmiPrev := rfl
@[simp] theorem poll_nmiPending (s : State) : (poll s).cpu.nmiPending = s.cpu.nmiPending := rfl
@[simp] theorem poll_irqLevel (s : State) : (poll s).cpu.irqLevel = s.cpu.irqLevel := rfl
@[simp] theorem poll_intDetected (s : State) : (poll s).cpu.intDetected = (s.cpu.intDetected || s.cpu.nmiPending || (s.cpu.irqLevel && !s.cpu.regs.p.i)) := rfl
@[simp] theorem poll_halted (s : State) : (poll s).cpu.halted = s.cpu.halted := rfl
@[simp] theorem poll_ram (s : State) : (poll s).ram = s.ram := rfl
@[simp] theorem poll_ppu (s : State) : (poll s).ppu = s.ppu := rfl
@[simp] theorem poll_apu (s : State) : (poll s).apu = s.apu := rfl
@[simp] theorem poll_mapper (s : State) : (poll s).mapper = s.mapper := rfl
@[simp] theorem poll_ctrl (s : State) : (poll s).ctrl = s.ctrl := rfl
@[simp] theorem poll_dma (s : State) : (poll s).dma = s.dma := rfl
@[simp] theorem poll_busLatch (s : State) : (poll s).busLatch = s.busLatch := rfl
@[simp] theorem poll_busDriven (s : State) : (poll s).busDriven = s.busDriven := rfl
@[simp] theorem poll_prevWrite (s : State) : (poll s).prevWrite = s.prevWrite := rfl
@[simp] theorem poll_cycle (s : State) : (poll s).cycle = s.cycle := rfl
@[simp] theorem poll_cart (s : State) : (poll s).cart = s.cart := rfl
@[simp] theorem poll_params (s : State) : (poll s).params = s.params := rfl
@[simp] theorem poll_epoch (s : State) : (poll s).epoch = s.epoch := rfl
@[simp] theorem poll_draw (s : State) : (poll s).draw = s.draw := rfl

/-! ## `clearNmi` -/

@[simp] theorem clearNmi_regs (s : State) : (clearNmi s).cpu.regs = s.cpu.regs := rfl
@[simp] theorem clearNmi_prog (s : State) : (clearNmi s).cpu.prog = s.cpu.prog := rfl
@[simp] theorem clearNmi_nmiPrev (s : State) : (clearNmi s).cpu.nmiPrev = s.cpu.nmiPrev := rfl
@[simp] theorem clearNmi_nmiPending (s : State) : (clearNmi s).cpu.nmiPending = false := rfl
@[simp] theorem clearNmi_irqLevel (s : State) : (clearNmi s).cpu.irqLevel = s.cpu.irqLevel := rfl
@[simp] theorem clearNmi_intDetected (s : State) : (clearNmi s).cpu.intDetected = s.cpu.intDetected := rfl
@[simp] theorem clearNmi_halted (s : State) : (clearNmi s).cpu.halted = s.cpu.halted := rfl
@[simp] theorem clearNmi_ram (s : State) : (clearNmi s).ram = s.ram := rfl
@[simp] theorem clearNmi_ppu (s : State) : (clearNmi s).ppu = s.ppu := rfl
@[simp] theorem clearNmi_apu (s : State) : (clearNmi s).apu = s.apu := rfl
@[simp] theorem clearNmi_mapper (s : State) : (clearNmi s).mapper = s.mapper := rfl
@[simp] theorem clearNmi_ctrl (s : State) : (clearNmi s).ctrl = s.ctrl := rfl
@[simp] theorem clearNmi_dma (s : State) : (clearNmi s).dma = s.dma := rfl
@[simp] theorem clearNmi_busLatch (s : State) : (clearNmi s).busLatch = s.busLatch := rfl
@[simp] theorem clearNmi_busDriven (s : State) : (clearNmi s).busDriven = s.busDriven := rfl
@[simp] theorem clearNmi_prevWrite (s : State) : (clearNmi s).prevWrite = s.prevWrite := rfl
@[simp] theorem clearNmi_cycle (s : State) : (clearNmi s).cycle = s.cycle := rfl
@[simp] theorem clearNmi_cart (s : State) : (clearNmi s).cart = s.cart := rfl
@[simp] theorem clearNmi_params (s : State) : (clearNmi s).params = s.params := rfl
@[simp] theorem clearNmi_epoch (s : State) : (clearNmi s).epoch = s.epoch := rfl
@[simp] theorem clearNmi_draw (s : State) : (clearNmi s).draw = s.draw := rfl

/-! ## `detect` -/

@[simp] theorem detect_regs (s : State) : (detect s).cpu.regs = s.cpu.regs := rfl
@[simp] theorem detect_prog (s : State) : (detect s).cpu.prog = s.cpu.prog := rfl
@[simp] theorem detect_nmiPrev (s : State) : (detect s).cpu.nmiPrev = s.nmiSeen s.cpu.nmiPrev := rfl
theorem State.nmiSeen_off (prev : Bool) (s : State) (h : s.params.vblRaceSuppression = false) : s.nmiSeen prev = s.nmiLine := by
  simp [State.nmiSeen, State.inVblankRace, h]

@[simp] theorem detect_nmiPending (s : State) : (detect s).cpu.nmiPending = (s.cpu.nmiPending || (s.nmiSeen s.cpu.nmiPrev && !s.cpu.nmiPrev)) := rfl
@[simp] theorem detect_irqLevel (s : State) : (detect s).cpu.irqLevel = s.irqLine := rfl
@[simp] theorem detect_intDetected (s : State) : (detect s).cpu.intDetected = s.cpu.intDetected := rfl
@[simp] theorem detect_halted (s : State) : (detect s).cpu.halted = s.cpu.halted := rfl
@[simp] theorem detect_ram (s : State) : (detect s).ram = s.ram := rfl
@[simp] theorem detect_ppu (s : State) : (detect s).ppu = s.ppu := rfl
@[simp] theorem detect_apu (s : State) : (detect s).apu = s.apu := rfl
@[simp] theorem detect_mapper (s : State) : (detect s).mapper = s.mapper := rfl
@[simp] theorem detect_ctrl (s : State) : (detect s).ctrl = s.ctrl := rfl
@[simp] theorem detect_dma (s : State) : (detect s).dma = s.dma := rfl
@[simp] theorem detect_busLatch (s : State) : (detect s).busLatch = s.busLatch := rfl
@[simp] theorem detect_busDriven (s : State) : (detect s).busDriven = s.busDriven := rfl
@[simp] theorem detect_prevWrite (s : State) : (detect s).prevWrite = s.prevWrite := rfl
@[simp] theorem detect_cycle (s : State) : (detect s).cycle = s.cycle := rfl
@[simp] theorem detect_cart (s : State) : (detect s).cart = s.cart := rfl
@[simp] theorem detect_params (s : State) : (detect s).params = s.params := rfl
@[simp] theorem detect_epoch (s : State) : (detect s).epoch = s.epoch := rfl
@[simp] theorem detect_draw (s : State) : (detect s).draw = s.draw := rfl

/-! ## `dot` -/

@[simp] theorem dot_regs (s : State) : (dot s).cpu.regs = s.cpu.regs := rfl
@[simp] theorem dot_prog (s : State) : (dot s).cpu.prog = s.cpu.prog := rfl
@[simp] theorem dot_nmiPrev (s : State) : (dot s).cpu.nmiPrev = s.cpu.nmiPrev := rfl
@[simp] theorem dot_nmiPending (s : State) : (dot s).cpu.nmiPending = s.cpu.nmiPending := rfl
@[simp] theorem dot_irqLevel (s : State) : (dot s).cpu.irqLevel = s.cpu.irqLevel := rfl
@[simp] theorem dot_intDetected (s : State) : (dot s).cpu.intDetected = s.cpu.intDetected := rfl
@[simp] theorem dot_halted (s : State) : (dot s).cpu.halted = s.cpu.halted := rfl
@[simp] theorem dot_ram (s : State) : (dot s).ram = s.ram := rfl
@[simp] theorem dot_ppu (s : State) : (dot s).ppu = dotPpu s.env s.ppu s.mapper := rfl
@[simp] theorem dot_apu (s : State) : (dot s).apu = s.apu := rfl
@[simp] theorem dot_mapper (s : State) : (dot s).mapper = dotMapper s.env s.ppu s.mapper := rfl
@[simp] theorem dot_ctrl (s : State) : (dot s).ctrl = s.ctrl := rfl
@[simp] theorem dot_dma (s : State) : (dot s).dma = s.dma := rfl
@[simp] theorem dot_busLatch (s : State) : (dot s).busLatch = s.busLatch := rfl
@[simp] theorem dot_busDriven (s : State) : (dot s).busDriven = s.busDriven := rfl
@[simp] theorem dot_prevWrite (s : State) : (dot s).prevWrite = s.prevWrite := rfl
@[simp] theorem dot_cycle (s : State) : (dot s).cycle = s.cycle := rfl
@[simp] theorem dot_cart (s : State) : (dot s).cart = s.cart := rfl
@[simp] theorem dot_params (s : State) : (dot s).params = s.params := rfl
@[simp] theorem dot_epoch (s : State) : (dot s).epoch = s.epoch := rfl
@[simp] theorem dot_draw (s : State) : (dot s).draw = s.draw := rfl

/-! ## `apuStep` -/

@[simp] theorem apuStep_regs (s : State) : (apuStep s).cpu.regs = s.cpu.regs := rfl
@[simp] theorem apuStep_prog (s : State) : (apuStep s).cpu.prog = s.cpu.prog := rfl
@[simp] theorem apuStep_nmiPrev (s : State) : (apuStep s).cpu.nmiPrev = s.cpu.nmiPrev := rfl
@[simp] theorem apuStep_nmiPending (s : State) : (apuStep s).cpu.nmiPending = s.cpu.nmiPending := rfl
@[simp] theorem apuStep_irqLevel (s : State) : (apuStep s).cpu.irqLevel = s.cpu.irqLevel := rfl
@[simp] theorem apuStep_intDetected (s : State) : (apuStep s).cpu.intDetected = s.cpu.intDetected := rfl
@[simp] theorem apuStep_halted (s : State) : (apuStep s).cpu.halted = s.cpu.halted := rfl
@[simp] theorem apuStep_ram (s : State) : (apuStep s).ram = s.ram := rfl
@[simp] theorem apuStep_ppu (s : State) : (apuStep s).ppu = s.ppu := rfl
@[simp] theorem apuStep_apu (s : State) : (apuStep s).apu = s.apu.stepCycle s.params.region s.cycle := rfl
@[simp] theorem apuStep_mapper (s : State) : (apuStep s).mapper = s.mapper := rfl
@[simp] theorem apuStep_ctrl (s : State) : (apuStep s).ctrl = s.ctrl := rfl
@[simp] theorem apuStep_dma (s : State) : (apuStep s).dma = { s.dma with dmcPending := (s.apu.stepCycle s.params.region s.cycle).dmc.wantsByte } := rfl
@[simp] theorem apuStep_busLatch (s : State) : (apuStep s).busLatch = s.busLatch := rfl
@[simp] theorem apuStep_busDriven (s : State) : (apuStep s).busDriven = s.busDriven := rfl
@[simp] theorem apuStep_prevWrite (s : State) : (apuStep s).prevWrite = s.prevWrite := rfl
@[simp] theorem apuStep_cycle (s : State) : (apuStep s).cycle = s.cycle := rfl
@[simp] theorem apuStep_cart (s : State) : (apuStep s).cart = s.cart := rfl
@[simp] theorem apuStep_params (s : State) : (apuStep s).params = s.params := rfl
@[simp] theorem apuStep_epoch (s : State) : (apuStep s).epoch = s.epoch := rfl
@[simp] theorem apuStep_draw (s : State) : (apuStep s).draw = s.draw := rfl

/-! ## `mapperTick` -/

@[simp] theorem mapperTick_regs (s : State) : (mapperTick s).cpu.regs = s.cpu.regs := rfl
@[simp] theorem mapperTick_prog (s : State) : (mapperTick s).cpu.prog = s.cpu.prog := rfl
@[simp] theorem mapperTick_nmiPrev (s : State) : (mapperTick s).cpu.nmiPrev = s.cpu.nmiPrev := rfl
@[simp] theorem mapperTick_nmiPending (s : State) : (mapperTick s).cpu.nmiPending = s.cpu.nmiPending := rfl
@[simp] theorem mapperTick_irqLevel (s : State) : (mapperTick s).cpu.irqLevel = s.cpu.irqLevel := rfl
@[simp] theorem mapperTick_intDetected (s : State) : (mapperTick s).cpu.intDetected = s.cpu.intDetected := rfl
@[simp] theorem mapperTick_halted (s : State) : (mapperTick s).cpu.halted = s.cpu.halted := rfl
@[simp] theorem mapperTick_ram (s : State) : (mapperTick s).ram = s.ram := rfl
@[simp] theorem mapperTick_ppu (s : State) : (mapperTick s).ppu = s.ppu := rfl
@[simp] theorem mapperTick_apu (s : State) : (mapperTick s).apu = s.apu := rfl
@[simp] theorem mapperTick_mapper (s : State) : (mapperTick s).mapper = s.mapper.onCpuCycle := rfl
@[simp] theorem mapperTick_ctrl (s : State) : (mapperTick s).ctrl = s.ctrl := rfl
@[simp] theorem mapperTick_dma (s : State) : (mapperTick s).dma = s.dma := rfl
@[simp] theorem mapperTick_busLatch (s : State) : (mapperTick s).busLatch = s.busLatch := rfl
@[simp] theorem mapperTick_busDriven (s : State) : (mapperTick s).busDriven = s.busDriven := rfl
@[simp] theorem mapperTick_prevWrite (s : State) : (mapperTick s).prevWrite = s.prevWrite := rfl
@[simp] theorem mapperTick_cycle (s : State) : (mapperTick s).cycle = s.cycle := rfl
@[simp] theorem mapperTick_cart (s : State) : (mapperTick s).cart = s.cart := rfl
@[simp] theorem mapperTick_params (s : State) : (mapperTick s).params = s.params := rfl
@[simp] theorem mapperTick_epoch (s : State) : (mapperTick s).epoch = s.epoch := rfl
@[simp] theorem mapperTick_draw (s : State) : (mapperTick s).draw = s.draw := rfl

/-! ## `Regs.incPc` -/

@[simp] theorem Regs.incPc_a (r : Regs) : (r.incPc).a = r.a := rfl
@[simp] theorem Regs.incPc_x (r : Regs) : (r.incPc).x = r.x := rfl
@[simp] theorem Regs.incPc_y (r : Regs) : (r.incPc).y = r.y := rfl
@[simp] theorem Regs.incPc_s (r : Regs) : (r.incPc).s = r.s := rfl
@[simp] theorem Regs.incPc_pc (r : Regs) : (r.incPc).pc = r.pc + 1 := rfl
@[simp] theorem Regs.incPc_p (r : Regs) : (r.incPc).p = r.p := rfl

/-! ## `Regs.decS` -/

@[simp] theorem Regs.decS_a (r : Regs) : (r.decS).a = r.a := rfl
@[simp] theorem Regs.decS_x (r : Regs) : (r.decS).x = r.x := rfl
@[simp] theorem Regs.decS_y (r : Regs) : (r.decS).y = r.y := rfl
@[simp] theorem Regs.decS_s (r : Regs) : (r.decS).s = r.s - 1 := rfl
@[simp] theorem Regs.decS_pc (r : Regs) : (r.decS).pc = r.pc := rfl
@[simp] theorem Regs.decS_p (r : Regs) : (r.decS).p = r.p := rfl

/-! ## `Regs.incS` -/

@[simp] theorem Regs.incS_a (r : Regs) : (r.incS).a = r.a := rfl
@[simp] theorem Regs.incS_x (r : Regs) : (r.incS).x = r.x := rfl
@[simp] theorem Regs.incS_y (r : Regs) : (r.incS).y = r.y := rfl
@[simp] theorem Regs.incS_s (r : Regs) : (r.incS).s = r.s + 1 := rfl
@[simp] theorem Regs.incS_pc (r : Regs) : (r.incS).pc = r.pc := rfl
@[simp] theorem Regs.incS_p (r : Regs) : (r.incS).p = r.p := rfl

/-! ## `Regs.setA` -/

@[simp] theorem Regs.setA_a (r : Regs) (v : Byte) : (r.setA v).a = v := rfl
@[simp] theorem Regs.setA_x (r : Regs) (v : Byte) : (r.setA v).x = r.x := rfl
@[simp] theorem Regs.setA_y (r : Regs) (v : Byte) : (r.setA v).y = r.y := rfl
@[simp] theorem Regs.setA_s (r : Regs) (v : Byte) : (r.setA v).s = r.s := rfl
@[simp] theorem Regs.setA_pc (r : Regs) (v : Byte) : (r.setA v).pc = r.pc := rfl
@[simp] theorem Regs.setA_p (r : Regs) (v : Byte) : (r.setA v).p = r.p.setNZ v := rfl

/-! ## `Regs.setX` -/

@[simp] theorem Regs.setX_a (r : Regs) (v : Byte) : (r.setX v).a = r.a := rfl
@[simp] theorem Regs.setX_x (r : Regs) (v : Byte) : (r.setX v).x = v := rfl
@[simp] theorem Regs.setX_y (r : Regs) (v : Byte) : (r.setX v).y = r.y := rfl
@[simp] theorem Regs.setX_s (r : Regs) (v : Byte) : (r.setX v).s = r.s := rfl
@[simp] theorem Regs.setX_pc (r : Regs) (v : Byte) : (r.setX v).pc = r.pc := rfl
@[simp] theorem Regs.setX_p (r : Regs) (v : Byte) : (r.setX v).p = r.p.setNZ v := rfl

/-! ## `Regs.setY` -/

@[simp] theorem Regs.setY_a (r : Regs) (v : Byte) : (r.setY v).a = r.a := rfl
@[simp] theorem Regs.setY_x (r : Regs) (v : Byte) : (r.setY v).x = r.x := rfl
@[simp] theorem Regs.setY_y (r : Regs) (v : Byte) : (r.setY v).y = v := rfl
@[simp] theorem Regs.setY_s (r : Regs) (v : Byte) : (r.setY v).s = r.s := rfl
@[simp] theorem Regs.setY_pc (r : Regs) (v : Byte) : (r.setY v).pc = r.pc := rfl
@[simp] theorem Regs.setY_p (r : Regs) (v : Byte) : (r.setY v).p = r.p.setNZ v := rfl

/-! ## `Regs.setAX` -/

@[simp] theorem Regs.setAX_a (r : Regs) (v : Byte) : (r.setAX v).a = v := rfl
@[simp] theorem Regs.setAX_x (r : Regs) (v : Byte) : (r.setAX v).x = v := rfl
@[simp] theorem Regs.setAX_y (r : Regs) (v : Byte) : (r.setAX v).y = r.y := rfl
@[simp] theorem Regs.setAX_s (r : Regs) (v : Byte) : (r.setAX v).s = r.s := rfl
@[simp] theorem Regs.setAX_pc (r : Regs) (v : Byte) : (r.setAX v).pc = r.pc := rfl
@[simp] theorem Regs.setAX_p (r : Regs) (v : Byte) : (r.setAX v).p = r.p.setNZ v := rfl

/-! ## `Regs.mapP` -/

@[simp] theorem Regs.mapP_a (r : Regs) (f : Flags → Flags) : (r.mapP f).a = r.a := rfl
@[simp] theorem Regs.mapP_x (r : Regs) (f : Flags → Flags) : (r.mapP f).x = r.x := rfl
@[simp] theorem Regs.mapP_y (r : Regs) (f : Flags → Flags) : (r.mapP f).y = r.y := rfl
@[simp] theorem Regs.mapP_s (r : Regs) (f : Flags → Flags) : (r.mapP f).s = r.s := rfl
@[simp] theorem Regs.mapP_pc (r : Regs) (f : Flags → Flags) : (r.mapP f).pc = r.pc := rfl
@[simp] theorem Regs.mapP_p (r : Regs) (f : Flags → Flags) : (r.mapP f).p = f r.p := rfl

/-! ## `Regs.add` -/

@[simp] theorem Regs.add_a (r : Regs) (v : Byte) : (r.add v).a = sumByte r.a v r.p.c := rfl
@[simp] theorem Regs.add_x (r : Regs) (v : Byte) : (r.add v).x = r.x := rfl
@[simp] theorem Regs.add_y (r : Regs) (v : Byte) : (r.add v).y = r.y := rfl
@[simp] theorem Regs.add_s (r : Regs) (v : Byte) : (r.add v).s = r.s := rfl
@[simp] theorem Regs.add_pc (r : Regs) (v : Byte) : (r.add v).pc = r.pc := rfl
@[simp] theorem Regs.add_p (r : Regs) (v : Byte) : (r.add v).p = r.p.afterSum r.a v r.p.c := rfl

/-! ## `Regs.compareA` -/

@[simp] theorem Regs.compareA_a (r : Regs) (v : Byte) : (r.compareA v).a = r.a := rfl
@[simp] theorem Regs.compareA_x (r : Regs) (v : Byte) : (r.compareA v).x = r.x := rfl
@[simp] theorem Regs.compareA_y (r : Regs) (v : Byte) : (r.compareA v).y = r.y := rfl
@[simp] theorem Regs.compareA_s (r : Regs) (v : Byte) : (r.compareA v).s = r.s := rfl
@[simp] theorem Regs.compareA_pc (r : Regs) (v : Byte) : (r.compareA v).pc = r.pc := rfl
@[simp] theorem Regs.compareA_p (r : Regs) (v : Byte) : (r.compareA v).p = r.p.afterCompare r.a v := rfl

/-! ## `Regs.compareX` -/

@[simp] theorem Regs.compareX_a (r : Regs) (v : Byte) : (r.compareX v).a = r.a := rfl
@[simp] theorem Regs.compareX_x (r : Regs) (v : Byte) : (r.compareX v).x = r.x := rfl
@[simp] theorem Regs.compareX_y (r : Regs) (v : Byte) : (r.compareX v).y = r.y := rfl
@[simp] theorem Regs.compareX_s (r : Regs) (v : Byte) : (r.compareX v).s = r.s := rfl
@[simp] theorem Regs.compareX_pc (r : Regs) (v : Byte) : (r.compareX v).pc = r.pc := rfl
@[simp] theorem Regs.compareX_p (r : Regs) (v : Byte) : (r.compareX v).p = r.p.afterCompare r.x v := rfl

/-! ## `Regs.compareY` -/

@[simp] theorem Regs.compareY_a (r : Regs) (v : Byte) : (r.compareY v).a = r.a := rfl
@[simp] theorem Regs.compareY_x (r : Regs) (v : Byte) : (r.compareY v).x = r.x := rfl
@[simp] theorem Regs.compareY_y (r : Regs) (v : Byte) : (r.compareY v).y = r.y := rfl
@[simp] theorem Regs.compareY_s (r : Regs) (v : Byte) : (r.compareY v).s = r.s := rfl
@[simp] theorem Regs.compareY_pc (r : Regs) (v : Byte) : (r.compareY v).pc = r.pc := rfl
@[simp] theorem Regs.compareY_p (r : Regs) (v : Byte) : (r.compareY v).p = r.p.afterCompare r.y v := rfl

/-! ## `Regs.shiftMemory` -/

@[simp] theorem Regs.shiftMemory_a (r : Regs) (k : Shift) (v : Byte) : (r.shiftMemory k v).a = r.a := rfl
@[simp] theorem Regs.shiftMemory_x (r : Regs) (k : Shift) (v : Byte) : (r.shiftMemory k v).x = r.x := rfl
@[simp] theorem Regs.shiftMemory_y (r : Regs) (k : Shift) (v : Byte) : (r.shiftMemory k v).y = r.y := rfl
@[simp] theorem Regs.shiftMemory_s (r : Regs) (k : Shift) (v : Byte) : (r.shiftMemory k v).s = r.s := rfl
@[simp] theorem Regs.shiftMemory_pc (r : Regs) (k : Shift) (v : Byte) : (r.shiftMemory k v).pc = r.pc := rfl
@[simp] theorem Regs.shiftMemory_p (r : Regs) (k : Shift) (v : Byte) : (r.shiftMemory k v).p = r.p.afterShift k v := rfl

/-! ## Flags -/

@[simp] theorem Flags.setNZ_v (p : Flags) (v : Byte) : (p.setNZ v).v = p.v := rfl
@[simp] theorem Flags.setNZ_d (p : Flags) (v : Byte) : (p.setNZ v).d = p.d := rfl
@[simp] theorem Flags.setNZ_i (p : Flags) (v : Byte) : (p.setNZ v).i = p.i := rfl
@[simp] theorem Flags.setNZ_c (p : Flags) (v : Byte) : (p.setNZ v).c = p.c := rfl
@[simp] theorem Flags.afterCompare_v (p : Flags) (x m : Byte) : (p.afterCompare x m).v = p.v := rfl
@[simp] theorem Flags.afterCompare_d (p : Flags) (x m : Byte) : (p.afterCompare x m).d = p.d := rfl
@[simp] theorem Flags.afterCompare_i (p : Flags) (x m : Byte) : (p.afterCompare x m).i = p.i := rfl
@[simp] theorem Flags.afterSum_d (p : Flags) (a m : Byte) (c : Bool) : (p.afterSum a m c).d = p.d := rfl
@[simp] theorem Flags.afterSum_i (p : Flags) (a m : Byte) (c : Bool) : (p.afterSum a m c).i = p.i := rfl
@[simp] theorem Flags.afterShift_v (p : Flags) (k : Shift) (v : Byte) : (p.afterShift k v).v = p.v := rfl
@[simp] theorem Flags.afterShift_d (p : Flags) (k : Shift) (v : Byte) : (p.afterShift k v).d = p.d := rfl
@[simp] theorem Flags.afterShift_i (p : Flags) (k : Shift) (v : Byte) : (p.afterShift k v).i = p.i := rfl

end Sys2Proof.Machine
end

