-- ==== Sys2Proof/Laws/Kept.lean ====
section
/-! SUPPORT. What no cycle can change by itself: the registers, RAM, the image, what the mapper answers. One lemma per shared
operation of `Machine/Ops.lean`; statements about instructions cite these and never unfold a cycle. -/

namespace Sys2Proof.Machine

/-! ## The mapper's Cpu side -/

/-- Two mappers that answer every Cpu access alike and hold the same PRG RAM. -/
structure Mapper.SamePrg (m n : Mapper) : Prop where
  prgRead  : ∀ c p e a, n.prgRead c p e a = m.prgRead c p e a
  writable : ∀ p, n.ramWritable p = m.ramWritable p
  prgRam   : n.prgRam = m.prgRam

theorem Mapper.SamePrg.refl (m : Mapper) : m.SamePrg m := ⟨fun _ _ _ _ => rfl, fun _ => rfl, rfl⟩

theorem Mapper.SamePrg.trans {m n k : Mapper} (h : m.SamePrg n) (h' : n.SamePrg k) : m.SamePrg k :=
  ⟨fun c p e a => (h'.prgRead c p e a).trans (h.prgRead c p e a), fun p => (h'.writable p).trans (h.writable p),
    h'.prgRam.trans h.prgRam⟩

theorem Mmc3.clockCounter_banks (r : Mmc3) :
    r.clockCounter.banks = r.banks ∧ r.clockCounter.bankSelect = r.bankSelect ∧ r.clockCounter.ramProtect = r.ramProtect :=
  ⟨rfl, rfl, rfl⟩

/-- Everything of `MMC3` but its scanline counter is left alone by an address on the Ppu lines. -/
theorem Mmc3.onPpuAddress_banks (r : Mmc3) (p : Params) (a : Nat) :
    (r.onPpuAddress p a).banks = r.banks ∧ (r.onPpuAddress p a).bankSelect = r.bankSelect
      ∧ (r.onPpuAddress p a).ramProtect = r.ramProtect ∧ (r.onPpuAddress p a).mirror = r.mirror := by
  simp only [Mmc3.onPpuAddress]
  split <;> exact ⟨rfl, rfl, rfl, rfl⟩

theorem Mapper.onPpuAddress_samePrg (m : Mapper) (p : Params) (a : Nat) : m.SamePrg (m.onPpuAddress p a) := by
  obtain ⟨regs, prgRam, chrRam, ntRam⟩ := m
  cases regs with
  | nrom => exact Mapper.SamePrg.refl _
  | uxrom b => exact Mapper.SamePrg.refl _
  | mmc1 r => exact Mapper.SamePrg.refl _
  | mmc3 r =>
    obtain ⟨h1, h2, h3, -⟩ := r.onPpuAddress_banks p a
    exact ⟨fun c q e x => by
      simp [Mapper.onPpuAddress, Mapper.prgRead, Mapper.prgOffset, Mmc3.prgBank, Mapper.ramReadable, h1, h2, h3],
      fun q => by simp [Mapper.onPpuAddress, Mapper.ramWritable, h3], rfl⟩

theorem Mapper.onDot_samePrg (m : Mapper) : m.SamePrg m.onDot := by
  obtain ⟨regs, prgRam, chrRam, ntRam⟩ := m
  cases regs <;> exact ⟨fun _ _ _ _ => rfl, fun _ => rfl, rfl⟩

theorem Mapper.onCpuCycle_eq (m : Mapper) : m.onCpuCycle = m := by
  obtain ⟨regs, prgRam, chrRam, ntRam⟩ := m
  cases regs <;> rfl

/-- Replacing CHR RAM or the cartridge's nametable RAM changes no Cpu access. -/
theorem Mapper.samePrg_memories (m : Mapper) (x y : Memory) : m.SamePrg { m with chrRam := x, ntRam := y } :=
  ⟨fun _ _ _ _ => rfl, fun _ => rfl, rfl⟩

theorem dotMapper_samePrg (e : Env) (p : Ppu) (m : Mapper) : m.SamePrg (dotMapper e p m) := by
  unfold dotMapper
  split
  · exact m.onDot_samePrg.trans (Mapper.onPpuAddress_samePrg _ _ _)
  · exact m.onDot_samePrg

theorem ppuPokeMapper_samePrg (e : Env) (m : Mapper) (a : Nat) (v : Byte) : m.SamePrg (ppuPokeMapper e m a v) := by
  refine Mapper.SamePrg.trans ?_ (Mapper.onPpuAddress_samePrg _ _ _)
  split
  · unfold Mapper.chrWrite
    split
    · exact m.samePrg_memories _ _
    · exact Mapper.SamePrg.refl _
  · split
    · exact m.samePrg_memories _ _
    · exact Mapper.SamePrg.refl _

theorem Ppu.mapperAfterRead_samePrg (p : Ppu) (e : Env) (m : Mapper) (n d : Nat) :
    m.SamePrg (p.mapperAfterRead e m n d) := by
  unfold Ppu.mapperAfterRead
  split
  · exact (Mapper.onPpuAddress_samePrg _ _ _).trans (Mapper.onPpuAddress_samePrg _ _ _)
  · exact Mapper.SamePrg.refl _

theorem Ppu.mapperAfterWrite_samePrg (p : Ppu) (e : Env) (m : Mapper) (n d : Nat) (v : Byte) :
    m.SamePrg (p.mapperAfterWrite e m n d v) := by
  unfold Ppu.mapperAfterWrite
  split
  · split
    · exact Mapper.onPpuAddress_samePrg _ _ _
    · exact Mapper.SamePrg.refl _
  · exact (ppuPokeMapper_samePrg _ _ _ _).trans (Mapper.onPpuAddress_samePrg _ _ _)
  · exact Mapper.SamePrg.refl _

/-! ## The machine -/

/-- What every cycle keeps unless the Cpu itself changes it: registers, RAM, the image and parameters, the halt bit, and what
the mapper answers. -/
structure Kept (s t : State) : Prop where
  regs   : t.cpu.regs = s.cpu.regs
  halted : t.cpu.halted = s.cpu.halted
  ram    : t.ram = s.ram
  mapper : s.mapper.SamePrg t.mapper
  cart   : t.cart = s.cart
  params : t.params = s.params
  epoch  : t.epoch = s.epoch

theorem Kept.refl (s : State) : Kept s s := ⟨rfl, rfl, rfl, .refl _, rfl, rfl, rfl⟩

theorem Kept.trans {s t u : State} (h : Kept s t) (h' : Kept t u) : Kept s u :=
  ⟨h'.regs.trans h.regs, h'.halted.trans h.halted, h'.ram.trans h.ram, h.mapper.trans h'.mapper, h'.cart.trans h.cart,
    h'.params.trans h.params, h'.epoch.trans h.epoch⟩

theorem dot_kept (s : State) : Kept s (dot s) := ⟨rfl, rfl, rfl, dotMapper_samePrg _ _ _, rfl, rfl, rfl⟩

theorem dots_kept (n : Nat) (s : State) : Kept s (dots n s) := by
  induction n generalizing s with
  | zero => exact .refl s
  | succ n ih => exact (dot_kept s).trans (ih _)

/-- The rest of a Machine cycle after its bus slot. -/
theorem endCycle_kept (w : Bool) (s : State) : Kept s (endCycle w s) := by
  have h := dots_kept s.dotsThisCycle s
  refine ⟨h.regs, h.halted, h.ram, ?_, h.cart, h.params, h.epoch⟩
  have e : (endCycle w s).mapper = (dots s.dotsThisCycle s).mapper.onCpuCycle := rfl
  rw [e, Mapper.onCpuCycle_eq]
  exact h.mapper

/-- A bus read. -/
theorem busAfterRead_kept (a : Addr) (s : State) : Kept s (busAfterRead a s) := by
  unfold busAfterRead
  dsimp only
  split
  · exact ⟨rfl, rfl, rfl, .refl _, rfl, rfl, rfl⟩
  split
  · exact ⟨rfl, rfl, rfl, Ppu.mapperAfterRead_samePrg _ _ _ _ _, rfl, rfl, rfl⟩
  split
  · exact ⟨rfl, rfl, rfl, .refl _, rfl, rfl, rfl⟩
  split
  · exact ⟨rfl, rfl, rfl, .refl _, rfl, rfl, rfl⟩
  split
  · exact ⟨rfl, rfl, rfl, .refl _, rfl, rfl, rfl⟩
  split
  · exact .refl s
  split
  · exact ⟨rfl, rfl, rfl, .refl _, rfl, rfl, rfl⟩
  · exact .refl s

/-- A bus write to a device register. -/
theorem busWrite_device_kept (a : Addr) (v : Byte) (s : State) (h1 : 0x2000 ≤ a.toNat) (h2 : a.toNat < 0x4020) :
    Kept s (busWrite a v s) := by
  unfold busWrite
  dsimp only
  rw [if_neg (by omega)]
  split
  · exact ⟨rfl, rfl, rfl, Ppu.mapperAfterWrite_samePrg _ _ _ _ _ _, rfl, rfl, rfl⟩
  split
  · exact ⟨rfl, rfl, rfl, .refl _, rfl, rfl, rfl⟩
  split
  · exact ⟨rfl, rfl, rfl, .refl _, rfl, rfl, rfl⟩
  split
  · exact ⟨rfl, rfl, rfl, .refl _, rfl, rfl, rfl⟩
  split
  · exact ⟨rfl, rfl, rfl, .refl _, rfl, rfl, rfl⟩
  split
  · exact ⟨rfl, rfl, rfl, .refl _, rfl, rfl, rfl⟩
  · exact ⟨rfl, rfl, rfl, .refl _, rfl, rfl, rfl⟩

/-! ## DMA -/

/-- Changing the DMA state changes nothing else. -/
theorem dma_kept (s : State) (d : Dma) : Kept s { s with dma := d } := ⟨rfl, rfl, rfl, .refl _, rfl, rfl, rfl⟩

theorem idleStall_kept (s : State) : Kept s (idleStall s) := (dma_kept s _).trans (endCycle_kept _ _)

theorem idleStalls_kept (n : Nat) (s : State) : Kept s (idleStalls n s) := by
  induction n generalizing s with
  | zero => exact .refl s
  | succ n ih => exact (idleStall_kept s).trans (ih _)

theorem dmcTake_kept (s : State) : Kept s (dmcTake s) := by
  have h := busAfterRead_kept s.apu.dmc.addr s
  exact ⟨h.regs, h.halted, h.ram, h.mapper, h.cart, h.params, h.epoch⟩

theorem dmcFetch_kept (s : State) : Kept s (dmcFetch s) :=
  ((dmcTake_kept s).trans (dma_kept _ _)).trans (endCycle_kept _ _)

theorem oamGet_kept (s : State) : Kept s (oamGet s) := by
  have h := busAfterRead_kept (word s.dma.oamPage (BitVec.ofNat 8 s.dma.oamIndex)) s
  refine Kept.trans ?_ (endCycle_kept _ _)
  exact ⟨h.regs, h.halted, h.ram, h.mapper, h.cart, h.params, h.epoch⟩

theorem oamPut_kept (s : State) : Kept s (oamPut s) := by
  have h := busWrite_device_kept 0x2004 s.dma.oamLatch s (by decide) (by decide)
  refine Kept.trans ?_ (endCycle_kept _ _)
  exact ⟨h.regs, h.halted, h.ram, h.mapper, h.cart, h.params, h.epoch⟩

/-- A property that the single DMA cycles and every change of the DMA fields keep. -/
structure DmaClosed (P : State → Prop) : Prop where
  fields : ∀ d s, P s → P { s with dma := d }
  idle   : ∀ s, P s → P (idleStall s)
  take   : ∀ s, P s → P (dmcTake s)
  fetch  : ∀ s, P s → P (dmcFetch s)
  get    : ∀ s, P s → P (oamGet s)
  put    : ∀ s, P s → P (oamPut s)

namespace DmaClosed

variable {P : State → Prop} (h : DmaClosed P)
include h

theorem idles (n : Nat) {s : State} (hs : P s) : P (idleStalls n s) := by
  induction n generalizing s with
  | zero => exact hs
  | succ n ih => exact ih (h.idle _ hs)

theorem dmcDma {s : State} (hs : P s) : P (dmcDma s) := by
  unfold Machine.dmcDma
  dsimp only
  split
  · exact h.fetch _ (h.idles _ (h.fields _ _ hs))
  · exact hs

theorem collision {s : State} (hs : P s) : P (dmaCollision s) := by
  unfold dmaCollision
  split
  · exact h.idle _ (h.fetch _ (h.fields _ _ hs))
  · exact hs

theorem meet {s : State} (hs : P s) : P (oamMeet s) := by
  unfold oamMeet
  split
  · split
    · exact h.take _ hs
    · exact h.fields _ _ hs
    · exact hs
  · exact hs

theorem last {s : State} (hs : P s) : P (oamLast s) := by
  unfold oamLast
  split
  · exact h.fields _ _ hs
  · exact hs

theorem late {s : State} (hs : P s) : P (lateCycle s) := by
  unfold lateCycle
  split
  · exact h.fetch _ (h.fields _ _ hs)
  · exact h.idle _ hs

theorem ended {s : State} (hs : P s) : P (oamOver s) := by
  unfold oamOver
  exact h.fields _ _ hs

theorem shared {s : State} (hs : P s) : P (sharedFetch s) := by
  unfold sharedFetch
  split
  · exact h.fields _ _ (h.take _ hs)
  · exact hs

theorem pairs (n : Nat) {s : State} (hs : P s) : P (oamPairs n s) := by
  induction n generalizing s with
  | zero => exact hs
  | succ n ih => exact ih (h.last (h.put _ (h.get _ (h.meet (h.collision (h.collision hs))))))

theorem begun {s : State} (hs : P s) : P (oamBegun s) := by
  unfold oamBegun
  dsimp only
  split
  · exact h.idles _ (h.fields _ _ hs)
  split
  · exact hs
  split
  · exact h.last (h.put _ hs)
  · exact h.idles _ hs

theorem rest {s : State} (hs : P s) : P (oamRest s) := by
  unfold oamRest
  split
  · exact h.ended hs
  · exact h.ended (h.idles _ (h.late hs))

theorem oamDma {s : State} (hs : P s) : P (oamDma s) := by
  unfold Machine.oamDma
  split
  · exact h.rest (h.pairs _ (h.begun hs))
  · exact hs

/-- Whatever the DMA units do in front of a read cycle keeps the property. -/
theorem stalls {s : State} (hs : P s) : P (stalls s) := h.dmcDma (h.dmcDma (h.shared (h.oamDma hs)))

end DmaClosed

/-- The DMA units leave alone what `Kept` names. -/
theorem kept_dmaClosed (s : State) : DmaClosed (Kept s) where
  fields d _ h := h.trans (dma_kept _ d)
  idle _ h := h.trans (idleStall_kept _)
  take _ h := h.trans (dmcTake_kept _)
  fetch _ h := h.trans (dmcFetch_kept _)
  get _ h := h.trans (oamGet_kept _)
  put _ h := h.trans (oamPut_kept _)

theorem oamPairs_kept (n : Nat) (s : State) : Kept s (oamPairs n s) := (kept_dmaClosed s).pairs n (.refl s)

theorem oamDma_kept (s : State) : Kept s (oamDma s) := (kept_dmaClosed s).oamDma (.refl s)

/-- Whatever the DMA units do in front of a read cycle. -/
theorem stalls_kept (s : State) : Kept s (stalls s) := (kept_dmaClosed s).stalls (.refl s)

/-! ## The Cpu's cycles -/

theorem poll_kept (s : State) : Kept s (poll s) := ⟨rfl, rfl, rfl, .refl _, rfl, rfl, rfl⟩

theorem mapProg_kept (s : State) (f : Progress → Progress) : Kept s (s.mapProg f) := ⟨rfl, rfl, rfl, .refl _, rfl, rfl, rfl⟩

theorem beginRead_kept (polled : Bool) (s : State) : Kept s (beginRead polled s) := by
  unfold beginRead
  dsimp only
  refine Kept.trans ?_ (mapProg_kept _ _)
  split
  · exact (stalls_kept s).trans (poll_kept _)
  · exact stalls_kept s

/-- A read cycle of the Cpu. -/
theorem readCycle_kept (polled : Bool) (a : Addr) (s : State) : Kept s (readCycle polled a s) :=
  ((beginRead_kept polled s).trans (busAfterRead_kept a _)).trans (endCycle_kept _ _)

theorem finish_kept (s : State) : Kept s (finish s) := mapProg_kept _ _

/-! ## Progress fields through a cycle -/

theorem dots_prog (n : Nat) (s : State) : (dots n s).cpu = s.cpu := by
  induction n generalizing s with
  | zero => rfl
  | succ n ih => exact (ih _).trans rfl

@[simp] theorem endCycle_prog (w : Bool) (s : State) : (endCycle w s).cpu.prog = s.cpu.prog := by
  have e : (endCycle w s).cpu.prog = (dots s.dotsThisCycle s).cpu.prog := rfl
  rw [e, dots_prog]

@[simp] theorem endCycle_intDetected (w : Bool) (s : State) : (endCycle w s).cpu.intDetected = s.cpu.intDetected := by
  have e : (endCycle w s).cpu.intDetected = (dots s.dotsThisCycle s).cpu.intDetected := rfl
  rw [e, dots_prog]

@[simp] theorem busAfterRead_cpu (a : Addr) (s : State) : (busAfterRead a s).cpu = s.cpu := by
  unfold busAfterRead; dsimp only; repeat' split
  all_goals rfl

@[simp] theorem busWrite_cpu (a : Addr) (v : Byte) (s : State) : (busWrite a v s).cpu = s.cpu := by
  unfold busWrite; dsimp only; repeat' split
  all_goals rfl

@[simp] theorem idleStall_prog (s : State) : (idleStall s).cpu.prog = s.cpu.prog := endCycle_prog _ _

@[simp] theorem idleStalls_prog (n : Nat) (s : State) : (idleStalls n s).cpu.prog = s.cpu.prog := by
  induction n generalizing s with
  | zero => rfl
  | succ n ih => exact (ih _).trans (idleStall_prog s)

@[simp] theorem dmcTake_cpu (s : State) : (dmcTake s).cpu = s.cpu := busAfterRead_cpu _ _

@[simp] theorem dmcFetch_prog (s : State) : (dmcFetch s).cpu.prog = s.cpu.prog := by
  simp only [dmcFetch, endCycle_prog, dmcTake_cpu]

@[simp] theorem oamGet_prog (s : State) : (oamGet s).cpu.prog = s.cpu.prog := by
  simp only [oamGet, endCycle_prog, busAfterRead_cpu]

@[simp] theorem oamPut_prog (s : State) : (oamPut s).cpu.prog = s.cpu.prog := by
  simp only [oamPut, endCycle_prog, busWrite_cpu]

@[simp] theorem stalls_prog (s : State) : (stalls s).cpu.prog = s.cpu.prog := by
  have h : DmaClosed (fun t => t.cpu.prog = s.cpu.prog) :=
    { fields := fun _ _ h => h
      idle := fun _ h => (idleStall_prog _).trans h
      take := fun t h => (congrArg Cpu.prog (dmcTake_cpu t)).trans h
      fetch := fun _ h => (dmcFetch_prog _).trans h
      get := fun _ h => (oamGet_prog _).trans h
      put := fun _ h => (oamPut_prog _).trans h }
  exact h.stalls rfl

/-- A read cycle moves the micro-op position by one and leaves the other progress fields. -/
@[simp] theorem readCycle_prog (polled : Bool) (a : Addr) (s : State) :
    (readCycle polled a s).cpu.prog = { s.cpu.prog with tcycle := s.cpu.prog.tcycle + 1 } := by
  cases polled <;> simp [readCycle, beginRead, State.mapProg, poll]

@[simp] theorem writeCycle_prog (polled : Bool) (a : Addr) (v : Byte) (s : State) :
    (writeCycle polled a v s).cpu.prog = { s.cpu.prog with tcycle := s.cpu.prog.tcycle + 1 } := by
  cases polled <;> simp [writeCycle, State.mapProg, poll]

end Sys2Proof.Machine
end

