-- ==== Sys2Proof/Laws/Memory.lean ====
section
/-! SUPPORT. The laws of one memory: a read after a write, a write elsewhere, the canonical form. -/

namespace Sys2Proof.Machine

theorem Memory.find_set_self (m : Memory) (x : Nat) (v : Byte) : (m.set x v).find x = some v := by
  induction m with
  | nil => simp [Memory.set, Memory.find]
  | cons c m ih =>
    obtain ⟨a, b⟩ := c
    by_cases h : x = a
    · simp [Memory.set, Memory.find, h]
    · by_cases h' : x < a
      · simp [Memory.set, Memory.find, h, h']
      · simp [Memory.set, Memory.find, h, h', ih]

theorem Memory.find_set_ne (m : Memory) {x y : Nat} (v : Byte) (hne : y ≠ x) : (m.set x v).find y = m.find y := by
  induction m with
  | nil => simp [Memory.set, Memory.find, hne]
  | cons c m ih =>
    obtain ⟨a, b⟩ := c
    by_cases h : x = a
    · subst h; simp [Memory.set, Memory.find, hne]
    · by_cases h' : x < a
      · simp [Memory.set, Memory.find, h, h', hne]
      · simp only [Memory.set, h, h', if_false, Memory.find, ih]

/-- A read after a write to the same address gives the byte written; elsewhere it gives what it gave. -/
theorem Memory.read_set (e : Nat) (id : Config.MemId) (m : Memory) (x y : Nat) (v : Byte) :
    Memory.read e id (m.set x v) y = if y = x then v else Memory.read e id m y := by
  by_cases h : y = x
  · subst h; simp [Memory.read, Memory.find_set_self]
  · simp [Memory.read, Memory.find_set_ne _ _ h, h]

/-- Every address of a list in canonical form lies above one that stands below its first. -/
def Memory.above (n : Nat) : Memory → Bool
  | [] => true
  | (a, _) :: _ => decide (n < a)

theorem Memory.wf_cons (a : Nat) (b : Byte) (m : Memory) :
    Memory.wf ((a, b) :: m) = (Memory.above a m && Memory.wf m) := by
  cases m with
  | nil => simp [Memory.wf, Memory.above]
  | cons c m => obtain ⟨a', b'⟩ := c; simp [Memory.wf, Memory.above]

theorem Memory.above_set {n x : Nat} {v : Byte} {m : Memory} (h : Memory.above n m = true) (hx : n < x) :
    Memory.above n (m.set x v) = true := by
  cases m with
  | nil => simp [Memory.set, Memory.above, hx]
  | cons c m =>
    obtain ⟨a, b⟩ := c
    simp only [Memory.set]
    split
    · simp_all [Memory.above]
    · split <;> simp_all [Memory.above]

/-- A write keeps the canonical form. -/
theorem Memory.wf_set {m : Memory} (x : Nat) (v : Byte) (h : m.wf = true) : (m.set x v).wf = true := by
  induction m with
  | nil => simp [Memory.set, Memory.wf]
  | cons c m ih =>
    obtain ⟨a, b⟩ := c
    rw [Memory.wf_cons, Bool.and_eq_true] at h
    simp only [Memory.set]
    split
    · next hx => subst hx; simp [Memory.wf_cons, h]
    · split
      · next hlt => rw [Memory.wf_cons, Memory.wf_cons, h.1, h.2]; simp [Memory.above, hlt]
      · next hne hge =>
        rw [Memory.wf_cons, Memory.above_set h.1 (by omega), ih h.2, Bool.and_true]

theorem Memory.all_set {m : Memory} {n x : Nat} (v : Byte) (h : m.all (fun c => decide (c.1 < n)) = true) (hx : x < n) :
    (m.set x v).all (fun c => decide (c.1 < n)) = true := by
  induction m with
  | nil => simp [Memory.set, hx]
  | cons c m ih =>
    obtain ⟨a, b⟩ := c
    simp only [List.all_cons, Bool.and_eq_true] at h
    simp only [Memory.set]
    split
    · simp only [List.all_cons, h.2, Bool.and_true]; simp [hx]
    · split
      · simp [List.all_cons, hx]; simpa using h
      · simp only [List.all_cons, ih h.2, h.1, Bool.and_true]

/-- A write inside the size keeps a memory in canonical form and inside its size. -/
theorem Memory.bounded_set {m : Memory} {n x : Nat} (v : Byte) (h : m.bounded n = true) (hx : x < n) :
    (m.set x v).bounded n = true := by
  simp only [Memory.bounded, Bool.and_eq_true] at h ⊢
  exact ⟨Memory.wf_set x v h.1, Memory.all_set v h.2 hx⟩

end Sys2Proof.Machine
end

