-- ==== Sys2Proof/Laws/Cycles.lean ====
section
/-! SUPPORT. What a read cycle and a write cycle of the Cpu do to registers and memory, and the bytes they read. -/

namespace Sys2Proof.Machine

/-! ## Memory through kept cycles -/

theorem Kept.ramByte {s t : State} (h : Kept s t) (k : Nat) : t.ramByte k = s.ramByte k := by
  simp only [State.ramByte, h.ram, h.epoch]

theorem Kept.prgRamByte {s t : State} (h : Kept s t) (k : Nat) : t.prgRamByte k = s.prgRamByte k := by
  simp only [State.prgRamByte, h.mapper.prgRam, h.epoch]

theorem Kept.memByte {s t : State} (h : Kept s t) (a : Addr) : t.memByte a = s.memByte a := by
  simp only [State.memByte, h.ramByte, h.mapper.prgRead, h.cart, h.params, h.epoch]

theorem Kept.sameMemory {s t : State} (h : Kept s t) : SameMemory s t :=
  ⟨h.ramByte, h.prgRamByte, h.cart, h.params, h.epoch⟩

/-- What a bus read gives at an address where memory holds a byte. -/
theorem busValue_of_memByte {s : State} {a : Addr} {b : Byte} (h : s.memByte a = some b) : busValue a s = b := by
  unfold State.memByte at h
  unfold busValue
  dsimp only at h ⊢
  split at h
  · next h1 => rw [if_pos h1]; exact Option.some.inj h
  · next h1 =>
    split at h
    · exact absurd h (by simp)
    · next h2 =>
      rw [if_neg h1, if_neg (by omega), if_neg (by omega), if_neg (by omega), if_neg (by omega), if_neg h2, h]
      rfl

/-- A read cycle reads the byte memory held when the cycle's DMA stalls began. -/
theorem readValue_of_memByte {s : State} {a : Addr} {b : Byte} (polled : Bool) (h : s.memByte a = some b) :
    readValue polled a s = b :=
  busValue_of_memByte (((beginRead_kept polled s).memByte a).trans h)

/-- RAM holds a byte at every address below 0x2000. -/
theorem State.memByte_ram {s : State} {a : Addr} (h : a.toNat < 0x2000) :
    s.memByte a = some (s.ramByte (a.toNat % 0x0800)) := by
  simp only [State.memByte, h, if_true]

theorem word_zero_toNat (b : Byte) : (word 0 b).toNat = b.toNat := by
  have h := b.isLt
  simp only [word]
  simp
  omega

theorem readValue_zeroPage (polled : Bool) (b : Byte) (s : State) : readValue polled (word 0 b) s = s.ramByte b.toNat := by
  have hb := b.isLt
  have h : (word 0 b).toNat = b.toNat := word_zero_toNat b
  refine readValue_of_memByte polled ?_
  rw [State.memByte_ram (by omega), h, Nat.mod_eq_of_lt (by omega)]

/-! ## Registers -/

@[simp] theorem readCycle_regs (p : Bool) (a : Addr) (s : State) : (readCycle p a s).cpu.regs = s.cpu.regs :=
  (readCycle_kept p a s).regs

@[simp] theorem writeCycle_regs (p : Bool) (a : Addr) (v : Byte) (s : State) :
    (writeCycle p a v s).cpu.regs = s.cpu.regs := by
  unfold writeCycle
  rw [(endCycle_kept _ _).regs, busWrite_cpu]
  cases p <;> rfl

@[simp] theorem fetchOpcode_regs (s : State) : (fetchOpcode s).cpu.regs = s.cpu.regs.incPc := by
  simp [fetchOpcode]

@[simp] theorem fetchOperand_regs (p : Bool) (f : Progress → Progress) (s : State) :
    (fetchOperand p f s).cpu.regs = s.cpu.regs.incPc := by
  simp [fetchOperand]

@[simp] theorem fetchOperand_prog (p : Bool) (f : Progress → Progress) (s : State) :
    (fetchOperand p f s).cpu.prog = f { s.cpu.prog with tcycle := s.cpu.prog.tcycle + 1 } := by
  simp [fetchOperand]

@[simp] theorem dummyFetch_regs (p : Bool) (s : State) : (dummyFetch p s).cpu.regs = s.cpu.regs := by
  simp [dummyFetch]

@[simp] theorem Regs.incPc_advance (r : Regs) (n : Addr) : r.incPc.advance n = r.advance (1 + n) := by
  simp only [Regs.incPc, Regs.advance, BitVec.add_assoc]

theorem Regs.incPc_eq (r : Regs) : r.incPc = r.advance 1 := rfl

@[simp] theorem Regs.advance_x (r : Regs) (n : Addr) : (r.advance n).x = r.x := rfl
@[simp] theorem Regs.advance_y (r : Regs) (n : Addr) : (r.advance n).y = r.y := rfl
@[simp] theorem Regs.advance_a (r : Regs) (n : Addr) : (r.advance n).a = r.a := rfl
@[simp] theorem Regs.advance_s (r : Regs) (n : Addr) : (r.advance n).s = r.s := rfl
@[simp] theorem Regs.advance_p (r : Regs) (n : Addr) : (r.advance n).p = r.p := rfl
@[simp] theorem Regs.advance_pc (r : Regs) (n : Addr) : (r.advance n).pc = r.pc + n := rfl

/-! ## Memory: what stores nothing -/

/-- The relation "memory as before" for operations that may also change the registers. -/
structure Same (s t : State) : Prop where
  halted : t.cpu.halted = s.cpu.halted
  ram    : t.ram = s.ram
  mapper : s.mapper.SamePrg t.mapper
  cart   : t.cart = s.cart
  params : t.params = s.params
  epoch  : t.epoch = s.epoch

theorem Same.trans {s t u : State} (h : Same s t) (h' : Same t u) : Same s u :=
  ⟨h'.halted.trans h.halted, h'.ram.trans h.ram, h.mapper.trans h'.mapper, h'.cart.trans h.cart,
    h'.params.trans h.params, h'.epoch.trans h.epoch⟩

theorem Kept.same {s t : State} (h : Kept s t) : Same s t := ⟨h.halted, h.ram, h.mapper, h.cart, h.params, h.epoch⟩

theorem Same.refl (s : State) : Same s s := (Kept.refl s).same

theorem Same.ramByte {s t : State} (h : Same s t) (k : Nat) : t.ramByte k = s.ramByte k := by
  simp only [State.ramByte, h.ram, h.epoch]

theorem Same.prgRamByte {s t : State} (h : Same s t) (k : Nat) : t.prgRamByte k = s.prgRamByte k := by
  simp only [State.prgRamByte, h.mapper.prgRam, h.epoch]

theorem Same.memByte {s t : State} (h : Same s t) (a : Addr) : t.memByte a = s.memByte a := by
  simp only [State.memByte, h.ramByte, h.mapper.prgRead, h.cart, h.params, h.epoch]

theorem Same.sameMemory {s t : State} (h : Same s t) : SameMemory s t :=
  ⟨h.ramByte, h.prgRamByte, h.cart, h.params, h.epoch⟩

theorem mapRegs_same (s : State) (f : Regs → Regs) : Same s (s.mapRegs f) := ⟨rfl, rfl, .refl _, rfl, rfl, rfl⟩

theorem fetchOpcode_same (s : State) : Same s (fetchOpcode s) :=
  ((readCycle_kept _ _ s).same.trans (mapProg_kept _ _).same).trans (mapRegs_same _ _)

theorem fetchOperand_same (p : Bool) (f : Progress → Progress) (s : State) : Same s (fetchOperand p f s) :=
  ((readCycle_kept _ _ s).same.trans (mapProg_kept _ _).same).trans (mapRegs_same _ _)

theorem dummyFetch_same (p : Bool) (s : State) : Same s (dummyFetch p s) := (readCycle_kept _ _ s).same

theorem finish_same (s : State) : Same s (finish s) := (finish_kept s).same

/-! ## Memory: a write cycle -/

theorem State.prgRamByte_prgWrite (m : Mapper) (c : Cartridge) (p : Params) (w : Bool) (n : Nat) (v : Byte) (e k : Nat) :
    Memory.read e .prgRam (m.prgWrite c p w n v).prgRam k =
      if 0x6000 ≤ n ∧ n < 0x8000 ∧ m.ramWritable p = true ∧ k = n - 0x6000 then v
      else Memory.read e .prgRam m.prgRam k := by
  unfold Mapper.prgWrite
  split
  · next h => rw [if_neg (by omega)]
  · next h =>
    split
    · next h' =>
      simp only [Bool.and_eq_true, decide_eq_true_eq] at h'
      rw [Memory.read_set]
      by_cases hk : k = n - 0x6000
      · rw [if_pos hk, if_pos ⟨h'.1, by omega, h'.2, hk⟩]
      · rw [if_neg hk, if_neg (fun x => hk x.2.2.2)]
    · next h' =>
      simp only [Bool.and_eq_true, decide_eq_true_eq] at h'
      rw [if_neg (fun x => h' ⟨x.1, x.2.2.1⟩)]

/-- The byte of a bus write lands at its address and at no other. -/
theorem busWrite_storedAt (a : Addr) (v : Byte) (s : State) : StoredAt a v s (busWrite a v s) := by
  by_cases h1 : a.toNat < 0x2000
  · have e : busWrite a v s = { s.drive v with ram := s.ram.set (a.toNat % 0x0800) v } := by
      unfold busWrite; dsimp only; rw [if_pos h1]; rfl
    rw [e]
    refine ⟨fun k => ?_, fun k => ?_, rfl, rfl, rfl⟩
    · simp only [State.ramByte, Memory.read_set, drive_epoch, h1, true_and]
    · rw [if_neg (by omega)]; rfl
  · by_cases h2 : a.toNat < 0x4020
    · have h := busWrite_device_kept a v s (by omega) h2
      refine ⟨fun k => ?_, fun k => ?_, h.cart, h.params, h.epoch⟩
      · rw [if_neg (fun x => h1 x.1), h.ramByte]
      · rw [if_neg (fun x => by omega), h.prgRamByte]
    · have e : busWrite a v s =
          { s.drive v with mapper := s.mapper.prgWrite s.cart s.params s.prevWrite a.toNat v } := by
        unfold busWrite; dsimp only
        rw [if_neg h1, if_neg (by omega), if_neg (by omega), if_neg (by omega), if_neg (by omega), if_neg (by omega),
          if_neg (by omega), if_neg h2]
        rfl
      rw [e]
      refine ⟨fun k => ?_, fun k => ?_, rfl, rfl, rfl⟩
      · rw [if_neg (fun x => h1 x.1)]; rfl
      · exact State.prgRamByte_prgWrite _ _ _ _ _ _ _ _

theorem StoredAt.before {s t u : State} {a : Addr} {v : Byte} (h : Same s t) (h' : StoredAt a v t u) : StoredAt a v s u := by
  obtain ⟨h1, h2, h3, h4, h5⟩ := h'
  refine ⟨fun k => ?_, fun k => ?_, h3.trans h.cart, h4.trans h.params, h5.trans h.epoch⟩
  · rw [h1, h.ramByte]
  · rw [h2, h.prgRamByte, h.params, h.mapper.writable]

theorem StoredAt.after {s t u : State} {a : Addr} {v : Byte} (h : StoredAt a v s t) (h' : Same t u) : StoredAt a v s u := by
  obtain ⟨h1, h2, h3, h4, h5⟩ := h
  exact ⟨fun k => (h'.ramByte k).trans (h1 k), fun k => (h'.prgRamByte k).trans (h2 k), h'.cart.trans h3,
    h'.params.trans h4, h'.epoch.trans h5⟩

/-- A write cycle of the Cpu. -/
theorem writeCycle_storedAt (p : Bool) (a : Addr) (v : Byte) (s : State) : StoredAt a v s (writeCycle p a v s) := by
  refine StoredAt.after ?_ (endCycle_kept _ _).same
  refine StoredAt.before ?_ (busWrite_storedAt a v _)
  cases p
  · exact (mapProg_kept _ _).same
  · exact ((poll_kept s).trans (mapProg_kept _ _)).same

/-- A write below 0x8000 does not touch the mapper's registers, so what its PRG RAM accepts stays. -/
theorem busWrite_writable (a : Addr) (v : Byte) (s : State) (h : a.toNat < 0x8000) (p : Params) :
    (busWrite a v s).mapper.ramWritable p = s.mapper.ramWritable p := by
  by_cases h1 : a.toNat < 0x2000
  · unfold busWrite; dsimp only; rw [if_pos h1]; rfl
  · by_cases h2 : a.toNat < 0x4020
    · exact (busWrite_device_kept a v s (by omega) h2).mapper.writable p
    · have e : (busWrite a v s).mapper = s.mapper.prgWrite s.cart s.params s.prevWrite a.toNat v := by
        unfold busWrite; dsimp only
        rw [if_neg h1, if_neg (by omega), if_neg (by omega), if_neg (by omega), if_neg (by omega), if_neg (by omega),
          if_neg (by omega), if_neg h2]
        rfl
      rw [e]
      unfold Mapper.prgWrite
      rw [if_neg (by omega)]
      split <;> rfl

theorem writeCycle_writable (p : Bool) (a : Addr) (v : Byte) (s : State) (h : a.toNat < 0x8000) (q : Params) :
    (writeCycle p a v s).mapper.ramWritable q = s.mapper.ramWritable q := by
  unfold writeCycle
  rw [(endCycle_kept _ _).mapper.writable, busWrite_writable a v _ h]
  cases p <;> rfl

/-- Two writes to one address: the second byte stays. -/
theorem StoredAt.again {s t u : State} {a : Addr} {v w : Byte} (h : StoredAt a v s t) (h' : StoredAt a w t u)
    (hw : a.toNat < 0x8000 → t.mapper.ramWritable s.params = s.mapper.ramWritable s.params) : StoredAt a w s u := by
  obtain ⟨h1, h2, h3, h4, h5⟩ := h
  obtain ⟨g1, g2, g3, g4, g5⟩ := h'
  refine ⟨fun k => ?_, fun k => ?_, g3.trans h3, g4.trans h4, g5.trans h5⟩
  · rw [g1, h1]; split <;> rfl
  · rw [g2, h2, h4]
    by_cases hn : a.toNat < 0x8000
    · rw [hw hn]; split <;> rfl
    · rw [if_neg (by omega), if_neg (by omega), if_neg (by omega)]

end Sys2Proof.Machine
end

