-- ==== Sys2Proof/Laws/Operands.lean ====
section
/-! SUPPORT. One lemma per operand form: the address its cycles put together, and everything a read instruction, a store and a
read-modify-write instruction of the form can do to registers and memory. -/

namespace Sys2Proof.Machine

/-! ## Words -/


theorem word_toNat (h l : Byte) : (word h l).toNat = h.toNat * 256 + l.toNat := by
  have h1 := h.isLt
  have h2 := l.isLt
  simp only [word, BitVec.toNat_or, BitVec.toNat_shiftLeft, BitVec.toNat_setWidth]
  rw [Nat.mod_eq_of_lt (a := h.toNat) (by omega), Nat.mod_eq_of_lt (a := l.toNat) (by omega), Nat.shiftLeft_eq]
  rw [Nat.mod_eq_of_lt (by omega)]
  rw [show h.toNat * 2 ^ 8 = 2 ^ 8 * h.toNat by ring, ← Nat.two_pow_add_eq_or_of_lt h2]
  ring

theorem hi_toNat (a : Addr) : (hi a).toNat = a.toNat / 256 := by
  have := a.isLt
  simp [hi, Nat.shiftRight_eq_div_pow]; omega

theorem lo_toNat (a : Addr) : (lo a).toNat = a.toNat % 256 := by
  simp [lo]

theorem word_hi_lo (a : Addr) : word (hi a) (lo a) = a := by
  apply BitVec.eq_of_toNat_eq
  rw [word_toNat, hi_toNat, lo_toNat]; omega

theorem lo_word (h l : Byte) : lo (word h l) = l := by
  apply BitVec.eq_of_toNat_eq
  have := l.isLt
  rw [lo_toNat, word_toNat]; omega

theorem hi_word (h l : Byte) : hi (word h l) = h := by
  apply BitVec.eq_of_toNat_eq
  have := l.isLt
  rw [hi_toNat, word_toNat]; omega

theorem word_index (a : Addr) (i : Byte) :
   word (hi a + (BitVec.ofBool (crossed a i)).setWidth 8) (lo a + i) = eaIndexed a i := by
  apply BitVec.eq_of_toNat_eq
  have h1 := a.isLt
  have h2 := i.isLt
  by_cases h : 256 ≤ (lo a).toNat + i.toNat
  · have hc : crossed a i = true := by simp [crossed, h]
    rw [lo_toNat] at h
    simp only [word_toNat, eaIndexed, hc, BitVec.toNat_add, hi_toNat, lo_toNat, BitVec.toNat_setWidth, BitVec.ofBool_true]
    simp; omega
  · have hc : crossed a i = false := by simp [crossed]; omega
    rw [lo_toNat] at h
    simp only [word_toNat, eaIndexed, hc, BitVec.toNat_add, hi_toNat, lo_toNat, BitVec.toNat_setWidth, BitVec.ofBool_false]
    simp; omega

/-! ## The address cycles -/

theorem Regs.incPc_twice (r : Regs) : r.incPc.incPc = r.advance 2 := by
  simp only [Regs.incPc, Regs.advance, BitVec.add_assoc]; rfl

theorem readPointer_regs (s : State) : (readPointer s).cpu.regs = s.cpu.regs := by simp [readPointer]

theorem readPointer_kept (s : State) : Kept s (readPointer s) := by
  unfold readPointer
  dsimp only
  exact (((readCycle_kept _ _ s).trans (mapProg_kept _ _)).trans (readCycle_kept _ _ _)).trans (mapProg_kept _ _)

/-- The pointer's bytes are those of page 0 of RAM. -/
theorem readPointer_prog (s : State) :
    (readPointer s).cpu.prog.adl = s.ramByte s.cpu.prog.ptr.toNat
      ∧ (readPointer s).cpu.prog.adh = s.ramByte (s.cpu.prog.ptr + 1).toNat := by
  unfold readPointer
  dsimp only
  simp only [mapProg_prog, readCycle_prog, readValue_zeroPage, true_and]
  exact ((readCycle_kept _ _ s).trans (mapProg_kept _ _)).ramByte _

theorem addrZp_regs (d8 : Byte) (s : State) : (addrZp d8 s).cpu.regs = s.cpu.regs.advance 2 := by
  simp only [addrZp, fetchOperand_regs, fetchOpcode_regs, Regs.incPc_twice]

theorem addrZp_same (d8 : Byte) (s : State) : Same s (addrZp d8 s) := (fetchOpcode_same s).trans (fetchOperand_same _ _ _)

theorem addrZp_target (d8 : Byte) (s : State) : (addrZp d8 s).target = eaZp d8 := by
  simp [addrZp, State.target, eaZp]

theorem addrZpIndexed_regs (f : Regs → Byte) (d8 : Byte) (s : State) :
    (addrZpIndexed f d8 s).cpu.regs = s.cpu.regs.advance 2 := by
  simp [addrZpIndexed, addrZp_regs]

theorem addrZpIndexed_same (f : Regs → Byte) (d8 : Byte) (s : State) : Same s (addrZpIndexed f d8 s) := by
  unfold addrZpIndexed
  dsimp only
  exact ((addrZp_same d8 s).trans (readCycle_kept _ _ _).same).trans (mapProg_kept _ _).same

theorem addrZpIndexed_target (f : Regs → Byte) (d8 : Byte) (s : State) :
    (addrZpIndexed f d8 s).target = eaZpIndexed d8 (f (s.cpu.regs.advance 2)) := by
  simp [addrZpIndexed, State.target, eaZpIndexed, addrZp_regs]
  simp [addrZp]

theorem addrAbs_regs (a : Addr) (s : State) : (addrAbs a s).cpu.regs = s.cpu.regs.advance 3 := by
  simp [addrAbs, Regs.incPc_eq, Regs.advance, BitVec.add_assoc]

theorem addrAbs_same (a : Addr) (s : State) : Same s (addrAbs a s) :=
  ((fetchOpcode_same s).trans (fetchOperand_same _ _ _)).trans (fetchOperand_same _ _ _)

theorem addrAbs_prog (a : Addr) (s : State) : (addrAbs a s).cpu.prog.adl = lo a ∧ (addrAbs a s).cpu.prog.adh = hi a := by
  simp [addrAbs]

theorem addrIndexed_regs (f : Regs → Byte) (a : Addr) (s : State) :
    (addrIndexed f a s).cpu.regs = s.cpu.regs.advance 3 := by
  simp [addrIndexed, addrAbs_regs]

theorem addrIndexed_same (f : Regs → Byte) (a : Addr) (s : State) : Same s (addrIndexed f a s) := by
  unfold addrIndexed
  dsimp only
  exact (addrAbs_same a s).trans (mapProg_kept _ _).same

theorem addrIndexed_prog (f : Regs → Byte) (a : Addr) (s : State) :
    (addrIndexed f a s).cpu.prog.adl = lo a + f (s.cpu.regs.advance 3) ∧ (addrIndexed f a s).cpu.prog.adh = hi a
      ∧ (addrIndexed f a s).cpu.prog.fixup = crossed a (f (s.cpu.regs.advance 3)) := by
  simp [addrIndexed, Progress.addIndex, addrAbs_regs, addrAbs_prog, crossed]

theorem addrIzx_regs (d8 : Byte) (s : State) : (addrIzx d8 s).cpu.regs = s.cpu.regs.advance 2 := by
  simp [addrIzx, readPointer_regs, addrZp_regs]

theorem addrIzx_same (d8 : Byte) (s : State) : Same s (addrIzx d8 s) := by
  unfold addrIzx
  dsimp only
  exact (((addrZp_same d8 s).trans (readCycle_kept _ _ _).same).trans (mapProg_kept _ _).same).trans (readPointer_kept _).same

theorem addrIzx_target (d8 : Byte) (s : State) : (addrIzx d8 s).target = eaIzx d8 s := by
  have h := ((addrZp_same d8 s).trans (readCycle_kept false (addrZp d8 s).target _).same).trans
    (mapProg_kept _ (fun g => { g with ptr := d8 + (addrZp d8 s).cpu.regs.x })).same
  obtain ⟨h1, h2⟩ := readPointer_prog ((readCycle false (addrZp d8 s).target (addrZp d8 s)).mapProg
    (fun g => { g with ptr := d8 + (addrZp d8 s).cpu.regs.x }))
  unfold addrIzx
  dsimp only
  rw [State.target, h1, h2, h.ramByte, h.ramByte, mapProg_prog, addrZp_regs]
  rfl

theorem addrIzy_regs (d8 : Byte) (s : State) : (addrIzy d8 s).cpu.regs = s.cpu.regs.advance 2 := by
  simp only [addrIzy, mapProg_regs, readPointer_regs, fetchOperand_regs, fetchOpcode_regs, Regs.incPc_twice]

theorem addrIzy_same (d8 : Byte) (s : State) : Same s (addrIzy d8 s) := by
  unfold addrIzy
  dsimp only
  exact (((fetchOpcode_same s).trans (fetchOperand_same _ _ _)).trans (readPointer_kept _).same).trans (mapProg_kept _ _).same

theorem addrIzy_prog (d8 : Byte) (s : State) :
    (addrIzy d8 s).cpu.prog.adl = lo (baseIzy d8 s) + s.cpu.regs.y ∧ (addrIzy d8 s).cpu.prog.adh = hi (baseIzy d8 s)
      ∧ (addrIzy d8 s).cpu.prog.fixup = crossed (baseIzy d8 s) s.cpu.regs.y := by
  have h := (fetchOpcode_same s).trans (fetchOperand_same false (fun g => { g with ptr := d8 }) _)
  obtain ⟨h1, h2⟩ := readPointer_prog (fetchOperand false (fun g => { g with ptr := d8 }) (fetchOpcode s))
  simp only [addrIzy, mapProg_prog, Progress.addIndex, h1, h2, h.ramByte, fetchOperand_prog, readPointer_regs,
    fetchOperand_regs, fetchOpcode_regs, Regs.incPc_y, baseIzy, lo_word, hi_word, crossed, and_self]

/-! ## All modes at once -/

theorem AddrMode.addressed_regs (m : AddrMode) (a : Addr) (s : State) :
    (m.addressed a s).cpu.regs = s.cpu.regs.advance m.length := by
  cases m <;> simp only [AddrMode.addressed, AddrMode.length, addrZp_regs, addrZpIndexed_regs, addrAbs_regs,
    addrIndexed_regs, addrIzx_regs, addrIzy_regs]

theorem AddrMode.addressed_same (m : AddrMode) (a : Addr) (s : State) : Same s (m.addressed a s) := by
  cases m
  · exact addrZp_same _ _
  · exact addrZpIndexed_same _ _ _
  · exact addrZpIndexed_same _ _ _
  · exact addrAbs_same _ _
  · exact addrIndexed_same _ _ _
  · exact addrIndexed_same _ _ _
  · exact addrIzx_same _ _
  · exact addrIzy_same _ _

/-- The address in `{adh, adl}` after the address cycles: `EA`, or in the indexed modes `EA_unfixed` with `fixup` telling
whether it still lacks the carry. -/
theorem AddrMode.addressed_target (m : AddrMode) (a : Addr) (s : State) :
    if m.indexed = true then
      (m.addressed a s).cpu.prog.adl = lo (m.base a s) + m.index s ∧ (m.addressed a s).cpu.prog.adh = hi (m.base a s)
        ∧ (m.addressed a s).cpu.prog.fixup = m.crosses a s ∧ m.ea a s = eaIndexed (m.base a s) (m.index s)
    else (m.addressed a s).target = m.ea a s := by
  cases m
  · exact addrZp_target _ _
  · exact addrZpIndexed_target _ _ _
  · exact addrZpIndexed_target _ _ _
  · show word (addrAbs a s).cpu.prog.adh (addrAbs a s).cpu.prog.adl = a
    rw [(addrAbs_prog a s).1, (addrAbs_prog a s).2, word_hi_lo]
  · obtain ⟨h1, h2, h3⟩ := addrIndexed_prog Regs.x a s; exact ⟨h1, h2, h3, rfl⟩
  · obtain ⟨h1, h2, h3⟩ := addrIndexed_prog Regs.y a s; exact ⟨h1, h2, h3, rfl⟩
  · exact addrIzx_target _ _
  · obtain ⟨h1, h2, h3⟩ := addrIzy_prog (lo a) s; exact ⟨h1, h2, h3, rfl⟩

theorem fixupCycle_kept (s : State) : Kept s (fixupCycle s) := by
  unfold fixupCycle
  exact (readCycle_kept _ _ s).trans (mapProg_kept _ _)

theorem fixupCycle_prog (s : State) :
    (fixupCycle s).cpu.prog.adl = s.cpu.prog.adl ∧ (fixupCycle s).cpu.prog.fixup = s.cpu.prog.fixup
      ∧ (fixupCycle s).cpu.prog.adh = s.cpu.prog.adh + (BitVec.ofBool s.cpu.prog.fixup).setWidth 8 := by
  simp [fixupCycle]

/-- After the cycle that reads at `EA_unfixed`, `{adh, adl}` is `EA`. -/
theorem AddrMode.fixup_target (m : AddrMode) (a : Addr) (s : State) (h : m.indexed = true) :
    (fixupCycle (m.addressed a s)).target = m.ea a s := by
  have t := m.addressed_target a s
  rw [if_pos h] at t
  obtain ⟨h1, -, h3⟩ := fixupCycle_prog (m.addressed a s)
  have c : m.crosses a s = crossed (m.base a s) (m.index s) := by simp [AddrMode.crosses, h]
  rw [State.target, h1, h3, t.1, t.2.1, t.2.2.1, t.2.2.2, c, word_index]

theorem AddrMode.beforeRead_target (m : AddrMode) (a : Addr) (s : State) : (m.beforeRead a s).target = m.ea a s := by
  have t := m.addressed_target a s
  unfold AddrMode.beforeRead
  dsimp only
  by_cases h : m.indexed = true
  · by_cases c : m.crosses a s = true
    · rw [if_pos c, m.fixup_target a s h]
    · rw [if_neg c]
      rw [if_pos h] at t
      have c' : crossed (m.base a s) (m.index s) = false := by simpa [AddrMode.crosses, h] using c
      have e := word_index (m.base a s) (m.index s)
      rw [c'] at e
      rw [State.target, t.1, t.2.1, t.2.2.2, ← e]
      simp
  · have c : m.crosses a s = false := by simp [AddrMode.crosses, h]
    rw [if_neg h] at t
    rw [c]
    exact t

theorem AddrMode.beforeWrite_target (m : AddrMode) (a : Addr) (s : State) : (m.beforeWrite a s).target = m.ea a s := by
  have t := m.addressed_target a s
  unfold AddrMode.beforeWrite
  dsimp only
  by_cases h : m.indexed = true
  · rw [if_pos h, m.fixup_target a s h]
  · rw [if_neg h] at t ⊢
    exact t

theorem AddrMode.beforeRead_regs (m : AddrMode) (a : Addr) (s : State) :
    (m.beforeRead a s).cpu.regs = s.cpu.regs.advance m.length := by
  unfold AddrMode.beforeRead
  dsimp only
  split
  · rw [(fixupCycle_kept _).regs, m.addressed_regs]
  · rw [m.addressed_regs]

theorem AddrMode.beforeWrite_regs (m : AddrMode) (a : Addr) (s : State) :
    (m.beforeWrite a s).cpu.regs = s.cpu.regs.advance m.length := by
  unfold AddrMode.beforeWrite
  dsimp only
  split
  · rw [(fixupCycle_kept _).regs, m.addressed_regs]
  · rw [m.addressed_regs]

theorem AddrMode.beforeRead_same (m : AddrMode) (a : Addr) (s : State) : Same s (m.beforeRead a s) := by
  unfold AddrMode.beforeRead
  dsimp only
  split
  · exact (m.addressed_same a s).trans (fixupCycle_kept _).same
  · exact m.addressed_same a s

theorem AddrMode.beforeWrite_same (m : AddrMode) (a : Addr) (s : State) : Same s (m.beforeWrite a s) := by
  unfold AddrMode.beforeWrite
  dsimp only
  split
  · exact (m.addressed_same a s).trans (fixupCycle_kept _).same
  · exact m.addressed_same a s

/-! ## Read instructions -/

/-- The machine after a read instruction of a mode. -/
def AddrMode.read (m : AddrMode) (op : Byte → Regs → Regs) (a : Addr) (s : State) : State :=
  readTarget op (m.beforeRead a s)

theorem readTargetFixed_eq (m : AddrMode) (h : m.indexed = true) (op : Byte → Regs → Regs) (a : Addr) (s : State) :
    readTargetFixed op (m.addressed a s) = m.read op a s := by
  have t := m.addressed_target a s
  rw [if_pos h] at t
  unfold readTargetFixed AddrMode.read AddrMode.beforeRead
  dsimp only
  rw [t.2.2.1]
  split <;> rfl

theorem readZp_eq (op : Byte → Regs → Regs) (d8 : Byte) (s : State) : readZp op d8 s = AddrMode.zp.read op (word 0 d8) s := by
  simp only [readZp, AddrMode.read, AddrMode.beforeRead, AddrMode.crosses, AddrMode.indexed, AddrMode.addressed, lo_word]
  rfl

theorem readZpx_eq (op : Byte → Regs → Regs) (d8 : Byte) (s : State) :
    readZpx op d8 s = AddrMode.zpx.read op (word 0 d8) s := by
  simp only [readZpx, AddrMode.read, AddrMode.beforeRead, AddrMode.crosses, AddrMode.indexed, AddrMode.addressed, lo_word]
  rfl

theorem readZpy_eq (op : Byte → Regs → Regs) (d8 : Byte) (s : State) :
    readZpy op d8 s = AddrMode.zpy.read op (word 0 d8) s := by
  simp only [readZpy, AddrMode.read, AddrMode.beforeRead, AddrMode.crosses, AddrMode.indexed, AddrMode.addressed, lo_word]
  rfl

theorem readAbs_eq (op : Byte → Regs → Regs) (a : Addr) (s : State) : readAbs op a s = AddrMode.abs.read op a s := by
  simp only [readAbs, AddrMode.read, AddrMode.beforeRead, AddrMode.crosses, AddrMode.indexed, AddrMode.addressed]
  rfl

theorem readAbx_eq (op : Byte → Regs → Regs) (a : Addr) (s : State) : readAbx op a s = AddrMode.abx.read op a s :=
  readTargetFixed_eq .abx rfl op a s

theorem readAby_eq (op : Byte → Regs → Regs) (a : Addr) (s : State) : readAby op a s = AddrMode.aby.read op a s :=
  readTargetFixed_eq .aby rfl op a s

theorem readIzx_eq (op : Byte → Regs → Regs) (d8 : Byte) (s : State) :
    readIzx op d8 s = AddrMode.izx.read op (word 0 d8) s := by
  simp only [readIzx, AddrMode.read, AddrMode.beforeRead, AddrMode.crosses, AddrMode.indexed, AddrMode.addressed, lo_word]
  rfl

theorem readIzy_eq (op : Byte → Regs → Regs) (d8 : Byte) (s : State) :
    readIzy op d8 s = AddrMode.izy.read op (word 0 d8) s := by
  have h := readTargetFixed_eq .izy rfl op (word 0 d8) s
  simp only [AddrMode.addressed, lo_word] at h
  exact h

/-- Everything a read instruction does to registers and memory. -/
theorem AddrMode.read_spec (m : AddrMode) (op : Byte → Regs → Regs) (a : Addr) (s : State) :
    (m.read op a s).cpu.regs = op (readValue true (m.ea a s) (m.beforeRead a s)) (s.cpu.regs.advance m.length)
      ∧ Same s (m.read op a s) ∧ (m.read op a s).cpu.prog = Progress.idle := by
  refine ⟨?_, ?_, rfl⟩
  · simp only [AddrMode.read, readTarget, finish_regs, mapRegs_regs, readCycle_regs, m.beforeRead_regs,
      m.beforeRead_target]
  · exact (((m.beforeRead_same a s).trans (readCycle_kept _ _ _).same).trans (mapRegs_same _ _)).trans (finish_same _)

/-- The byte a read instruction reads, where memory holds one at its effective address. -/
theorem AddrMode.readValue_eq (m : AddrMode) (a : Addr) (s : State) {b : Byte} (h : s.memByte (m.ea a s) = some b) :
    readValue true (m.ea a s) (m.beforeRead a s) = b :=
  readValue_of_memByte true (((m.beforeRead_same a s).memByte _).trans h)

/-! ## Stores -/

/-- The machine after a store of a mode. -/
def AddrMode.store (m : AddrMode) (val : Regs → Byte) (a : Addr) (s : State) : State :=
  storeTarget val (m.beforeWrite a s)

/-- Everything a store does to registers and memory. -/
theorem AddrMode.store_spec (m : AddrMode) (val : Regs → Byte) (a : Addr) (s : State) :
    (m.store val a s).cpu.regs = s.cpu.regs.advance m.length
      ∧ StoredAt (m.ea a s) (val (s.cpu.regs.advance m.length)) s (m.store val a s)
      ∧ m.store val a s = finish (writeCycle true (m.ea a s) (val (s.cpu.regs.advance m.length)) (m.beforeWrite a s)) := by
  have e : m.store val a s
      = finish (writeCycle true (m.ea a s) (val (s.cpu.regs.advance m.length)) (m.beforeWrite a s)) := by
    simp only [AddrMode.store, storeTarget, m.beforeWrite_target, m.beforeWrite_regs]
  refine ⟨?_, ?_, e⟩
  · rw [e, finish_regs, writeCycle_regs, m.beforeWrite_regs]
  · rw [e]
    exact ((writeCycle_storedAt _ _ _ _).after (finish_same _)).before (m.beforeWrite_same a s)

/-! ## Read-modify-write -/

/-- The machine after a read-modify-write instruction of a mode. -/
def AddrMode.rmw (m : AddrMode) (new : Flags → Byte → Byte) (op : Byte → Regs → Regs) (a : Addr) (s : State) : State :=
  rmwTarget new op (m.beforeWrite a s)

/-- Everything a read-modify-write instruction does to registers and memory. -/
theorem AddrMode.rmw_spec (m : AddrMode) (new : Flags → Byte → Byte) (op : Byte → Regs → Regs) (a : Addr) (s : State) :
    (m.rmw new op a s).cpu.regs
        = op (readValue false (m.ea a s) (m.beforeWrite a s)) (s.cpu.regs.advance m.length)
      ∧ StoredAt (m.ea a s) (new s.cpu.regs.p (readValue false (m.ea a s) (m.beforeWrite a s))) s (m.rmw new op a s)
      ∧ (m.rmw new op a s).cpu.prog = Progress.idle := by
  have ht := m.beforeWrite_target a s
  have hr := m.beforeWrite_regs a s
  generalize hu : m.beforeWrite a s = u at ht hr
  have hs : Same s u := hu ▸ m.beforeWrite_same a s
  simp only [AddrMode.rmw, hu, rmwTarget, ht]
  generalize hold : readValue false (m.ea a s) u = old
  set t1 := (readCycle false (m.ea a s) u).mapProg (fun g => { g with data := old }) with ht1
  have k1 : Kept u t1 := (readCycle_kept _ _ _).trans (mapProg_kept _ _)
  have e1 : t1.target = m.ea a s := by rw [← ht, ht1]; simp [State.target]
  rw [e1]
  set t2 := writeCycle false (m.ea a s) t1.cpu.prog.data t1 with ht2
  have e2 : t2.target = m.ea a s := by rw [← e1, ht2]; simp [State.target]
  have r2 : t2.cpu.regs = s.cpu.regs.advance m.length := by rw [ht2, writeCycle_regs, k1.regs, hr]
  rw [e2]
  refine ⟨?_, ?_, rfl⟩
  · simp only [finish_regs, mapRegs_regs, writeCycle_regs, r2]
  · have hp : t2.cpu.regs.p = s.cpu.regs.p := by rw [r2]; rfl
    rw [hp]
    refine StoredAt.after (StoredAt.after ?_ (mapRegs_same _ _)) (finish_same _)
    refine StoredAt.before (hs.trans k1.same) ?_
    exact (writeCycle_storedAt false _ t1.cpu.prog.data t1).again (writeCycle_storedAt true _ _ _)
      (fun h => writeCycle_writable _ _ _ _ h _)

end Sys2Proof.Machine
end

