-- ==== Sys2Proof/Laws/Instructions.lean ====
section
/-! SUPPORT. One lemma for each remaining instruction shape: implied and immediate operands, stores and read-modify-write in
every mode, the unstable stores, branches, jumps, the stack, taking an interrupt and returning from one. -/

namespace Sys2Proof.Machine

/-! ## Implied and immediate -/

theorem implied_spec (op : Regs → Regs) (s : State) :
    (implied op s).cpu.regs = op (s.cpu.regs.advance 1) ∧ Same s (implied op s) := by
  refine ⟨?_, ?_⟩
  · simp only [implied, finish_regs, mapRegs_regs, dummyFetch_regs, fetchOpcode_regs, Regs.incPc_eq]
  · exact (((fetchOpcode_same s).trans (dummyFetch_same _ _)).trans (mapRegs_same _ _)).trans (finish_same _)

theorem readImm_spec (op : Byte → Regs → Regs) (d8 : Byte) (s : State) :
    (readImm op d8 s).cpu.regs = op d8 (s.cpu.regs.advance 2) ∧ Same s (readImm op d8 s) := by
  refine ⟨?_, ?_⟩
  · simp only [readImm, finish_regs, mapRegs_regs, fetchOperand_regs, fetchOpcode_regs, Regs.incPc_twice]
  · exact (((fetchOpcode_same s).trans (fetchOperand_same _ _ _)).trans (mapRegs_same _ _)).trans (finish_same _)

/-! ## Stores and read-modify-write: the definitions of `Machine/Operands.lean` are those of all modes -/

theorem storeZp_eq (val : Regs → Byte) (d8 : Byte) (s : State) : storeZp val d8 s = AddrMode.zp.store val (word 0 d8) s := by
  simp only [storeZp, AddrMode.store, AddrMode.beforeWrite, AddrMode.indexed, AddrMode.addressed, lo_word]; rfl
theorem storeZpx_eq (val : Regs → Byte) (d8 : Byte) (s : State) :
    storeZpx val d8 s = AddrMode.zpx.store val (word 0 d8) s := by
  simp only [storeZpx, AddrMode.store, AddrMode.beforeWrite, AddrMode.indexed, AddrMode.addressed, lo_word]; rfl
theorem storeZpy_eq (val : Regs → Byte) (d8 : Byte) (s : State) :
    storeZpy val d8 s = AddrMode.zpy.store val (word 0 d8) s := by
  simp only [storeZpy, AddrMode.store, AddrMode.beforeWrite, AddrMode.indexed, AddrMode.addressed, lo_word]; rfl
theorem storeAbs_eq (val : Regs → Byte) (a : Addr) (s : State) : storeAbs val a s = AddrMode.abs.store val a s := rfl
theorem storeAbx_eq (val : Regs → Byte) (a : Addr) (s : State) : storeAbx val a s = AddrMode.abx.store val a s := rfl
theorem storeAby_eq (val : Regs → Byte) (a : Addr) (s : State) : storeAby val a s = AddrMode.aby.store val a s := rfl
theorem storeIzx_eq (val : Regs → Byte) (d8 : Byte) (s : State) :
    storeIzx val d8 s = AddrMode.izx.store val (word 0 d8) s := by
  simp only [storeIzx, AddrMode.store, AddrMode.beforeWrite, AddrMode.indexed, AddrMode.addressed, lo_word]; rfl
theorem storeIzy_eq (val : Regs → Byte) (d8 : Byte) (s : State) :
    storeIzy val d8 s = AddrMode.izy.store val (word 0 d8) s := by
  simp only [storeIzy, AddrMode.store, AddrMode.beforeWrite, AddrMode.indexed, AddrMode.addressed, lo_word]; rfl

theorem rmwZp_eq (new : Flags → Byte → Byte) (op : Byte → Regs → Regs) (d8 : Byte) (s : State) :
    rmwZp new op d8 s = AddrMode.zp.rmw new op (word 0 d8) s := by
  simp only [rmwZp, AddrMode.rmw, AddrMode.beforeWrite, AddrMode.indexed, AddrMode.addressed, lo_word]; rfl
theorem rmwZpx_eq (new : Flags → Byte → Byte) (op : Byte → Regs → Regs) (d8 : Byte) (s : State) :
    rmwZpx new op d8 s = AddrMode.zpx.rmw new op (word 0 d8) s := by
  simp only [rmwZpx, AddrMode.rmw, AddrMode.beforeWrite, AddrMode.indexed, AddrMode.addressed, lo_word]; rfl
theorem rmwAbs_eq (new : Flags → Byte → Byte) (op : Byte → Regs → Regs) (a : Addr) (s : State) :
    rmwAbs new op a s = AddrMode.abs.rmw new op a s := rfl
theorem rmwAbx_eq (new : Flags → Byte → Byte) (op : Byte → Regs → Regs) (a : Addr) (s : State) :
    rmwAbx new op a s = AddrMode.abx.rmw new op a s := rfl
theorem rmwAby_eq (new : Flags → Byte → Byte) (op : Byte → Regs → Regs) (a : Addr) (s : State) :
    rmwAby new op a s = AddrMode.aby.rmw new op a s := rfl
theorem rmwIzx_eq (new : Flags → Byte → Byte) (op : Byte → Regs → Regs) (d8 : Byte) (s : State) :
    rmwIzx new op d8 s = AddrMode.izx.rmw new op (word 0 d8) s := by
  simp only [rmwIzx, AddrMode.rmw, AddrMode.beforeWrite, AddrMode.indexed, AddrMode.addressed, lo_word]; rfl
theorem rmwIzy_eq (new : Flags → Byte → Byte) (op : Byte → Regs → Regs) (d8 : Byte) (s : State) :
    rmwIzy new op d8 s = AddrMode.izy.rmw new op (word 0 d8) s := by
  simp only [rmwIzy, AddrMode.rmw, AddrMode.beforeWrite, AddrMode.indexed, AddrMode.addressed, lo_word]; rfl

/-! ## The unstable stores -/

/-- Everything SHA, SHX, SHY or TAS does to registers and memory, in an indexed mode. -/
theorem storeUnstable_spec (m : AddrMode) (hm : m.indexed = true) (val : Regs → Byte) (op : Regs → Regs) (a : Addr)
    (s : State) :
    let t := storeUnstable val op (m.addressed a s)
    let v := val (s.cpu.regs.advance m.length) &&& (hi (m.base a s) + 1)
    t.cpu.regs = op (s.cpu.regs.advance m.length) ∧ StoredAt (m.unstableEa v a s) v s t := by
  have ht := m.addressed_target a s
  rw [if_pos hm] at ht
  have hf := m.fixup_target a s hm
  obtain ⟨f1, f2, -⟩ := fixupCycle_prog (m.addressed a s)
  dsimp only
  simp only [storeUnstable, m.addressed_regs, ht.2.1, f1, f2, ht.1, ht.2.2.1, hf]
  refine ⟨?_, ?_⟩
  · simp only [finish_regs, mapRegs_regs, writeCycle_regs, (fixupCycle_kept _).regs, m.addressed_regs]
  · refine StoredAt.after (StoredAt.after ?_ (mapRegs_same _ _)) (finish_same _)
    refine StoredAt.before ((m.addressed_same a s).trans (fixupCycle_kept _).same) ?_
    have e : lo (m.ea a s) = lo (m.base a s) + m.index s := by
      rw [← hf, State.target, lo_word, f1, ht.1]
    have e' : (if m.crosses a s = true then
        word (val (s.cpu.regs.advance m.length) &&& (hi (m.base a s) + 1)) (lo (m.base a s) + m.index s)
        else m.ea a s)
        = m.unstableEa (val (s.cpu.regs.advance m.length) &&& (hi (m.base a s) + 1)) a s := by
      simp only [AddrMode.unstableEa, e]
    rw [← e']
    exact writeCycle_storedAt _ _ _ _

/-! ## The stack -/

theorem stackAddr_toNat (r : Regs) : r.stackAddr.toNat = stackIndex r.s := by
  rw [Regs.stackAddr, word_toNat]; rfl

theorem stackIndex_lt (b : Byte) : stackIndex b < 0x0800 := by
  have := b.isLt
  simp only [stackIndex]; omega

theorem stackIndex_inj {b c : Byte} (h : stackIndex b = stackIndex c) : b = c := by
  apply BitVec.eq_of_toNat_eq
  simp only [stackIndex] at h; omega

/-- The byte a read at the stack pointer gives. -/
theorem stackValue_eq (p : Bool) (s : State) : stackValue p s = s.ramByte (stackIndex s.cpu.regs.s) := by
  have h := stackIndex_lt s.cpu.regs.s
  refine readValue_of_memByte p ?_
  rw [State.memByte_ram (by rw [stackAddr_toNat]; omega), stackAddr_toNat, Nat.mod_eq_of_lt h]

theorem beforePull_same (s : State) : Same s (beforePull s) := (readCycle_kept _ _ s).same.trans (mapRegs_same _ _)

@[simp] theorem beforePull_regs (s : State) : (beforePull s).cpu.regs = s.cpu.regs.incS := by simp [beforePull]

theorem stackRead_same (p : Bool) (s : State) : Same s (stackRead p s) := (readCycle_kept _ _ s).same

@[simp] theorem stackRead_regs (p : Bool) (s : State) : (stackRead p s).cpu.regs = s.cpu.regs := by simp [stackRead]

@[simp] theorem push_regs (p : Bool) (v : Byte) (s : State) : (push p v s).cpu.regs = s.cpu.regs.decS := by simp [push]

/-- A push stores its byte at the stack pointer and nowhere else. -/
theorem push_ram (p : Bool) (v : Byte) (s : State) (k : Nat) :
    (push p v s).ramByte k = if k = stackIndex s.cpu.regs.s then v else s.ramByte k := by
  have h := (writeCycle_storedAt p s.cpu.regs.stackAddr v s).1 k
  have hl := stackIndex_lt s.cpu.regs.s
  rw [stackAddr_toNat, Nat.mod_eq_of_lt hl] at h
  have e : (push p v s).ramByte k = (writeCycle p s.cpu.regs.stackAddr v s).ramByte k := rfl
  rw [e, h]
  by_cases hk : k = stackIndex s.cpu.regs.s
  · rw [if_pos ⟨by omega, hk⟩, if_pos hk]
  · rw [if_neg (fun x => hk x.2), if_neg hk]

theorem push_cartridge (p : Bool) (v : Byte) (s : State) : SameCartridge s (push p v s) := by
  obtain ⟨-, h2, h3, h4, h5⟩ := writeCycle_storedAt p s.cpu.regs.stackAddr v s
  have hl := stackIndex_lt s.cpu.regs.s
  refine ⟨fun k => ?_, h3, h4, h5⟩
  have e : (push p v s).prgRamByte k = (writeCycle p s.cpu.regs.stackAddr v s).prgRamByte k := rfl
  rw [e, h2, if_neg]
  rw [stackAddr_toNat]; omega

/-- A push leaves what the mapper answers. -/
theorem push_samePrg (p : Bool) (v : Byte) (s : State) : s.mapper.SamePrg (push p v s).mapper := by
  have hl := stackIndex_lt s.cpu.regs.s
  have e : (push p v s).mapper = (writeCycle p s.cpu.regs.stackAddr v s).mapper := rfl
  rw [e]
  unfold writeCycle
  refine Mapper.SamePrg.trans ?_ (endCycle_kept _ _).mapper
  have h1 : s.cpu.regs.stackAddr.toNat < 0x2000 := by rw [stackAddr_toNat]; omega
  unfold busWrite
  dsimp only
  rw [if_pos h1]
  cases p <;> exact Mapper.SamePrg.refl _

theorem push_memByte_high (p : Bool) (v : Byte) (s : State) (a : Addr) (h : 0x2000 ≤ a.toNat) :
    (push p v s).memByte a = s.memByte a := by
  obtain ⟨-, h3, h4, h5⟩ := push_cartridge p v s
  unfold State.memByte
  dsimp only
  rw [h3, h4, h5, (push_samePrg p v s).prgRead, if_neg (show ¬ a.toNat < 0x2000 by omega),
    if_neg (show ¬ a.toNat < 0x2000 by omega)]

theorem SameCartridge.trans {s t u : State} (h : SameCartridge s t) (h' : SameCartridge t u) : SameCartridge s u :=
  ⟨fun k => (h'.1 k).trans (h.1 k), h'.2.1.trans h.2.1, h'.2.2.1.trans h.2.2.1, h'.2.2.2.trans h.2.2.2⟩

theorem Same.cartridge {s t : State} (h : Same s t) : SameCartridge s t := ⟨h.prgRamByte, h.cart, h.params, h.epoch⟩

/-! ## Vectors -/

/-- The vector's word is loaded into PC, and I is set. -/
theorem loadVector_spec (vec : Addr) (s : State) (h : 0x8000 ≤ vec.toNat) (h' : vec.toNat < 0xFFFF) :
    (loadVector vec s).cpu.regs
        = { s.cpu.regs with pc := s.vectorWord vec, p := { s.cpu.regs.p with i := true } }
      ∧ Same s (loadVector vec s) := by
  have some_of (t : State) (a : Addr) (ha : 0x8000 ≤ a.toNat) : t.memByte a = some ((t.memByte a).getD 0) := by
    have e : t.memByte a = some (prgByte t.cart (t.mapper.prgOffset t.cart a.toNat)) := by
      unfold State.memByte
      dsimp only
      rw [if_neg (by omega), if_neg (by omega), Mapper.prgRead, if_pos ha]
    rw [e]; rfl
  have hv : 0x8000 ≤ (vec + 1).toNat := by
    rw [BitVec.toNat_add]; simp; omega
  unfold loadVector
  dsimp only
  have k1 := (readCycle_kept false vec s).same.trans
    (mapRegs_same _ (fun r => (r.setPcl (readValue false vec s)).setI))
  refine ⟨?_, ?_⟩
  · rw [mapRegs_regs, readCycle_regs, readValue_of_memByte false (some_of _ (vec + 1) hv), k1.memByte, mapRegs_regs,
      readCycle_regs, readValue_of_memByte false (some_of _ vec h)]
    exact Regs.setPch_of_lo (Regs.setI (Regs.setPcl _ s.cpu.regs)) (Regs.setPcl_lo s.cpu.regs _) _
  · exact (k1.trans (readCycle_kept _ _ _).same).trans (mapRegs_same _ _)

theorem chosenVector_range (s : State) : 0x8000 ≤ s.chosenVector.toNat ∧ s.chosenVector.toNat < 0xFFFF := by
  unfold State.chosenVector
  split <;> decide

theorem State.vectorWord_congr {s t : State} (h : ∀ a : Addr, 0x2000 ≤ a.toNat → t.memByte a = s.memByte a) (v : Addr)
    (h1 : 0x8000 ≤ v.toNat) (h2 : v.toNat < 0xFFFF) : t.vectorWord v = s.vectorWord v := by
  have hv : 0x2000 ≤ (v + 1).toNat := by
    rw [BitVec.toNat_add]; simp; omega
  simp only [State.vectorWord, h v (by omega), h (v + 1) hv]

/-- TAKING AN INTERRUPT, once and whole: what is pushed, the new S, I and PC; A, X, Y and the other flags stay. -/
theorem enterInterrupt_spec (b : Bool) (s : State) :
    let r := s.cpu.regs
    let vec := (push false (lo r.pc) (push false (hi r.pc) s)).chosenVector
    (enterInterrupt b s).cpu.regs
        = { r with s := r.s - 3, pc := s.vectorWord vec, p := { r.p with i := true } }
      ∧ Pushed3 r.s (hi r.pc) (lo r.pc) (r.p.pack b) s (enterInterrupt b s)
      ∧ SameCartridge s (enterInterrupt b s) := by
  dsimp only
  set s1 := push false (hi s.cpu.regs.pc) s with hs1
  have r1 : s1.cpu.regs = s.cpu.regs.decS := push_regs _ _ _
  have hpc : s1.cpu.regs.pc = s.cpu.regs.pc := by rw [r1]; rfl
  set s2 := push false (lo s.cpu.regs.pc) s1 with hs2
  have r2 : s2.cpu.regs = s.cpu.regs.decS.decS := by rw [hs2, push_regs, r1]
  set s3 := push false (s2.cpu.regs.p.pack b) (clearNmi s2) with hs3
  have hc2 : (clearNmi s2).cpu.regs = s2.cpu.regs := rfl
  have r3 : s3.cpu.regs = s.cpu.regs.decS.decS.decS := by rw [hs3, push_regs, hc2, r2]
  have e : enterInterrupt b s = loadVector s2.chosenVector s3 := by
    unfold enterInterrupt
    dsimp only
  obtain ⟨c1, c2⟩ := chosenVector_range s2
  obtain ⟨l1, l2⟩ := loadVector_spec s2.chosenVector s3 c1 c2
  have hm (a : Addr) (ha : 0x2000 ≤ a.toNat) : s3.memByte a = s.memByte a := by
    rw [hs3, push_memByte_high _ _ _ _ ha]
    have : (clearNmi s2).memByte a = s2.memByte a := rfl
    rw [this, hs2, push_memByte_high _ _ _ _ ha, hs1, push_memByte_high _ _ _ _ ha]
  have hsub : s.cpu.regs.s - 1 - 1 = s.cpu.regs.s - 2 := by bv_omega
  have hsub' : s.cpu.regs.s - 2 - 1 = s.cpu.regs.s - 3 := by bv_omega
  refine ⟨?_, ?_, ?_⟩
  · rw [e, l1, r3, State.vectorWord_congr hm _ c1 c2]
    simp only [Regs.decS, hsub, hsub']
  · intro k
    have hp : s2.cpu.regs.p = s.cpu.regs.p := by rw [r2]; rfl
    have q2 : (clearNmi s2).ramByte k = s2.ramByte k := rfl
    have i3 : (clearNmi s2).cpu.regs.s = s.cpu.regs.s - 2 := by rw [hc2, r2]; exact hsub
    have i2 : s1.cpu.regs.s = s.cpu.regs.s - 1 := by rw [r1]; rfl
    rw [e, l2.ramByte, hs3, push_ram, i3, hp, q2, hs2, push_ram, i2, hs1, push_ram]
  · rw [e]
    have q : SameCartridge s2 (clearNmi s2) := ⟨fun _ => rfl, rfl, rfl, rfl⟩
    exact ((((push_cartridge _ _ s).trans (push_cartridge _ _ s1)).trans q).trans (push_cartridge _ _ _)).trans l2.cartridge

/-- The hardware interrupt sequence: the entry with B = 0, two dummy reads before it. -/
theorem interruptSequence_spec (s : State) :
    let r := s.cpu.regs
    let s2 := dummyFetch false
      { dummyFetch false (s.mapProg (fun g => { g with ir := .int })) with
        cpu := { (dummyFetch false (s.mapProg (fun g => { g with ir := .int }))).cpu with intDetected := false } }
    let vec := (push false (lo r.pc) (push false (hi r.pc) s2)).chosenVector
    (interruptSequence s).cpu.regs
        = { r with s := r.s - 3, pc := s.vectorWord vec, p := { r.p with i := true } }
      ∧ Pushed3 r.s (hi r.pc) (lo r.pc) (r.p.pack false) s (interruptSequence s)
      ∧ SameCartridge s (interruptSequence s) ∧ (interruptSequence s).cpu.prog = Progress.idle := by
  dsimp only
  set s1 := dummyFetch false (s.mapProg (fun g => { g with ir := .int })) with hs1
  set s2 := dummyFetch false { s1 with cpu := { s1.cpu with intDetected := false } } with hs2
  have k : Same s s2 := by
    have k1 : Same s s1 := (mapProg_kept s (fun g => { g with ir := .int })).same.trans (dummyFetch_same false _)
    have k2 : Same s1 { s1 with cpu := { s1.cpu with intDetected := false } } := ⟨rfl, rfl, .refl _, rfl, rfl, rfl⟩
    exact (k1.trans k2).trans (dummyFetch_same false _)
  have hr : s2.cpu.regs = s.cpu.regs := by
    rw [hs2, dummyFetch_regs]
    show s1.cpu.regs = _
    rw [hs1, dummyFetch_regs, mapProg_regs]
  have e : interruptSequence s = finish (enterInterrupt false s2) := rfl
  obtain ⟨h1, h2, h3⟩ := enterInterrupt_spec false s2
  dsimp only at h1 h2 h3
  obtain ⟨c1, c2⟩ := chosenVector_range (push false (lo s.cpu.regs.pc) (push false (hi s.cpu.regs.pc) s2))
  rw [hr] at h1 h2
  refine ⟨?_, ?_, ?_, rfl⟩
  · rw [e, finish_regs, h1, State.vectorWord_congr (fun a _ => k.memByte a) _ c1 c2]
  · intro j
    rw [e, (finish_same _).ramByte, h2, k.ramByte]
  · rw [e]
    exact (k.cartridge.trans h3).trans (finish_same _).cartridge

/-- BRK: the entry with B = 1, the return address past the padding byte. -/
theorem brk_spec (s : State) :
    let r := s.cpu.regs
    let s2 := fetchOperand false id (fetchOpcode s)
    let vec := (push false (lo (r.pc + 2)) (push false (hi (r.pc + 2)) s2)).chosenVector
    let t := finish (enterInterrupt true (fetchOperand false id (fetchOpcode s)))
    t.cpu.regs = { r with s := r.s - 3, pc := s.vectorWord vec, p := { r.p with i := true } }
      ∧ Pushed3 r.s (hi (r.pc + 2)) (lo (r.pc + 2)) (r.p.pack true) s t ∧ SameCartridge s t := by
  dsimp only
  set s2 := fetchOperand false id (fetchOpcode s) with hs2
  have k : Same s s2 := (fetchOpcode_same s).trans (fetchOperand_same _ _ _)
  have hr : s2.cpu.regs = s.cpu.regs.advance 2 := by
    rw [hs2, fetchOperand_regs, fetchOpcode_regs, Regs.incPc_twice]
  obtain ⟨h1, h2, h3⟩ := enterInterrupt_spec true s2
  dsimp only at h1 h2 h3
  rw [hr] at h1 h2
  obtain ⟨c1, c2⟩ := chosenVector_range (push false (lo (s.cpu.regs.pc + 2)) (push false (hi (s.cpu.regs.pc + 2)) s2))
  refine ⟨?_, ?_, ?_⟩
  · rw [finish_regs, h1]
    simp only [Regs.advance_pc, Regs.advance_s, Regs.advance_p, Regs.advance_a, Regs.advance_x, Regs.advance_y]
    rw [State.vectorWord_congr (fun a _ => k.memByte a) _ c1 c2]
  · intro j
    rw [(finish_same _).ramByte, h2, k.ramByte]; rfl
  · exact (k.cartridge.trans h3).trans (finish_same _).cartridge

/-- THE RETURN FROM INTERRUPT, once and whole. -/
theorem leaveInterrupt_spec (s : State) :
    let r := s.cpu.regs
    let b (k : Byte) : Byte := s.ramByte (stackIndex (r.s + k))
    (leaveInterrupt s).cpu.regs = { r with s := r.s + 3, pc := word (b 3) (b 2), p := Flags.unpack (b 1) }
      ∧ Same s (leaveInterrupt s) := by
  dsimp only
  have k3 := beforePull_same s
  set s3 := beforePull s with hs3
  have r3 : s3.cpu.regs = s.cpu.regs.incS := beforePull_regs s
  set s4 := (stackRead false s3).mapRegs (fun r => { r with p := Flags.unpack (stackValue false s3), s := r.s + 1 }) with hs4
  have k4 : Same s s4 := (k3.trans (stackRead_same _ _)).trans (mapRegs_same _ _)
  have r4 : s4.cpu.regs = { s.cpu.regs with p := Flags.unpack (stackValue false s3), s := s.cpu.regs.s + 2 } := by
    rw [hs4, mapRegs_regs, stackRead_regs, r3]
    simp only [Regs.incS, BitVec.add_assoc]; rfl
  set s5 := (stackRead false s4).mapRegs (fun r => (r.setPcl (stackValue false s4)).incS) with hs5
  have k5 : Same s s5 := (k4.trans (stackRead_same _ _)).trans (mapRegs_same _ _)
  have r5 : s5.cpu.regs
      = { (s.cpu.regs.setPcl (stackValue false s4)) with
          p := Flags.unpack (stackValue false s3), s := s.cpu.regs.s + 3 } := by
    rw [hs5, mapRegs_regs, stackRead_regs, r4]
    simp only [Regs.incS, Regs.setPcl, BitVec.add_assoc]; rfl
  have e : leaveInterrupt s = (stackRead true s5).mapRegs (Regs.setPch (stackValue true s5)) := rfl
  refine ⟨?_, ?_⟩
  · have hl : lo s5.cpu.regs.pc = stackValue false s4 := by rw [r5]; exact Regs.setPcl_lo _ _
    rw [e, mapRegs_regs, stackRead_regs, Regs.setPch_of_lo _ hl, r5, stackValue_eq, stackValue_eq, stackValue_eq, k5.ramByte,
      k4.ramByte, k3.ramByte, r5, r4, r3]
    rfl
  · rw [e]
    exact (k5.trans (stackRead_same _ _)).trans (mapRegs_same _ _)

theorem rti_spec (s : State) :
    let r := s.cpu.regs
    let b (k : Byte) : Byte := s.ramByte (stackIndex (r.s + k))
    let t := finish (leaveInterrupt (dummyFetch false (fetchOpcode s)))
    t.cpu.regs = { r with s := r.s + 3, pc := word (b 3) (b 2), p := Flags.unpack (b 1) } ∧ Same s t := by
  dsimp only
  have k := (fetchOpcode_same s).trans (dummyFetch_same false _)
  have hr : (dummyFetch false (fetchOpcode s)).cpu.regs = s.cpu.regs.advance 1 := by
    rw [dummyFetch_regs, fetchOpcode_regs, Regs.incPc_eq]
  obtain ⟨h1, h2⟩ := leaveInterrupt_spec (dummyFetch false (fetchOpcode s))
  dsimp only at h1
  refine ⟨?_, (k.trans h2).trans (finish_same _)⟩
  rw [finish_regs, h1, hr, k.ramByte, k.ramByte, k.ramByte]
  rfl

/-! ## Stack instructions and subroutines -/

theorem pushRegister_spec (val : Regs → Byte) (s : State) :
    (pushRegister val s).cpu.regs = (s.cpu.regs.advance 1).decS
      ∧ (∀ k, (pushRegister val s).ramByte k
          = if k = stackIndex s.cpu.regs.s then val (s.cpu.regs.advance 1) else s.ramByte k)
      ∧ SameCartridge s (pushRegister val s) := by
  have k := (fetchOpcode_same s).trans (dummyFetch_same false _)
  have hr : (dummyFetch false (fetchOpcode s)).cpu.regs = s.cpu.regs.advance 1 := by
    rw [dummyFetch_regs, fetchOpcode_regs, Regs.incPc_eq]
  refine ⟨?_, fun j => ?_, ?_⟩
  · simp only [pushRegister, finish_regs, push_regs, hr]
  · simp only [pushRegister, (finish_same _).ramByte, push_ram, hr, k.ramByte, Regs.advance_s]
  · exact (k.cartridge.trans (push_cartridge _ _ _)).trans (finish_same _).cartridge

theorem pullRegister_spec (op : Byte → Regs → Regs) (s : State) :
    (pullRegister op s).cpu.regs
        = op (s.ramByte (stackIndex (s.cpu.regs.s + 1))) ((s.cpu.regs.advance 1).incS)
      ∧ Same s (pullRegister op s) := by
  have k := ((fetchOpcode_same s).trans (dummyFetch_same false _)).trans (beforePull_same _)
  have hr : (beforePull (dummyFetch false (fetchOpcode s))).cpu.regs = (s.cpu.regs.advance 1).incS := by
    rw [beforePull_regs, dummyFetch_regs, fetchOpcode_regs, Regs.incPc_eq]
  refine ⟨?_, ?_⟩
  · simp only [pullRegister, finish_regs, mapRegs_regs, stackRead_regs, stackValue_eq, hr, k.ramByte]
    rfl
  · exact ((k.trans (stackRead_same _ _)).trans (mapRegs_same _ _)).trans (finish_same _)

theorem jump_same (s : State) (a : Addr) : Same s (s.jump a) := mapRegs_same _ _

@[simp] theorem jump_regs (s : State) (a : Addr) : (s.jump a).cpu.regs = { s.cpu.regs with pc := a } := rfl

/-- JSR: the address of its third byte is pushed; the target's high byte is read after the pushes. -/
theorem jumpSubroutine_spec (a : Addr) (s : State) :
    let r := s.cpu.regs
    let ret := r.pc + 2
    let t := jumpSubroutine a s
    ∃ h : Byte, t.cpu.regs = { r with s := r.s - 2, pc := word h (lo a) }
      ∧ Pushed2 r.s (hi ret) (lo ret) s t ∧ SameCartridge s t
      ∧ (∀ b, t.memByte ret = some b → h = b) := by
  dsimp only
  set u := stackRead false (fetchOperand false (fun g => { g with adl := lo a }) (fetchOpcode s)) with hu
  have ku : Same s u := ((fetchOpcode_same s).trans (fetchOperand_same _ _ _)).trans (stackRead_same _ _)
  have hru : u.cpu.regs = s.cpu.regs.advance 2 := by
    rw [hu, stackRead_regs, fetchOperand_regs, fetchOpcode_regs, Regs.incPc_twice]
  have hpu : u.cpu.prog.adl = lo a := by rw [hu]; simp [stackRead]
  set v := push false (hi u.cpu.regs.pc) u with hv
  set w := push false (lo v.cpu.regs.pc) v with hw
  have hrv : v.cpu.regs = (s.cpu.regs.advance 2).decS := by rw [hv, push_regs, hru]
  have hrw : w.cpu.regs = (s.cpu.regs.advance 2).decS.decS := by rw [hw, push_regs, hrv]
  have hpw : w.cpu.prog.adl = lo a := by
    rw [hw, push, mapRegs_prog, writeCycle_prog, hv, push, mapRegs_prog, writeCycle_prog, hpu]
  have e : jumpSubroutine a s
      = finish ((dummyFetch true w).jump (word (readValue true w.cpu.regs.pc w) w.cpu.prog.adl)) := rfl
  have kw : Same w (jumpSubroutine a s) := by
    rw [e]
    exact ((dummyFetch_same _ _).trans (jump_same _ _)).trans (finish_same _)
  have hpc : w.cpu.regs.pc = s.cpu.regs.pc + 2 := by rw [hrw]; rfl
  refine ⟨readValue true w.cpu.regs.pc w, ?_, ?_, ?_, ?_⟩
  · rw [e, finish_regs, jump_regs, dummyFetch_regs, hrw, hpw]
    simp only [Regs.decS, Regs.advance]
    congr 1
    bv_omega
  · intro k
    have iv : v.cpu.regs.s = s.cpu.regs.s - 1 := by rw [hrv]; rfl
    have pv : v.cpu.regs.pc = s.cpu.regs.pc + 2 := by rw [hrv]; rfl
    rw [kw.ramByte, hw, push_ram, iv, pv, hv, push_ram, hru, ku.ramByte]
    rfl
  · exact ((ku.cartridge.trans (push_cartridge _ _ _)).trans (push_cartridge _ _ _)).trans kw.cartridge
  · intro b hb
    rw [kw.memByte, ← hpc] at hb
    exact readValue_of_memByte true hb

/-- RTS: the word above the stack pointer, plus 1. -/
theorem returnSubroutine_spec (s : State) :
    let r := s.cpu.regs
    let b (k : Byte) : Byte := s.ramByte (stackIndex (r.s + k))
    (returnSubroutine s).cpu.regs = { r with s := r.s + 2, pc := word (b 2) (b 1) + 1 } ∧ Same s (returnSubroutine s) := by
  dsimp only
  set t := beforePull (dummyFetch false (fetchOpcode s)) with ht
  have kt : Same s t := ((fetchOpcode_same s).trans (dummyFetch_same false _)).trans (beforePull_same _)
  have hrt : t.cpu.regs = (s.cpu.regs.advance 1).incS := by
    rw [ht, beforePull_regs, dummyFetch_regs, fetchOpcode_regs, Regs.incPc_eq]
  set u := (stackRead false t).mapRegs (fun r => (r.setPcl (stackValue false t)).incS) with hu
  have ku : Same s u := (kt.trans (stackRead_same _ _)).trans (mapRegs_same _ _)
  have hru : u.cpu.regs = ((s.cpu.regs.advance 1).incS.setPcl (stackValue false t)).incS := by
    rw [hu, mapRegs_regs, stackRead_regs, hrt]
  have e : returnSubroutine s
      = finish ((dummyFetch true ((stackRead false u).mapRegs (Regs.setPch (stackValue false u)))).mapRegs Regs.incPc) := rfl
  refine ⟨?_, ?_⟩
  · have hl : lo u.cpu.regs.pc = stackValue false t := by rw [hru]; exact Regs.setPcl_lo _ _
    rw [e, finish_regs, mapRegs_regs, dummyFetch_regs, mapRegs_regs, stackRead_regs, Regs.setPch_of_lo _ hl, stackValue_eq,
      stackValue_eq, hru, hrt, ku.ramByte, kt.ramByte]
    simp only [Regs.incS, Regs.incPc, Regs.advance, Regs.setPcl, BitVec.add_assoc]
    rfl
  · rw [e]
    exact (((ku.trans (stackRead_same _ _)).trans (mapRegs_same _ _)).trans (dummyFetch_same _ _)).trans
      ((mapRegs_same _ _).trans (finish_same _))

/-! ## Jumps and branches -/

theorem jmpAbs_spec (a : Addr) (s : State) :
    (jmpAbs a s).cpu.regs = { s.cpu.regs with pc := a } ∧ Same s (jmpAbs a s) := by
  refine ⟨?_, ?_⟩
  · simp only [jmpAbs, finish_regs, jump_regs, dummyFetch_regs, fetchOperand_regs, fetchOpcode_regs, fetchOperand_prog,
      word_hi_lo]
    rfl
  · exact (((fetchOpcode_same s).trans (fetchOperand_same _ _ _)).trans (dummyFetch_same _ _)).trans
      ((jump_same _ _).trans (finish_same _))

theorem jmpInd_target (a : Addr) (s t : State) (ht : addrAbs a s = t) :
    let l := readValue false t.target t
    let u := (readCycle false t.target t).mapProg (fun g => { g with data := l })
    let b := word (hi a) (lo a + 1)
    jmpInd a s = finish ((readCycle true b u).jump (word (readValue true b u) l))
      ∧ u.cpu.regs = t.cpu.regs ∧ Same t u := by
  obtain ⟨p1, p2⟩ := addrAbs_prog a s
  rw [ht] at p1 p2
  dsimp only
  generalize hl : readValue false t.target t = l
  generalize hu : (readCycle false t.target t).mapProg (fun g => { g with data := l }) = u
  have q1 : u.cpu.prog.adl = lo a := by rw [← hu]; simpa using p1
  have q2 : u.cpu.prog.adh = hi a := by rw [← hu]; simpa using p2
  have q3 : u.cpu.prog.data = l := by rw [← hu]; simp
  refine ⟨?_, ?_, ?_⟩
  · unfold jmpInd
    dsimp only
    rw [ht, hl, hu, q1, q2, q3]
  · rw [← hu, mapProg_regs, readCycle_regs]
  · rw [← hu]
    exact ((readCycle_kept _ _ _).trans (mapProg_kept _ _)).same

/-- JMP indirect: PC is loaded from two bytes of one page. -/
theorem jmpInd_spec (a : Addr) (s : State) :
    let t := addrAbs a s
    let l := readValue false a t
    let u := (readCycle false a t).mapProg (fun g => { g with data := l })
    let b := word (hi a) (lo a + 1)
    let h := readValue true b u
    (jmpInd a s).cpu.regs = { s.cpu.regs with pc := word h l } ∧ Same s (jmpInd a s)
      ∧ (∀ x, s.memByte a = some x → l = x) ∧ (∀ x, s.memByte b = some x → h = x) := by
  have kt := addrAbs_same a s
  have rt := addrAbs_regs a s
  obtain ⟨p1, p2⟩ := addrAbs_prog a s
  have h := jmpInd_target a s _ rfl
  dsimp only at h ⊢
  generalize addrAbs a s = t at *
  have et : t.target = a := by rw [State.target, p1, p2, word_hi_lo]
  rw [et] at h
  obtain ⟨e, ru, ku⟩ := h
  have hl (x : Byte) (hx : s.memByte a = some x) : readValue false a t = x :=
    readValue_of_memByte _ ((kt.memByte _).trans hx)
  generalize readValue false a t = l at *
  generalize (readCycle false a t).mapProg (fun g => { g with data := l }) = u at *
  refine ⟨?_, ?_, hl, fun x hx => readValue_of_memByte _ (((kt.trans ku).memByte _).trans hx)⟩
  · rw [e, finish_regs, jump_regs, readCycle_regs, ru, rt]
    rfl
  · rw [e]
    exact (((kt.trans ku).trans (readCycle_kept _ _ _).same).trans (jump_same _ _)).trans (finish_same _)

/-- A branch: PC past the instruction, or that plus the sign-extended offset. -/
theorem branch_spec (cond : Flags → Bool) (d8 : Byte) (s : State) :
    (branch cond d8 s).cpu.regs
        = { s.cpu.regs with
            pc := if cond s.cpu.regs.p = true then s.cpu.regs.pc + 2 + sext d8 else s.cpu.regs.pc + 2 }
      ∧ Same s (branch cond d8 s) := by
  set t := fetchOperand true (fun g => { g with data := d8 }) (fetchOpcode s) with ht
  have kt : Same s t := (fetchOpcode_same s).trans (fetchOperand_same _ _ _)
  have hr : t.cpu.regs = s.cpu.regs.advance 2 := by rw [ht, fetchOperand_regs, fetchOpcode_regs, Regs.incPc_twice]
  have hp : t.cpu.regs.p = s.cpu.regs.p := by rw [hr]; rfl
  have hpc : t.cpu.regs.pc = s.cpu.regs.pc + 2 := by rw [hr]; rfl
  unfold branch
  dsimp only
  rw [← ht, hp, hpc]
  by_cases hc : cond s.cpu.regs.p = true
  · rw [if_pos hc, if_pos hc]
    by_cases hh : hi (s.cpu.regs.pc + 2 + sext d8) = hi (s.cpu.regs.pc + 2)
    · rw [if_pos hh, ← hh, word_hi_lo]
      refine ⟨?_, ?_⟩
      · rw [finish_regs, jump_regs, dummyFetch_regs, hr]; rfl
      · exact ((kt.trans (dummyFetch_same _ _)).trans (jump_same _ _)).trans (finish_same _)
    · rw [if_neg hh]
      refine ⟨?_, ?_⟩
      · rw [finish_regs, jump_regs, dummyFetch_regs, jump_regs, dummyFetch_regs, hr]; rfl
      · exact ((((kt.trans (dummyFetch_same _ _)).trans (jump_same _ _)).trans (dummyFetch_same _ _)).trans
          (jump_same _ _)).trans (finish_same _)
  · rw [if_neg hc, if_neg hc]
    refine ⟨?_, kt.trans (finish_same _)⟩
    rw [finish_regs, hr]; rfl

/-- JAM: PC past the opcode, the Cpu halted, registers and memory as before. -/
theorem jam_spec (s : State) :
    (jam s).cpu.regs = s.cpu.regs.advance 1 ∧ (jam s).cpu.halted = true ∧ SameMemory s (jam s) := by
  have k := (fetchOpcode_same s).trans (dummyFetch_same false _)
  refine ⟨?_, rfl, ?_⟩
  · show (dummyFetch false (fetchOpcode s)).cpu.regs = _
    rw [dummyFetch_regs, fetchOpcode_regs, Regs.incPc_eq]
  · have of_halt (t : State) (h : Same s t) : SameMemory s (finish { t with cpu := { t.cpu with halted := true } }) :=
      ⟨h.ramByte, h.prgRamByte, h.cart, h.params, h.epoch⟩
    exact of_halt _ k

end Sys2Proof.Machine
end

