-- ==== Sys2Proof/Laws/Shapes.lean ====
section
/-! SUPPORT. Every instruction is one of the sequences of `Machine/Cycle.lean` with its operation: what is proved of the
sixteen sequences holds of all 256 instructions. -/

namespace Sys2Proof.Machine

/-- The instruction a format makes of an operand; a byte operand is the address's low byte. -/
def Format.make (f : Format) (a : Addr) : Instr :=
  match f with
  | .f1 i => i
  | .f2 i => i (lo a)
  | .f3 i => i a

/-- A sequence performed from an instruction boundary. -/
def Shape.run (sh : Shape) (a : Addr) (s : State) : State :=
  match sh with
  | .implied op => Machine.implied op s
  | .imm op => readImm op (lo a) s
  | .read m op => m.read op a s
  | .store m val => m.store val a s
  | .rmw m new op => m.rmw new op a s
  | .unstable m val op => storeUnstable val op (m.addressed a s)
  | .branch cond => Machine.branch cond (lo a) s
  | .jmpAbs => Machine.jmpAbs a s
  | .jmpInd => Machine.jmpInd a s
  | .jsr => jumpSubroutine a s
  | .rts => returnSubroutine s
  | .rti => finish (leaveInterrupt (dummyFetch false (fetchOpcode s)))
  | .brk => finish (enterInterrupt true (fetchOperand false id (fetchOpcode s)))
  | .pushOf val => pushRegister val s
  | .pullTo op => pullRegister op s
  | .jam => Machine.jam s

/-- A format's instruction performs a sequence. -/
def Agree (p : Params) (f : Format) (sh : Shape) : Prop :=
  ∀ (a : Addr) (s : State), s.params = p → exec (Format.make f a) s = .next (sh.run a s)

theorem next_congr {x y : State} (h : x = y) : (Host.Outcome.next x : Result) = .next y := congrArg _ h

theorem agree_row0 (p : Params) : List.Forall₂ (Agree p) opcodeRow0 (shapeRow0 p) := by
  refine .cons (fun _ _ _ => rfl) <| .cons (fun _ _ _ => rfl) <| 
    .cons (fun _ _ _ => rfl) <| .cons (fun _ _ _ => rfl) <| 
    .cons (fun _ _ _ => rfl) <| .cons (fun _ _ _ => rfl) <| 
    .cons (fun _ _ _ => rfl) <| .cons (fun _ _ _ => rfl) <| 
    .cons (fun _ _ _ => rfl) <| .cons (fun _ _ _ => rfl) <| 
    .cons (fun _ _ _ => rfl) <| .cons (fun _ _ _ => rfl) <| 
    .cons (fun _ _ _ => rfl) <| .cons (fun _ _ _ => rfl) <| 
    .cons (fun _ _ _ => rfl) <| .cons (fun _ _ _ => rfl) <| .nil

theorem agree_row1 (p : Params) : List.Forall₂ (Agree p) opcodeRow1 (shapeRow1 p) := by
  refine .cons (fun _ _ _ => rfl) <| .cons (fun a s _ => next_congr (readTargetFixed_eq .izy rfl _ a s)) <| 
    .cons (fun _ _ _ => rfl) <| .cons (fun _ _ _ => rfl) <| 
    .cons (fun _ _ _ => rfl) <| .cons (fun _ _ _ => rfl) <| 
    .cons (fun _ _ _ => rfl) <| .cons (fun _ _ _ => rfl) <| 
    .cons (fun _ _ _ => rfl) <| .cons (fun a s _ => next_congr (readTargetFixed_eq .aby rfl _ a s)) <| 
    .cons (fun _ _ _ => rfl) <| .cons (fun _ _ _ => rfl) <| 
    .cons (fun a s _ => next_congr (readTargetFixed_eq .abx rfl _ a s)) <| .cons (fun a s _ => next_congr (readTargetFixed_eq .abx rfl _ a s)) <| 
    .cons (fun _ _ _ => rfl) <| .cons (fun _ _ _ => rfl) <| .nil

theorem agree_row2 (p : Params) : List.Forall₂ (Agree p) opcodeRow2 (shapeRow2 p) := by
  refine .cons (fun _ _ _ => rfl) <| .cons (fun _ _ _ => rfl) <| 
    .cons (fun _ _ _ => rfl) <| .cons (fun _ _ _ => rfl) <| 
    .cons (fun _ _ _ => rfl) <| .cons (fun _ _ _ => rfl) <| 
    .cons (fun _ _ _ => rfl) <| .cons (fun _ _ _ => rfl) <| 
    .cons (fun _ _ _ => rfl) <| .cons (fun _ _ _ => rfl) <| 
    .cons (fun _ _ _ => rfl) <| .cons (fun _ _ _ => rfl) <| 
    .cons (fun _ _ _ => rfl) <| .cons (fun _ _ _ => rfl) <| 
    .cons (fun _ _ _ => rfl) <| .cons (fun _ _ _ => rfl) <| .nil

theorem agree_row3 (p : Params) : List.Forall₂ (Agree p) opcodeRow3 (shapeRow3 p) := by
  refine .cons (fun _ _ _ => rfl) <| .cons (fun a s _ => next_congr (readTargetFixed_eq .izy rfl _ a s)) <| 
    .cons (fun _ _ _ => rfl) <| .cons (fun _ _ _ => rfl) <| 
    .cons (fun _ _ _ => rfl) <| .cons (fun _ _ _ => rfl) <| 
    .cons (fun _ _ _ => rfl) <| .cons (fun _ _ _ => rfl) <| 
    .cons (fun _ _ _ => rfl) <| .cons (fun a s _ => next_congr (readTargetFixed_eq .aby rfl _ a s)) <| 
    .cons (fun _ _ _ => rfl) <| .cons (fun _ _ _ => rfl) <| 
    .cons (fun a s _ => next_congr (readTargetFixed_eq .abx rfl _ a s)) <| .cons (fun a s _ => next_congr (readTargetFixed_eq .abx rfl _ a s)) <| 
    .cons (fun _ _ _ => rfl) <| .cons (fun _ _ _ => rfl) <| .nil

theorem agree_row4 (p : Params) : List.Forall₂ (Agree p) opcodeRow4 (shapeRow4 p) := by
  refine .cons (fun _ _ _ => rfl) <| .cons (fun _ _ _ => rfl) <| 
    .cons (fun _ _ _ => rfl) <| .cons (fun _ _ _ => rfl) <| 
    .cons (fun _ _ _ => rfl) <| .cons (fun _ _ _ => rfl) <| 
    .cons (fun _ _ _ => rfl) <| .cons (fun _ _ _ => rfl) <| 
    .cons (fun _ _ _ => rfl) <| .cons (fun _ _ _ => rfl) <| 
    .cons (fun _ _ _ => rfl) <| .cons (fun _ _ _ => rfl) <| 
    .cons (fun _ _ _ => rfl) <| .cons (fun _ _ _ => rfl) <| 
    .cons (fun _ _ _ => rfl) <| .cons (fun _ _ _ => rfl) <| .nil

theorem agree_row5 (p : Params) : List.Forall₂ (Agree p) opcodeRow5 (shapeRow5 p) := by
  refine .cons (fun _ _ _ => rfl) <| .cons (fun a s _ => next_congr (readTargetFixed_eq .izy rfl _ a s)) <| 
    .cons (fun _ _ _ => rfl) <| .cons (fun _ _ _ => rfl) <| 
    .cons (fun _ _ _ => rfl) <| .cons (fun _ _ _ => rfl) <| 
    .cons (fun _ _ _ => rfl) <| .cons (fun _ _ _ => rfl) <| 
    .cons (fun _ _ _ => rfl) <| .cons (fun a s _ => next_congr (readTargetFixed_eq .aby rfl _ a s)) <| 
    .cons (fun _ _ _ => rfl) <| .cons (fun _ _ _ => rfl) <| 
    .cons (fun a s _ => next_congr (readTargetFixed_eq .abx rfl _ a s)) <| .cons (fun a s _ => next_congr (readTargetFixed_eq .abx rfl _ a s)) <| 
    .cons (fun _ _ _ => rfl) <| .cons (fun _ _ _ => rfl) <| .nil

theorem agree_row6 (p : Params) : List.Forall₂ (Agree p) opcodeRow6 (shapeRow6 p) := by
  refine .cons (fun _ _ _ => rfl) <| .cons (fun _ _ _ => rfl) <| 
    .cons (fun _ _ _ => rfl) <| .cons (fun _ _ _ => rfl) <| 
    .cons (fun _ _ _ => rfl) <| .cons (fun _ _ _ => rfl) <| 
    .cons (fun _ _ _ => rfl) <| .cons (fun _ _ _ => rfl) <| 
    .cons (fun _ _ _ => rfl) <| .cons (fun _ _ _ => rfl) <| 
    .cons (fun _ _ _ => rfl) <| .cons (fun _ _ _ => rfl) <| 
    .cons (fun _ _ _ => rfl) <| .cons (fun _ _ _ => rfl) <| 
    .cons (fun _ _ _ => rfl) <| .cons (fun _ _ _ => rfl) <| .nil

theorem agree_row7 (p : Params) : List.Forall₂ (Agree p) opcodeRow7 (shapeRow7 p) := by
  refine .cons (fun _ _ _ => rfl) <| .cons (fun a s _ => next_congr (readTargetFixed_eq .izy rfl _ a s)) <| 
    .cons (fun _ _ _ => rfl) <| .cons (fun _ _ _ => rfl) <| 
    .cons (fun _ _ _ => rfl) <| .cons (fun _ _ _ => rfl) <| 
    .cons (fun _ _ _ => rfl) <| .cons (fun _ _ _ => rfl) <| 
    .cons (fun _ _ _ => rfl) <| .cons (fun a s _ => next_congr (readTargetFixed_eq .aby rfl _ a s)) <| 
    .cons (fun _ _ _ => rfl) <| .cons (fun _ _ _ => rfl) <| 
    .cons (fun a s _ => next_congr (readTargetFixed_eq .abx rfl _ a s)) <| .cons (fun a s _ => next_congr (readTargetFixed_eq .abx rfl _ a s)) <| 
    .cons (fun _ _ _ => rfl) <| .cons (fun _ _ _ => rfl) <| .nil

theorem agree_row8 (p : Params) : List.Forall₂ (Agree p) opcodeRow8 (shapeRow8 p) := by
  refine .cons (fun _ _ _ => rfl) <| .cons (fun _ _ _ => rfl) <| 
    .cons (fun _ _ _ => rfl) <| .cons (fun _ _ _ => rfl) <| 
    .cons (fun _ _ _ => rfl) <| .cons (fun _ _ _ => rfl) <| 
    .cons (fun _ _ _ => rfl) <| .cons (fun _ _ _ => rfl) <| 
    .cons (fun _ _ _ => rfl) <| .cons (fun _ _ _ => rfl) <| 
    .cons (fun _ _ _ => rfl) <| .cons (fun _ _ h => h ▸ rfl) <| 
    .cons (fun _ _ _ => rfl) <| .cons (fun _ _ _ => rfl) <| 
    .cons (fun _ _ _ => rfl) <| .cons (fun _ _ _ => rfl) <| .nil

theorem agree_row9 (p : Params) : List.Forall₂ (Agree p) opcodeRow9 (shapeRow9 p) := by
  refine .cons (fun _ _ _ => rfl) <| .cons (fun _ _ _ => rfl) <| 
    .cons (fun _ _ _ => rfl) <| .cons (fun _ _ _ => rfl) <| 
    .cons (fun _ _ _ => rfl) <| .cons (fun _ _ _ => rfl) <| 
    .cons (fun _ _ _ => rfl) <| .cons (fun _ _ _ => rfl) <| 
    .cons (fun _ _ _ => rfl) <| .cons (fun _ _ _ => rfl) <| 
    .cons (fun _ _ _ => rfl) <| .cons (fun _ _ _ => rfl) <| 
    .cons (fun _ _ _ => rfl) <| .cons (fun _ _ _ => rfl) <| 
    .cons (fun _ _ _ => rfl) <| .cons (fun _ _ _ => rfl) <| .nil

theorem agree_rowA (p : Params) : List.Forall₂ (Agree p) opcodeRowA (shapeRowA p) := by
  refine .cons (fun _ _ _ => rfl) <| .cons (fun _ _ _ => rfl) <| 
    .cons (fun _ _ _ => rfl) <| .cons (fun _ _ _ => rfl) <| 
    .cons (fun _ _ _ => rfl) <| .cons (fun _ _ _ => rfl) <| 
    .cons (fun _ _ _ => rfl) <| .cons (fun _ _ _ => rfl) <| 
    .cons (fun _ _ _ => rfl) <| .cons (fun _ _ _ => rfl) <| 
    .cons (fun _ _ _ => rfl) <| .cons (fun _ _ h => h ▸ rfl) <| 
    .cons (fun _ _ _ => rfl) <| .cons (fun _ _ _ => rfl) <| 
    .cons (fun _ _ _ => rfl) <| .cons (fun _ _ _ => rfl) <| .nil

theorem agree_rowB (p : Params) : List.Forall₂ (Agree p) opcodeRowB (shapeRowB p) := by
  refine .cons (fun _ _ _ => rfl) <| .cons (fun a s _ => next_congr (readTargetFixed_eq .izy rfl _ a s)) <| 
    .cons (fun _ _ _ => rfl) <| .cons (fun a s _ => next_congr (readTargetFixed_eq .izy rfl _ a s)) <| 
    .cons (fun _ _ _ => rfl) <| .cons (fun _ _ _ => rfl) <| 
    .cons (fun _ _ _ => rfl) <| .cons (fun _ _ _ => rfl) <| 
    .cons (fun _ _ _ => rfl) <| .cons (fun a s _ => next_congr (readTargetFixed_eq .aby rfl _ a s)) <| 
    .cons (fun _ _ _ => rfl) <| .cons (fun a s _ => next_congr (readTargetFixed_eq .aby rfl _ a s)) <| 
    .cons (fun a s _ => next_congr (readTargetFixed_eq .abx rfl _ a s)) <| .cons (fun a s _ => next_congr (readTargetFixed_eq .abx rfl _ a s)) <| 
    .cons (fun a s _ => next_congr (readTargetFixed_eq .aby rfl _ a s)) <| .cons (fun a s _ => next_congr (readTargetFixed_eq .aby rfl _ a s)) <| .nil

theorem agree_rowC (p : Params) : List.Forall₂ (Agree p) opcodeRowC (shapeRowC p) := by
  refine .cons (fun _ _ _ => rfl) <| .cons (fun _ _ _ => rfl) <| 
    .cons (fun _ _ _ => rfl) <| .cons (fun _ _ _ => rfl) <| 
    .cons (fun _ _ _ => rfl) <| .cons (fun _ _ _ => rfl) <| 
    .cons (fun _ _ _ => rfl) <| .cons (fun _ _ _ => rfl) <| 
    .cons (fun _ _ _ => rfl) <| .cons (fun _ _ _ => rfl) <| 
    .cons (fun _ _ _ => rfl) <| .cons (fun _ _ _ => rfl) <| 
    .cons (fun _ _ _ => rfl) <| .cons (fun _ _ _ => rfl) <| 
    .cons (fun _ _ _ => rfl) <| .cons (fun _ _ _ => rfl) <| .nil

theorem agree_rowD (p : Params) : List.Forall₂ (Agree p) opcodeRowD (shapeRowD p) := by
  refine .cons (fun _ _ _ => rfl) <| .cons (fun a s _ => next_congr (readTargetFixed_eq .izy rfl _ a s)) <| 
    .cons (fun _ _ _ => rfl) <| .cons (fun _ _ _ => rfl) <| 
    .cons (fun _ _ _ => rfl) <| .cons (fun _ _ _ => rfl) <| 
    .cons (fun _ _ _ => rfl) <| .cons (fun _ _ _ => rfl) <| 
    .cons (fun _ _ _ => rfl) <| .cons (fun a s _ => next_congr (readTargetFixed_eq .aby rfl _ a s)) <| 
    .cons (fun _ _ _ => rfl) <| .cons (fun _ _ _ => rfl) <| 
    .cons (fun a s _ => next_congr (readTargetFixed_eq .abx rfl _ a s)) <| .cons (fun a s _ => next_congr (readTargetFixed_eq .abx rfl _ a s)) <| 
    .cons (fun _ _ _ => rfl) <| .cons (fun _ _ _ => rfl) <| .nil

theorem agree_rowE (p : Params) : List.Forall₂ (Agree p) opcodeRowE (shapeRowE p) := by
  refine .cons (fun _ _ _ => rfl) <| .cons (fun _ _ _ => rfl) <| 
    .cons (fun _ _ _ => rfl) <| .cons (fun _ _ _ => rfl) <| 
    .cons (fun _ _ _ => rfl) <| .cons (fun _ _ _ => rfl) <| 
    .cons (fun _ _ _ => rfl) <| .cons (fun _ _ _ => rfl) <| 
    .cons (fun _ _ _ => rfl) <| .cons (fun _ _ _ => rfl) <| 
    .cons (fun _ _ _ => rfl) <| .cons (fun _ _ _ => rfl) <| 
    .cons (fun _ _ _ => rfl) <| .cons (fun _ _ _ => rfl) <| 
    .cons (fun _ _ _ => rfl) <| .cons (fun _ _ _ => rfl) <| .nil

theorem agree_rowF (p : Params) : List.Forall₂ (Agree p) opcodeRowF (shapeRowF p) := by
  refine .cons (fun _ _ _ => rfl) <| .cons (fun a s _ => next_congr (readTargetFixed_eq .izy rfl _ a s)) <| 
    .cons (fun _ _ _ => rfl) <| .cons (fun _ _ _ => rfl) <| 
    .cons (fun _ _ _ => rfl) <| .cons (fun _ _ _ => rfl) <| 
    .cons (fun _ _ _ => rfl) <| .cons (fun _ _ _ => rfl) <| 
    .cons (fun _ _ _ => rfl) <| .cons (fun a s _ => next_congr (readTargetFixed_eq .aby rfl _ a s)) <| 
    .cons (fun _ _ _ => rfl) <| .cons (fun _ _ _ => rfl) <| 
    .cons (fun a s _ => next_congr (readTargetFixed_eq .abx rfl _ a s)) <| .cons (fun a s _ => next_congr (readTargetFixed_eq .abx rfl _ a s)) <| 
    .cons (fun _ _ _ => rfl) <| .cons (fun _ _ _ => rfl) <| .nil

theorem Agree.getD {p : Params} {fs : List Format} {shs : List Shape} (h : List.Forall₂ (Agree p) fs shs) (n : Nat)
    (hn : n < fs.length) (f : Format) (sh : Shape) : Agree p (fs.getD n f) (shs.getD n sh) := by
  induction h generalizing n with
  | nil => simp at hn
  | cons h _ ih =>
    cases n with
    | zero => exact h
    | succ n => exact ih n (by simpa using hn)

theorem opcodeRow_length (k : Nat) : (opcodeRow k).length = 16 := by
  unfold opcodeRow
  split <;> rfl

theorem agree_row (p : Params) (k : Nat) : List.Forall₂ (Agree p) (opcodeRow k) (shapeRow p k) := by
  match k with
  | 0 => exact agree_row0 p
  | 1 => exact agree_row1 p
  | 2 => exact agree_row2 p
  | 3 => exact agree_row3 p
  | 4 => exact agree_row4 p
  | 5 => exact agree_row5 p
  | 6 => exact agree_row6 p
  | 7 => exact agree_row7 p
  | 8 => exact agree_row8 p
  | 9 => exact agree_row9 p
  | 10 => exact agree_rowA p
  | 11 => exact agree_rowB p
  | 12 => exact agree_rowC p
  | 13 => exact agree_rowD p
  | 14 => exact agree_rowE p
  | n + 15 => exact agree_rowF p

/-- WHAT `exec` DOES: the sequence of the opcode byte, for every instruction. -/
theorem exec_make (op : Byte) (a : Addr) (s : State) :
    exec (Format.make (formatOf op) a) s = .next ((shapeOf s.params op).run a s) := by
  refine Agree.getD (agree_row s.params (op.toNat / 16)) (op.toNat % 16) ?_ (.f1 .nop) .jam a s rfl
  rw [opcodeRow_length]
  omega

/-- What an instruction fetched at PC does. -/
theorem exec_fetched (s : State) :
    exec s.fetched s
      = .next ((shapeOf s.params s.nextOpcode).run
          (match formatOf s.nextOpcode with
            | .f1 _ => 0
            | .f2 _ => word 0 s.nextOperand1
            | .f3 _ => word s.nextOperand2 s.nextOperand1) s) := by
  rw [← exec_make]
  unfold State.fetched
  cases formatOf s.nextOpcode with
  | f1 i => rfl
  | f2 i => simp only [Format.make, lo_word]
  | f3 i => rfl

end Sys2Proof.Machine
end

