-- ==== Sys2Proof/Laws/PerInstr.lean ====
section
/-! SUPPORT. Statements about every instruction as syntax, one lemma per constructor. -/

namespace Sys2Proof.Laws.Encoding

open Sys2Proof.Machine

/-- An instruction is well formed, its encoding has the length its opcode's format gives, and that format makes the
instruction of the operand bytes. -/
def Statement (i : Instr) : Prop :=
  i.wellFormed = true ∧ (encode i).length = (formatOf (opcodeByte i)).length
    ∧ Format.make (formatOf (opcodeByte i)) (operandAddr i) = i

/-- The family's statement from the opcode byte. -/
theorem of_opcode {i : Instr} (op : Byte) (h : opcodeByte i = op) (hl : (encode i).length = (formatOf op).length)
    (hm : Format.make (formatOf op) (operandAddr i) = i) : Statement i := by
  subst h
  exact ⟨rfl, hl, hm⟩

theorem brk : Statement .brk := of_opcode 0x00 rfl rfl (rfl)
theorem oraIzx (d8 : Byte) : Statement (.oraIzx d8) := of_opcode 0x01 rfl rfl (congrArg Instr.oraIzx (lo_word 0 d8))
theorem jam02 : Statement .jam02 := of_opcode 0x02 rfl rfl (rfl)
theorem sloIzx (d8 : Byte) : Statement (.sloIzx d8) := of_opcode 0x03 rfl rfl (congrArg Instr.sloIzx (lo_word 0 d8))
theorem nopZp04 (d8 : Byte) : Statement (.nopZp04 d8) := of_opcode 0x04 rfl rfl (congrArg Instr.nopZp04 (lo_word 0 d8))
theorem oraZp (d8 : Byte) : Statement (.oraZp d8) := of_opcode 0x05 rfl rfl (congrArg Instr.oraZp (lo_word 0 d8))
theorem aslZp (d8 : Byte) : Statement (.aslZp d8) := of_opcode 0x06 rfl rfl (congrArg Instr.aslZp (lo_word 0 d8))
theorem sloZp (d8 : Byte) : Statement (.sloZp d8) := of_opcode 0x07 rfl rfl (congrArg Instr.sloZp (lo_word 0 d8))
theorem php : Statement .php := of_opcode 0x08 rfl rfl (rfl)
theorem oraImm (d8 : Byte) : Statement (.oraImm d8) := of_opcode 0x09 rfl rfl (congrArg Instr.oraImm (lo_word 0 d8))
theorem aslAcc : Statement .aslAcc := of_opcode 0x0A rfl rfl (rfl)
theorem anc0B (d8 : Byte) : Statement (.anc0B d8) := of_opcode 0x0B rfl rfl (congrArg Instr.anc0B (lo_word 0 d8))
theorem nopAbs (a16 : Addr) : Statement (.nopAbs a16) := of_opcode 0x0C rfl rfl (congrArg Instr.nopAbs (word_hi_lo a16))
theorem oraAbs (a16 : Addr) : Statement (.oraAbs a16) := of_opcode 0x0D rfl rfl (congrArg Instr.oraAbs (word_hi_lo a16))
theorem aslAbs (a16 : Addr) : Statement (.aslAbs a16) := of_opcode 0x0E rfl rfl (congrArg Instr.aslAbs (word_hi_lo a16))
theorem sloAbs (a16 : Addr) : Statement (.sloAbs a16) := of_opcode 0x0F rfl rfl (congrArg Instr.sloAbs (word_hi_lo a16))
theorem bpl (d8 : Byte) : Statement (.bpl d8) := of_opcode 0x10 rfl rfl (congrArg Instr.bpl (lo_word 0 d8))
theorem oraIzy (d8 : Byte) : Statement (.oraIzy d8) := of_opcode 0x11 rfl rfl (congrArg Instr.oraIzy (lo_word 0 d8))
theorem jam12 : Statement .jam12 := of_opcode 0x12 rfl rfl (rfl)
theorem sloIzy (d8 : Byte) : Statement (.sloIzy d8) := of_opcode 0x13 rfl rfl (congrArg Instr.sloIzy (lo_word 0 d8))
theorem nopZpx14 (d8 : Byte) : Statement (.nopZpx14 d8) := of_opcode 0x14 rfl rfl (congrArg Instr.nopZpx14 (lo_word 0 d8))
theorem oraZpx (d8 : Byte) : Statement (.oraZpx d8) := of_opcode 0x15 rfl rfl (congrArg Instr.oraZpx (lo_word 0 d8))
theorem aslZpx (d8 : Byte) : Statement (.aslZpx d8) := of_opcode 0x16 rfl rfl (congrArg Instr.aslZpx (lo_word 0 d8))
theorem sloZpx (d8 : Byte) : Statement (.sloZpx d8) := of_opcode 0x17 rfl rfl (congrArg Instr.sloZpx (lo_word 0 d8))
theorem clc : Statement .clc := of_opcode 0x18 rfl rfl (rfl)
theorem oraAby (a16 : Addr) : Statement (.oraAby a16) := of_opcode 0x19 rfl rfl (congrArg Instr.oraAby (word_hi_lo a16))
theorem nop1A : Statement .nop1A := of_opcode 0x1A rfl rfl (rfl)
theorem sloAby (a16 : Addr) : Statement (.sloAby a16) := of_opcode 0x1B rfl rfl (congrArg Instr.sloAby (word_hi_lo a16))
theorem nopAbx1C (a16 : Addr) : Statement (.nopAbx1C a16) := of_opcode 0x1C rfl rfl (congrArg Instr.nopAbx1C (word_hi_lo a16))
theorem oraAbx (a16 : Addr) : Statement (.oraAbx a16) := of_opcode 0x1D rfl rfl (congrArg Instr.oraAbx (word_hi_lo a16))
theorem aslAbx (a16 : Addr) : Statement (.aslAbx a16) := of_opcode 0x1E rfl rfl (congrArg Instr.aslAbx (word_hi_lo a16))
theorem sloAbx (a16 : Addr) : Statement (.sloAbx a16) := of_opcode 0x1F rfl rfl (congrArg Instr.sloAbx (word_hi_lo a16))
theorem jsr (a16 : Addr) : Statement (.jsr a16) := of_opcode 0x20 rfl rfl (congrArg Instr.jsr (word_hi_lo a16))
theorem andIzx (d8 : Byte) : Statement (.andIzx d8) := of_opcode 0x21 rfl rfl (congrArg Instr.andIzx (lo_word 0 d8))
theorem jam22 : Statement .jam22 := of_opcode 0x22 rfl rfl (rfl)
theorem rlaIzx (d8 : Byte) : Statement (.rlaIzx d8) := of_opcode 0x23 rfl rfl (congrArg Instr.rlaIzx (lo_word 0 d8))
theorem bitZp (d8 : Byte) : Statement (.bitZp d8) := of_opcode 0x24 rfl rfl (congrArg Instr.bitZp (lo_word 0 d8))
theorem andZp (d8 : Byte) : Statement (.andZp d8) := of_opcode 0x25 rfl rfl (congrArg Instr.andZp (lo_word 0 d8))
theorem rolZp (d8 : Byte) : Statement (.rolZp d8) := of_opcode 0x26 rfl rfl (congrArg Instr.rolZp (lo_word 0 d8))
theorem rlaZp (d8 : Byte) : Statement (.rlaZp d8) := of_opcode 0x27 rfl rfl (congrArg Instr.rlaZp (lo_word 0 d8))
theorem plp : Statement .plp := of_opcode 0x28 rfl rfl (rfl)
theorem andImm (d8 : Byte) : Statement (.andImm d8) := of_opcode 0x29 rfl rfl (congrArg Instr.andImm (lo_word 0 d8))
theorem rolAcc : Statement .rolAcc := of_opcode 0x2A rfl rfl (rfl)
theorem anc2B (d8 : Byte) : Statement (.anc2B d8) := of_opcode 0x2B rfl rfl (congrArg Instr.anc2B (lo_word 0 d8))
theorem bitAbs (a16 : Addr) : Statement (.bitAbs a16) := of_opcode 0x2C rfl rfl (congrArg Instr.bitAbs (word_hi_lo a16))
theorem andAbs (a16 : Addr) : Statement (.andAbs a16) := of_opcode 0x2D rfl rfl (congrArg Instr.andAbs (word_hi_lo a16))
theorem rolAbs (a16 : Addr) : Statement (.rolAbs a16) := of_opcode 0x2E rfl rfl (congrArg Instr.rolAbs (word_hi_lo a16))
theorem rlaAbs (a16 : Addr) : Statement (.rlaAbs a16) := of_opcode 0x2F rfl rfl (congrArg Instr.rlaAbs (word_hi_lo a16))
theorem bmi (d8 : Byte) : Statement (.bmi d8) := of_opcode 0x30 rfl rfl (congrArg Instr.bmi (lo_word 0 d8))
theorem andIzy (d8 : Byte) : Statement (.andIzy d8) := of_opcode 0x31 rfl rfl (congrArg Instr.andIzy (lo_word 0 d8))
theorem jam32 : Statement .jam32 := of_opcode 0x32 rfl rfl (rfl)
theorem rlaIzy (d8 : Byte) : Statement (.rlaIzy d8) := of_opcode 0x33 rfl rfl (congrArg Instr.rlaIzy (lo_word 0 d8))
theorem nopZpx34 (d8 : Byte) : Statement (.nopZpx34 d8) := of_opcode 0x34 rfl rfl (congrArg Instr.nopZpx34 (lo_word 0 d8))
theorem andZpx (d8 : Byte) : Statement (.andZpx d8) := of_opcode 0x35 rfl rfl (congrArg Instr.andZpx (lo_word 0 d8))
theorem rolZpx (d8 : Byte) : Statement (.rolZpx d8) := of_opcode 0x36 rfl rfl (congrArg Instr.rolZpx (lo_word 0 d8))
theorem rlaZpx (d8 : Byte) : Statement (.rlaZpx d8) := of_opcode 0x37 rfl rfl (congrArg Instr.rlaZpx (lo_word 0 d8))
theorem sec : Statement .sec := of_opcode 0x38 rfl rfl (rfl)
theorem andAby (a16 : Addr) : Statement (.andAby a16) := of_opcode 0x39 rfl rfl (congrArg Instr.andAby (word_hi_lo a16))
theorem nop3A : Statement .nop3A := of_opcode 0x3A rfl rfl (rfl)
theorem rlaAby (a16 : Addr) : Statement (.rlaAby a16) := of_opcode 0x3B rfl rfl (congrArg Instr.rlaAby (word_hi_lo a16))
theorem nopAbx3C (a16 : Addr) : Statement (.nopAbx3C a16) := of_opcode 0x3C rfl rfl (congrArg Instr.nopAbx3C (word_hi_lo a16))
theorem andAbx (a16 : Addr) : Statement (.andAbx a16) := of_opcode 0x3D rfl rfl (congrArg Instr.andAbx (word_hi_lo a16))
theorem rolAbx (a16 : Addr) : Statement (.rolAbx a16) := of_opcode 0x3E rfl rfl (congrArg Instr.rolAbx (word_hi_lo a16))
theorem rlaAbx (a16 : Addr) : Statement (.rlaAbx a16) := of_opcode 0x3F rfl rfl (congrArg Instr.rlaAbx (word_hi_lo a16))
theorem rti : Statement .rti := of_opcode 0x40 rfl rfl (rfl)
theorem eorIzx (d8 : Byte) : Statement (.eorIzx d8) := of_opcode 0x41 rfl rfl (congrArg Instr.eorIzx (lo_word 0 d8))
theorem jam42 : Statement .jam42 := of_opcode 0x42 rfl rfl (rfl)
theorem sreIzx (d8 : Byte) : Statement (.sreIzx d8) := of_opcode 0x43 rfl rfl (congrArg Instr.sreIzx (lo_word 0 d8))
theorem nopZp44 (d8 : Byte) : Statement (.nopZp44 d8) := of_opcode 0x44 rfl rfl (congrArg Instr.nopZp44 (lo_word 0 d8))
theorem eorZp (d8 : Byte) : Statement (.eorZp d8) := of_opcode 0x45 rfl rfl (congrArg Instr.eorZp (lo_word 0 d8))
theorem lsrZp (d8 : Byte) : Statement (.lsrZp d8) := of_opcode 0x46 rfl rfl (congrArg Instr.lsrZp (lo_word 0 d8))
theorem sreZp (d8 : Byte) : Statement (.sreZp d8) := of_opcode 0x47 rfl rfl (congrArg Instr.sreZp (lo_word 0 d8))
theorem pha : Statement .pha := of_opcode 0x48 rfl rfl (rfl)
theorem eorImm (d8 : Byte) : Statement (.eorImm d8) := of_opcode 0x49 rfl rfl (congrArg Instr.eorImm (lo_word 0 d8))
theorem lsrAcc : Statement .lsrAcc := of_opcode 0x4A rfl rfl (rfl)
theorem alr (d8 : Byte) : Statement (.alr d8) := of_opcode 0x4B rfl rfl (congrArg Instr.alr (lo_word 0 d8))
theorem jmpAbs (a16 : Addr) : Statement (.jmpAbs a16) := of_opcode 0x4C rfl rfl (congrArg Instr.jmpAbs (word_hi_lo a16))
theorem eorAbs (a16 : Addr) : Statement (.eorAbs a16) := of_opcode 0x4D rfl rfl (congrArg Instr.eorAbs (word_hi_lo a16))
theorem lsrAbs (a16 : Addr) : Statement (.lsrAbs a16) := of_opcode 0x4E rfl rfl (congrArg Instr.lsrAbs (word_hi_lo a16))
theorem sreAbs (a16 : Addr) : Statement (.sreAbs a16) := of_opcode 0x4F rfl rfl (congrArg Instr.sreAbs (word_hi_lo a16))
theorem bvc (d8 : Byte) : Statement (.bvc d8) := of_opcode 0x50 rfl rfl (congrArg Instr.bvc (lo_word 0 d8))
theorem eorIzy (d8 : Byte) : Statement (.eorIzy d8) := of_opcode 0x51 rfl rfl (congrArg Instr.eorIzy (lo_word 0 d8))
theorem jam52 : Statement .jam52 := of_opcode 0x52 rfl rfl (rfl)
theorem sreIzy (d8 : Byte) : Statement (.sreIzy d8) := of_opcode 0x53 rfl rfl (congrArg Instr.sreIzy (lo_word 0 d8))
theorem nopZpx54 (d8 : Byte) : Statement (.nopZpx54 d8) := of_opcode 0x54 rfl rfl (congrArg Instr.nopZpx54 (lo_word 0 d8))
theorem eorZpx (d8 : Byte) : Statement (.eorZpx d8) := of_opcode 0x55 rfl rfl (congrArg Instr.eorZpx (lo_word 0 d8))
theorem lsrZpx (d8 : Byte) : Statement (.lsrZpx d8) := of_opcode 0x56 rfl rfl (congrArg Instr.lsrZpx (lo_word 0 d8))
theorem sreZpx (d8 : Byte) : Statement (.sreZpx d8) := of_opcode 0x57 rfl rfl (congrArg Instr.sreZpx (lo_word 0 d8))
theorem cli : Statement .cli := of_opcode 0x58 rfl rfl (rfl)
theorem eorAby (a16 : Addr) : Statement (.eorAby a16) := of_opcode 0x59 rfl rfl (congrArg Instr.eorAby (word_hi_lo a16))
theorem nop5A : Statement .nop5A := of_opcode 0x5A rfl rfl (rfl)
theorem sreAby (a16 : Addr) : Statement (.sreAby a16) := of_opcode 0x5B rfl rfl (congrArg Instr.sreAby (word_hi_lo a16))
theorem nopAbx5C (a16 : Addr) : Statement (.nopAbx5C a16) := of_opcode 0x5C rfl rfl (congrArg Instr.nopAbx5C (word_hi_lo a16))
theorem eorAbx (a16 : Addr) : Statement (.eorAbx a16) := of_opcode 0x5D rfl rfl (congrArg Instr.eorAbx (word_hi_lo a16))
theorem lsrAbx (a16 : Addr) : Statement (.lsrAbx a16) := of_opcode 0x5E rfl rfl (congrArg Instr.lsrAbx (word_hi_lo a16))
theorem sreAbx (a16 : Addr) : Statement (.sreAbx a16) := of_opcode 0x5F rfl rfl (congrArg Instr.sreAbx (word_hi_lo a16))
theorem rts : Statement .rts := of_opcode 0x60 rfl rfl (rfl)
theorem adcIzx (d8 : Byte) : Statement (.adcIzx d8) := of_opcode 0x61 rfl rfl (congrArg Instr.adcIzx (lo_word 0 d8))
theorem jam62 : Statement .jam62 := of_opcode 0x62 rfl rfl (rfl)
theorem rraIzx (d8 : Byte) : Statement (.rraIzx d8) := of_opcode 0x63 rfl rfl (congrArg Instr.rraIzx (lo_word 0 d8))
theorem nopZp64 (d8 : Byte) : Statement (.nopZp64 d8) := of_opcode 0x64 rfl rfl (congrArg Instr.nopZp64 (lo_word 0 d8))
theorem adcZp (d8 : Byte) : Statement (.adcZp d8) := of_opcode 0x65 rfl rfl (congrArg Instr.adcZp (lo_word 0 d8))
theorem rorZp (d8 : Byte) : Statement (.rorZp d8) := of_opcode 0x66 rfl rfl (congrArg Instr.rorZp (lo_word 0 d8))
theorem rraZp (d8 : Byte) : Statement (.rraZp d8) := of_opcode 0x67 rfl rfl (congrArg Instr.rraZp (lo_word 0 d8))
theorem pla : Statement .pla := of_opcode 0x68 rfl rfl (rfl)
theorem adcImm (d8 : Byte) : Statement (.adcImm d8) := of_opcode 0x69 rfl rfl (congrArg Instr.adcImm (lo_word 0 d8))
theorem rorAcc : Statement .rorAcc := of_opcode 0x6A rfl rfl (rfl)
theorem arr (d8 : Byte) : Statement (.arr d8) := of_opcode 0x6B rfl rfl (congrArg Instr.arr (lo_word 0 d8))
theorem jmpInd (a16 : Addr) : Statement (.jmpInd a16) := of_opcode 0x6C rfl rfl (congrArg Instr.jmpInd (word_hi_lo a16))
theorem adcAbs (a16 : Addr) : Statement (.adcAbs a16) := of_opcode 0x6D rfl rfl (congrArg Instr.adcAbs (word_hi_lo a16))
theorem rorAbs (a16 : Addr) : Statement (.rorAbs a16) := of_opcode 0x6E rfl rfl (congrArg Instr.rorAbs (word_hi_lo a16))
theorem rraAbs (a16 : Addr) : Statement (.rraAbs a16) := of_opcode 0x6F rfl rfl (congrArg Instr.rraAbs (word_hi_lo a16))
theorem bvs (d8 : Byte) : Statement (.bvs d8) := of_opcode 0x70 rfl rfl (congrArg Instr.bvs (lo_word 0 d8))
theorem adcIzy (d8 : Byte) : Statement (.adcIzy d8) := of_opcode 0x71 rfl rfl (congrArg Instr.adcIzy (lo_word 0 d8))
theorem jam72 : Statement .jam72 := of_opcode 0x72 rfl rfl (rfl)
theorem rraIzy (d8 : Byte) : Statement (.rraIzy d8) := of_opcode 0x73 rfl rfl (congrArg Instr.rraIzy (lo_word 0 d8))
theorem nopZpx74 (d8 : Byte) : Statement (.nopZpx74 d8) := of_opcode 0x74 rfl rfl (congrArg Instr.nopZpx74 (lo_word 0 d8))
theorem adcZpx (d8 : Byte) : Statement (.adcZpx d8) := of_opcode 0x75 rfl rfl (congrArg Instr.adcZpx (lo_word 0 d8))
theorem rorZpx (d8 : Byte) : Statement (.rorZpx d8) := of_opcode 0x76 rfl rfl (congrArg Instr.rorZpx (lo_word 0 d8))
theorem rraZpx (d8 : Byte) : Statement (.rraZpx d8) := of_opcode 0x77 rfl rfl (congrArg Instr.rraZpx (lo_word 0 d8))
theorem sei : Statement .sei := of_opcode 0x78 rfl rfl (rfl)
theorem adcAby (a16 : Addr) : Statement (.adcAby a16) := of_opcode 0x79 rfl rfl (congrArg Instr.adcAby (word_hi_lo a16))
theorem nop7A : Statement .nop7A := of_opcode 0x7A rfl rfl (rfl)
theorem rraAby (a16 : Addr) : Statement (.rraAby a16) := of_opcode 0x7B rfl rfl (congrArg Instr.rraAby (word_hi_lo a16))
theorem nopAbx7C (a16 : Addr) : Statement (.nopAbx7C a16) := of_opcode 0x7C rfl rfl (congrArg Instr.nopAbx7C (word_hi_lo a16))
theorem adcAbx (a16 : Addr) : Statement (.adcAbx a16) := of_opcode 0x7D rfl rfl (congrArg Instr.adcAbx (word_hi_lo a16))
theorem rorAbx (a16 : Addr) : Statement (.rorAbx a16) := of_opcode 0x7E rfl rfl (congrArg Instr.rorAbx (word_hi_lo a16))
theorem rraAbx (a16 : Addr) : Statement (.rraAbx a16) := of_opcode 0x7F rfl rfl (congrArg Instr.rraAbx (word_hi_lo a16))
theorem nopImm80 (d8 : Byte) : Statement (.nopImm80 d8) := of_opcode 0x80 rfl rfl (congrArg Instr.nopImm80 (lo_word 0 d8))
theorem staIzx (d8 : Byte) : Statement (.staIzx d8) := of_opcode 0x81 rfl rfl (congrArg Instr.staIzx (lo_word 0 d8))
theorem nopImm82 (d8 : Byte) : Statement (.nopImm82 d8) := of_opcode 0x82 rfl rfl (congrArg Instr.nopImm82 (lo_word 0 d8))
theorem saxIzx (d8 : Byte) : Statement (.saxIzx d8) := of_opcode 0x83 rfl rfl (congrArg Instr.saxIzx (lo_word 0 d8))
theorem styZp (d8 : Byte) : Statement (.styZp d8) := of_opcode 0x84 rfl rfl (congrArg Instr.styZp (lo_word 0 d8))
theorem staZp (d8 : Byte) : Statement (.staZp d8) := of_opcode 0x85 rfl rfl (congrArg Instr.staZp (lo_word 0 d8))
theorem stxZp (d8 : Byte) : Statement (.stxZp d8) := of_opcode 0x86 rfl rfl (congrArg Instr.stxZp (lo_word 0 d8))
theorem saxZp (d8 : Byte) : Statement (.saxZp d8) := of_opcode 0x87 rfl rfl (congrArg Instr.saxZp (lo_word 0 d8))
theorem dey : Statement .dey := of_opcode 0x88 rfl rfl (rfl)
theorem nopImm89 (d8 : Byte) : Statement (.nopImm89 d8) := of_opcode 0x89 rfl rfl (congrArg Instr.nopImm89 (lo_word 0 d8))
theorem txa : Statement .txa := of_opcode 0x8A rfl rfl (rfl)
theorem xaa (d8 : Byte) : Statement (.xaa d8) := of_opcode 0x8B rfl rfl (congrArg Instr.xaa (lo_word 0 d8))
theorem styAbs (a16 : Addr) : Statement (.styAbs a16) := of_opcode 0x8C rfl rfl (congrArg Instr.styAbs (word_hi_lo a16))
theorem staAbs (a16 : Addr) : Statement (.staAbs a16) := of_opcode 0x8D rfl rfl (congrArg Instr.staAbs (word_hi_lo a16))
theorem stxAbs (a16 : Addr) : Statement (.stxAbs a16) := of_opcode 0x8E rfl rfl (congrArg Instr.stxAbs (word_hi_lo a16))
theorem saxAbs (a16 : Addr) : Statement (.saxAbs a16) := of_opcode 0x8F rfl rfl (congrArg Instr.saxAbs (word_hi_lo a16))
theorem bcc (d8 : Byte) : Statement (.bcc d8) := of_opcode 0x90 rfl rfl (congrArg Instr.bcc (lo_word 0 d8))
theorem staIzy (d8 : Byte) : Statement (.staIzy d8) := of_opcode 0x91 rfl rfl (congrArg Instr.staIzy (lo_word 0 d8))
theorem jam92 : Statement .jam92 := of_opcode 0x92 rfl rfl (rfl)
theorem shaIzy (d8 : Byte) : Statement (.shaIzy d8) := of_opcode 0x93 rfl rfl (congrArg Instr.shaIzy (lo_word 0 d8))
theorem styZpx (d8 : Byte) : Statement (.styZpx d8) := of_opcode 0x94 rfl rfl (congrArg Instr.styZpx (lo_word 0 d8))
theorem staZpx (d8 : Byte) : Statement (.staZpx d8) := of_opcode 0x95 rfl rfl (congrArg Instr.staZpx (lo_word 0 d8))
theorem stxZpy (d8 : Byte) : Statement (.stxZpy d8) := of_opcode 0x96 rfl rfl (congrArg Instr.stxZpy (lo_word 0 d8))
theorem saxZpy (d8 : Byte) : Statement (.saxZpy d8) := of_opcode 0x97 rfl rfl (congrArg Instr.saxZpy (lo_word 0 d8))
theorem tya : Statement .tya := of_opcode 0x98 rfl rfl (rfl)
theorem staAby (a16 : Addr) : Statement (.staAby a16) := of_opcode 0x99 rfl rfl (congrArg Instr.staAby (word_hi_lo a16))
theorem txs : Statement .txs := of_opcode 0x9A rfl rfl (rfl)
theorem tas (a16 : Addr) : Statement (.tas a16) := of_opcode 0x9B rfl rfl (congrArg Instr.tas (word_hi_lo a16))
theorem shy (a16 : Addr) : Statement (.shy a16) := of_opcode 0x9C rfl rfl (congrArg Instr.shy (word_hi_lo a16))
theorem staAbx (a16 : Addr) : Statement (.staAbx a16) := of_opcode 0x9D rfl rfl (congrArg Instr.staAbx (word_hi_lo a16))
theorem shx (a16 : Addr) : Statement (.shx a16) := of_opcode 0x9E rfl rfl (congrArg Instr.shx (word_hi_lo a16))
theorem shaAby (a16 : Addr) : Statement (.shaAby a16) := of_opcode 0x9F rfl rfl (congrArg Instr.shaAby (word_hi_lo a16))
theorem ldyImm (d8 : Byte) : Statement (.ldyImm d8) := of_opcode 0xA0 rfl rfl (congrArg Instr.ldyImm (lo_word 0 d8))
theorem ldaIzx (d8 : Byte) : Statement (.ldaIzx d8) := of_opcode 0xA1 rfl rfl (congrArg Instr.ldaIzx (lo_word 0 d8))
theorem ldxImm (d8 : Byte) : Statement (.ldxImm d8) := of_opcode 0xA2 rfl rfl (congrArg Instr.ldxImm (lo_word 0 d8))
theorem laxIzx (d8 : Byte) : Statement (.laxIzx d8) := of_opcode 0xA3 rfl rfl (congrArg Instr.laxIzx (lo_word 0 d8))
theorem ldyZp (d8 : Byte) : Statement (.ldyZp d8) := of_opcode 0xA4 rfl rfl (congrArg Instr.ldyZp (lo_word 0 d8))
theorem ldaZp (d8 : Byte) : Statement (.ldaZp d8) := of_opcode 0xA5 rfl rfl (congrArg Instr.ldaZp (lo_word 0 d8))
theorem ldxZp (d8 : Byte) : Statement (.ldxZp d8) := of_opcode 0xA6 rfl rfl (congrArg Instr.ldxZp (lo_word 0 d8))
theorem laxZp (d8 : Byte) : Statement (.laxZp d8) := of_opcode 0xA7 rfl rfl (congrArg Instr.laxZp (lo_word 0 d8))
theorem tay : Statement .tay := of_opcode 0xA8 rfl rfl (rfl)
theorem ldaImm (d8 : Byte) : Statement (.ldaImm d8) := of_opcode 0xA9 rfl rfl (congrArg Instr.ldaImm (lo_word 0 d8))
theorem tax : Statement .tax := of_opcode 0xAA rfl rfl (rfl)
theorem lxa (d8 : Byte) : Statement (.lxa d8) := of_opcode 0xAB rfl rfl (congrArg Instr.lxa (lo_word 0 d8))
theorem ldyAbs (a16 : Addr) : Statement (.ldyAbs a16) := of_opcode 0xAC rfl rfl (congrArg Instr.ldyAbs (word_hi_lo a16))
theorem ldaAbs (a16 : Addr) : Statement (.ldaAbs a16) := of_opcode 0xAD rfl rfl (congrArg Instr.ldaAbs (word_hi_lo a16))
theorem ldxAbs (a16 : Addr) : Statement (.ldxAbs a16) := of_opcode 0xAE rfl rfl (congrArg Instr.ldxAbs (word_hi_lo a16))
theorem laxAbs (a16 : Addr) : Statement (.laxAbs a16) := of_opcode 0xAF rfl rfl (congrArg Instr.laxAbs (word_hi_lo a16))
theorem bcs (d8 : Byte) : Statement (.bcs d8) := of_opcode 0xB0 rfl rfl (congrArg Instr.bcs (lo_word 0 d8))
theorem ldaIzy (d8 : Byte) : Statement (.ldaIzy d8) := of_opcode 0xB1 rfl rfl (congrArg Instr.ldaIzy (lo_word 0 d8))
theorem jamB2 : Statement .jamB2 := of_opcode 0xB2 rfl rfl (rfl)
theorem laxIzy (d8 : Byte) : Statement (.laxIzy d8) := of_opcode 0xB3 rfl rfl (congrArg Instr.laxIzy (lo_word 0 d8))
theorem ldyZpx (d8 : Byte) : Statement (.ldyZpx d8) := of_opcode 0xB4 rfl rfl (congrArg Instr.ldyZpx (lo_word 0 d8))
theorem ldaZpx (d8 : Byte) : Statement (.ldaZpx d8) := of_opcode 0xB5 rfl rfl (congrArg Instr.ldaZpx (lo_word 0 d8))
theorem ldxZpy (d8 : Byte) : Statement (.ldxZpy d8) := of_opcode 0xB6 rfl rfl (congrArg Instr.ldxZpy (lo_word 0 d8))
theorem laxZpy (d8 : Byte) : Statement (.laxZpy d8) := of_opcode 0xB7 rfl rfl (congrArg Instr.laxZpy (lo_word 0 d8))
theorem clv : Statement .clv := of_opcode 0xB8 rfl rfl (rfl)
theorem ldaAby (a16 : Addr) : Statement (.ldaAby a16) := of_opcode 0xB9 rfl rfl (congrArg Instr.ldaAby (word_hi_lo a16))
theorem tsx : Statement .tsx := of_opcode 0xBA rfl rfl (rfl)
theorem las (a16 : Addr) : Statement (.las a16) := of_opcode 0xBB rfl rfl (congrArg Instr.las (word_hi_lo a16))
theorem ldyAbx (a16 : Addr) : Statement (.ldyAbx a16) := of_opcode 0xBC rfl rfl (congrArg Instr.ldyAbx (word_hi_lo a16))
theorem ldaAbx (a16 : Addr) : Statement (.ldaAbx a16) := of_opcode 0xBD rfl rfl (congrArg Instr.ldaAbx (word_hi_lo a16))
theorem ldxAby (a16 : Addr) : Statement (.ldxAby a16) := of_opcode 0xBE rfl rfl (congrArg Instr.ldxAby (word_hi_lo a16))
theorem laxAby (a16 : Addr) : Statement (.laxAby a16) := of_opcode 0xBF rfl rfl (congrArg Instr.laxAby (word_hi_lo a16))
theorem cpyImm (d8 : Byte) : Statement (.cpyImm d8) := of_opcode 0xC0 rfl rfl (congrArg Instr.cpyImm (lo_word 0 d8))
theorem cmpIzx (d8 : Byte) : Statement (.cmpIzx d8) := of_opcode 0xC1 rfl rfl (congrArg Instr.cmpIzx (lo_word 0 d8))
theorem nopImmC2 (d8 : Byte) : Statement (.nopImmC2 d8) := of_opcode 0xC2 rfl rfl (congrArg Instr.nopImmC2 (lo_word 0 d8))
theorem dcpIzx (d8 : Byte) : Statement (.dcpIzx d8) := of_opcode 0xC3 rfl rfl (congrArg Instr.dcpIzx (lo_word 0 d8))
theorem cpyZp (d8 : Byte) : Statement (.cpyZp d8) := of_opcode 0xC4 rfl rfl (congrArg Instr.cpyZp (lo_word 0 d8))
theorem cmpZp (d8 : Byte) : Statement (.cmpZp d8) := of_opcode 0xC5 rfl rfl (congrArg Instr.cmpZp (lo_word 0 d8))
theorem decZp (d8 : Byte) : Statement (.decZp d8) := of_opcode 0xC6 rfl rfl (congrArg Instr.decZp (lo_word 0 d8))
theorem dcpZp (d8 : Byte) : Statement (.dcpZp d8) := of_opcode 0xC7 rfl rfl (congrArg Instr.dcpZp (lo_word 0 d8))
theorem iny : Statement .iny := of_opcode 0xC8 rfl rfl (rfl)
theorem cmpImm (d8 : Byte) : Statement (.cmpImm d8) := of_opcode 0xC9 rfl rfl (congrArg Instr.cmpImm (lo_word 0 d8))
theorem dex : Statement .dex := of_opcode 0xCA rfl rfl (rfl)
theorem axs (d8 : Byte) : Statement (.axs d8) := of_opcode 0xCB rfl rfl (congrArg Instr.axs (lo_word 0 d8))
theorem cpyAbs (a16 : Addr) : Statement (.cpyAbs a16) := of_opcode 0xCC rfl rfl (congrArg Instr.cpyAbs (word_hi_lo a16))
theorem cmpAbs (a16 : Addr) : Statement (.cmpAbs a16) := of_opcode 0xCD rfl rfl (congrArg Instr.cmpAbs (word_hi_lo a16))
theorem decAbs (a16 : Addr) : Statement (.decAbs a16) := of_opcode 0xCE rfl rfl (congrArg Instr.decAbs (word_hi_lo a16))
theorem dcpAbs (a16 : Addr) : Statement (.dcpAbs a16) := of_opcode 0xCF rfl rfl (congrArg Instr.dcpAbs (word_hi_lo a16))
theorem bne (d8 : Byte) : Statement (.bne d8) := of_opcode 0xD0 rfl rfl (congrArg Instr.bne (lo_word 0 d8))
theorem cmpIzy (d8 : Byte) : Statement (.cmpIzy d8) := of_opcode 0xD1 rfl rfl (congrArg Instr.cmpIzy (lo_word 0 d8))
theorem jamD2 : Statement .jamD2 := of_opcode 0xD2 rfl rfl (rfl)
theorem dcpIzy (d8 : Byte) : Statement (.dcpIzy d8) := of_opcode 0xD3 rfl rfl (congrArg Instr.dcpIzy (lo_word 0 d8))
theorem nopZpxD4 (d8 : Byte) : Statement (.nopZpxD4 d8) := of_opcode 0xD4 rfl rfl (congrArg Instr.nopZpxD4 (lo_word 0 d8))
theorem cmpZpx (d8 : Byte) : Statement (.cmpZpx d8) := of_opcode 0xD5 rfl rfl (congrArg Instr.cmpZpx (lo_word 0 d8))
theorem decZpx (d8 : Byte) : Statement (.decZpx d8) := of_opcode 0xD6 rfl rfl (congrArg Instr.decZpx (lo_word 0 d8))
theorem dcpZpx (d8 : Byte) : Statement (.dcpZpx d8) := of_opcode 0xD7 rfl rfl (congrArg Instr.dcpZpx (lo_word 0 d8))
theorem cld : Statement .cld := of_opcode 0xD8 rfl rfl (rfl)
theorem cmpAby (a16 : Addr) : Statement (.cmpAby a16) := of_opcode 0xD9 rfl rfl (congrArg Instr.cmpAby (word_hi_lo a16))
theorem nopDA : Statement .nopDA := of_opcode 0xDA rfl rfl (rfl)
theorem dcpAby (a16 : Addr) : Statement (.dcpAby a16) := of_opcode 0xDB rfl rfl (congrArg Instr.dcpAby (word_hi_lo a16))
theorem nopAbxDC (a16 : Addr) : Statement (.nopAbxDC a16) := of_opcode 0xDC rfl rfl (congrArg Instr.nopAbxDC (word_hi_lo a16))
theorem cmpAbx (a16 : Addr) : Statement (.cmpAbx a16) := of_opcode 0xDD rfl rfl (congrArg Instr.cmpAbx (word_hi_lo a16))
theorem decAbx (a16 : Addr) : Statement (.decAbx a16) := of_opcode 0xDE rfl rfl (congrArg Instr.decAbx (word_hi_lo a16))
theorem dcpAbx (a16 : Addr) : Statement (.dcpAbx a16) := of_opcode 0xDF rfl rfl (congrArg Instr.dcpAbx (word_hi_lo a16))
theorem cpxImm (d8 : Byte) : Statement (.cpxImm d8) := of_opcode 0xE0 rfl rfl (congrArg Instr.cpxImm (lo_word 0 d8))
theorem sbcIzx (d8 : Byte) : Statement (.sbcIzx d8) := of_opcode 0xE1 rfl rfl (congrArg Instr.sbcIzx (lo_word 0 d8))
theorem nopImmE2 (d8 : Byte) : Statement (.nopImmE2 d8) := of_opcode 0xE2 rfl rfl (congrArg Instr.nopImmE2 (lo_word 0 d8))
theorem iscIzx (d8 : Byte) : Statement (.iscIzx d8) := of_opcode 0xE3 rfl rfl (congrArg Instr.iscIzx (lo_word 0 d8))
theorem cpxZp (d8 : Byte) : Statement (.cpxZp d8) := of_opcode 0xE4 rfl rfl (congrArg Instr.cpxZp (lo_word 0 d8))
theorem sbcZp (d8 : Byte) : Statement (.sbcZp d8) := of_opcode 0xE5 rfl rfl (congrArg Instr.sbcZp (lo_word 0 d8))
theorem incZp (d8 : Byte) : Statement (.incZp d8) := of_opcode 0xE6 rfl rfl (congrArg Instr.incZp (lo_word 0 d8))
theorem iscZp (d8 : Byte) : Statement (.iscZp d8) := of_opcode 0xE7 rfl rfl (congrArg Instr.iscZp (lo_word 0 d8))
theorem inx : Statement .inx := of_opcode 0xE8 rfl rfl (rfl)
theorem sbcImm (d8 : Byte) : Statement (.sbcImm d8) := of_opcode 0xE9 rfl rfl (congrArg Instr.sbcImm (lo_word 0 d8))
theorem nop : Statement .nop := of_opcode 0xEA rfl rfl (rfl)
theorem sbcImmEB (d8 : Byte) : Statement (.sbcImmEB d8) := of_opcode 0xEB rfl rfl (congrArg Instr.sbcImmEB (lo_word 0 d8))
theorem cpxAbs (a16 : Addr) : Statement (.cpxAbs a16) := of_opcode 0xEC rfl rfl (congrArg Instr.cpxAbs (word_hi_lo a16))
theorem sbcAbs (a16 : Addr) : Statement (.sbcAbs a16) := of_opcode 0xED rfl rfl (congrArg Instr.sbcAbs (word_hi_lo a16))
theorem incAbs (a16 : Addr) : Statement (.incAbs a16) := of_opcode 0xEE rfl rfl (congrArg Instr.incAbs (word_hi_lo a16))
theorem iscAbs (a16 : Addr) : Statement (.iscAbs a16) := of_opcode 0xEF rfl rfl (congrArg Instr.iscAbs (word_hi_lo a16))
theorem beq (d8 : Byte) : Statement (.beq d8) := of_opcode 0xF0 rfl rfl (congrArg Instr.beq (lo_word 0 d8))
theorem sbcIzy (d8 : Byte) : Statement (.sbcIzy d8) := of_opcode 0xF1 rfl rfl (congrArg Instr.sbcIzy (lo_word 0 d8))
theorem jamF2 : Statement .jamF2 := of_opcode 0xF2 rfl rfl (rfl)
theorem iscIzy (d8 : Byte) : Statement (.iscIzy d8) := of_opcode 0xF3 rfl rfl (congrArg Instr.iscIzy (lo_word 0 d8))
theorem nopZpxF4 (d8 : Byte) : Statement (.nopZpxF4 d8) := of_opcode 0xF4 rfl rfl (congrArg Instr.nopZpxF4 (lo_word 0 d8))
theorem sbcZpx (d8 : Byte) : Statement (.sbcZpx d8) := of_opcode 0xF5 rfl rfl (congrArg Instr.sbcZpx (lo_word 0 d8))
theorem incZpx (d8 : Byte) : Statement (.incZpx d8) := of_opcode 0xF6 rfl rfl (congrArg Instr.incZpx (lo_word 0 d8))
theorem iscZpx (d8 : Byte) : Statement (.iscZpx d8) := of_opcode 0xF7 rfl rfl (congrArg Instr.iscZpx (lo_word 0 d8))
theorem sed : Statement .sed := of_opcode 0xF8 rfl rfl (rfl)
theorem sbcAby (a16 : Addr) : Statement (.sbcAby a16) := of_opcode 0xF9 rfl rfl (congrArg Instr.sbcAby (word_hi_lo a16))
theorem nopFA : Statement .nopFA := of_opcode 0xFA rfl rfl (rfl)
theorem iscAby (a16 : Addr) : Statement (.iscAby a16) := of_opcode 0xFB rfl rfl (congrArg Instr.iscAby (word_hi_lo a16))
theorem nopAbxFC (a16 : Addr) : Statement (.nopAbxFC a16) := of_opcode 0xFC rfl rfl (congrArg Instr.nopAbxFC (word_hi_lo a16))
theorem sbcAbx (a16 : Addr) : Statement (.sbcAbx a16) := of_opcode 0xFD rfl rfl (congrArg Instr.sbcAbx (word_hi_lo a16))
theorem incAbx (a16 : Addr) : Statement (.incAbx a16) := of_opcode 0xFE rfl rfl (congrArg Instr.incAbx (word_hi_lo a16))
theorem iscAbx (a16 : Addr) : Statement (.iscAbx a16) := of_opcode 0xFF rfl rfl (congrArg Instr.iscAbx (word_hi_lo a16))

/-- The family holds of every instruction. -/
theorem statement_of (i : Instr) : Statement i := by
  cases i with
  | brk => exact brk
  | oraIzx d8 => exact oraIzx d8
  | jam02 => exact jam02
  | sloIzx d8 => exact sloIzx d8
  | nopZp04 d8 => exact nopZp04 d8
  | oraZp d8 => exact oraZp d8
  | aslZp d8 => exact aslZp d8
  | sloZp d8 => exact sloZp d8
  | php => exact php
  | oraImm d8 => exact oraImm d8
  | aslAcc => exact aslAcc
  | anc0B d8 => exact anc0B d8
  | nopAbs a16 => exact nopAbs a16
  | oraAbs a16 => exact oraAbs a16
  | aslAbs a16 => exact aslAbs a16
  | sloAbs a16 => exact sloAbs a16
  | bpl d8 => exact bpl d8
  | oraIzy d8 => exact oraIzy d8
  | jam12 => exact jam12
  | sloIzy d8 => exact sloIzy d8
  | nopZpx14 d8 => exact nopZpx14 d8
  | oraZpx d8 => exact oraZpx d8
  | aslZpx d8 => exact aslZpx d8
  | sloZpx d8 => exact sloZpx d8
  | clc => exact clc
  | oraAby a16 => exact oraAby a16
  | nop1A => exact nop1A
  | sloAby a16 => exact sloAby a16
  | nopAbx1C a16 => exact nopAbx1C a16
  | oraAbx a16 => exact oraAbx a16
  | aslAbx a16 => exact aslAbx a16
  | sloAbx a16 => exact sloAbx a16
  | jsr a16 => exact jsr a16
  | andIzx d8 => exact andIzx d8
  | jam22 => exact jam22
  | rlaIzx d8 => exact rlaIzx d8
  | bitZp d8 => exact bitZp d8
  | andZp d8 => exact andZp d8
  | rolZp d8 => exact rolZp d8
  | rlaZp d8 => exact rlaZp d8
  | plp => exact plp
  | andImm d8 => exact andImm d8
  | rolAcc => exact rolAcc
  | anc2B d8 => exact anc2B d8
  | bitAbs a16 => exact bitAbs a16
  | andAbs a16 => exact andAbs a16
  | rolAbs a16 => exact rolAbs a16
  | rlaAbs a16 => exact rlaAbs a16
  | bmi d8 => exact bmi d8
  | andIzy d8 => exact andIzy d8
  | jam32 => exact jam32
  | rlaIzy d8 => exact rlaIzy d8
  | nopZpx34 d8 => exact nopZpx34 d8
  | andZpx d8 => exact andZpx d8
  | rolZpx d8 => exact rolZpx d8
  | rlaZpx d8 => exact rlaZpx d8
  | sec => exact sec
  | andAby a16 => exact andAby a16
  | nop3A => exact nop3A
  | rlaAby a16 => exact rlaAby a16
  | nopAbx3C a16 => exact nopAbx3C a16
  | andAbx a16 => exact andAbx a16
  | rolAbx a16 => exact rolAbx a16
  | rlaAbx a16 => exact rlaAbx a16
  | rti => exact rti
  | eorIzx d8 => exact eorIzx d8
  | jam42 => exact jam42
  | sreIzx d8 => exact sreIzx d8
  | nopZp44 d8 => exact nopZp44 d8
  | eorZp d8 => exact eorZp d8
  | lsrZp d8 => exact lsrZp d8
  | sreZp d8 => exact sreZp d8
  | pha => exact pha
  | eorImm d8 => exact eorImm d8
  | lsrAcc => exact lsrAcc
  | alr d8 => exact alr d8
  | jmpAbs a16 => exact jmpAbs a16
  | eorAbs a16 => exact eorAbs a16
  | lsrAbs a16 => exact lsrAbs a16
  | sreAbs a16 => exact sreAbs a16
  | bvc d8 => exact bvc d8
  | eorIzy d8 => exact eorIzy d8
  | jam52 => exact jam52
  | sreIzy d8 => exact sreIzy d8
  | nopZpx54 d8 => exact nopZpx54 d8
  | eorZpx d8 => exact eorZpx d8
  | lsrZpx d8 => exact lsrZpx d8
  | sreZpx d8 => exact sreZpx d8
  | cli => exact cli
  | eorAby a16 => exact eorAby a16
  | nop5A => exact nop5A
  | sreAby a16 => exact sreAby a16
  | nopAbx5C a16 => exact nopAbx5C a16
  | eorAbx a16 => exact eorAbx a16
  | lsrAbx a16 => exact lsrAbx a16
  | sreAbx a16 => exact sreAbx a16
  | rts => exact rts
  | adcIzx d8 => exact adcIzx d8
  | jam62 => exact jam62
  | rraIzx d8 => exact rraIzx d8
  | nopZp64 d8 => exact nopZp64 d8
  | adcZp d8 => exact adcZp d8
  | rorZp d8 => exact rorZp d8
  | rraZp d8 => exact rraZp d8
  | pla => exact pla
  | adcImm d8 => exact adcImm d8
  | rorAcc => exact rorAcc
  | arr d8 => exact arr d8
  | jmpInd a16 => exact jmpInd a16
  | adcAbs a16 => exact adcAbs a16
  | rorAbs a16 => exact rorAbs a16
  | rraAbs a16 => exact rraAbs a16
  | bvs d8 => exact bvs d8
  | adcIzy d8 => exact adcIzy d8
  | jam72 => exact jam72
  | rraIzy d8 => exact rraIzy d8
  | nopZpx74 d8 => exact nopZpx74 d8
  | adcZpx d8 => exact adcZpx d8
  | rorZpx d8 => exact rorZpx d8
  | rraZpx d8 => exact rraZpx d8
  | sei => exact sei
  | adcAby a16 => exact adcAby a16
  | nop7A => exact nop7A
  | rraAby a16 => exact rraAby a16
  | nopAbx7C a16 => exact nopAbx7C a16
  | adcAbx a16 => exact adcAbx a16
  | rorAbx a16 => exact rorAbx a16
  | rraAbx a16 => exact rraAbx a16
  | nopImm80 d8 => exact nopImm80 d8
  | staIzx d8 => exact staIzx d8
  | nopImm82 d8 => exact nopImm82 d8
  | saxIzx d8 => exact saxIzx d8
  | styZp d8 => exact styZp d8
  | staZp d8 => exact staZp d8
  | stxZp d8 => exact stxZp d8
  | saxZp d8 => exact saxZp d8
  | dey => exact dey
  | nopImm89 d8 => exact nopImm89 d8
  | txa => exact txa
  | xaa d8 => exact xaa d8
  | styAbs a16 => exact styAbs a16
  | staAbs a16 => exact staAbs a16
  | stxAbs a16 => exact stxAbs a16
  | saxAbs a16 => exact saxAbs a16
  | bcc d8 => exact bcc d8
  | staIzy d8 => exact staIzy d8
  | jam92 => exact jam92
  | shaIzy d8 => exact shaIzy d8
  | styZpx d8 => exact styZpx d8
  | staZpx d8 => exact staZpx d8
  | stxZpy d8 => exact stxZpy d8
  | saxZpy d8 => exact saxZpy d8
  | tya => exact tya
  | staAby a16 => exact staAby a16
  | txs => exact txs
  | tas a16 => exact tas a16
  | shy a16 => exact shy a16
  | staAbx a16 => exact staAbx a16
  | shx a16 => exact shx a16
  | shaAby a16 => exact shaAby a16
  | ldyImm d8 => exact ldyImm d8
  | ldaIzx d8 => exact ldaIzx d8
  | ldxImm d8 => exact ldxImm d8
  | laxIzx d8 => exact laxIzx d8
  | ldyZp d8 => exact ldyZp d8
  | ldaZp d8 => exact ldaZp d8
  | ldxZp d8 => exact ldxZp d8
  | laxZp d8 => exact laxZp d8
  | tay => exact tay
  | ldaImm d8 => exact ldaImm d8
  | tax => exact tax
  | lxa d8 => exact lxa d8
  | ldyAbs a16 => exact ldyAbs a16
  | ldaAbs a16 => exact ldaAbs a16
  | ldxAbs a16 => exact ldxAbs a16
  | laxAbs a16 => exact laxAbs a16
  | bcs d8 => exact bcs d8
  | ldaIzy d8 => exact ldaIzy d8
  | jamB2 => exact jamB2
  | laxIzy d8 => exact laxIzy d8
  | ldyZpx d8 => exact ldyZpx d8
  | ldaZpx d8 => exact ldaZpx d8
  | ldxZpy d8 => exact ldxZpy d8
  | laxZpy d8 => exact laxZpy d8
  | clv => exact clv
  | ldaAby a16 => exact ldaAby a16
  | tsx => exact tsx
  | las a16 => exact las a16
  | ldyAbx a16 => exact ldyAbx a16
  | ldaAbx a16 => exact ldaAbx a16
  | ldxAby a16 => exact ldxAby a16
  | laxAby a16 => exact laxAby a16
  | cpyImm d8 => exact cpyImm d8
  | cmpIzx d8 => exact cmpIzx d8
  | nopImmC2 d8 => exact nopImmC2 d8
  | dcpIzx d8 => exact dcpIzx d8
  | cpyZp d8 => exact cpyZp d8
  | cmpZp d8 => exact cmpZp d8
  | decZp d8 => exact decZp d8
  | dcpZp d8 => exact dcpZp d8
  | iny => exact iny
  | cmpImm d8 => exact cmpImm d8
  | dex => exact dex
  | axs d8 => exact axs d8
  | cpyAbs a16 => exact cpyAbs a16
  | cmpAbs a16 => exact cmpAbs a16
  | decAbs a16 => exact decAbs a16
  | dcpAbs a16 => exact dcpAbs a16
  | bne d8 => exact bne d8
  | cmpIzy d8 => exact cmpIzy d8
  | jamD2 => exact jamD2
  | dcpIzy d8 => exact dcpIzy d8
  | nopZpxD4 d8 => exact nopZpxD4 d8
  | cmpZpx d8 => exact cmpZpx d8
  | decZpx d8 => exact decZpx d8
  | dcpZpx d8 => exact dcpZpx d8
  | cld => exact cld
  | cmpAby a16 => exact cmpAby a16
  | nopDA => exact nopDA
  | dcpAby a16 => exact dcpAby a16
  | nopAbxDC a16 => exact nopAbxDC a16
  | cmpAbx a16 => exact cmpAbx a16
  | decAbx a16 => exact decAbx a16
  | dcpAbx a16 => exact dcpAbx a16
  | cpxImm d8 => exact cpxImm d8
  | sbcIzx d8 => exact sbcIzx d8
  | nopImmE2 d8 => exact nopImmE2 d8
  | iscIzx d8 => exact iscIzx d8
  | cpxZp d8 => exact cpxZp d8
  | sbcZp d8 => exact sbcZp d8
  | incZp d8 => exact incZp d8
  | iscZp d8 => exact iscZp d8
  | inx => exact inx
  | sbcImm d8 => exact sbcImm d8
  | nop => exact nop
  | sbcImmEB d8 => exact sbcImmEB d8
  | cpxAbs a16 => exact cpxAbs a16
  | sbcAbs a16 => exact sbcAbs a16
  | incAbs a16 => exact incAbs a16
  | iscAbs a16 => exact iscAbs a16
  | beq d8 => exact beq d8
  | sbcIzy d8 => exact sbcIzy d8
  | jamF2 => exact jamF2
  | iscIzy d8 => exact iscIzy d8
  | nopZpxF4 d8 => exact nopZpxF4 d8
  | sbcZpx d8 => exact sbcZpx d8
  | incZpx d8 => exact incZpx d8
  | iscZpx d8 => exact iscZpx d8
  | sed => exact sed
  | sbcAby a16 => exact sbcAby a16
  | nopFA => exact nopFA
  | iscAby a16 => exact iscAby a16
  | nopAbxFC a16 => exact nopAbxFC a16
  | sbcAbx a16 => exact sbcAbx a16
  | incAbx a16 => exact incAbx a16
  | iscAbx a16 => exact iscAbx a16

end Sys2Proof.Laws.Encoding

namespace Sys2Proof.Machine

open Sys2Proof.Laws.Encoding

/-- What `exec` does with any instruction: the sequence of its opcode byte. -/
theorem exec_eq_run (i : Instr) (s : State) :
    exec i s = .next ((shapeOf s.params (opcodeByte i)).run (operandAddr i) s) := by
  have h := exec_make (opcodeByte i) (operandAddr i) s
  rwa [(statement_of i).2.2] at h

end Sys2Proof.Machine
end

