-- ==== Sys2Proof/Laws/Closed.lean ====
section
/-! SUPPORT. The induction every whole-machine rule uses, packaged once: a property that every read cycle, every write cycle
and every change of the Cpu's own registers keeps is kept by every instruction, by the interrupt and reset sequences and by
every step. -/

namespace Sys2Proof.Machine

open Sys2Proof.Laws.Encoding

/-- A property that every change of the Cpu's own registers and latches keeps, but for the halt. -/
structure CpuClosed (P : State → Prop) : Prop where
  regs  : ∀ f s, P s → P (s.mapRegs f)
  prog  : ∀ f s, P s → P (s.mapProg f)
  nmi   : ∀ b (s : State), P s → P { s with cpu := { s.cpu with nmiPending := b } }
  int   : ∀ s : State, P s → P { s with cpu := { s.cpu with intDetected := false } }

namespace CpuClosed

variable {P : State → Prop} (h : CpuClosed P)
include h

theorem finish {s : State} (hs : P s) : P (finish s) := h.prog _ _ hs

/-- What the Cpu does with the byte of a row of the address cycles. -/
theorem modeRow (m : AddrMode) (n : Nat) (s : State) (b : Byte) {t : State} (ht : P t) : P ((m.row n s).after b t) := by
  cases m <;> simp only [AddrMode.row, fetchRow, dummyRow, readRow] <;> (try split) <;> (try dsimp only) <;>
    first
      | exact h.prog _ _ ht
      | exact h.regs _ _ (h.prog _ _ ht)

/-- What the Cpu does with the byte of a row of BRK or of the interrupt sequence. -/
theorem entryRow (b : Bool) (n : Nat) (s : State) (v : Byte) {t : State} (ht : P t) : P ((entryRow b n s).after v t) := by
  simp only [Machine.entryRow, pushRow, writeRow, readRow]
  split <;> dsimp only
  · exact h.regs _ _ ht
  · exact h.regs _ _ ht
  · exact h.prog _ _ (h.nmi _ _ (h.regs _ _ ht))
  · exact h.regs _ _ ht
  · exact h.finish (h.regs _ _ ht)

theorem rmwRow (new : Flags → Byte → Byte) (op : Byte → Regs → Regs) (k : Nat) (s : State) (v : Byte) {t : State}
    (ht : P t) : P ((rmwRow new op k s).after v t) := by
  simp only [Machine.rmwRow, writeRow, readRow]
  split <;> dsimp only
  · exact h.prog _ _ ht
  · exact ht
  · exact h.finish (h.regs _ _ ht)

/-- What the Cpu does with the byte of a row of any instruction; only that of JAM halts it. -/
theorem shapeRow (sh : Shape) (n : Nat) (s : State) (v : Byte)
    (halt : sh = .jam → ∀ s : State, P s → P { s with cpu := { s.cpu with halted := true } }) {t : State}
    (ht : P t) : P ((sh.row n s).after v t) := by
  cases sh
  case jam => exact h.finish (halt rfl _ ht)
  all_goals clear halt
  all_goals
    simp only [Shape.row, fixupRow, readTargetRow, unstableRow, dropRow, pushRow, beforePullRow, fetchRow, dummyRow, writeRow,
      readRow, State.jump]
    (repeat' split) <;> (try dsimp only) <;> (repeat' split) <;>
    first
      | exact h.modeRow _ _ _ _ ht
      | exact h.rmwRow _ _ _ _ _ ht
      | exact h.entryRow _ _ _ _ ht
      | exact ht
      | exact h.prog _ _ ht
      | exact h.regs _ _ ht
      | exact h.regs _ _ (h.prog _ _ ht)
      | exact h.prog _ _ (h.regs _ _ ht)
      | exact h.finish ht
      | exact h.finish (h.regs _ _ ht)
      | exact h.finish (h.regs _ _ (h.regs _ _ ht))
      | exact h.finish (h.regs _ _ (h.prog _ _ ht))

/-- What the Cpu does with the byte of the row it performs next; only a row that reads can halt it. -/
theorem nextRow (s : State) (v : Byte)
    (halt : s.nextRow.write = none → ∀ s : State, P s → P { s with cpu := { s.cpu with halted := true } }) {t : State}
    (ht : P t) : P (s.nextRow.after v t) := by
  revert halt
  simp only [State.nextRow]
  split <;> intro halt
  · split
    · exact h.prog (fun g => { g with ir := .int }) _ (h.int _ ht)
    · exact h.regs _ _ (h.prog _ _ ht)
  · exact h.shapeRow _ _ _ _ (fun e => halt (by rw [e]; rfl)) ht
  · split
    · exact ht
    · exact h.entryRow _ _ _ _ ht

end CpuClosed

/-- A property that the parts of a step keep. -/
structure Closed (P : State → Prop) : Prop extends CpuClosed P where
  read  : ∀ p a s, P s → P (readCycle p a s)
  write : ∀ p a v s, P s → P (writeCycle p a v s)
  halt  : ∀ s : State, P s → P { s with cpu := { s.cpu with halted := true } }

namespace Closed

variable {P : State → Prop} (h : Closed P)
include h

theorem fetchOpcode {s : State} (hs : P s) : P (fetchOpcode s) := h.regs _ _ (h.prog _ _ (h.read _ _ _ hs))

theorem fetchOperand {p : Bool} {f : Progress → Progress} {s : State} (hs : P s) : P (fetchOperand p f s) :=
  h.regs _ _ (h.prog _ _ (h.read _ _ _ hs))

theorem dummyFetch {p : Bool} {s : State} (hs : P s) : P (dummyFetch p s) := h.read _ _ _ hs

theorem push {p : Bool} {v : Byte} {s : State} (hs : P s) : P (push p v s) := h.regs _ _ (h.write _ _ _ _ hs)

theorem beforePull {s : State} (hs : P s) : P (beforePull s) := h.regs _ _ (h.read _ _ _ hs)

theorem stackRead {p : Bool} {s : State} (hs : P s) : P (stackRead p s) := h.read _ _ _ hs

theorem readPointer {s : State} (hs : P s) : P (readPointer s) := by
  unfold Machine.readPointer
  dsimp only
  exact h.prog _ _ (h.read _ _ _ (h.prog _ _ (h.read _ _ _ hs)))

theorem addrZp {d : Byte} {s : State} (hs : P s) : P (addrZp d s) := h.fetchOperand (h.fetchOpcode hs)

theorem addrAbs {a : Addr} {s : State} (hs : P s) : P (addrAbs a s) := h.fetchOperand (h.fetchOperand (h.fetchOpcode hs))

theorem fixupCycle {s : State} (hs : P s) : P (fixupCycle s) := h.prog _ _ (h.read _ _ _ hs)

theorem addressed (m : AddrMode) {a : Addr} {s : State} (hs : P s) : P (m.addressed a s) := by
  cases m with
  | zp => exact h.addrZp hs
  | zpx => unfold AddrMode.addressed addrZpIndexed; dsimp only; exact h.prog _ _ (h.read _ _ _ (h.addrZp hs))
  | zpy => unfold AddrMode.addressed addrZpIndexed; dsimp only; exact h.prog _ _ (h.read _ _ _ (h.addrZp hs))
  | abs => exact h.addrAbs hs
  | abx => exact h.prog _ _ (h.addrAbs hs)
  | aby => exact h.prog _ _ (h.addrAbs hs)
  | izx => exact h.readPointer (h.prog _ _ (h.read _ _ _ (h.addrZp hs)))
  | izy => exact h.prog _ _ (h.readPointer (h.fetchOperand (h.fetchOpcode hs)))

theorem beforeRead (m : AddrMode) {a : Addr} {s : State} (hs : P s) : P (m.beforeRead a s) := by
  unfold AddrMode.beforeRead
  dsimp only
  split
  · exact h.fixupCycle (h.addressed m hs)
  · exact h.addressed m hs

theorem beforeWrite (m : AddrMode) {a : Addr} {s : State} (hs : P s) : P (m.beforeWrite a s) := by
  unfold AddrMode.beforeWrite
  dsimp only
  split
  · exact h.fixupCycle (h.addressed m hs)
  · exact h.addressed m hs

theorem loadVector {v : Addr} {s : State} (hs : P s) : P (loadVector v s) := by
  unfold Machine.loadVector
  dsimp only
  exact h.regs _ _ (h.read _ _ _ (h.regs _ _ (h.read _ _ _ hs)))

theorem enterInterrupt {b : Bool} {s : State} (hs : P s) : P (enterInterrupt b s) :=
  h.loadVector (h.push (h.nmi _ _ (h.push (h.push hs))))

theorem leaveInterrupt {s : State} (hs : P s) : P (leaveInterrupt s) := by
  unfold Machine.leaveInterrupt
  dsimp only
  exact h.regs _ _ (h.stackRead (h.regs _ _ (h.stackRead (h.regs _ _ (h.stackRead (h.beforePull hs))))))

/-- The interrupt sequence keeps the property. -/
theorem interruptSequence {s : State} (hs : P s) : P (interruptSequence s) :=
  h.toCpuClosed.finish (h.enterInterrupt (h.dummyFetch (h.int _ (h.dummyFetch (h.prog _ _ hs)))))

/-- The reset sequence keeps the property. -/
theorem resetSequence {s : State} (hs : P s) : P (resetSequence s) :=
  h.toCpuClosed.finish (h.loadVector (h.regs _ _ (h.read _ _ _ (h.regs _ _ (h.read _ _ _ (h.regs _ _ (h.read _ _ _
    (h.dummyFetch (h.dummyFetch (h.prog _ _ hs))))))))))

theorem branch {cond : Flags → Bool} {d : Byte} {s : State} (hs : P s) : P (branch cond d s) := by
  have ht := h.fetchOperand (p := true) (f := fun g => { g with data := d }) (h.fetchOpcode hs)
  unfold Machine.branch
  dsimp only
  split
  · split
    · exact h.toCpuClosed.finish (h.regs _ _ (h.dummyFetch ht))
    · exact h.toCpuClosed.finish (h.regs _ _ (h.dummyFetch (h.regs _ _ (h.dummyFetch ht))))
  · exact h.toCpuClosed.finish ht

/-- Every sequence keeps the property. -/
theorem run (sh : Shape) (a : Addr) {s : State} (hs : P s) : P (sh.run a s) := by
  cases sh with
  | implied op => exact h.toCpuClosed.finish (h.regs _ _ (h.dummyFetch (h.fetchOpcode hs)))
  | imm op => exact h.toCpuClosed.finish (h.regs _ _ (h.fetchOperand (h.fetchOpcode hs)))
  | read m op => exact h.toCpuClosed.finish (h.regs _ _ (h.read _ _ _ (h.beforeRead m hs)))
  | store m val => exact h.toCpuClosed.finish (h.write _ _ _ _ (h.beforeWrite m hs))
  | rmw m new op =>
    exact h.toCpuClosed.finish (h.regs _ _ (h.write _ _ _ _ (h.write _ _ _ _ (h.prog _ _ (h.read _ _ _ (h.beforeWrite m hs))))))
  | unstable m val op => exact h.toCpuClosed.finish (h.regs _ _ (h.write _ _ _ _ (h.fixupCycle (h.addressed m hs))))
  | branch cond => exact h.branch hs
  | jmpAbs => exact h.toCpuClosed.finish (h.regs _ _ (h.dummyFetch (h.fetchOperand (h.fetchOpcode hs))))
  | jmpInd => exact h.toCpuClosed.finish (h.regs _ _ (h.read _ _ _ (h.prog _ _ (h.read _ _ _ (h.addrAbs hs)))))
  | jsr =>
    exact h.toCpuClosed.finish (h.regs _ _ (h.dummyFetch (h.push (h.push (h.stackRead (h.fetchOperand (h.fetchOpcode hs)))))))
  | rts =>
    exact h.toCpuClosed.finish (h.regs _ _ (h.dummyFetch (h.regs _ _ (h.stackRead (h.regs _ _ (h.stackRead (h.beforePull
      (h.dummyFetch (h.fetchOpcode hs)))))))))
  | rti => exact h.toCpuClosed.finish (h.leaveInterrupt (h.dummyFetch (h.fetchOpcode hs)))
  | brk => exact h.toCpuClosed.finish (h.enterInterrupt (h.fetchOperand (h.fetchOpcode hs)))
  | pushOf val => exact h.toCpuClosed.finish (h.push (h.dummyFetch (h.fetchOpcode hs)))
  | pullTo op => exact h.toCpuClosed.finish (h.regs _ _ (h.stackRead (h.beforePull (h.dummyFetch (h.fetchOpcode hs)))))
  | jam => exact h.toCpuClosed.finish (h.halt _ (h.dummyFetch (h.fetchOpcode hs)))

/-- Every instruction answers a next state that has the property. -/
theorem exec (i : Instr) {s : State} (hs : P s) : ∃ t, exec i s = .next t ∧ P t :=
  ⟨_, exec_eq_run i s, h.run _ _ hs⟩

/-! ## To the end of what is in flight -/

theorem runRow {s : State} (hs : P s) : P (runRow s) := by
  unfold Machine.runRow
  dsimp only
  split
  · exact h.toCpuClosed.nextRow _ _ (fun _ => h.halt) (h.write _ _ _ _ hs)
  · exact h.toCpuClosed.nextRow _ _ (fun _ => h.halt) (h.read _ _ _ hs)

theorem runRows (n : Nat) {s : State} (hs : P s) : P (runRows n s) := by
  induction n generalizing s with
  | zero => exact hs
  | succ n ih =>
    unfold Machine.runRows
    split
    · exact hs
    · exact ih (h.runRow hs)

/-- The completion of what is in flight keeps the property. -/
theorem completeInFlight {s : State} (hs : P s) : P (completeInFlight s) := h.runRows 8 hs

/-! ## Steps -/

/-- Every step answers a next state that has the property, if a cycle of the halted Cpu keeps it too. -/
theorem step (hh : ∀ s, P s → P (haltedCycle s)) {s : State} (hs : P s) : ∃ t, step s = .next t ∧ P t := by
  unfold Machine.step
  split
  · exact ⟨_, rfl, hh _ hs⟩
  split
  · exact ⟨_, rfl, h.completeInFlight hs⟩
  split
  · exact ⟨_, rfl, h.interruptSequence hs⟩
  · exact h.exec _ hs

end Closed

end Sys2Proof.Machine
end

