-- ==== Sys2Proof/Laws/Timing.lean ====
section
/-! SUPPORT. How many Cpu cycles each operation takes when no DMA unit has work, up to a whole instruction. -/

namespace Sys2Proof.Machine

/-! ## One cycle -/

theorem dmaQuiet_congr {s t : State} (hd : t.dma = s.dma) (hr : t.apu.dmc.remaining = s.apu.dmc.remaining) :
    t.dmaQuiet = s.dmaQuiet := by
  simp only [State.dmaQuiet, hd, hr]

theorem dots_fields (n : Nat) (s : State) :
    (dots n s).dma = s.dma ∧ (dots n s).apu = s.apu ∧ (dots n s).cycle = s.cycle := by
  induction n generalizing s with
  | zero => exact ⟨rfl, rfl, rfl⟩
  | succ n ih => exact ih (dot s)

@[simp] theorem endCycle_cycle (w : Bool) (s : State) : (endCycle w s).cycle = s.cycle + 1 := by
  have e : (endCycle w s).cycle = (dots s.dotsThisCycle s).cycle + 1 := rfl
  rw [e, (dots_fields _ _).2.2]

theorem Dmc.clockOutput_remaining (u : Dmc) : u.clockOutput.remaining = u.remaining := by
  unfold Dmc.clockOutput
  dsimp only
  split
  · split <;> rfl
  · rfl

theorem Dmc.tick_remaining (u : Dmc) (r : Region) : (u.tick r).remaining = u.remaining := by
  unfold Dmc.tick
  split
  · exact u.clockOutput_remaining
  · rfl

theorem Apu.sequence_dmc (s : Apu) (r : Region) : (s.sequence r).dmc = s.dmc := by
  unfold Apu.sequence
  dsimp only
  split
  · split <;> rfl
  · split <;> split <;> rfl

theorem Apu.stepCycle_remaining (s : Apu) (r : Region) (c : Nat) : (s.stepCycle r c).dmc.remaining = s.dmc.remaining := by
  show ((s.sequence r).tick r c).dmc.remaining = s.dmc.remaining
  unfold Apu.tick
  split
  · exact (Dmc.tick_remaining _ _).trans (congrArg Dmc.remaining (s.sequence_dmc r))
  · exact congrArg Dmc.remaining (s.sequence_dmc r)

theorem dmaQuiet_iff (s : State) :
    s.dmaQuiet = true ↔ s.dma.oamPending = false ∧ s.dma.dmcPending = false ∧ s.dma.stall = 0 ∧ s.apu.dmc.remaining = 0 := by
  simp [State.dmaQuiet, and_assoc]

/-- A cycle gives no DMA unit work. -/
theorem endCycle_quiet (w : Bool) (s : State) (h : s.dmaQuiet = true) : (endCycle w s).dmaQuiet = true := by
  rw [dmaQuiet_iff] at h ⊢
  obtain ⟨h1, -, h3, h4⟩ := h
  obtain ⟨d1, d2, -⟩ := dots_fields s.dotsThisCycle s
  have er : (endCycle w s).apu.dmc.remaining = 0 := by
    show (((dots s.dotsThisCycle s).apu.stepCycle _ _).dmc.remaining) = 0
    rw [Apu.stepCycle_remaining, d2, h4]
  have ed : (endCycle w s).dma = { (dots s.dotsThisCycle s).dma with dmcPending := (endCycle w s).apu.dmc.wantsByte } := rfl
  have ew : (endCycle w s).apu.dmc.wantsByte = false := by simp [Dmc.wantsByte, er]
  rw [ed, d1, ew]
  exact ⟨h1, rfl, h3, er⟩

/-- With no DMA work the Cpu is not stopped. -/
theorem stalls_quiet (s : State) (h : s.dmaQuiet = true) : stalls s = s := by
  rw [dmaQuiet_iff] at h
  simp [stalls, oamDma, sharedFetch, dmcDma, h.1, h.2.1]

theorem busAfterRead_fields (a : Addr) (s : State) :
    (busAfterRead a s).dma = s.dma ∧ (busAfterRead a s).apu.dmc = s.apu.dmc ∧ (busAfterRead a s).cycle = s.cycle := by
  unfold busAfterRead
  dsimp only
  repeat' split
  all_goals exact ⟨rfl, rfl, rfl⟩

@[simp] theorem dmcTake_cycle (s : State) : (dmcTake s).cycle = s.cycle := (busAfterRead_fields s.apu.dmc.addr s).2.2

/-- Where a put-off fetch is settled, nothing but the fetch itself happens. -/
theorem oamMeet_fields (s : State) : (oamMeet s).cpu = s.cpu ∧ (oamMeet s).cycle = s.cycle := by
  unfold oamMeet
  repeat' split
  · exact ⟨dmcTake_cpu s, dmcTake_cycle s⟩
  all_goals exact ⟨rfl, rfl⟩

@[inherit_doc oamMeet_fields]
theorem oamLast_fields (s : State) : (oamLast s).cpu = s.cpu ∧ (oamLast s).cycle = s.cycle := by
  unfold oamLast
  split <;> exact ⟨rfl, rfl⟩

@[inherit_doc oamMeet_fields]
theorem sharedFetch_fields (s : State) : (sharedFetch s).cpu = s.cpu ∧ (sharedFetch s).cycle = s.cycle := by
  unfold sharedFetch
  split
  · exact ⟨dmcTake_cpu s, dmcTake_cycle s⟩
  · exact ⟨rfl, rfl⟩

theorem busWrite_cycle (a : Addr) (v : Byte) (s : State) : (busWrite a v s).cycle = s.cycle := by
  unfold busWrite
  dsimp only
  repeat' split
  all_goals rfl

theorem busWrite_memory (a : Addr) (v : Byte) (s : State) (h : a.toNat < 0x2000) :
    (busWrite a v s).dma = s.dma ∧ (busWrite a v s).apu = s.apu := by
  unfold busWrite
  dsimp only
  rw [if_pos h]
  exact ⟨rfl, rfl⟩

/-! ## Composing -/

/-- `t` is `n` cycles after `s`, and no DMA unit has work in `t`, if none has in `s`. -/
structure After (n : Nat) (s t : State) : Prop where
  cycle : s.dmaQuiet = true → t.cycle = s.cycle + n
  quiet : s.dmaQuiet = true → t.dmaQuiet = true

theorem After.trans {n m : Nat} {s t u : State} (h : After n s t) (h' : After m t u) : After (n + m) s u :=
  ⟨fun q => by rw [h'.cycle (h.quiet q), h.cycle q, Nat.add_assoc], fun q => h'.quiet (h.quiet q)⟩

theorem After.takes {n : Nat} {s t : State} (h : After n s t) : Takes n s t := h.cycle

theorem After.thenTakes {n m : Nat} {s t u : State} (h : After n s t) (h' : Takes m t u) : Takes (n + m) s u :=
  fun q => by rw [h' (h.quiet q), h.cycle q, Nat.add_assoc]

/-- What changes neither time nor DMA takes no cycle. -/
theorem After.zero {s t : State} (hc : t.cycle = s.cycle) (hd : t.dma = s.dma) (ha : t.apu = s.apu) : After 0 s t :=
  ⟨fun _ => hc, fun q => by rw [dmaQuiet_congr hd (by rw [ha]), q]⟩

theorem mapRegs_after (f : Regs → Regs) (s : State) : After 0 s (s.mapRegs f) := .zero rfl rfl rfl

theorem mapProg_after (f : Progress → Progress) (s : State) : After 0 s (s.mapProg f) := .zero rfl rfl rfl

theorem finish_takes {n : Nat} {s t : State} (h : Takes n s t) : Takes n s (finish t) := h

theorem mapRegs_takes {n : Nat} {s t : State} {f : Regs → Regs} (h : Takes n s t) : Takes n s (t.mapRegs f) := h

/-- With no DMA work a read cycle begins at once. -/
theorem beginRead_quiet (p : Bool) (s : State) (h : s.dmaQuiet = true) :
    (beginRead p s).dma = s.dma ∧ (beginRead p s).apu = s.apu ∧ (beginRead p s).cycle = s.cycle := by
  unfold beginRead
  dsimp only
  rw [stalls_quiet s h]
  cases p <;> exact ⟨rfl, rfl, rfl⟩

theorem readCycle_after (p : Bool) (a : Addr) (s : State) : After 1 s (readCycle p a s) := by
  refine ⟨fun q => ?_, fun q => ?_⟩
  · unfold readCycle
    rw [endCycle_cycle, (busAfterRead_fields _ _).2.2, (beginRead_quiet p s q).2.2]
  · obtain ⟨b1, b2, -⟩ := beginRead_quiet p s q
    obtain ⟨r1, r2, -⟩ := busAfterRead_fields a (beginRead p s)
    refine endCycle_quiet _ _ ?_
    rw [dmaQuiet_congr (r1.trans b1) (by rw [r2, b2]), q]

theorem writeCycle_takes (p : Bool) (a : Addr) (v : Byte) (s : State) : Takes 1 s (writeCycle p a v s) := by
  intro _
  unfold writeCycle
  rw [endCycle_cycle, busWrite_cycle]
  cases p <;> rfl

/-- A write cycle always takes one cycle: DMA cannot stop the Cpu in front of it (R105). -/
theorem writeCycle_cycle (p : Bool) (a : Addr) (v : Byte) (s : State) : (writeCycle p a v s).cycle = s.cycle + 1 := by
  unfold writeCycle
  rw [endCycle_cycle, busWrite_cycle]
  cases p <;> rfl

theorem writeCycle_after (p : Bool) (a : Addr) (v : Byte) (s : State) (h : a.toNat < 0x2000) :
    After 1 s (writeCycle p a v s) := by
  refine ⟨writeCycle_takes p a v s, fun q => endCycle_quiet _ _ ?_⟩
  obtain ⟨w1, w2⟩ := busWrite_memory a v ((if p then poll s else s).mapProg (fun g => { g with tcycle := g.tcycle + 1 })) h
  refine (dmaQuiet_congr (w1.trans ?_) ((congrArg (fun u : Apu => u.dmc.remaining) w2).trans ?_)).trans q
  · cases p <;> rfl
  · cases p <;> rfl

/-! ## The cycles of a sequence -/

theorem fetchOpcode_after (s : State) : After 1 s (fetchOpcode s) :=
  ((readCycle_after _ _ s).trans (mapProg_after _ _)).trans (mapRegs_after _ _)

theorem fetchOperand_after (p : Bool) (f : Progress → Progress) (s : State) : After 1 s (fetchOperand p f s) :=
  ((readCycle_after _ _ s).trans (mapProg_after _ _)).trans (mapRegs_after _ _)

theorem dummyFetch_after (p : Bool) (s : State) : After 1 s (dummyFetch p s) := readCycle_after _ _ s

theorem stackRead_after (p : Bool) (s : State) : After 1 s (stackRead p s) := readCycle_after _ _ s

theorem beforePull_after (s : State) : After 1 s (beforePull s) := (readCycle_after _ _ s).trans (mapRegs_after _ _)

theorem push_after (p : Bool) (v : Byte) (s : State) : After 1 s (push p v s) := by
  refine (writeCycle_after p _ v s ?_).trans (mapRegs_after _ _)
  have := stackIndex_lt s.cpu.regs.s
  rw [stackAddr_toNat]; omega

theorem jump_after (s : State) (a : Addr) : After 0 s (s.jump a) := mapRegs_after _ _

theorem readPointer_after (s : State) : After 2 s (readPointer s) := by
  unfold readPointer
  dsimp only
  exact (((readCycle_after _ _ s).trans (mapProg_after _ _)).trans (readCycle_after _ _ _)).trans (mapProg_after _ _)

theorem addrZp_after (d : Byte) (s : State) : After 2 s (addrZp d s) :=
  (fetchOpcode_after s).trans (fetchOperand_after _ _ _)

theorem addrZpIndexed_after (f : Regs → Byte) (d : Byte) (s : State) : After 3 s (addrZpIndexed f d s) := by
  unfold addrZpIndexed
  dsimp only
  exact ((addrZp_after d s).trans (readCycle_after _ _ _)).trans (mapProg_after _ _)

theorem addrAbs_after (a : Addr) (s : State) : After 3 s (addrAbs a s) :=
  ((fetchOpcode_after s).trans (fetchOperand_after _ _ _)).trans (fetchOperand_after _ _ _)

theorem addrIndexed_after (f : Regs → Byte) (a : Addr) (s : State) : After 3 s (addrIndexed f a s) := by
  unfold addrIndexed
  dsimp only
  exact (addrAbs_after a s).trans (mapProg_after _ _)

theorem addrIzx_after (d : Byte) (s : State) : After 5 s (addrIzx d s) := by
  unfold addrIzx
  dsimp only
  exact (((addrZp_after d s).trans (readCycle_after _ _ _)).trans (mapProg_after _ _)).trans (readPointer_after _)

theorem addrIzy_after (d : Byte) (s : State) : After 4 s (addrIzy d s) := by
  unfold addrIzy
  dsimp only
  exact (((fetchOpcode_after s).trans (fetchOperand_after _ _ _)).trans (readPointer_after _)).trans (mapProg_after _ _)

/-- The address cycles of a mode. -/
theorem AddrMode.addressed_after (m : AddrMode) (a : Addr) (s : State) : After m.cycles s (m.addressed a s) := by
  cases m with
  | zp => exact addrZp_after _ s
  | zpx => exact addrZpIndexed_after _ _ s
  | zpy => exact addrZpIndexed_after _ _ s
  | abs => exact addrAbs_after _ s
  | abx => exact addrIndexed_after _ _ s
  | aby => exact addrIndexed_after _ _ s
  | izx => exact addrIzx_after _ s
  | izy => exact addrIzy_after _ s

theorem fixupCycle_after (s : State) : After 1 s (fixupCycle s) := (readCycle_after _ _ s).trans (mapProg_after _ _)

theorem AddrMode.beforeRead_after (m : AddrMode) (a : Addr) (s : State) :
    After (m.cycles + if m.crosses a s then 1 else 0) s (m.beforeRead a s) := by
  unfold AddrMode.beforeRead
  dsimp only
  split
  · exact (m.addressed_after a s).trans (fixupCycle_after _)
  · exact m.addressed_after a s

theorem AddrMode.beforeWrite_after (m : AddrMode) (a : Addr) (s : State) :
    After (m.cycles + if m.indexed then 1 else 0) s (m.beforeWrite a s) := by
  unfold AddrMode.beforeWrite
  dsimp only
  split
  · exact (m.addressed_after a s).trans (fixupCycle_after _)
  · exact m.addressed_after a s

theorem loadVector_after (v : Addr) (s : State) : After 2 s (loadVector v s) := by
  unfold loadVector
  dsimp only
  exact (((readCycle_after _ _ s).trans (mapRegs_after _ _)).trans (readCycle_after _ _ _)).trans (mapRegs_after _ _)

theorem clearNmi_after (s : State) : After 0 s (clearNmi s) := .zero rfl rfl rfl

theorem enterInterrupt_after (b : Bool) (s : State) : After 5 s (enterInterrupt b s) := by
  unfold enterInterrupt
  dsimp only
  exact ((((push_after _ _ s).trans (push_after _ _ _)).trans (clearNmi_after _)).trans (push_after _ _ _)).trans
    (loadVector_after _ _)

theorem leaveInterrupt_after (s : State) : After 4 s (leaveInterrupt s) := by
  unfold leaveInterrupt
  dsimp only
  exact ((((((beforePull_after s).trans (stackRead_after _ _)).trans (mapRegs_after _ _)).trans (stackRead_after _ _)).trans
    (mapRegs_after _ _)).trans (stackRead_after _ _)).trans (mapRegs_after _ _)

/-- The interrupt sequence takes 7 cycles (R319). -/
theorem interruptSequence_takes (s : State) : Takes 7 s (interruptSequence s) := by
  have int_after (t : State) (b : Bool) : After 0 t { t with cpu := { t.cpu with intDetected := b } } := .zero rfl rfl rfl
  unfold interruptSequence
  dsimp only
  exact finish_takes (((((mapProg_after _ s).trans (dummyFetch_after _ _)).trans (int_after _ _)).trans
    (dummyFetch_after _ _)).trans (enterInterrupt_after _ _)).takes

/-! ## A whole instruction -/

/-- The cycles of a branch (R310). -/
def branchCount (cond : Flags → Bool) (d : Byte) (s : State) : Nat :=
  if cond s.cpu.regs.p then
    if hi (s.cpu.regs.pc + 2 + sext d) = hi (s.cpu.regs.pc + 2) then 3 else 4
  else 2

theorem branch_takes (cond : Flags → Bool) (d : Byte) (s : State) : Takes (branchCount cond d s) s (branch cond d s) := by
  have ht := (fetchOpcode_after s).trans (fetchOperand_after true (fun g => { g with data := d }) _)
  have hr : (fetchOperand true (fun g => { g with data := d }) (fetchOpcode s)).cpu.regs = s.cpu.regs.advance 2 := by
    rw [fetchOperand_regs, fetchOpcode_regs, Regs.incPc_twice]
  unfold branch branchCount
  dsimp only
  generalize fetchOperand true (fun g => { g with data := d }) (fetchOpcode s) = t at ht hr
  rw [hr, Regs.advance_p, Regs.advance_pc]
  by_cases hc : cond s.cpu.regs.p = true
  · rw [if_pos hc, if_pos hc]
    by_cases hh : hi (s.cpu.regs.pc + 2 + sext d) = hi (s.cpu.regs.pc + 2)
    · rw [if_pos hh, if_pos hh]
      exact finish_takes ((ht.trans (dummyFetch_after _ _)).trans (jump_after _ _)).takes
    · rw [if_neg hh, if_neg hh]
      exact finish_takes ((((ht.trans (dummyFetch_after _ _)).trans (jump_after _ _)).trans (dummyFetch_after _ _)).trans
        (jump_after _ _)).takes
  · rw [if_neg hc, if_neg hc]
    exact finish_takes ht.takes

/-- The cycles of a sequence when no DMA unit has work (R322). -/
def Shape.count (sh : Shape) (a : Addr) (s : State) : Nat :=
  match sh with
  | .implied _ => 2
  | .imm _ => 2
  | .read m _ => m.cycles + (if m.crosses a s then 1 else 0) + 1
  | .store m _ => m.cycles + (if m.indexed then 1 else 0) + 1
  | .rmw m _ _ => m.cycles + (if m.indexed then 1 else 0) + 3
  | .unstable m _ _ => m.cycles + 2
  | .branch cond => branchCount cond (lo a) s
  | .jmpAbs => 3
  | .jmpInd => 5
  | .jsr => 6
  | .rts => 6
  | .rti => 6
  | .brk => 7
  | .pushOf _ => 3
  | .pullTo _ => 4
  | .jam => 2

theorem Shape.run_takes (sh : Shape) (a : Addr) (s : State) : Takes (sh.count a s) s (sh.run a s) := by
  cases sh with
  | implied op =>
    exact finish_takes (((fetchOpcode_after s).trans (dummyFetch_after true _)).trans (mapRegs_after _ _)).takes
  | imm op =>
    exact finish_takes (((fetchOpcode_after s).trans (fetchOperand_after true _ _)).trans (mapRegs_after _ _)).takes
  | read m op =>
    exact finish_takes (((m.beforeRead_after a s).trans (readCycle_after true _ _)).trans (mapRegs_after _ _)).takes
  | store m val => exact finish_takes ((m.beforeWrite_after a s).thenTakes (writeCycle_takes true _ _ _))
  | rmw m new op =>
    have h := (m.beforeWrite_after a s).trans (readCycle_after false (m.beforeWrite a s).target _)
    intro q
    unfold Shape.run AddrMode.rmw rmwTarget
    dsimp only
    show (writeCycle true _ _ _).cycle = _
    rw [writeCycle_cycle, writeCycle_cycle]
    show (readCycle false _ _).cycle + 1 + 1 = _
    rw [h.cycle q]
    rfl
  | unstable m val op =>
    exact finish_takes (mapRegs_takes
      (((m.addressed_after a s).trans (fixupCycle_after _)).thenTakes (writeCycle_takes true _ _ _)))
  | branch cond => exact branch_takes cond _ s
  | jmpAbs =>
    exact finish_takes ((((fetchOpcode_after s).trans (fetchOperand_after false _ _)).trans (dummyFetch_after true _)).trans
      (jump_after _ _)).takes
  | jmpInd =>
    exact finish_takes ((((((addrAbs_after a s).trans (readCycle_after false _ _)).trans (mapProg_after _ _)).trans
      (readCycle_after true _ _))).trans (jump_after _ _)).takes
  | jsr =>
    exact finish_takes ((((((((fetchOpcode_after s).trans (fetchOperand_after false _ _)).trans (stackRead_after false _)).trans
      (push_after false _ _)).trans (push_after false _ _)).trans (dummyFetch_after true _))).trans (jump_after _ _)).takes
  | rts =>
    exact finish_takes (((((((((fetchOpcode_after s).trans (dummyFetch_after false _)).trans (beforePull_after _)).trans
      (stackRead_after false _)).trans (mapRegs_after _ _)).trans (stackRead_after false _)).trans (jump_after _ _)).trans
      (dummyFetch_after true _)).trans (mapRegs_after _ _)).takes
  | rti =>
    exact finish_takes ((((fetchOpcode_after s).trans (dummyFetch_after false _))).trans (leaveInterrupt_after _)).takes
  | brk =>
    exact finish_takes ((((fetchOpcode_after s).trans (fetchOperand_after false _ _))).trans (enterInterrupt_after _ _)).takes
  | pushOf val =>
    exact finish_takes (((fetchOpcode_after s).trans (dummyFetch_after false _)).trans (push_after true _ _)).takes
  | pullTo op =>
    exact finish_takes (((((fetchOpcode_after s).trans (dummyFetch_after false _)).trans (beforePull_after _)).trans
      (stackRead_after true _)).trans (mapRegs_after _ _)).takes
  | jam =>
    have halt_takes (t : State) (h : After 2 s t) : Takes 2 s (finish { t with cpu := { t.cpu with halted := true } }) :=
      h.cycle
    exact halt_takes _ ((fetchOpcode_after s).trans (dummyFetch_after false _))

/-! ## The table of cycle counts agrees with the sequences -/

/-- What the cycle count of a sequence depends on: the count without page-cross and branch cycles, the mode whose crossing
counts, whether it is a branch. -/
def Shape.timing (sh : Shape) : Nat × Option AddrMode × Bool :=
  match sh with
  | .implied _ => (2, none, false)
  | .imm _ => (2, none, false)
  | .read m _ => (m.cycles + 1, if m.indexed then some m else none, false)
  | .store m _ => (m.cycles + (if m.indexed then 1 else 0) + 1, none, false)
  | .rmw m _ _ => (m.cycles + (if m.indexed then 1 else 0) + 3, none, false)
  | .unstable m _ _ => (m.cycles + 2, none, false)
  | .branch _ => (2, none, true)
  | .jmpAbs => (3, none, false)
  | .jmpInd => (5, none, false)
  | .jsr => (6, none, false)
  | .rts => (6, none, false)
  | .rti => (6, none, false)
  | .brk => (7, none, false)
  | .pushOf _ => (3, none, false)
  | .pullTo _ => (4, none, false)
  | .jam => (2, none, false)

theorem shapeRow_timing (p q : Params) (k : Nat) : (shapeRow p k).map Shape.timing = (shapeRow q k).map Shape.timing := by
  match k with
  | 0 => rfl
  | 1 => rfl
  | 2 => rfl
  | 3 => rfl
  | 4 => rfl
  | 5 => rfl
  | 6 => rfl
  | 7 => rfl
  | 8 => rfl
  | 9 => rfl
  | 10 => rfl
  | 11 => rfl
  | 12 => rfl
  | 13 => rfl
  | 14 => rfl
  | _ + 15 => rfl

theorem shapeOf_timing (p q : Params) (op : Byte) : (shapeOf p op).timing = (shapeOf q op).timing := by
  have h := shapeRow_timing p q (op.toNat / 16)
  unfold shapeOf
  rw [← List.getD_map (f := Shape.timing), ← List.getD_map (f := Shape.timing), h]

theorem shapeOf_default_timing :
    ∀ op : Byte, (shapeOf Params.default op).timing = (baseCycles op, plusMode op, isBranch op) := by
  decide +kernel

/-- The sequence of an opcode has the base count, the page-cross mode and the branch bit of the tables. -/
theorem shapeOf_tables (p : Params) (op : Byte) :
    (shapeOf p op).timing = (baseCycles op, plusMode op, isBranch op) :=
  (shapeOf_timing p Params.default op).trans (shapeOf_default_timing op)

theorem isBranch_cases : ∀ op : Byte, isBranch op = true →
    op = 0x10 ∨ op = 0x30 ∨ op = 0x50 ∨ op = 0x70 ∨ op = 0x90 ∨ op = 0xB0 ∨ op = 0xD0 ∨ op = 0xF0 := by
  decide +kernel

/-- The condition of a branch's sequence is the one its opcode bits say. -/
theorem shapeOf_branch (p : Params) (op : Byte) (h : isBranch op = true) :
    ∃ cond, shapeOf p op = .branch cond ∧ ∀ f, cond f = branchTaken op f := by
  obtain rfl | rfl | rfl | rfl | rfl | rfl | rfl | rfl := isBranch_cases op h
  · exact ⟨_, rfl, fun f => by cases h : f.n <;> simp [branchTaken, branchFlag, h]⟩
  · exact ⟨_, rfl, fun f => by cases h : f.n <;> simp [branchTaken, branchFlag, h]⟩
  · exact ⟨_, rfl, fun f => by cases h : f.v <;> simp [branchTaken, branchFlag, h]⟩
  · exact ⟨_, rfl, fun f => by cases h : f.v <;> simp [branchTaken, branchFlag, h]⟩
  · exact ⟨_, rfl, fun f => by cases h : f.c <;> simp [branchTaken, branchFlag, h]⟩
  · exact ⟨_, rfl, fun f => by cases h : f.c <;> simp [branchTaken, branchFlag, h]⟩
  · exact ⟨_, rfl, fun f => by cases h : f.z <;> simp [branchTaken, branchFlag, h]⟩
  · exact ⟨_, rfl, fun f => by cases h : f.z <;> simp [branchTaken, branchFlag, h]⟩

/-- A sequence's count in terms of its timing, when it is no branch. -/
theorem Shape.count_eq (sh : Shape) (a : Addr) (s : State) (h : sh.timing.2.2 = false) :
    sh.count a s = sh.timing.1 + (match sh.timing.2.1 with | some m => if m.crosses a s then 1 else 0 | none => 0) := by
  cases sh with
  | read m op =>
    cases m <;> simp only [Shape.count, Shape.timing, AddrMode.indexed, AddrMode.crosses, if_true, if_false,
      Bool.false_and, Bool.false_eq_true] <;> omega
  | branch c => simp [Shape.timing] at h
  | _ => rfl

/-- The table's count is the sequence's. -/
theorem cyclesOf_eq (op : Byte) (a : Addr) (s : State) : cyclesOf op a s = (shapeOf s.params op).count a s := by
  have ht := shapeOf_tables s.params op
  by_cases hb : isBranch op = true
  · obtain ⟨cond, hs, hc⟩ := shapeOf_branch s.params op hb
    have hbase : baseCycles op = 2 := by rw [hs] at ht; exact (congrArg Prod.fst ht).symm
    have hplus : plusMode op = none := by rw [hs] at ht; exact (congrArg (fun x => x.2.1) ht).symm
    rw [hs]
    simp only [cyclesOf, extraCycles, hplus, hbase, hb, Bool.true_and, Shape.count, branchCount, hc]
    split
    · split <;> rfl
    · rfl
  · rw [Shape.count_eq _ a s (by rw [ht]; simpa using hb), ht]
    simp only [cyclesOf, extraCycles]
    cases plusMode op with
    | some m => rfl
    | none => simp [hb]

end Sys2Proof.Machine
end

