-- ==== Sys2Proof/Laws/Claims.lean ====
section
/-! SUPPORT. How a statement in one of the forms of `Machine/Claims.lean` follows from the sequence the instruction is. -/

namespace Sys2Proof.Machine

theorem writeCycle_halted (p : Bool) (a : Addr) (v : Byte) (s : State) :
    (writeCycle p a v s).cpu.halted = s.cpu.halted := by
  unfold writeCycle
  rw [(endCycle_kept _ _).halted, busWrite_cpu]
  cases p <;> rfl

theorem Same.claims {s t : State} (h : Same s t) : SameMemory s t ∧ t.cpu.halted = s.cpu.halted :=
  ⟨h.sameMemory, h.halted⟩

/-- The table's count for an opcode whose sequence has the given timing. -/
theorem cyclesOf_of {op : Byte} (sh : Shape) (h : sh.timing = (baseCycles op, plusMode op, isBranch op))
    (hb : sh.timing.2.2 = false) (a : Addr) (s : State) : cyclesOf op a s = sh.count a s := by
  have hb' : isBranch op = false := by rw [h] at hb; exact hb
  rw [Shape.count_eq sh a s hb, h]
  simp only [cyclesOf, extraCycles]
  cases plusMode op with
  | some m => rfl
  | none => simp [hb']

theorem actsOnRegisters_implied {op : Byte} {i : Instr} {f : Regs → Regs} {s : State} (ho : HasOpcode i op)
    (h : exec i s = .next (implied f s)) : ActsOnRegisters op i 1 f s :=
  ⟨ho, _, h, (implied_spec f s).1, (implied_spec f s).2.sameMemory, (implied_spec f s).2.halted,
    (Shape.implied f).run_takes 0 s⟩

theorem actsOnRegisters_imm {op : Byte} {i : Instr} {f : Byte → Regs → Regs} {d8 : Byte} {s : State} (ho : HasOpcode i op)
    (h : exec i s = .next (readImm f d8 s)) : ActsOnRegisters op i 2 (f d8) s :=
  ⟨ho, _, h, (readImm_spec f d8 s).1, (readImm_spec f d8 s).2.sameMemory, (readImm_spec f d8 s).2.halted, by
    have := (Shape.imm f).run_takes (word 0 d8) s
    rwa [Shape.run, lo_word] at this⟩

theorem readsOperand_of {op : Byte} {i : Instr} {m : AddrMode} {a : Addr} {f : Byte → Regs → Regs} {s : State}
    (ho : HasOpcode i op) (h : exec i s = .next (m.read f a s))
    (hc : (Shape.read m f).timing = (baseCycles op, plusMode op, isBranch op)) : ReadsOperand op i m a f s := by
  obtain ⟨h1, h2, -⟩ := m.read_spec f a s
  refine ⟨ho, fun _ hb => m.readValue_eq a s hb, _, h, ?_, h1, h2.sameMemory, h2.halted, ?_⟩
  · simp only [AddrMode.read, readTarget, m.beforeRead_target]
  rw [cyclesOf_of _ hc rfl]
  exact (Shape.read m f).run_takes a s

theorem storesByte_of {op : Byte} {i : Instr} {m : AddrMode} {a : Addr} {val : Regs → Byte} {s : State} {v : Byte}
    (ho : HasOpcode i op) (h : exec i s = .next (m.store val a s)) (hv : val (s.cpu.regs.advance m.length) = v)
    (hc : (Shape.store m val).timing = (baseCycles op, plusMode op, isBranch op)) : StoresByte op i m a v s := by
  obtain ⟨h1, h2, h3⟩ := m.store_spec val a s
  subst hv
  refine ⟨ho, _, h, h3, h1, h2, ?_, ?_⟩
  · rw [h3]
    exact (writeCycle_halted _ _ _ _).trans (m.beforeWrite_same a s).halted
  · rw [cyclesOf_of _ hc rfl]
    exact (Shape.store m val).run_takes a s

theorem AddrMode.rmw_eq (m : AddrMode) (new : Flags → Byte → Byte) (f : Byte → Regs → Regs) (a : Addr) (s : State) :
    let u := m.beforeWrite a s
    let old := readValue false (m.ea a s) u
    m.rmw new f a s
      = finish ((afterThreeAccesses (m.ea a s) old (new s.cpu.regs.p old) u).mapRegs (f old)) := by
  have ht := m.beforeWrite_target a s
  have hr := m.beforeWrite_regs a s
  dsimp only
  generalize hu : m.beforeWrite a s = u at ht hr
  simp only [AddrMode.rmw, hu, rmwTarget, ht, afterThreeAccesses]
  generalize hold : readValue false (m.ea a s) u = old
  set t1 := (readCycle false (m.ea a s) u).mapProg (fun g => { g with data := old }) with ht1
  have d1 : t1.cpu.prog.data = old := by rw [ht1]; rfl
  have e1 : t1.target = m.ea a s := by rw [← ht, ht1]; simp [State.target]
  have k1 : Kept u t1 := (readCycle_kept _ _ _).trans (mapProg_kept _ _)
  rw [e1, d1]
  have e2 : (writeCycle false (m.ea a s) old t1).target = m.ea a s := by rw [← e1]; simp [State.target]
  have r2 : (writeCycle false (m.ea a s) old t1).cpu.regs.p = s.cpu.regs.p := by rw [writeCycle_regs, k1.regs, hr]; rfl
  rw [e2, r2]

theorem modifiesByte_of {op : Byte} {i : Instr} {m : AddrMode} {a : Addr} {nw : Flags → Byte → Byte} {new : Byte → Byte}
    {f : Byte → Regs → Regs} {s : State} (ho : HasOpcode i op) (h : exec i s = .next (m.rmw nw f a s))
    (hn : nw s.cpu.regs.p = new) (hc : (Shape.rmw m nw f).timing = (baseCycles op, plusMode op, isBranch op)) :
    ModifiesByte op i m a new f s := by
  obtain ⟨h1, h2, -⟩ := m.rmw_spec nw f a s
  have h3 := m.rmw_eq nw f a s
  subst hn
  dsimp only at h3
  refine ⟨ho, fun _ hb => readValue_of_memByte false (((m.beforeWrite_same a s).memByte _).trans hb), _, h, h3, h1, h2, ?_, ?_⟩
  · rw [h3]
    show (afterThreeAccesses _ _ _ _).cpu.halted = _
    rw [afterThreeAccesses, writeCycle_halted, writeCycle_halted]
    exact (readCycle_kept _ _ _).halted.trans (m.beforeWrite_same a s).halted
  · rw [cyclesOf_of _ hc rfl]
    exact (Shape.rmw m nw f).run_takes a s

theorem branches_of {op : Byte} {i : Byte → Instr} {cond : Flags → Bool} {s : State} (ho : ∀ d, HasOpcode (i d) op)
    (h : ∀ d, exec (i d) s = .next (branch cond d s)) (hb : isBranch op = true)
    (hc : ∀ f, cond f = branchTaken op f) (h2 : baseCycles op = 2) (hp : plusMode op = none) : Branches op i cond s := by
  refine fun d => ⟨ho d, _, h d, (branch_spec cond d s).1, (branch_spec cond d s).2.sameMemory,
    (branch_spec cond d s).2.halted, ?_⟩
  have e : cyclesOf op (word 0 d) s = branchCount cond d s := by
    simp only [cyclesOf, extraCycles, hp, h2, hb, Bool.true_and, branchCount, hc, lo_word]
    split
    · split <;> rfl
    · rfl
  rw [e]
  exact branch_takes cond d s

theorem pushesByte_of {op : Byte} {i : Instr} {val : Regs → Byte} {s : State} {v : Byte} (ho : HasOpcode i op)
    (h : exec i s = .next (pushRegister val s)) (hv : val (s.cpu.regs.advance 1) = v) : PushesByte op i v s := by
  obtain ⟨h1, h2, h3⟩ := pushRegister_spec val s
  subst hv
  refine ⟨ho, _, h, h1, h2, h3, ?_, (Shape.pushOf val).run_takes 0 s⟩
  show (writeCycle true _ _ _).cpu.halted = _
  rw [writeCycle_halted]
  exact ((fetchOpcode_same s).trans (dummyFetch_same _ _)).halted

/-- What a read cycle with a poll makes of `int_detected`. -/
theorem readCycle_intDetected (a : Addr) (s : State) :
    (readCycle true a s).cpu.intDetected = (stalls s).polled s.cpu.regs.p.i := by
  unfold readCycle
  rw [endCycle_intDetected, busAfterRead_cpu, ← (stalls_kept s).regs]
  rfl

theorem pullsByte_of {op : Byte} {i : Instr} {f : Byte → Regs → Regs} {s : State} (ho : HasOpcode i op)
    (h : exec i s = .next (pullRegister f s)) : PullsByte op i f s := by
  obtain ⟨h1, h2⟩ := pullRegister_spec f s
  refine ⟨ho, _, h, h1, ?_, h2.sameMemory, h2.halted, (Shape.pullTo f).run_takes 0 s⟩
  show (readCycle true _ _).cpu.intDetected = _
  rw [readCycle_intDetected]
  simp

theorem storesAndHigh_of {op : Byte} {i : Instr} {m : AddrMode} {a : Addr} {val : Regs → Byte} {f : Regs → Regs} {s : State}
    {reg : Byte} (hm : m.indexed = true) (ho : HasOpcode i op)
    (h : exec i s = .next (storeUnstable val f (m.addressed a s))) (hv : val (s.cpu.regs.advance m.length) = reg)
    (hc : (Shape.unstable m val f).timing = (baseCycles op, plusMode op, isBranch op)) : StoresAndHigh op i m a reg f s := by
  obtain ⟨h1, h2⟩ := storeUnstable_spec m hm val f a s
  subst hv
  have e : storeUnstable val f (m.addressed a s) = finish ((writeCycle true
      (m.unstableEa (val (s.cpu.regs.advance m.length) &&& (hi (m.base a s) + 1)) a s)
      (val (s.cpu.regs.advance m.length) &&& (hi (m.base a s) + 1)) (m.beforeWrite a s)).mapRegs f) := by
    have ht := m.addressed_target a s
    rw [if_pos hm] at ht
    have hf := m.fixup_target a s hm
    obtain ⟨f1, f2, -⟩ := fixupCycle_prog (m.addressed a s)
    have e : lo (m.ea a s) = lo (m.base a s) + m.index s := by rw [← hf, State.target, lo_word, f1, ht.1]
    have eb : m.beforeWrite a s = fixupCycle (m.addressed a s) := by
      unfold AddrMode.beforeWrite
      exact if_pos hm
    simp only [storeUnstable, m.addressed_regs, ht.2.1, f1, f2, ht.1, ht.2.2.1, hf, eb, AddrMode.unstableEa, e]
  refine ⟨ho, _, h, h1, e, h2, ?_, ?_⟩
  · rw [e]
    exact (writeCycle_halted _ _ _ _).trans (m.beforeWrite_same a s).halted
  · rw [cyclesOf_of _ hc rfl]
    exact (Shape.unstable m val f).run_takes a s

end Sys2Proof.Machine
end

