-- ==== Sys2Proof/Laws/Dots.lean ====
section
/-! SUPPORT. What one dot step leaves alone: the latches a program writes, OAM, palette RAM and nametable memory; and, after the
change of position, the position, the parity and the finished frame. -/

namespace Sys2Proof.Machine

/-- What no dot step changes: everything a program stores in the Ppu but `v`, `oam_addr` and the status flags. -/
structure Ppu.SameLatches (p q : Ppu) : Prop where
  t          : q.t = p.t
  x          : q.x = p.x
  w          : q.w = p.w
  ctrl       : q.ctrl = p.ctrl
  mask       : q.mask = p.mask
  readBuffer : q.readBuffer = p.readBuffer
  ioLatch    : q.ioLatch = p.ioLatch
  oam        : q.oam = p.oam
  palette    : q.palette = p.palette
  vram       : q.vram = p.vram

theorem Ppu.SameLatches.refl (p : Ppu) : p.SameLatches p := ⟨rfl, rfl, rfl, rfl, rfl, rfl, rfl, rfl, rfl, rfl⟩

theorem Ppu.SameLatches.trans {p q r : Ppu} (h : p.SameLatches q) (h' : q.SameLatches r) : p.SameLatches r :=
  ⟨h'.t.trans h.t, h'.x.trans h.x, h'.w.trans h.w, h'.ctrl.trans h.ctrl, h'.mask.trans h.mask,
    h'.readBuffer.trans h.readBuffer, h'.ioLatch.trans h.ioLatch, h'.oam.trans h.oam, h'.palette.trans h.palette,
    h'.vram.trans h.vram⟩

/-- What the work of a dot leaves alone after the change of position. -/
structure Ppu.SamePlace (p q : Ppu) : Prop where
  latches   : p.SameLatches q
  dot       : q.dot = p.dot
  scanline  : q.scanline = p.scanline
  oddFrame  : q.oddFrame = p.oddFrame
  lastFrame : q.lastFrame = p.lastFrame
  frameDone : q.frameDone = p.frameDone

theorem Ppu.SamePlace.refl (p : Ppu) : p.SamePlace p := ⟨.refl p, rfl, rfl, rfl, rfl, rfl⟩

theorem Ppu.SamePlace.trans {p q r : Ppu} (h : p.SamePlace q) (h' : q.SamePlace r) : p.SamePlace r :=
  ⟨h.latches.trans h'.latches, h'.dot.trans h.dot, h'.scanline.trans h.scanline, h'.oddFrame.trans h.oddFrame,
    h'.lastFrame.trans h.lastFrame, h'.frameDone.trans h.frameDone⟩

/-! ## The stages of a dot -/

theorem Ppu.advance_latches (p : Ppu) (r : Region) : p.SameLatches (p.advance r) := by
  unfold Ppu.advance
  repeat' split
  all_goals exact ⟨rfl, rfl, rfl, rfl, rfl, rfl, rfl, rfl, rfl, rfl⟩

/-- The change of position. -/
theorem Ppu.advance_position (p : Ppu) (r : Region) : ((p.advance r).scanline, (p.advance r).dot) = p.nextPosition r := by
  unfold Ppu.advance Ppu.nextPosition
  split
  · rfl
  · split
    · rfl
    · split <;> rfl

/-- At the end of a frame the parity toggles and the frame is handed over. -/
theorem Ppu.advance_newFrame (p : Ppu) (r : Region) (h : p.nextPosition r = (0, 0)) :
    (p.advance r).oddFrame = !p.oddFrame ∧ (p.advance r).lastFrame = p.frame ∧ (p.advance r).frame = []
      ∧ (p.advance r).frameDone = true := by
  unfold Ppu.nextPosition at h
  unfold Ppu.advance
  split
  · exact ⟨rfl, rfl, rfl, rfl⟩
  · next h1 =>
    rw [if_neg h1] at h
    split
    · next h2 => rw [if_pos h2] at h; exact absurd (congrArg Prod.snd h) (by simp)
    · next h2 =>
      rw [if_neg h2] at h
      split
      · next h3 => rw [if_pos h3] at h; exact absurd (congrArg Prod.fst h) (by simp)
      · exact ⟨rfl, rfl, rfl, rfl⟩

/-- Elsewhere they do not change. -/
theorem Ppu.advance_sameFrame (p : Ppu) (r : Region) (h : p.nextPosition r ≠ (0, 0)) :
    (p.advance r).oddFrame = p.oddFrame ∧ (p.advance r).lastFrame = p.lastFrame ∧ (p.advance r).frame = p.frame
      ∧ (p.advance r).frameDone = p.frameDone := by
  unfold Ppu.nextPosition at h
  unfold Ppu.advance
  split
  · next h1 => rw [if_pos h1] at h; exact absurd rfl h
  · next h1 =>
    rw [if_neg h1] at h
    split
    · exact ⟨rfl, rfl, rfl, rfl⟩
    · next h2 =>
      rw [if_neg h2] at h
      split
      · exact ⟨rfl, rfl, rfl, rfl⟩
      · next h3 => rw [if_neg h3] at h; exact absurd rfl h

theorem Ppu.flagsAt_place (p : Ppu) (r : Region) : p.SamePlace (p.flagsAt r) := by
  unfold Ppu.flagsAt
  repeat' split
  all_goals exact ⟨⟨rfl, rfl, rfl, rfl, rfl, rfl, rfl, rfl, rfl, rfl⟩, rfl, rfl, rfl, rfl, rfl⟩

theorem Ppu.clockBackground_place (p : Ppu) (r : Region) : p.SamePlace (p.clockBackground r) := by
  unfold Ppu.clockBackground
  split <;> exact ⟨⟨rfl, rfl, rfl, rfl, rfl, rfl, rfl, rfl, rfl, rfl⟩, rfl, rfl, rfl, rfl, rfl⟩

theorem Ppu.outputAt_place (p : Ppu) (e : Nat) : p.SamePlace (p.outputAt e) := by
  unfold Ppu.outputAt
  split <;> exact ⟨⟨rfl, rfl, rfl, rfl, rfl, rfl, rfl, rfl, rfl, rfl⟩, rfl, rfl, rfl, rfl, rfl⟩

theorem Ppu.latchFetch_place (p : Ppu) (e : Env) (b : Byte) : p.SamePlace (p.latchFetch e b) := by
  unfold Ppu.latchFetch
  split
  · unfold Ppu.latchSprite
    dsimp only
    split <;> exact ⟨⟨rfl, rfl, rfl, rfl, rfl, rfl, rfl, rfl, rfl, rfl⟩, rfl, rfl, rfl, rfl, rfl⟩
  · exact ⟨⟨rfl, rfl, rfl, rfl, rfl, rfl, rfl, rfl, rfl, rfl⟩, rfl, rfl, rfl, rfl, rfl⟩

theorem Ppu.evaluateAt_place (p : Ppu) (e : Nat) : p.SamePlace (p.evaluateAt e) := by
  have hv (q : Ppu) (n : Nat) : q.SamePlace (q.visitSprite e n) := by
    unfold Ppu.visitSprite
    dsimp only
    split <;> exact ⟨⟨rfl, rfl, rfl, rfl, rfl, rfl, rfl, rfl, rfl, rfl⟩, rfl, rfl, rfl, rfl, rfl⟩
  unfold Ppu.evaluateAt
  dsimp only
  have hb : p.SamePlace (if p.dot = 1 then { p with spriteCount := 0, sprite0Next := false } else p) := by
    split <;> exact ⟨⟨rfl, rfl, rfl, rfl, rfl, rfl, rfl, rfl, rfl, rfl⟩, rfl, rfl, rfl, rfl, rfl⟩
  generalize (if p.dot = 1 then { p with spriteCount := 0, sprite0Next := false } else p) = q at hb ⊢
  split
  · split
    · exact hb.trans ⟨⟨rfl, rfl, rfl, rfl, rfl, rfl, rfl, rfl, rfl, rfl⟩, rfl, rfl, rfl, rfl, rfl⟩
    · split
      · split
        · exact hb.trans ((hv q _).trans ⟨⟨rfl, rfl, rfl, rfl, rfl, rfl, rfl, rfl, rfl, rfl⟩, rfl, rfl, rfl, rfl, rfl⟩)
        · exact hb.trans ⟨⟨rfl, rfl, rfl, rfl, rfl, rfl, rfl, rfl, rfl, rfl⟩, rfl, rfl, rfl, rfl, rfl⟩
      · exact hb
  · exact hb

theorem Ppu.scrollAt_place (p : Ppu) (r : Region) : p.SamePlace (p.scrollAt r) := ⟨⟨rfl, rfl, rfl, rfl, rfl, rfl, rfl, rfl, rfl, rfl⟩, rfl, rfl, rfl, rfl, rfl⟩

theorem Ppu.lineWork_place (p : Ppu) (e : Env) : p.SamePlace (p.lineWork e) := by
  unfold Ppu.lineWork
  dsimp only
  split
  · have h := (p.evaluateAt_place e.epoch).trans (Ppu.scrollAt_place _ e.params.region)
    split
    · exact h.trans ⟨⟨rfl, rfl, rfl, rfl, rfl, rfl, rfl, rfl, rfl, rfl⟩, rfl, rfl, rfl, rfl, rfl⟩
    · exact h
  · exact .refl p

/-- The work of a dot after its change of position. -/
theorem dotPpu_place (e : Env) (p : Ppu) (m : Mapper) : (p.advance e.params.region).SamePlace (dotPpu e p m) := by
  have h : (p.advance e.params.region).SamePlace (p.beforeFetch e) :=
    ((Ppu.flagsAt_place _ _).trans (Ppu.clockBackground_place _ _)).trans (Ppu.outputAt_place _ _)
  unfold dotPpu
  dsimp only
  split
  · exact (h.trans (Ppu.latchFetch_place _ _ _)).trans (Ppu.lineWork_place _ _)
  · exact h.trans (Ppu.lineWork_place _ _)

/-- No dot step changes what a program stores in the Ppu. -/
theorem dotPpu_latches (e : Env) (p : Ppu) (m : Mapper) : p.SameLatches (dotPpu e p m) :=
  (p.advance_latches _).trans (dotPpu_place e p m).latches

/-! ## The status flags and the picture -/

/-- The flags and the picture, which only the change of position, the flag changes and the pixel touch. -/
structure Ppu.SamePicture (p q : Ppu) : Prop where
  vblank     : q.vblank = p.vblank
  sprite0Hit : q.sprite0Hit = p.sprite0Hit
  frame      : q.frame = p.frame
  blocked    : q.vblankBlocked = p.vblankBlocked

theorem Ppu.SamePicture.refl (p : Ppu) : p.SamePicture p := ⟨rfl, rfl, rfl, rfl⟩

theorem Ppu.SamePicture.trans {p q r : Ppu} (h : p.SamePicture q) (h' : q.SamePicture r) : p.SamePicture r :=
  ⟨h'.vblank.trans h.vblank, h'.sprite0Hit.trans h.sprite0Hit, h'.frame.trans h.frame,
    h'.blocked.trans h.blocked⟩

theorem Ppu.advance_vblank (p : Ppu) (r : Region) :
    (p.advance r).vblank = p.vblank ∧ (p.advance r).vblankBlocked = p.vblankBlocked := by
  unfold Ppu.advance
  repeat' split
  all_goals exact ⟨rfl, rfl⟩

theorem Ppu.visitSprite_picture (p : Ppu) (e n : Nat) : p.SamePicture (p.visitSprite e n) := by
  unfold Ppu.visitSprite
  dsimp only
  split <;> exact ⟨rfl, rfl, rfl, rfl⟩

/-- Sprite evaluation changes no picture, and off the visible lines not the overflow flag either. -/
theorem Ppu.evaluateAt_picture (p : Ppu) (e : Nat) :
    p.SamePicture (p.evaluateAt e) ∧ (p.visible = false → (p.evaluateAt e).spriteOverflow = p.spriteOverflow) := by
  unfold Ppu.evaluateAt
  dsimp only
  have hb : p.SamePicture (if p.dot = 1 then { p with spriteCount := 0, sprite0Next := false } else p)
      ∧ (if p.dot = 1 then { p with spriteCount := 0, sprite0Next := false } else p).spriteOverflow = p.spriteOverflow := by
    split <;> exact ⟨⟨rfl, rfl, rfl, rfl⟩, rfl⟩
  generalize (if p.dot = 1 then { p with spriteCount := 0, sprite0Next := false } else p) = q at hb ⊢
  split
  · next hv =>
    refine ⟨?_, fun h => by rw [h] at hv; exact absurd hv (by simp)⟩
    split
    · exact hb.1.trans ⟨rfl, rfl, rfl, rfl⟩
    · split
      · split
        · exact hb.1.trans ((Ppu.visitSprite_picture q e _).trans ⟨rfl, rfl, rfl, rfl⟩)
        · exact hb.1.trans ⟨rfl, rfl, rfl, rfl⟩
      · exact hb.1
  · exact ⟨hb.1, fun _ => hb.2⟩

theorem Ppu.lineWork_picture (p : Ppu) (e : Env) :
    p.SamePicture (p.lineWork e) ∧ (p.visible = false → (p.lineWork e).spriteOverflow = p.spriteOverflow) := by
  have he := p.evaluateAt_picture e.epoch
  have hs : (p.evaluateAt e.epoch).SamePicture ((p.evaluateAt e.epoch).scrollAt e.params.region) := ⟨rfl, rfl, rfl, rfl⟩
  unfold Ppu.lineWork
  dsimp only
  split
  · split
    · exact ⟨(he.1.trans hs).trans ⟨rfl, rfl, rfl, rfl⟩, he.2⟩
    · exact ⟨he.1.trans hs, he.2⟩
  · exact ⟨.refl p, fun _ => rfl⟩

theorem Ppu.latchFetch_picture (p : Ppu) (e : Env) (b : Byte) :
    p.SamePicture (p.latchFetch e b) ∧ (p.latchFetch e b).spriteOverflow = p.spriteOverflow := by
  unfold Ppu.latchFetch
  split
  · unfold Ppu.latchSprite
    dsimp only
    split <;> exact ⟨⟨rfl, rfl, rfl, rfl⟩, rfl⟩
  · exact ⟨⟨rfl, rfl, rfl, rfl⟩, rfl⟩

theorem Ppu.clockBackground_picture (p : Ppu) (r : Region) :
    p.SamePicture (p.clockBackground r) ∧ (p.clockBackground r).spriteOverflow = p.spriteOverflow := by
  unfold Ppu.clockBackground
  split <;> exact ⟨⟨rfl, rfl, rfl, rfl⟩, rfl⟩

/-- The memory access and the line work of a dot change no picture; off the visible lines not the overflow flag either. -/
theorem dotPpu_picture (e : Env) (p : Ppu) (m : Mapper) :
    (p.beforeFetch e).SamePicture (dotPpu e p m)
      ∧ ((p.beforeFetch e).visible = false → (dotPpu e p m).spriteOverflow = (p.beforeFetch e).spriteOverflow) := by
  unfold dotPpu
  dsimp only
  split
  · have h1 := Ppu.latchFetch_picture (p.beforeFetch e) e (ppuPeek e (p.beforeFetch e) m (by assumption))
    have h3 := (Ppu.latchFetch_place (p.beforeFetch e) e (ppuPeek e (p.beforeFetch e) m (by assumption))).scanline
    have h2 := Ppu.lineWork_picture ((p.beforeFetch e).latchFetch e (ppuPeek e (p.beforeFetch e) m (by assumption))) e
    refine ⟨h1.1.trans h2.1, fun h => (h2.2 ?_).trans h1.2⟩
    rw [Ppu.visible, h3]
    exact h
  · exact Ppu.lineWork_picture _ _

/-- Where no pixel is made, the picture is the one the change of position and the flags leave. -/
theorem Ppu.outputAt_vblank (p : Ppu) (e : Nat) :
    (p.outputAt e).vblank = p.vblank ∧ (p.outputAt e).spriteOverflow = p.spriteOverflow
      ∧ (p.visible = false ∨ p.dot = 0 → p.outputAt e = p) := by
  unfold Ppu.outputAt
  refine ⟨by split <;> rfl, by split <;> rfl, fun h => ?_⟩
  rw [if_neg]
  rintro ⟨h1, h2, -⟩
  rcases h with h | h
  · rw [h] at h1; exact absurd h1 (by simp)
  · omega

theorem Ppu.outputAt_blocked (p : Ppu) (e : Nat) : (p.outputAt e).vblankBlocked = p.vblankBlocked := by
  unfold Ppu.outputAt
  split <;> rfl

/-- Whether the vblank flag is blocked after a dot step is what the flag changes of its position leave. -/
theorem dotPpu_blocked (e : Env) (p : Ppu) (m : Mapper) :
    (dotPpu e p m).vblankBlocked = ((p.advance e.params.region).flagsAt e.params.region).vblankBlocked :=
  (dotPpu_picture e p m).1.blocked.trans
    ((Ppu.outputAt_blocked _ _).trans (Ppu.clockBackground_picture _ _).1.blocked)

/-- The vblank flag after a dot step is the one its change of position gives. -/
theorem dotPpu_vblank (e : Env) (p : Ppu) (m : Mapper) :
    (dotPpu e p m).vblank = ((p.advance e.params.region).flagsAt e.params.region).vblank :=
  (dotPpu_picture e p m).1.vblank.trans
    ((Ppu.outputAt_vblank _ _).1.trans (Ppu.clockBackground_picture _ _).1.vblank)

end Sys2Proof.Machine
end

