-- ==== Sys2Proof/Laws/Picture.lean ====
section
/-! SUPPORT. The Ppu's part of the invariant: its memories stay inside their sizes and its counters inside their ranges through
every dot step and every register access. -/

namespace Sys2Proof.Machine

/-- The Ppu's part of `State.inv` as a proposition. -/
structure Ppu.Fits (p : Ppu) (r : Region) : Prop where
  oam       : p.oam.bounded 256 = true
  secondary : p.secondaryOam.bounded 32 = true
  palette   : p.palette.bounded 32 = true
  vram      : p.vram.bounded 2048 = true
  frame     : p.frame.bounded 61440 = true
  lastFrame : p.lastFrame.bounded 61440 = true
  dot       : p.dot ≤ 340
  scanline  : p.scanline ≤ preRenderLine r
  count     : p.spriteCount ≤ 8
  sprites   : p.sprites.length = 8

theorem Ppu.fits_iff (p : Ppu) (r : Region) : (p.memoriesFit = true ∧ p.countersFit r = true) ↔ p.Fits r := by
  simp only [Ppu.memoriesFit, Ppu.countersFit, Bool.and_eq_true, decide_eq_true_eq, beq_iff_eq]
  constructor
  · rintro ⟨⟨⟨⟨⟨⟨h1, h2⟩, h3⟩, h4⟩, h5⟩, h6⟩, ⟨⟨⟨h7, h8⟩, h9⟩, h10⟩⟩
    exact ⟨h1, h2, h3, h4, h5, h6, h7, h8, h9, h10⟩
  · rintro ⟨h1, h2, h3, h4, h5, h6, h7, h8, h9, h10⟩
    exact ⟨⟨⟨⟨⟨⟨h1, h2⟩, h3⟩, h4⟩, h5⟩, h6⟩, ⟨⟨⟨h7, h8⟩, h9⟩, h10⟩⟩

/-- What the stages after the change of position may change: the two buffers and the sprites. -/
structure Ppu.Buffers (p : Ppu) : Prop where
  secondary : p.secondaryOam.bounded 32 = true
  frame     : p.frame.bounded 61440 = true
  count     : p.spriteCount ≤ 8
  sprites   : p.sprites.length = 8

theorem Ppu.Fits.buffers {p : Ppu} {r : Region} (h : p.Fits r) : p.Buffers := ⟨h.secondary, h.frame, h.count, h.sprites⟩

/-- Stages that leave position, latches and frames alone keep the rest. -/
theorem Ppu.Fits.of_place {p q : Ppu} {r : Region} (h : p.Fits r) (hp : p.SamePlace q) (hb : q.Buffers) : q.Fits r :=
  ⟨by rw [hp.latches.oam]; exact h.oam, hb.secondary, by rw [hp.latches.palette]; exact h.palette,
    by rw [hp.latches.vram]; exact h.vram, hb.frame, by rw [hp.lastFrame]; exact h.lastFrame, by rw [hp.dot]; exact h.dot,
    by rw [hp.scanline]; exact h.scanline, hb.count, hb.sprites⟩

theorem Ppu.advance_fits {p : Ppu} {r : Region} (h : p.Fits r) : (p.advance r).Fits r := by
  have hn : p.nextFrame.Fits r :=
    ⟨h.oam, h.secondary, h.palette, h.vram, rfl, h.frame, Nat.zero_le _, Nat.zero_le _, h.count, h.sprites⟩
  unfold Ppu.advance
  split
  · exact hn
  · split
    · next hd => exact ⟨h.oam, h.secondary, h.palette, h.vram, h.frame, h.lastFrame, hd, h.scanline, h.count, h.sprites⟩
    · split
      · next hs =>
        exact ⟨h.oam, h.secondary, h.palette, h.vram, h.frame, h.lastFrame, Nat.zero_le _, hs, h.count, h.sprites⟩
      · exact hn

theorem Ppu.flagsAt_buffers {p : Ppu} (r : Region) (h : p.Buffers) : (p.flagsAt r).Buffers := by
  unfold Ppu.flagsAt
  repeat' split
  all_goals exact ⟨h.secondary, h.frame, h.count, h.sprites⟩

theorem Ppu.clockBackground_buffers {p : Ppu} (r : Region) (h : p.Buffers) : (p.clockBackground r).Buffers := by
  unfold Ppu.clockBackground
  split
  · exact ⟨h.secondary, h.frame, h.count, h.sprites⟩
  · exact h

theorem Ppu.outputAt_buffers {p : Ppu} (e : Nat) (h : p.Buffers) : (p.outputAt e).Buffers := by
  unfold Ppu.outputAt
  split
  · next hc =>
    have hv : p.scanline < 240 := by simpa [Ppu.visible] using hc.1
    refine ⟨h.secondary, Memory.bounded_set _ h.frame ?_, h.count, h.sprites⟩
    omega
  · exact h

theorem Ppu.latchFetch_buffers {p : Ppu} (e : Env) (b : Byte) (h : p.Buffers) : (p.latchFetch e b).Buffers := by
  unfold Ppu.latchFetch
  split
  · unfold Ppu.latchSprite
    dsimp only
    split
    · exact ⟨h.secondary, h.frame, h.count, by simp [h.sprites]⟩
    · exact ⟨h.secondary, h.frame, h.count, by simp [h.sprites]⟩
  · exact ⟨h.secondary, h.frame, h.count, h.sprites⟩

theorem Ppu.visitSprite_buffers {p : Ppu} (e n : Nat) (h : p.Buffers) : (p.visitSprite e n).Buffers := by
  unfold Ppu.visitSprite
  dsimp only
  split
  · next hc =>
    have hk : p.spriteCount < 8 := hc.2.2
    refine ⟨?_, h.frame, hk, h.sprites⟩
    exact Memory.bounded_set _ (Memory.bounded_set _ (Memory.bounded_set _ (Memory.bounded_set _ h.secondary
      (by omega)) (by omega)) (by omega)) (by omega)
  · exact h

theorem Ppu.evaluateAt_buffers {p : Ppu} (e : Nat) (h : p.Buffers) : (p.evaluateAt e).Buffers := by
  have hb : (if p.dot = 1 then { p with spriteCount := 0, sprite0Next := false } else p).Buffers := by
    split
    · exact ⟨h.secondary, h.frame, Nat.zero_le _, h.sprites⟩
    · exact h
  unfold Ppu.evaluateAt
  dsimp only
  generalize (if p.dot = 1 then { p with spriteCount := 0, sprite0Next := false } else p) = q at hb ⊢
  split
  · split
    · next hd => exact ⟨Memory.bounded_set _ hb.secondary (by omega), hb.frame, hb.count, hb.sprites⟩
    · split
      · have hv : (if (p.dot - 65) % 3 = 0 then q.visitSprite e ((p.dot - 65) / 3) else q).Buffers := by
          split
          · exact Ppu.visitSprite_buffers e _ hb
          · exact hb
        exact ⟨hv.secondary, hv.frame, hv.count, hv.sprites⟩
      · exact hb
  · exact hb

theorem Ppu.lineWork_buffers {p : Ppu} (e : Env) (h : p.Buffers) : (p.lineWork e).Buffers := by
  have he := Ppu.evaluateAt_buffers e.epoch h
  unfold Ppu.lineWork
  dsimp only
  split
  · split <;> exact ⟨he.secondary, he.frame, he.count, he.sprites⟩
  · exact h

/-- A dot step keeps the Ppu's part of the invariant. -/
theorem dotPpu_fits (e : Env) {p : Ppu} (m : Mapper) (h : p.Fits e.params.region) : (dotPpu e p m).Fits e.params.region := by
  have ha := Ppu.advance_fits h
  refine ha.of_place (dotPpu_place e p m) ?_
  have hb : (p.beforeFetch e).Buffers :=
    Ppu.outputAt_buffers _ (Ppu.clockBackground_buffers _ (Ppu.flagsAt_buffers _ ha.buffers))
  unfold dotPpu
  dsimp only
  split
  · exact Ppu.lineWork_buffers _ (Ppu.latchFetch_buffers _ _ hb)
  · exact Ppu.lineWork_buffers _ hb

/-! ## Register accesses -/

theorem paletteEntry_lt (i : Nat) : paletteEntry i < 32 := by
  unfold paletteEntry
  split <;> omega

theorem nametableIndex_lt (mode : Mirroring) (a : Nat) (h : mode ≠ .fourScreen) : nametableIndex mode a < 2048 := by
  cases mode <;> simp [nametableIndex] at h ⊢ <;> omega

theorem ppuPokePpu_fits (e : Env) {p : Ppu} (m : Mapper) (a : Nat) (v : Byte) {r : Region} (h : p.Fits r) :
    (ppuPokePpu e p m a v).Fits r := by
  unfold ppuPokePpu
  dsimp only
  split
  · exact h
  · split
    · split
      · exact h
      · next hm =>
        exact ⟨h.oam, h.secondary, h.palette, Memory.bounded_set _ h.vram (nametableIndex_lt _ _ hm), h.frame, h.lastFrame,
          h.dot, h.scanline, h.count, h.sprites⟩
    · exact ⟨h.oam, h.secondary, Memory.bounded_set _ h.palette (paletteEntry_lt _), h.vram, h.frame, h.lastFrame, h.dot,
        h.scanline, h.count, h.sprites⟩

theorem Ppu.afterRead_fits {p : Ppu} (e : Env) (m : Mapper) (n d : Nat) {r : Region} (h : p.Fits r) :
    (p.afterRead e m n d).Fits r := by
  unfold Ppu.afterRead
  split
  · exact ⟨h.oam, h.secondary, h.palette, h.vram, h.frame, h.lastFrame, h.dot, h.scanline, h.count, h.sprites⟩
  · exact ⟨h.oam, h.secondary, h.palette, h.vram, h.frame, h.lastFrame, h.dot, h.scanline, h.count, h.sprites⟩
  · exact ⟨h.oam, h.secondary, h.palette, h.vram, h.frame, h.lastFrame, h.dot, h.scanline, h.count, h.sprites⟩
  · exact h

theorem Ppu.afterWrite_fits {p : Ppu} (e : Env) (m : Mapper) (n d : Nat) (v : Byte) {r : Region} (h : p.Fits r) :
    (p.afterWrite e m n d v).Fits r := by
  have hq : ({ p with ioLatch := v } : Ppu).Fits r :=
    ⟨h.oam, h.secondary, h.palette, h.vram, h.frame, h.lastFrame, h.dot, h.scanline, h.count, h.sprites⟩
  have hd := ppuPokePpu_fits e m (p.dataAddr e.params.region d) v hq
  unfold Ppu.afterWrite
  dsimp only
  split
  · exact ⟨h.oam, h.secondary, h.palette, h.vram, h.frame, h.lastFrame, h.dot, h.scanline, h.count, h.sprites⟩
  · exact ⟨h.oam, h.secondary, h.palette, h.vram, h.frame, h.lastFrame, h.dot, h.scanline, h.count, h.sprites⟩
  · exact ⟨h.oam, h.secondary, h.palette, h.vram, h.frame, h.lastFrame, h.dot, h.scanline, h.count, h.sprites⟩
  · unfold Ppu.writeOamData
    split
    · exact ⟨h.oam, h.secondary, h.palette, h.vram, h.frame, h.lastFrame, h.dot, h.scanline, h.count, h.sprites⟩
    · exact ⟨Memory.bounded_set _ h.oam p.oamAddr.isLt, h.secondary, h.palette, h.vram, h.frame, h.lastFrame, h.dot,
        h.scanline, h.count, h.sprites⟩
  · unfold Ppu.writeScroll
    split <;> exact ⟨h.oam, h.secondary, h.palette, h.vram, h.frame, h.lastFrame, h.dot, h.scanline, h.count, h.sprites⟩
  · unfold Ppu.writeAddress
    split <;> exact ⟨h.oam, h.secondary, h.palette, h.vram, h.frame, h.lastFrame, h.dot, h.scanline, h.count, h.sprites⟩
  · exact ⟨hd.oam, hd.secondary, hd.palette, hd.vram, hd.frame, hd.lastFrame, hd.dot, hd.scanline, hd.count, hd.sprites⟩
  · exact hq

end Sys2Proof.Machine
end

