-- ==== Sys2Proof/Laws/Numbers.lean ====
section
/-! SUPPORT. The bit formulas of `Machine/Flags.lean` and of the meanings compute the numbers of `Machine/Claims.lean`. -/

namespace Sys2Proof.Machine

theorem getLsbD_seven (v : Byte) : v.getLsbD 7 = decide (128 ≤ v.toNat) := by revert v; decide

theorem beq_zero (v : Byte) : (v == 0) = decide (v.toNat = 0) := by revert v; decide

theorem setNZ_eq (p : Flags) (v : Byte) : p.setNZ v = p.nz v := by
  simp only [Flags.setNZ, Flags.nz, getLsbD_seven, beq_zero]

theorem sum9_toNat (a m : Byte) (c : Bool) : (sum9 a m c).toNat = a.toNat + m.toNat + c.toNat := by
  have h1 := a.isLt
  have h2 := m.isLt
  cases c <;> simp [sum9, BitVec.toNat_add, BitVec.toNat_setWidth] <;> omega

theorem sumByte_eq (a m : Byte) (c : Bool) : sumByte a m c = BitVec.ofNat 8 (a.toNat + m.toNat + c.toNat) := by
  apply BitVec.eq_of_toNat_eq
  simp only [sumByte, BitVec.toNat_setWidth, sum9_toNat, BitVec.toNat_ofNat]

theorem sumCarry_eq (a m : Byte) (c : Bool) : sumCarry a m c = decide (256 ≤ a.toNat + m.toNat + c.toNat) := by
  have h1 := a.isLt
  have h2 := m.isLt
  have h3 : c.toNat ≤ 1 := by cases c <;> decide
  have h : (sum9 a m c).toNat < 512 := (sum9 a m c).isLt
  rw [← sum9_toNat, sumCarry, ← BitVec.msb_eq_getLsbD_last (sum9 a m c), BitVec.msb_eq_decide]

theorem Regs.add_eq (m : Byte) (r : Regs) : r.add m = r.plus m r.p.c := by
  simp only [Regs.add, Regs.plus, Flags.afterSum, setNZ_eq, sumCarry_eq, sumOverflow, sumByte_eq]

theorem complement_toNat (m : Byte) : (m ^^^ 0xFF).toNat = 255 - m.toNat := by revert m; decide

theorem Regs.sub_eq (m : Byte) (r : Regs) : r.sub m = r.minus m := by
  have h1 := r.a.isLt
  have h2 := m.isLt
  have h3 : r.p.c.toNat ≤ 1 := by cases r.p.c <;> decide
  have e : BitVec.ofNat 8 (r.a.toNat + (m ^^^ 0xFF).toNat + r.p.c.toNat)
      = BitVec.ofInt 8 ((r.a.toNat : Int) - (m.toNat : Int) - (1 - (r.p.c.toNat : Int))) := by
    apply BitVec.eq_of_toNat_eq
    rw [complement_toNat, BitVec.toNat_ofNat, BitVec.toNat_ofInt]
    omega
  have c : decide (256 ≤ r.a.toNat + (m ^^^ 0xFF).toNat + r.p.c.toNat)
      = decide (m.toNat + 1 ≤ r.a.toNat + r.p.c.toNat) := by
    rw [complement_toNat, decide_eq_decide]; omega
  simp only [Regs.sub, Regs.add_eq, Regs.plus, Regs.minus, e, c]

theorem afterCompare_eq (p : Flags) (x m : Byte) (r : Regs) (h : r.p = p) :
    ({ r with p := p.afterCompare x m } : Regs) = r.compared x m := by
  subst h
  have h1 := x.isLt
  have h2 := m.isLt
  have e : (BitVec.ofNat 8 (x.toNat + (m ^^^ 0xFF).toNat + 1)).toNat = (x.toNat + 256 - m.toNat) % 256 := by
    rw [complement_toNat, BitVec.toNat_ofNat]; omega
  have hz : decide ((x.toNat + 256 - m.toNat) % 256 = 0) = decide (x.toNat = m.toNat) := by
    rw [decide_eq_decide]; omega
  have hc : decide (256 ≤ x.toNat + (m ^^^ 0xFF).toNat + 1) = decide (m.toNat ≤ x.toNat) := by
    rw [complement_toNat, decide_eq_decide]; omega
  have t : true.toNat = 1 := rfl
  simp only [Flags.afterCompare, Regs.compared, setNZ_eq, sumByte_eq, sumCarry_eq, Flags.nz, t, e, hz, hc]

theorem result_eq (k : Shift) (c : Bool) (v : Byte) : k.result c v = shifted k c v := by
  cases k <;> cases c <;> revert v <;> decide

theorem carry_eq (k : Shift) (v : Byte) : k.carry v = shiftedOut k v := by
  cases k <;> revert v <;> decide

theorem afterShift_eq (p : Flags) (k : Shift) (v : Byte) : p.afterShift k v = p.shifted k v := by
  simp only [Flags.afterShift, Flags.shifted, setNZ_eq, result_eq, carry_eq]

theorem pack_eq (p : Flags) (b : Bool) : p.pack b = p.byte b := by
  obtain ⟨n, v, d, i, z, c⟩ := p
  cases n <;> cases v <;> cases d <;> cases i <;> cases z <;> cases c <;> cases b <;> rfl

theorem unpack_eq (v : Byte) : Flags.unpack v = flagsOf v := rfl

/-! ## What the operations of the meanings do to the registers -/

theorem Regs.setA_eq (v : Byte) (r : Regs) : r.setA v = { r with a := v, p := r.p.nz v } := by
  rw [Regs.setA, setNZ_eq]

theorem Regs.setX_eq (v : Byte) (r : Regs) : r.setX v = { r with x := v, p := r.p.nz v } := by
  rw [Regs.setX, setNZ_eq]

theorem Regs.setY_eq (v : Byte) (r : Regs) : r.setY v = { r with y := v, p := r.p.nz v } := by
  rw [Regs.setY, setNZ_eq]

theorem Regs.setAX_eq (v : Byte) (r : Regs) : r.setAX v = { r with a := v, x := v, p := r.p.nz v } := by
  rw [Regs.setAX, setNZ_eq]

theorem Regs.bit_eq (m : Byte) (r : Regs) :
    r.bit m = { r with p := { r.p with z := decide (r.a &&& m = 0), n := m.getLsbD 7, v := m.getLsbD 6 } } := by
  rw [Regs.bit, beq_eq_decide]

theorem Regs.compareA_eq (m : Byte) (r : Regs) : r.compareA m = r.compared r.a m := afterCompare_eq _ _ _ _ rfl

theorem Regs.compareX_eq (m : Byte) (r : Regs) : r.compareX m = r.compared r.x m := afterCompare_eq _ _ _ _ rfl

theorem Regs.compareY_eq (m : Byte) (r : Regs) : r.compareY m = r.compared r.y m := afterCompare_eq _ _ _ _ rfl

theorem Regs.shiftMemory_eq (k : Shift) (old : Byte) (r : Regs) :
    r.shiftMemory k old = { r with p := r.p.shifted k old } := by
  rw [Regs.shiftMemory, afterShift_eq]

theorem Regs.shiftA_eq (k : Shift) (r : Regs) :
    r.shiftA k = { r with a := shifted k r.p.c r.a, p := r.p.shifted k r.a } := by
  rw [Regs.shiftA, afterShift_eq, result_eq]

theorem Shift.memory_eq (k : Shift) (p : Flags) : k.memory p = shifted k p.c := funext fun v => result_eq k p.c v

theorem Regs.slo_eq (old : Byte) (r : Regs) :
    r.slo old = { r with
      a := r.a ||| shifted .asl r.p.c old
      p := { r.p.nz (r.a ||| shifted .asl r.p.c old) with c := shiftedOut .asl old } } := by
  simp only [Regs.slo, Regs.shiftMemory_eq, Regs.setA_eq, result_eq, Flags.shifted, Flags.nz]

theorem Regs.rla_eq (old : Byte) (r : Regs) :
    r.rla old = { r with
      a := r.a &&& shifted .rol r.p.c old
      p := { r.p.nz (r.a &&& shifted .rol r.p.c old) with c := shiftedOut .rol old } } := by
  simp only [Regs.rla, Regs.shiftMemory_eq, Regs.setA_eq, result_eq, Flags.shifted, Flags.nz]

theorem Regs.sre_eq (old : Byte) (r : Regs) :
    r.sre old = { r with
      a := r.a ^^^ shifted .lsr r.p.c old
      p := { r.p.nz (r.a ^^^ shifted .lsr r.p.c old) with c := shiftedOut .lsr old } } := by
  simp only [Regs.sre, Regs.shiftMemory_eq, Regs.setA_eq, result_eq, Flags.shifted, Flags.nz]

theorem Regs.rra_eq (old : Byte) (r : Regs) : r.rra old = r.plus (shifted .ror r.p.c old) (shiftedOut .ror old) := by
  simp only [Regs.rra, Regs.shiftMemory_eq, Regs.add_eq, result_eq, Regs.plus, Flags.shifted, Flags.nz]

theorem Regs.dcp_eq (old : Byte) (r : Regs) : r.dcp old = r.compared r.a (old - 1) := r.compareA_eq _

theorem Regs.isc_eq (old : Byte) (r : Regs) : r.isc old = r.minus (old + 1) := r.sub_eq _

theorem Regs.anc_eq (d8 : Byte) (r : Regs) :
    r.anc d8 = { r with a := r.a &&& d8, p := { r.p.nz (r.a &&& d8) with c := (r.a &&& d8).getLsbD 7 } } := by
  simp only [Regs.anc, Regs.setA_eq, Regs.mapP]

theorem Regs.alr_eq (d8 : Byte) (r : Regs) :
    r.alr d8 = { r with a := shifted .lsr false (r.a &&& d8), p := r.p.shifted .lsr (r.a &&& d8) } := by
  have e (v : Byte) : v >>> 1 = shifted .lsr false v := result_eq .lsr false v
  have c (v : Byte) : v.getLsbD 0 = shiftedOut .lsr v := carry_eq .lsr v
  simp only [Regs.alr, Regs.setA_eq, Regs.mapP, e, c, Flags.shifted, shifted]

theorem Regs.arr_eq (d8 : Byte) (r : Regs) :
    r.arr d8 =
      let t := shifted .ror r.p.c (r.a &&& d8)
      { r with a := t, p := { r.p.nz t with c := t.getLsbD 6, v := xor (t.getLsbD 6) (t.getLsbD 5) } } := by
  have x (a b : Bool) : (a != b) = xor a b := rfl
  simp only [Regs.arr, Regs.setA_eq, Regs.mapP, result_eq, x]

theorem Regs.axs_eq (d8 : Byte) (r : Regs) :
    r.axs d8 = { r.compared (r.a &&& r.x) d8 with x := (r.a &&& r.x) - d8 } := by
  have e (t : Byte) : sumByte t (d8 ^^^ 0xFF) true = t - d8 := by
    rw [sumByte_eq, complement_toNat]
    apply BitVec.eq_of_toNat_eq
    have h1 := t.isLt
    have h2 := d8.isLt
    rw [BitVec.toNat_ofNat, BitVec.toNat_sub]
    have : true.toNat = 1 := rfl
    omega
  have h := afterCompare_eq r.p (r.a &&& r.x) d8 r rfl
  rw [← h, Regs.axs, e]

theorem Regs.las_eq (m : Byte) (r : Regs) :
    r.las m = { r with a := m &&& r.s, x := m &&& r.s, s := m &&& r.s, p := r.p.nz (m &&& r.s) } := by
  simp only [Regs.las, setNZ_eq]

end Sys2Proof.Machine
end

