-- ==== Sys2Proof/Laws/Sequences.lean ====
section
/-! SUPPORT. Interrupt entry in the form of `Machine/Claims.lean`, the halted Cpu, and the fields no sequence changes. -/

namespace Sys2Proof.Machine

/-! ## The halt bit -/

@[simp] theorem readCycle_halted (p : Bool) (a : Addr) (s : State) : (readCycle p a s).cpu.halted = s.cpu.halted :=
  (readCycle_kept p a s).halted

@[simp] theorem push_halted (p : Bool) (v : Byte) (s : State) : (push p v s).cpu.halted = s.cpu.halted := by
  simp [push, writeCycle_halted]

@[simp] theorem loadVector_halted (v : Addr) (s : State) : (loadVector v s).cpu.halted = s.cpu.halted := by
  simp [loadVector]

@[simp] theorem enterInterrupt_halted (b : Bool) (s : State) : (enterInterrupt b s).cpu.halted = s.cpu.halted := by
  simp [enterInterrupt]

@[simp] theorem jumpSubroutine_halted (a : Addr) (s : State) : (jumpSubroutine a s).cpu.halted = s.cpu.halted := by
  simp [jumpSubroutine, State.jump, dummyFetch, stackRead, fetchOperand, fetchOpcode]

/-- A cycle of the halted Cpu changes no register and no memory, whether a DMA unit owns it or not. -/
theorem haltedCycle_kept (s : State) : Kept s (haltedCycle s) := by
  unfold haltedCycle
  split
  · unfold dmcStallCycle
    dsimp only
    split <;> split
    · exact (dma_kept s _).trans (dmcFetch_kept _)
    · exact (dma_kept s _).trans (idleStall_kept _)
    · exact dmcFetch_kept _
    · exact idleStall_kept _
  · exact endCycle_kept _ _

/-! ## The bit `int_detected` -/

@[simp] theorem dmcFetch_intDetected (s : State) : (dmcFetch s).cpu.intDetected = s.cpu.intDetected := by
  simp only [dmcFetch, endCycle_intDetected, dmcTake_cpu]

/-- No stolen cycle polls. -/
@[simp] theorem stalls_intDetected (s : State) : (stalls s).cpu.intDetected = s.cpu.intDetected := by
  have h : DmaClosed (fun t => t.cpu.intDetected = s.cpu.intDetected) :=
    { fields := fun _ _ h => h
      idle := fun _ h => (endCycle_intDetected _ _).trans h
      take := fun t h => (congrArg Cpu.intDetected (dmcTake_cpu t)).trans h
      fetch := fun _ h => (dmcFetch_intDetected _).trans h
      get := fun _ h => by simp only [oamGet, endCycle_intDetected, busAfterRead_cpu, h]
      put := fun _ h => by simp only [oamPut, endCycle_intDetected, busWrite_cpu, h] }
  exact h.stalls rfl

/-- A cycle that is no poll point leaves `int_detected` alone. -/
@[simp] theorem readCycle_noPoll (a : Addr) (s : State) : (readCycle false a s).cpu.intDetected = s.cpu.intDetected := by
  simp [readCycle, beginRead]

@[simp] theorem writeCycle_noPoll (a : Addr) (v : Byte) (s : State) :
    (writeCycle false a v s).cpu.intDetected = s.cpu.intDetected := by
  simp [writeCycle]

@[simp] theorem push_noPoll (v : Byte) (s : State) : (push false v s).cpu.intDetected = s.cpu.intDetected := by
  simp [push]

@[simp] theorem enterInterrupt_intDetected (b : Bool) (s : State) :
    (enterInterrupt b s).cpu.intDetected = s.cpu.intDetected := by
  simp [enterInterrupt, loadVector]

/-- The interrupt sequence clears `int_detected`. -/
theorem interruptSequence_intDetected (s : State) : (interruptSequence s).cpu.intDetected = false := by
  simp [interruptSequence, dummyFetch]

/-- The state in front of the pushes of the interrupt sequence has the memory of the state before it. -/
theorem beforeEntry_same (s : State) : Same s (beforeEntry s) := by
  unfold beforeEntry
  dsimp only
  have k1 := (mapProg_kept s (fun g => { g with ir := .int })).same.trans (dummyFetch_same false _)
  generalize dummyFetch false (s.mapProg (fun g => { g with ir := .int })) = t at k1 ⊢
  have k2 : Same t { t with cpu := { t.cpu with intDetected := false } } := ⟨rfl, rfl, .refl _, rfl, rfl, rfl⟩
  exact (k1.trans k2).trans (dummyFetch_same false _)

/-! ## The detectors -/

/-- The detectors at the end of a cycle, from the state in front of its dots. -/
theorem endCycle_detect (w : Bool) (s : State) :
    (endCycle w s).cpu.nmiPrev = (endCycle w s).nmiSeen s.cpu.nmiPrev ∧ (endCycle w s).cpu.irqLevel = (endCycle w s).irqLine
      ∧ (endCycle w s).cpu.nmiPending = (s.cpu.nmiPending || ((endCycle w s).cpu.nmiPrev && !s.cpu.nmiPrev)) := by
  have e1 : (endCycle w s).cpu.nmiPrev = (endCycle w s).nmiSeen (dots s.dotsThisCycle s).cpu.nmiPrev := rfl
  refine ⟨by rw [e1, dots_prog], rfl, ?_⟩
  have e : (endCycle w s).cpu.nmiPending
      = ((dots s.dotsThisCycle s).cpu.nmiPending || ((endCycle w s).cpu.nmiPrev && !(dots s.dotsThisCycle s).cpu.nmiPrev)) := rfl
  rw [e, dots_prog]

theorem dmcFetch_detect (s : State) :
    (dmcFetch s).cpu.nmiPrev = (dmcFetch s).nmiSeen s.cpu.nmiPrev ∧ (dmcFetch s).cpu.irqLevel = (dmcFetch s).irqLine
      ∧ (dmcFetch s).cpu.nmiPending = (s.cpu.nmiPending || ((dmcFetch s).cpu.nmiPrev && !s.cpu.nmiPrev)) := by
  unfold dmcFetch
  dsimp only
  refine ⟨(endCycle_detect _ _).1.trans ?_, rfl, (endCycle_detect _ _).2.2.trans ?_⟩ <;> simp

theorem haltedCycle_detect (s : State) :
    (haltedCycle s).cpu.nmiPrev = (haltedCycle s).nmiSeen s.cpu.nmiPrev ∧ (haltedCycle s).cpu.irqLevel = (haltedCycle s).irqLine
      ∧ (haltedCycle s).cpu.nmiPending = (s.cpu.nmiPending || ((haltedCycle s).cpu.nmiPrev && !s.cpu.nmiPrev)) := by
  unfold haltedCycle
  split
  · unfold dmcStallCycle
    dsimp only
    split <;> split
    · exact dmcFetch_detect _
    · exact endCycle_detect _ _
    · exact dmcFetch_detect _
    · exact endCycle_detect _ _
  · exact endCycle_detect _ _

/-! ## Interrupt entry -/

/-- Interrupt entry from a state with the memory of `s` has the form of `Enters`. -/
theorem enters_of (b : Bool) (u s : State) (h : Same s u) : Enters b u s (finish (enterInterrupt b u)) := by
  obtain ⟨h1, h2, h3⟩ := enterInterrupt_spec b u
  dsimp only at h1 h2
  obtain ⟨c1, c2⟩ := chosenVector_range (afterPushesOfPc u)
  have hp : (afterPushesOfPc u).cpu.regs.p = u.cpu.regs.p := by simp [afterPushesOfPc]
  have e : enterInterrupt b u = loadVector (afterPushesOfPc u).chosenVector
      (push false (u.cpu.regs.p.pack b) (clearNmi (afterPushesOfPc u))) := by rw [← hp]; rfl
  refine ⟨?_, ?_, fun k => ?_, (h.cartridge.trans h3).trans (finish_same _).cartridge, ?_⟩
  · rw [e, ← pack_eq]; rfl
  · have v := State.vectorWord_congr (t := u) (s := s) (fun a _ => h.memByte a) _ c1 c2
    rw [finish_regs, h1]
    exact congrArg (fun x => ({ u.cpu.regs with s := u.cpu.regs.s - 3, pc := x, p := { u.cpu.regs.p with i := true } } : Regs)) v
  · rw [(finish_same _).ramByte, h2, h.ramByte, pack_eq]
  · rw [finish_halted, enterInterrupt_halted, h.halted]

end Sys2Proof.Machine
end

