-- ==== Sys2Proof/Laws/Invariant.lean ====
section
/-! SUPPORT. The invariant through every operation of a cycle, in front of its clauses on the DMA units and the boundary: memories inside their
sizes, counters inside their ranges. -/

namespace Sys2Proof.Machine

/-! ## The mapper -/

/-- `Mapper.fits` as a proposition: the registers, then the memories. -/
def MapperRegs.Fits (regs : MapperRegs) (k : MapperKind) : Prop :=
  match regs, k with
  | .nrom, .nrom => True
  | .uxrom _, .uxrom => True
  | .mmc1 r, .mmc1 => r.count < 5
  | .mmc3 r, .mmc3 => r.banks.length = 8
  | _, _ => False

/-- `Mapper.fits` as a proposition. -/
structure Mapper.Fits (m : Mapper) (c : Cartridge) : Prop where
  regs   : m.regs.Fits c.mapper
  prgRam : m.prgRam.bounded 0x2000 = true
  chrRam : m.chrRam.bounded c.chrSize = true
  ntRam  : m.ntRam.bounded 4096 = true

theorem Mapper.fits_iff (m : Mapper) (c : Cartridge) : m.fits c = true ↔ m.Fits c := by
  have hr : (match m.regs, c.mapper with
      | .nrom, .nrom => true
      | .uxrom _, .uxrom => true
      | .mmc1 r, .mmc1 => decide (r.count < 5)
      | .mmc3 r, .mmc3 => r.banks.length == 8
      | _, _ => false) = true ↔ m.regs.Fits c.mapper := by
    cases m.regs <;> cases c.mapper <;> simp [MapperRegs.Fits]
  unfold Mapper.fits
  rw [Bool.and_eq_true, Bool.and_eq_true, Bool.and_eq_true]
  exact ⟨fun ⟨⟨⟨h1, h2⟩, h3⟩, h4⟩ => ⟨hr.1 h1, h2, h3, h4⟩, fun ⟨h1, h2, h3, h4⟩ => ⟨⟨⟨hr.2 h1, h2⟩, h3⟩, h4⟩⟩

theorem chrSize_pos (c : Cartridge) : 0 < c.chrSize := by
  unfold Cartridge.chrSize
  split <;> omega

theorem Mapper.onPpuAddress_fits {m : Mapper} {c : Cartridge} (p : Params) (a : Nat) (h : m.Fits c) :
    (m.onPpuAddress p a).Fits c := by
  obtain ⟨regs, prgRam, chrRam, ntRam⟩ := m
  obtain ⟨h1, h2, h3, h4⟩ := h
  cases regs with
  | mmc3 r =>
    refine ⟨?_, h2, h3, h4⟩
    revert h1
    show (MapperRegs.mmc3 r).Fits c.mapper → (MapperRegs.mmc3 (r.onPpuAddress p a)).Fits c.mapper
    cases c.mapper <;> simp [MapperRegs.Fits, (r.onPpuAddress_banks p a).1]
  | nrom => exact ⟨h1, h2, h3, h4⟩
  | uxrom b => exact ⟨h1, h2, h3, h4⟩
  | mmc1 r => exact ⟨h1, h2, h3, h4⟩

theorem Mapper.onDot_fits {m : Mapper} {c : Cartridge} (h : m.Fits c) : m.onDot.Fits c := by
  obtain ⟨regs, prgRam, chrRam, ntRam⟩ := m
  obtain ⟨h1, h2, h3, h4⟩ := h
  refine ⟨?_, ?_, ?_, ?_⟩
  · revert h1
    cases regs <;> cases c.mapper <;> exact id
  all_goals cases regs <;> assumption

theorem dotMapper_fits (e : Env) (p : Ppu) {m : Mapper} {c : Cartridge} (h : m.Fits c) : (dotMapper e p m).Fits c := by
  unfold dotMapper
  split
  · exact Mapper.onPpuAddress_fits _ _ (Mapper.onDot_fits h)
  · exact Mapper.onDot_fits h

theorem Mapper.chrWrite_fits {m : Mapper} {c : Cartridge} (a : Nat) (v : Byte) (h : m.Fits c) :
    (m.chrWrite c a v).Fits c := by
  unfold Mapper.chrWrite
  split
  · exact ⟨h.regs, h.prgRam, Memory.bounded_set _ h.chrRam (Nat.mod_lt _ (chrSize_pos c)), h.ntRam⟩
  · exact h

theorem ppuPokeMapper_fits (e : Env) {m : Mapper} (a : Nat) (v : Byte) (h : m.Fits e.cart) :
    (ppuPokeMapper e m a v).Fits e.cart := by
  refine Mapper.onPpuAddress_fits _ _ ?_
  split
  · exact Mapper.chrWrite_fits _ _ h
  · split
    · exact ⟨h.regs, h.prgRam, h.chrRam, Memory.bounded_set _ h.ntRam (by simp only [nametableIndex]; omega)⟩
    · exact h

theorem Ppu.mapperAfterRead_fits (p : Ppu) (e : Env) {m : Mapper} (n d : Nat) (h : m.Fits e.cart) :
    (p.mapperAfterRead e m n d).Fits e.cart := by
  unfold Ppu.mapperAfterRead
  split
  · exact Mapper.onPpuAddress_fits _ _ (Mapper.onPpuAddress_fits _ _ h)
  · exact h

theorem Ppu.mapperAfterWrite_fits (p : Ppu) (e : Env) {m : Mapper} (n d : Nat) (v : Byte) (h : m.Fits e.cart) :
    (p.mapperAfterWrite e m n d v).Fits e.cart := by
  unfold Ppu.mapperAfterWrite
  split
  · split
    · exact Mapper.onPpuAddress_fits _ _ h
    · exact h
  · exact Mapper.onPpuAddress_fits _ _ (ppuPokeMapper_fits _ _ _ h)
  · exact h

theorem Mmc1.serialWrite_count (r : Mmc1) (a : Nat) (v : Byte) : (r.serialWrite a v).count < 5 := by
  unfold Mmc1.serialWrite
  dsimp only
  repeat' split
  all_goals (dsimp only; omega)

theorem Mmc3.registerWrite_banks (r : Mmc3) (a : Nat) (v : Byte) : (r.registerWrite a v).banks.length = r.banks.length := by
  unfold Mmc3.registerWrite
  split <;> simp

theorem MapperRegs.write_fits (regs : MapperRegs) (c : Cartridge) (after : Bool) (a : Nat) (v : Byte) (k : MapperKind)
    (h : regs.Fits k) : (regs.write c after a v).Fits k := by
  cases regs with
  | nrom => exact h
  | uxrom b => cases k <;> exact h
  | mmc1 r =>
    cases k <;> try exact h
    unfold MapperRegs.write
    dsimp only
    split
    · exact h
    · exact r.serialWrite_count a v
  | mmc3 r =>
    cases k <;> try exact h
    exact (r.registerWrite_banks a v).trans h

theorem Mapper.prgWrite_fits {m : Mapper} {c : Cartridge} (p : Params) (after : Bool) (a : Nat) (v : Byte) (ha : a < 65536)
    (h : m.Fits c) : (m.prgWrite c p after a v).Fits c := by
  unfold Mapper.prgWrite
  split
  · exact ⟨MapperRegs.write_fits _ _ _ _ _ _ h.regs, h.prgRam, h.chrRam, h.ntRam⟩
  · split
    · exact ⟨h.regs, Memory.bounded_set _ h.prgRam (by omega), h.chrRam, h.ntRam⟩
    · exact h

/-! ## The machine -/

/-- The invariant without its last two clauses: on the DMA units, and on the boundary. -/
structure State.Fits (s : State) : Prop where
  ram    : s.ram.bounded 2048 = true
  ppu    : s.ppu.Fits s.params.region
  apu    : s.apu.countersFit = true
  mapper : s.mapper.Fits s.cart
  index  : s.dma.oamIndex ≤ 256

theorem State.inv_iff (s : State) : s.inv = true ↔ s.Fits ∧ s.dmaSound = true ∧ s.cpu.prog = Progress.idle := by
  simp only [State.inv, Bool.and_eq_true, decide_eq_true_eq, beq_iff_eq]
  constructor
  · rintro ⟨⟨⟨⟨⟨⟨⟨h1, h2⟩, h3⟩, h4⟩, h5⟩, h6⟩, h7⟩, h8⟩
    exact ⟨⟨h1, (s.ppu.fits_iff _).1 ⟨h2, h3⟩, h4, (s.mapper.fits_iff _).1 h5, h6⟩, h7, h8⟩
  · rintro ⟨⟨h1, h2, h3, h4, h5⟩, h6, h7⟩
    have hp := (s.ppu.fits_iff _).2 h2
    exact ⟨⟨⟨⟨⟨⟨⟨h1, hp.1⟩, hp.2⟩, h3⟩, (s.mapper.fits_iff _).2 h4⟩, h5⟩, h6⟩, h7⟩

/-- Operations that touch neither memories nor counters keep it. -/
theorem State.Fits.of_eq {s t : State} (h : s.Fits) (h1 : t.ram = s.ram) (h2 : t.ppu = s.ppu) (h3 : t.apu = s.apu)
    (h4 : t.mapper = s.mapper) (h5 : t.cart = s.cart) (h6 : t.params = s.params) (h7 : t.dma.oamIndex ≤ 256) : t.Fits :=
  ⟨by rw [h1]; exact h.ram, by rw [h2, h6]; exact h.ppu, by rw [h3]; exact h.apu, by rw [h4, h5]; exact h.mapper, h7⟩

theorem dot_fits {s : State} (h : s.Fits) : (dot s).Fits :=
  ⟨h.ram, dotPpu_fits s.env s.mapper h.ppu, h.apu, dotMapper_fits s.env s.ppu h.mapper, h.index⟩

theorem dots_fits (n : Nat) {s : State} (h : s.Fits) : (dots n s).Fits := by
  induction n generalizing s with
  | zero => exact h
  | succ n ih => exact ih (dot_fits h)

theorem endCycle_fits (w : Bool) {s : State} (h : s.Fits) : (endCycle w s).Fits := by
  have hd := dots_fits s.dotsThisCycle h
  have ha : (apuStep (dots s.dotsThisCycle s)).Fits :=
    ⟨hd.ram, hd.ppu, Apu.stepCycle_fits _ _ _ hd.apu, hd.mapper, hd.index⟩
  have hm : (mapperTick (apuStep (dots s.dotsThisCycle s))).Fits := by
    refine ha.of_eq rfl rfl rfl ?_ rfl rfl ha.index
    exact Mapper.onCpuCycle_eq _
  exact hm.of_eq rfl rfl rfl rfl rfl rfl hm.index

theorem busAfterRead_fits (a : Addr) {s : State} (h : s.Fits) : (busAfterRead a s).Fits := by
  unfold busAfterRead
  dsimp only
  split
  · exact h.of_eq rfl rfl rfl rfl rfl rfl h.index
  split
  · exact ⟨h.ram, Ppu.afterRead_fits s.env s.mapper _ _ h.ppu, h.apu, Ppu.mapperAfterRead_fits s.ppu s.env _ _ h.mapper, h.index⟩
  split
  · exact ⟨h.ram, h.ppu, h.apu, h.mapper, h.index⟩
  split
  · exact h.of_eq rfl rfl rfl rfl rfl rfl h.index
  split
  · exact h.of_eq rfl rfl rfl rfl rfl rfl h.index
  split
  · exact h
  split
  · exact h.of_eq rfl rfl rfl rfl rfl rfl h.index
  · exact h

theorem busWrite_fits (a : Addr) (v : Byte) {s : State} (h : s.Fits) : (busWrite a v s).Fits := by
  have ha := a.isLt
  unfold busWrite
  dsimp only
  split
  · exact ⟨Memory.bounded_set _ h.ram (by omega), h.ppu, h.apu, h.mapper, h.index⟩
  split
  · exact ⟨h.ram, Ppu.afterWrite_fits s.env s.mapper _ _ v h.ppu, h.apu, Ppu.mapperAfterWrite_fits s.ppu s.env _ _ v h.mapper,
      h.index⟩
  split
  · exact ⟨h.ram, h.ppu, Apu.writeChannel_fits _ _ _ h.apu, h.mapper, h.index⟩
  split
  · exact h.of_eq rfl rfl rfl rfl rfl rfl h.index
  split
  · exact ⟨h.ram, h.ppu, Apu.writeEnable_fits _ _ h.apu, h.mapper, h.index⟩
  split
  · exact h.of_eq rfl rfl rfl rfl rfl rfl h.index
  split
  · exact ⟨h.ram, h.ppu, h.apu, h.mapper, h.index⟩
  split
  · exact h.of_eq rfl rfl rfl rfl rfl rfl h.index
  · exact ⟨h.ram, h.ppu, h.apu, Mapper.prgWrite_fits _ _ _ _ (by omega) h.mapper, h.index⟩

theorem mapProg_fits (f : Progress → Progress) {s : State} (h : s.Fits) : (s.mapProg f).Fits :=
  h.of_eq rfl rfl rfl rfl rfl rfl h.index

theorem poll_fits {s : State} (h : s.Fits) : (poll s).Fits := h.of_eq rfl rfl rfl rfl rfl rfl h.index

/-! ## DMA -/

/-- The DMA state may change so long as the index stays in its range. -/
theorem State.Fits.dma {s : State} (h : s.Fits) {d : Dma} (hd : d.oamIndex ≤ 256) : State.Fits { s with dma := d } :=
  h.of_eq rfl rfl rfl rfl rfl rfl hd

theorem idleStall_fits {s : State} (h : s.Fits) : (idleStall s).Fits := endCycle_fits _ (h.dma h.index)

theorem idleStalls_fits (n : Nat) {s : State} (h : s.Fits) : (idleStalls n s).Fits := by
  induction n generalizing s with
  | zero => exact h
  | succ n ih => exact ih (idleStall_fits h)

theorem dmcTake_fits {s : State} (h : s.Fits) : (dmcTake s).Fits := by
  have hb := busAfterRead_fits s.apu.dmc.addr h
  refine ⟨hb.ram, hb.ppu, ?_, hb.mapper, hb.index⟩
  have hc := hb.apu
  rw [Apu.countersFit_iff] at hc ⊢
  obtain ⟨h1, h2, h3, h4, h5, h6, h7, h8, h9⟩ := hc
  obtain ⟨d1, d2⟩ := Dmc.receive_fits (busAfterRead s.apu.dmc.addr s).apu.dmc (busValue s.apu.dmc.addr s) h6
  exact ⟨h1, h2, h3, d2.symm ▸ h4, h5, d1, h7, h8, h9⟩

theorem dmcFetch_fits {s : State} (h : s.Fits) : (dmcFetch s).Fits :=
  have ht := dmcTake_fits h
  endCycle_fits _ (ht.dma ht.index)

theorem dmcDma_fits {s : State} (h : s.Fits) : (dmcDma s).Fits := by
  unfold dmcDma
  dsimp only
  split
  · exact dmcFetch_fits (idleStalls_fits _ (h.dma h.index))
  · exact h

theorem dmcStallCycle_fits {s : State} (h : s.Fits) : (dmcStallCycle s).Fits := by
  unfold dmcStallCycle
  dsimp only
  split <;> split
  · exact dmcFetch_fits (h.dma h.index)
  · exact idleStall_fits (h.dma h.index)
  · exact dmcFetch_fits h
  · exact idleStall_fits h

theorem haltedCycle_fits {s : State} (h : s.Fits) : (haltedCycle s).Fits := by
  unfold haltedCycle
  split
  · exact dmcStallCycle_fits h
  · exact endCycle_fits _ h

theorem dmaCollision_fits {s : State} (h : s.Fits) : (dmaCollision s).Fits := by
  unfold dmaCollision
  split
  · exact idleStall_fits (dmcFetch_fits (h.dma h.index))
  · exact h

theorem oamMeet_fits {s : State} (h : s.Fits) : (oamMeet s).Fits := by
  unfold oamMeet
  split
  · split
    · exact dmcTake_fits h
    · exact h.dma h.index
    · exact h
  · exact h

theorem oamLast_fits {s : State} (h : s.Fits) : (oamLast s).Fits := by
  unfold oamLast
  split
  · exact h.dma h.index
  · exact h

theorem lateCycle_fits {s : State} (h : s.Fits) : (lateCycle s).Fits := by
  unfold lateCycle
  split
  · exact dmcFetch_fits (h.dma h.index)
  · exact idleStall_fits h

theorem oamOver_fits {s : State} (h : s.Fits) : (oamOver s).Fits := by
  unfold oamOver
  exact h.dma h.index

theorem sharedFetch_fits {s : State} (h : s.Fits) : (sharedFetch s).Fits := by
  unfold sharedFetch
  split
  · exact (dmcTake_fits h).dma (dmcTake_fits h).index
  · exact h

theorem oamRest_fits {s : State} (h : s.Fits) : (oamRest s).Fits := by
  unfold oamRest
  split
  · exact oamOver_fits h
  · exact oamOver_fits (idleStalls_fits _ (lateCycle_fits h))

/-- A get cycle leaves the index alone. -/
theorem oamGet_fits {s : State} (h : s.Fits) : (oamGet s).Fits :=
  have hb := busAfterRead_fits (word s.dma.oamPage (BitVec.ofNat 8 s.dma.oamIndex)) h
  endCycle_fits _ (hb.dma hb.index)

theorem oamPut_fits {s : State} (h : s.Fits) (hi : s.dma.oamIndex < 256) : (oamPut s).Fits :=
  have hb := busWrite_fits 0x2004 s.dma.oamLatch h
  have hd : (busWrite 0x2004 s.dma.oamLatch s).dma = s.dma := rfl
  endCycle_fits _ (hb.dma (by rw [hd]; exact hi))

/-! The index counts the pairs. -/

theorem dots_dma (n : Nat) (s : State) : (dots n s).dma = s.dma := by
  induction n generalizing s with
  | zero => rfl
  | succ n ih => exact (ih _).trans rfl

theorem endCycle_index (w : Bool) (s : State) : (endCycle w s).dma.oamIndex = s.dma.oamIndex := by
  have e : (endCycle w s).dma.oamIndex = (dots s.dotsThisCycle s).dma.oamIndex := rfl
  rw [e, dots_dma]

theorem idleStall_index (s : State) : (idleStall s).dma.oamIndex = s.dma.oamIndex := endCycle_index _ _

theorem idleStalls_index (n : Nat) (s : State) : (idleStalls n s).dma.oamIndex = s.dma.oamIndex := by
  induction n generalizing s with
  | zero => rfl
  | succ n ih => exact (ih _).trans (idleStall_index _)

theorem busAfterRead_dma (a : Addr) (s : State) : (busAfterRead a s).dma = s.dma := by
  unfold busAfterRead; dsimp only; repeat' split
  all_goals rfl

theorem dmcTake_dma (s : State) : (dmcTake s).dma = { s.dma with dmcPending := false } := by
  unfold dmcTake
  dsimp only
  rw [busAfterRead_dma]

theorem dmcFetch_index (s : State) : (dmcFetch s).dma.oamIndex = s.dma.oamIndex := by
  unfold dmcFetch
  dsimp only
  rw [endCycle_index, dmcTake_dma]

theorem oamMeet_index (s : State) : (oamMeet s).dma.oamIndex = s.dma.oamIndex := by
  unfold oamMeet
  split
  · split
    · rw [dmcTake_dma]
    · rfl
    · rfl
  · rfl

theorem oamLast_index (s : State) : (oamLast s).dma.oamIndex = s.dma.oamIndex := by
  unfold oamLast
  split <;> rfl

theorem dmaCollision_index (s : State) : (dmaCollision s).dma.oamIndex = s.dma.oamIndex := by
  unfold dmaCollision
  split
  · rw [idleStall_index, collisionFetch, dmcFetch_index]
  · rfl

theorem oamGet_index (s : State) : (oamGet s).dma.oamIndex = s.dma.oamIndex := by
  unfold oamGet
  dsimp only
  rw [endCycle_index, busAfterRead_dma]

theorem oamPut_index (s : State) : (oamPut s).dma.oamIndex = s.dma.oamIndex + 1 := by
  unfold oamPut
  dsimp only
  rw [endCycle_index]
  rfl

theorem oamPairs_fits (n : Nat) {s : State} (h : s.Fits) (hi : s.dma.oamIndex + n ≤ 256) : (oamPairs n s).Fits := by
  induction n generalizing s with
  | zero => exact h
  | succ n ih =>
    have h1 := oamGet_fits (oamMeet_fits (dmaCollision_fits (dmaCollision_fits h)))
    have e : (oamGet (oamMeet (dmaCollision (dmaCollision s)))).dma.oamIndex = s.dma.oamIndex := by
      rw [oamGet_index, oamMeet_index, dmaCollision_index, dmaCollision_index]
    exact ih (oamLast_fits (oamPut_fits h1 (by omega))) (by rw [oamLast_index, oamPut_index]; omega)

/-- Where an OAM DMA resumes, its index is still in range. -/
theorem oamBegun_fits {s : State} (h : s.Fits) : (oamBegun s).Fits := by
  have hi := h.index
  unfold oamBegun
  dsimp only
  split
  · exact idleStalls_fits _ (h.dma (Nat.zero_le _))
  split
  · exact h
  split
  · exact oamLast_fits (oamPut_fits h (by omega))
  · exact idleStalls_fits _ h

theorem oamDma_fits {s : State} (h : s.Fits) : (oamDma s).Fits := by
  unfold oamDma
  dsimp only
  split
  · have h1 := oamBegun_fits h
    have hi := h1.index
    exact oamRest_fits (oamPairs_fits (256 - (oamBegun s).dma.oamIndex) h1 (by omega))
  · exact h

theorem stalls_fits {s : State} (h : s.Fits) : (stalls s).Fits := dmcDma_fits (dmcDma_fits (sharedFetch_fits (oamDma_fits h)))

/-! ## The Cpu's cycles -/

/-- The invariant without its clause on the boundary is kept by every part of a step. -/
theorem fits_closed : Closed State.Fits where
  read p a s h := by
    have h1 := stalls_fits h
    have h2 : (if p then poll (stalls s) else stalls s).Fits := by
      split
      · exact poll_fits h1
      · exact h1
    have h3 : (beginRead p s).Fits := mapProg_fits (fun g => { g with tcycle := g.tcycle + 1 }) h2
    exact endCycle_fits _ (busAfterRead_fits _ h3)
  write p a v s h := by
    have h2 : (if p then poll s else s).Fits := by
      split
      · exact poll_fits h
      · exact h
    exact endCycle_fits _ (busWrite_fits _ _ (mapProg_fits _ h2))
  regs _ _ h := h.of_eq rfl rfl rfl rfl rfl rfl h.index
  prog _ _ h := mapProg_fits _ h
  nmi _ _ h := h.of_eq rfl rfl rfl rfl rfl rfl h.index
  int _ h := h.of_eq rfl rfl rfl rfl rfl rfl h.index
  halt _ h := h.of_eq rfl rfl rfl rfl rfl rfl h.index

/-! ## The boundary -/

/-- Every sequence ends at an instruction boundary. -/
theorem run_idle (sh : Shape) (a : Addr) (s : State) : (sh.run a s).cpu.prog = Progress.idle := by
  cases sh <;> try rfl
  simp only [Shape.run, branch]
  split
  · split <;> rfl
  · rfl

theorem haltedCycle_prog (s : State) : (haltedCycle s).cpu.prog = s.cpu.prog := by
  unfold haltedCycle dmcStallCycle
  dsimp only
  repeat' split
  all_goals simp

end Sys2Proof.Machine
end

