-- ==== Sys2Proof/Laws/Stepping.lean ====
section
/-! SUPPORT. The rows of `Machine/Cycle.lean` beside the operations of `Machine/Ops.lean`: a row with the DMA cycles in front of
it is one read or write cycle of an instruction; the progress fields are no part of what the bus, the clocks and the DMA units
see. -/

namespace Sys2Proof.Machine

/-! ## The progress fields reach nothing outside the Cpu -/

theorem busValue_mapProg (a : Addr) (f : Progress → Progress) (s : State) : busValue a (s.mapProg f) = busValue a s := rfl

theorem busAfterRead_mapProg (a : Addr) (f : Progress → Progress) (s : State) :
    busAfterRead a (s.mapProg f) = (busAfterRead a s).mapProg f := by
  have e : (s.mapProg f).mapper.prgRead (s.mapProg f).cart (s.mapProg f).params (s.mapProg f).epoch a.toNat
      = s.mapper.prgRead s.cart s.params s.epoch a.toNat := rfl
  unfold busAfterRead
  dsimp only
  rw [e]
  repeat' split
  all_goals rfl

theorem busWrite_mapProg (a : Addr) (v : Byte) (f : Progress → Progress) (s : State) :
    busWrite a v (s.mapProg f) = (busWrite a v s).mapProg f := by
  unfold busWrite
  dsimp only
  repeat' split
  all_goals rfl

theorem dots_mapProg (n : Nat) (f : Progress → Progress) (s : State) : dots n (s.mapProg f) = (dots n s).mapProg f := by
  induction n generalizing s with
  | zero => rfl
  | succ n ih => exact ih (dot s)

theorem endCycle_mapProg (w : Bool) (f : Progress → Progress) (s : State) :
    endCycle w (s.mapProg f) = (endCycle w s).mapProg f := by
  have h : dots (s.mapProg f).dotsThisCycle (s.mapProg f) = (dots s.dotsThisCycle s).mapProg f := dots_mapProg _ f s
  unfold endCycle
  rw [h]
  rfl

theorem idleStall_mapProg (f : Progress → Progress) (s : State) : idleStall (s.mapProg f) = (idleStall s).mapProg f :=
  endCycle_mapProg false f { s with dma := { s.dma with stall := s.dma.stall - 1 } }

theorem idleStalls_mapProg (n : Nat) (f : Progress → Progress) (s : State) :
    idleStalls n (s.mapProg f) = (idleStalls n s).mapProg f := by
  induction n generalizing s with
  | zero => rfl
  | succ n ih => exact (congrArg (idleStalls n) (idleStall_mapProg f s)).trans (ih _)

theorem dmcTake_mapProg (f : Progress → Progress) (s : State) : dmcTake (s.mapProg f) = (dmcTake s).mapProg f := by
  unfold dmcTake
  dsimp only
  rw [show (s.mapProg f).apu = s.apu from rfl, busAfterRead_mapProg, busValue_mapProg]
  rfl

theorem dmcFetch_mapProg (f : Progress → Progress) (s : State) : dmcFetch (s.mapProg f) = (dmcFetch s).mapProg f := by
  unfold dmcFetch
  dsimp only
  rw [dmcTake_mapProg]
  generalize dmcTake s = t
  exact endCycle_mapProg false f { t with dma := { t.dma with stall := t.dma.stall - 1 } }

theorem dmaCollision_mapProg (f : Progress → Progress) (s : State) :
    dmaCollision (s.mapProg f) = (dmaCollision s).mapProg f := by
  have h : collisionFetch (s.mapProg f) = (collisionFetch s).mapProg f :=
    dmcFetch_mapProg f
      { s with
        dma := { s.dma with stall := s.dma.stall + s.collisionExtra, owed := s.dma.owed + (s.collisionExtra - 2) } }
  unfold dmaCollision
  rw [show (s.mapProg f).defersPair = s.defersPair from rfl, h]
  split
  · exact idleStall_mapProg f _
  · rfl

theorem oamMeet_mapProg (f : Progress → Progress) (s : State) : oamMeet (s.mapProg f) = (oamMeet s).mapProg f := by
  unfold oamMeet
  rw [show (s.mapProg f).collides = s.collides from rfl, show (s.mapProg f).collisionExtra = s.collisionExtra from rfl]
  split
  · split
    · exact dmcTake_mapProg f s
    · rfl
    · rfl
  · rfl

theorem oamLast_mapProg (f : Progress → Progress) (s : State) : oamLast (s.mapProg f) = (oamLast s).mapProg f := by
  unfold oamLast
  rw [show (s.mapProg f).dma = s.dma from rfl, show (s.mapProg f).collides = s.collides from rfl]
  split <;> rfl

theorem lateCycle_mapProg (f : Progress → Progress) (s : State) : lateCycle (s.mapProg f) = (lateCycle s).mapProg f := by
  unfold lateCycle
  rw [show (s.mapProg f).dma = s.dma from rfl]
  split
  · exact dmcFetch_mapProg f { s with dma := { s.dma with late := false } }
  · exact idleStall_mapProg f s

theorem oamOver_mapProg (f : Progress → Progress) (s : State) : oamOver (s.mapProg f) = (oamOver s).mapProg f := rfl

theorem sharedFetch_mapProg (f : Progress → Progress) (s : State) : sharedFetch (s.mapProg f) = (sharedFetch s).mapProg f := by
  unfold sharedFetch
  rw [show (s.mapProg f).dma = s.dma from rfl, dmcTake_mapProg]
  split <;> rfl

theorem oamRest_mapProg (f : Progress → Progress) (s : State) : oamRest (s.mapProg f) = (oamRest s).mapProg f := by
  unfold oamRest
  rw [show (s.mapProg f).dma = s.dma from rfl, lateCycle_mapProg, idleStalls_mapProg]
  split <;> exact oamOver_mapProg f _

theorem oamGet_mapProg (f : Progress → Progress) (s : State) : oamGet (s.mapProg f) = (oamGet s).mapProg f := by
  unfold oamGet
  dsimp only
  rw [show (s.mapProg f).dma = s.dma from rfl, busAfterRead_mapProg, busValue_mapProg]
  generalize word s.dma.oamPage (BitVec.ofNat 8 s.dma.oamIndex) = a
  generalize busAfterRead a s = t
  exact endCycle_mapProg false f { t with dma := { t.dma with oamLatch := busValue a s, stall := t.dma.stall - 1 } }

theorem oamPut_mapProg (f : Progress → Progress) (s : State) : oamPut (s.mapProg f) = (oamPut s).mapProg f := by
  unfold oamPut
  dsimp only
  rw [show (s.mapProg f).dma = s.dma from rfl, busWrite_mapProg]
  generalize busWrite 0x2004 s.dma.oamLatch s = t
  exact endCycle_mapProg true f { t with dma := { t.dma with oamIndex := t.dma.oamIndex + 1, stall := t.dma.stall - 1 } }

theorem oamPairs_mapProg (n : Nat) (f : Progress → Progress) (s : State) :
    oamPairs n (s.mapProg f) = (oamPairs n s).mapProg f := by
  induction n generalizing s with
  | zero => rfl
  | succ n ih =>
    unfold oamPairs
    rw [dmaCollision_mapProg, dmaCollision_mapProg, oamMeet_mapProg, oamGet_mapProg, oamPut_mapProg, oamLast_mapProg, ih]

theorem oamBegun_mapProg (f : Progress → Progress) (s : State) : oamBegun (s.mapProg f) = (oamBegun s).mapProg f := by
  unfold oamBegun
  dsimp only
  rw [show (s.mapProg f).dma = s.dma from rfl]
  split
  · exact idleStalls_mapProg _ f
      { s with dma := { s.dma with oamIndex := 0, stall := 513 + (s.cycle + 1) % 2, owed := 0, late := false } }
  split
  · rfl
  split
  · rw [oamPut_mapProg]; exact oamLast_mapProg f _
  · exact idleStalls_mapProg _ f s

theorem oamDma_mapProg (f : Progress → Progress) (s : State) : oamDma (s.mapProg f) = (oamDma s).mapProg f := by
  have h (n : Nat) (t : State) : oamRest (oamPairs n (t.mapProg f)) = (oamRest (oamPairs n t)).mapProg f := by
    rw [oamPairs_mapProg, oamRest_mapProg]
  unfold oamDma
  dsimp only
  rw [show (s.mapProg f).dma = s.dma from rfl, oamBegun_mapProg]
  split
  · exact h _ _
  · rfl

theorem dmcDma_mapProg (f : Progress → Progress) (s : State) : dmcDma (s.mapProg f) = (dmcDma s).mapProg f := by
  have h (n : Nat) : dmcFetch (idleStalls (n - 1) { (s.mapProg f) with dma := { s.dma with stall := n } })
      = (dmcFetch (idleStalls (n - 1) { s with dma := { s.dma with stall := n } })).mapProg f := by
    rw [← dmcFetch_mapProg, ← idleStalls_mapProg]
    rfl
  unfold dmcDma
  dsimp only
  rw [show (s.mapProg f).dma = s.dma from rfl]
  split
  · exact h _
  · rfl

/-- What the DMA units do in front of a read cycle does not depend on the progress fields. -/
theorem stalls_mapProg (f : Progress → Progress) (s : State) : stalls (s.mapProg f) = (stalls s).mapProg f := by
  unfold stalls
  rw [oamDma_mapProg, sharedFetch_mapProg, dmcDma_mapProg, dmcDma_mapProg]

/-- The machine with other progress fields. -/
def State.withProg (s : State) (g : Progress) : State := s.mapProg (fun _ => g)

/-- A cycle's count of the progress fields. -/
def Progress.tick (g : Progress) : Progress := { g with tcycle := g.tcycle + 1 }

/-- A read cycle in an order that the progress fields come last. -/
theorem readCycle_eq (p : Bool) (a : Addr) (s : State) :
    readCycle p a s = (endCycle false (busAfterRead a (if p then poll (stalls s) else stalls s))).mapProg Progress.tick
      ∧ readValue p a s = busValue a (stalls s) := by
  constructor
  · show endCycle false (busAfterRead a ((if p then poll (stalls s) else stalls s).mapProg Progress.tick)) = _
    rw [busAfterRead_mapProg, endCycle_mapProg]
  · cases p <;> rfl

theorem readCycle_withProg (p : Bool) (a : Addr) (s : State) (g : Progress) :
    readCycle p a (s.withProg g) = (readCycle p a s).withProg g.tick ∧ readValue p a (s.withProg g) = readValue p a s := by
  obtain ⟨h1, h2⟩ := readCycle_eq p a s
  obtain ⟨h3, h4⟩ := readCycle_eq p a (s.withProg g)
  have e : stalls (s.withProg g) = (stalls s).withProg g := stalls_mapProg _ s
  have e' : (if p then poll ((stalls s).withProg g) else (stalls s).withProg g)
      = (if p then poll (stalls s) else stalls s).withProg g := by cases p <;> rfl
  refine ⟨?_, ?_⟩
  · rw [h3, h1, e, e']
    unfold State.withProg
    rw [busAfterRead_mapProg, endCycle_mapProg]
    rfl
  · rw [h4, h2, e]
    rfl

theorem writeCycle_withProg (p : Bool) (a : Addr) (v : Byte) (s : State) (g : Progress) :
    writeCycle p a v (s.withProg g) = (writeCycle p a v s).withProg g.tick := by
  have e : (if p then poll (s.withProg g) else s.withProg g) = (if p then poll s else s).withProg g := by cases p <;> rfl
  unfold writeCycle
  rw [e]
  show endCycle true (busWrite a v (((if p then poll s else s).withProg g).mapProg Progress.tick)) = _
  unfold State.withProg
  rw [busWrite_mapProg, endCycle_mapProg, busWrite_mapProg, endCycle_mapProg, busWrite_mapProg, endCycle_mapProg]
  rfl

/-! ## One row -/

/-- The machine's next row; a halted Cpu lets one cycle pass. -/
def rowStep (s : State) : State := if s.cpu.halted then haltedCycle s else runRow s

/-- `n` rows. -/
def rowsAfter : Nat → State → State
  | 0, s => s
  | n + 1, s => rowsAfter n (rowStep s)

theorem rowsAfter_add (m n : Nat) (s : State) : rowsAfter (m + n) s = rowsAfter n (rowsAfter m s) := by
  induction m generalizing s with
  | zero => rw [Nat.zero_add]; rfl
  | succ m ih => rw [Nat.succ_add]; exact ih _

/-- A row that reads is a read cycle. -/
theorem rowStep_read {c : State} (nh : c.cpu.halted = false) {p : Bool} {a : Addr} {f : Byte → State → State}
    (row : c.nextRow = readRow p a f) : rowStep c = f (readValue p a c) (readCycle p a c) := by
  unfold rowStep
  rw [nh, if_neg (by simp), runRow, row]
  rfl

/-- A row that writes is a write cycle. -/
theorem rowStep_write {c : State} (nh : c.cpu.halted = false) {p : Bool} {a : Addr} {v : Byte} {f : State → State}
    (row : c.nextRow = writeRow p a v f) : rowStep c = f (writeCycle p a v c) := by
  unfold rowStep
  rw [nh, if_neg (by simp), runRow, row]
  rfl

/-- The machine is inside an instruction with the sequence `sh`, `n` of whose cycles are over. -/
structure Ready (sh : Shape) (n : Nat) (c : State) : Prop where
  shape  : ∃ op, c.cpu.prog.ir = .opcode op ∧ shapeOf c.params op = sh
  count  : c.cpu.prog.tcycle = n
  runs   : c.cpu.halted = false

theorem Ready.row {sh : Shape} {n : Nat} {c : State} (h : Ready sh n c) : c.nextRow = sh.row (n + 1) c := by
  obtain ⟨op, h1, h2⟩ := h.shape
  unfold State.nextRow
  rw [h1, h.count]
  dsimp only
  rw [h2]

theorem Ready.read {sh : Shape} {n : Nat} {c : State} (h : Ready sh n c) (p : Bool) (a : Addr) :
    Ready sh (n + 1) (readCycle p a c) := by
  obtain ⟨op, h1, h2⟩ := h.shape
  have k := readCycle_kept p a c
  exact ⟨⟨op, by rw [readCycle_prog]; exact h1, by rw [k.params]; exact h2⟩, by rw [readCycle_prog]; exact congrArg (· + 1) h.count,
    k.halted.trans h.runs⟩

theorem Ready.write {sh : Shape} {n : Nat} {c : State} (h : Ready sh n c) (p : Bool) (a : Addr) (v : Byte) :
    Ready sh (n + 1) (writeCycle p a v c) := by
  obtain ⟨op, h1, h2⟩ := h.shape
  obtain ⟨-, -, -, k4, -⟩ := writeCycle_storedAt p a v c
  exact ⟨⟨op, by rw [writeCycle_prog]; exact h1, by rw [k4]; exact h2⟩, by rw [writeCycle_prog]; exact congrArg (· + 1) h.count,
    (writeCycle_halted p a v c).trans h.runs⟩

/-- Changes of the Cpu that keep the opcode and the count. -/
theorem Ready.prog {sh : Shape} {n : Nat} {c : State} (h : Ready sh n c) {f : Progress → Progress}
    (hf : ∀ g, (f g).ir = g.ir ∧ (f g).tcycle = g.tcycle) : Ready sh n (c.mapProg f) := by
  obtain ⟨op, h1, h2⟩ := h.shape
  exact ⟨⟨op, (hf _).1.trans h1, h2⟩, (hf _).2.trans h.count, h.runs⟩

theorem Ready.regs {sh : Shape} {n : Nat} {c : State} (h : Ready sh n c) (f : Regs → Regs) : Ready sh n (c.mapRegs f) :=
  ⟨h.shape, h.count, h.runs⟩

theorem Ready.fetch {sh : Shape} {n : Nat} {c : State} (h : Ready sh n c) (p : Bool) {f : Progress → Progress}
    (hf : ∀ g, (f g).ir = g.ir ∧ (f g).tcycle = g.tcycle) : Ready sh (n + 1) (fetchOperand p f c) :=
  ((h.read p _).prog hf).regs _

/-! ## The opcode fetch and the operand bytes -/

/-- From a boundary, the first cycle is the opcode fetch. -/
theorem rowStep_boundary {s : State} (nh : s.cpu.halted = false) (ni : s.cpu.intDetected = false)
    (hp : s.cpu.prog = Progress.idle) :
    rowStep s = fetchOpcode s ∧ Ready (shapeOf s.params s.nextOpcode) 1 (fetchOpcode s) := by
  have row : s.nextRow = fetchRow false s (fun b g => { g with ir := .opcode b }) := by
    unfold State.nextRow
    rw [hp]
    simp only [Progress.idle, ni]
    rfl
  have k := fetchOpcode_same s
  refine ⟨rowStep_read nh row, ⟨s.nextOpcode, rfl, by rw [k.params]⟩, ?_, k.halted.trans nh⟩
  show (readCycle false s.cpu.regs.pc s).cpu.prog.tcycle = 1
  rw [readCycle_prog, hp]
  rfl

/-- A row that reads the byte at PC is `fetchOperand`, when the byte is the expected one. -/
theorem rowStep_fetch {sh : Shape} {n : Nat} {c : State} (h : Ready sh n c) {p : Bool} {f : Byte → Progress → Progress}
    (row : sh.row (n + 1) c = fetchRow p c f) {b : Byte} (hb : readValue p c.cpu.regs.pc c = b) :
    rowStep c = fetchOperand p (f b) c := by
  rw [rowStep_read h.runs (h.row.trans row), hb]
  rfl

/-- The byte a read cycle reads does not depend on whether the cycle polls. -/
theorem readValue_poll (p : Bool) (a : Addr) (s : State) : readValue p a s = readValue false a s := by cases p <;> rfl

end Sys2Proof.Machine
end

