-- ==== Sys2Proof/Laws/DmaCycles.lean ====
section
/-! SUPPORT. The DMA units one cycle at a time: what `stalls` does at once in front of a read cycle is what single cycles of
`Machine/Cycle.lean` do one after another, from every state in which the DMA units are where single cycles can leave them. -/

namespace Sys2Proof.Machine

/-! ## The delta-modulation channel through a clock -/

/-- One `apu_step` of the channel. -/
theorem Apu.stepCycle_dmc (s : Apu) (r : Region) (c : Nat) :
    (s.stepCycle r c).dmc = if c % 2 = 1 then s.dmc.tick r else s.dmc := by
  show ((s.sequence r).tick r c).dmc = _
  unfold Apu.tick
  split
  · exact congrArg (fun u : Dmc => u.tick r) (s.sequence_dmc r)
  · exact s.sequence_dmc r

/-- A clock neither fills the sample buffer nor changes how many bytes remain. -/
theorem Dmc.tick_wants (u : Dmc) (r : Region) (h : u.wantsByte = true) : (u.tick r).wantsByte = true := by
  simp only [Dmc.wantsByte, Bool.and_eq_true, decide_eq_true_eq, Option.isNone_iff_eq_none] at h ⊢
  refine ⟨?_, by rw [Dmc.tick_remaining]; exact h.2⟩
  unfold Dmc.tick
  split
  · unfold Dmc.clockOutput
    dsimp only
    split
    · rw [h.1]
    · exact h.1
  · exact h.1

/-- While the timer has not expired a clock only counts it down. -/
theorem Dmc.tick_counts (u : Dmc) (r : Region) {k : Nat} (h : k + 1 ≤ u.timer) :
    k ≤ (u.tick r).timer ∧ (u.tick r).wantsByte = u.wantsByte := by
  unfold Dmc.tick
  rw [if_neg (by omega)]
  exact ⟨by dsimp only; omega, rfl⟩

/-- The shortest rate is 50 Cpu cycles. -/
theorem dmcRate_le (r : Region) (v : Byte) : 24 ≤ (dmcRates r).getD (v &&& 0x0F).toNat 0 / 2 - 1 := by
  have h : ∀ k : Fin 16, 24 ≤ (dmcRates r).getD k.val 0 / 2 - 1 := by cases r <;> decide
  exact h ⟨(v &&& 0x0F).toNat, by
    have : (v &&& 0x0F).toNat ≤ (0x0F : Byte).toNat := by rw [BitVec.toNat_and]; exact Nat.and_le_right
    exact Nat.lt_of_le_of_lt this (by decide)⟩

/-- A clock that empties a full sample buffer starts a whole period. -/
theorem Dmc.tick_emptied (u : Dmc) (r : Region) (h : u.wantsByte = false) (h' : (u.tick r).wantsByte = true) :
    24 ≤ (u.tick r).timer := by
  unfold Dmc.tick at h' ⊢
  split
  · exact dmcRate_le r _
  · next ht =>
    rw [if_neg ht] at h'
    exact absurd (h.symm.trans h') (by simp)

/-- The channel was filled or emptied lately: it wants no byte, or its timer has `k` cycles to go. -/
def Dmc.Lately (k : Nat) (u : Dmc) : Prop := u.wantsByte = true → k ≤ u.timer

theorem Dmc.Lately.tick {k : Nat} {u : Dmc} (h : u.Lately (k + 1)) (hk : k ≤ 24) (r : Region) : (u.tick r).Lately k := by
  intro w
  cases hu : u.wantsByte
  · exact Nat.le_trans hk (u.tick_emptied r hu w)
  · exact (u.tick_counts r (h hu)).1

theorem Dmc.receive_full (u : Dmc) (b : Byte) : (u.receive b).wantsByte = false ∧ (u.receive b).timer = u.timer := by
  unfold Dmc.receive
  dsimp only
  repeat' split
  all_goals exact ⟨rfl, rfl⟩

/-! ## The fields of one DMA cycle -/

theorem endCycle_apu (w : Bool) (s : State) : (endCycle w s).apu = s.apu.stepCycle s.params.region s.cycle := by
  obtain ⟨-, d2, d3⟩ := dots_fields s.dotsThisCycle s
  have k := dots_kept s.dotsThisCycle s
  show (dots s.dotsThisCycle s).apu.stepCycle (dots s.dotsThisCycle s).params.region (dots s.dotsThisCycle s).cycle = _
  rw [d2, d3, k.params]

/-- At the end of a cycle a fetch is pending exactly when the channel wants a byte; the other DMA fields are as before. -/
theorem endCycle_dmaFields (w : Bool) (s : State) :
    (endCycle w s).dma = { s.dma with dmcPending := (endCycle w s).apu.dmc.wantsByte } := by
  show ({ (dots s.dotsThisCycle s).dma with dmcPending := (endCycle w s).apu.dmc.wantsByte } : Dma) = _
  rw [dots_dma]

theorem idleStall_dma (s : State) :
    (idleStall s).dma = { s.dma with stall := s.dma.stall - 1, dmcPending := (idleStall s).apu.dmc.wantsByte } :=
  endCycle_dmaFields _ _

theorem dmcFetch_dma (s : State) :
    (dmcFetch s).dma = { s.dma with stall := s.dma.stall - 1, dmcPending := (dmcFetch s).apu.dmc.wantsByte } := by
  have e : (dmcFetch s).dma =
      { (dmcTake s).dma with stall := (dmcTake s).dma.stall - 1, dmcPending := (dmcFetch s).apu.dmc.wantsByte } :=
    endCycle_dmaFields _ _
  rwa [dmcTake_dma] at e

theorem oamGet_dma (s : State) :
    (oamGet s).dma =
      { s.dma with
        stall := s.dma.stall - 1, oamLatch := busValue (word s.dma.oamPage (BitVec.ofNat 8 s.dma.oamIndex)) s
        dmcPending := (oamGet s).apu.dmc.wantsByte } := by
  have e : (oamGet s).dma =
      { (busAfterRead (word s.dma.oamPage (BitVec.ofNat 8 s.dma.oamIndex)) s).dma with
        stall := (busAfterRead (word s.dma.oamPage (BitVec.ofNat 8 s.dma.oamIndex)) s).dma.stall - 1
        oamLatch := busValue (word s.dma.oamPage (BitVec.ofNat 8 s.dma.oamIndex)) s, dmcPending := (oamGet s).apu.dmc.wantsByte } :=
    endCycle_dmaFields _ _
  rwa [busAfterRead_dma] at e

theorem oamPut_dma (s : State) :
    (oamPut s).dma =
      { s.dma with
        stall := s.dma.stall - 1, oamIndex := s.dma.oamIndex + 1, dmcPending := (oamPut s).apu.dmc.wantsByte } :=
  endCycle_dmaFields _ _

/-- The channel through an idle cycle. -/
theorem idleStall_dmc (s : State) : (idleStall s).apu.dmc = if s.cycle % 2 = 1 then s.apu.dmc.tick s.params.region else s.apu.dmc := by
  unfold idleStall
  rw [endCycle_apu]
  exact Apu.stepCycle_dmc _ _ _

/-- A byte handed over fills the buffer, and the channel's timer does not see it. -/
theorem dmcTake_full (s : State) :
    (dmcTake s).apu.dmc.wantsByte = false ∧ (dmcTake s).apu.dmc.timer = s.apu.dmc.timer := by
  have h := Dmc.receive_full (busAfterRead s.apu.dmc.addr s).apu.dmc (busValue s.apu.dmc.addr s)
  rw [(busAfterRead_fields s.apu.dmc.addr s).2.1] at h
  unfold dmcTake
  dsimp only
  rw [(busAfterRead_fields s.apu.dmc.addr s).2.1]
  exact h

/-- The channel through a cycle that fetches its byte. -/
theorem dmcFetch_dmc (s : State) :
    ∃ u : Dmc, u.wantsByte = false ∧ u.timer = s.apu.dmc.timer
      ∧ (dmcFetch s).apu.dmc = if s.cycle % 2 = 1 then u.tick s.params.region else u := by
  obtain ⟨h1, h2⟩ := dmcTake_full s
  refine ⟨(dmcTake s).apu.dmc, h1, h2, ?_⟩
  unfold dmcFetch
  dsimp only
  rw [endCycle_apu, Apu.stepCycle_dmc]
  dsimp only
  rw [dmcTake_cycle, (dmcTake_kept s).params]

/-- The channel through a cycle of a pair. -/
theorem oamGet_dmc (s : State) : (oamGet s).apu.dmc = if s.cycle % 2 = 1 then s.apu.dmc.tick s.params.region else s.apu.dmc := by
  have h := busAfterRead_fields (word s.dma.oamPage (BitVec.ofNat 8 s.dma.oamIndex)) s
  have k := busAfterRead_kept (word s.dma.oamPage (BitVec.ofNat 8 s.dma.oamIndex)) s
  unfold oamGet
  dsimp only
  rw [endCycle_apu, Apu.stepCycle_dmc]
  dsimp only
  rw [h.2.1, h.2.2, k.params]

@[inherit_doc oamGet_dmc]
theorem oamPut_dmc (s : State) : (oamPut s).apu.dmc = if s.cycle % 2 = 1 then s.apu.dmc.tick s.params.region else s.apu.dmc := by
  unfold oamPut
  dsimp only
  rw [endCycle_apu, Apu.stepCycle_dmc]
  rfl

/-- A channel that wants a byte still wants it after a cycle in which it gets none. -/
theorem wants_of_dmc {s t : State} (e : t.apu.dmc = if s.cycle % 2 = 1 then s.apu.dmc.tick s.params.region else s.apu.dmc)
    (h : s.apu.dmc.wantsByte = true) : t.apu.dmc.wantsByte = true := by
  rw [e]
  split
  · exact Dmc.tick_wants _ _ h
  · exact h

theorem idleStall_wants (s : State) (h : s.apu.dmc.wantsByte = true) : (idleStall s).apu.dmc.wantsByte = true :=
  wants_of_dmc (idleStall_dmc s) h

theorem idleStall_lately {k : Nat} (s : State) (h : s.apu.dmc.Lately (k + 1)) (hk : k ≤ 24) : (idleStall s).apu.dmc.Lately k := by
  rw [idleStall_dmc]
  split
  · exact h.tick hk _
  · exact fun w => Nat.le_of_succ_le (h w)

/-- After a fetch the channel wants a byte again only if the same cycle emptied the buffer. -/
theorem dmcFetch_lately (s : State) : (dmcFetch s).apu.dmc.Lately 24 := by
  obtain ⟨u, h1, -, h3⟩ := dmcFetch_dmc s
  rw [h3]
  split
  · exact fun w => u.tick_emptied _ h1 w
  · exact fun w => absurd (h1.symm.trans w) (by simp)

/-- A fetch at a time when the timer has not expired leaves the buffer full. -/
theorem dmcFetch_full {k : Nat} (s : State) (h : k + 1 ≤ s.apu.dmc.timer) :
    (dmcFetch s).apu.dmc.wantsByte = false ∧ k ≤ (dmcFetch s).apu.dmc.timer := by
  obtain ⟨u, h1, h2, h3⟩ := dmcFetch_dmc s
  rw [h3]
  split
  · obtain ⟨c1, c2⟩ := u.tick_counts s.params.region (k := k) (by omega)
    exact ⟨c2.trans h1, c1⟩
  · exact ⟨h1, by omega⟩

/-! ## The Cpu while DMA has the bus -/

/-- What decides the Cpu's next row is as before. -/
structure SameCpu (s t : State) : Prop where
  regs        : t.cpu.regs = s.cpu.regs
  prog        : t.cpu.prog = s.cpu.prog
  intDetected : t.cpu.intDetected = s.cpu.intDetected
  halted      : t.cpu.halted = s.cpu.halted
  params      : t.params = s.params

theorem SameCpu.refl (s : State) : SameCpu s s := ⟨rfl, rfl, rfl, rfl, rfl⟩

theorem SameCpu.of_kept {s t u : State} (h : SameCpu s t) (k : Kept t u) (hp : u.cpu.prog = t.cpu.prog)
    (hi : u.cpu.intDetected = t.cpu.intDetected) : SameCpu s u :=
  ⟨k.regs.trans h.regs, hp.trans h.prog, hi.trans h.intDetected, k.halted.trans h.halted, k.params.trans h.params⟩

/-- The DMA units do not touch it. -/
theorem sameCpu_dmaClosed (s : State) : DmaClosed (SameCpu s) where
  fields _ _ h := ⟨h.regs, h.prog, h.intDetected, h.halted, h.params⟩
  idle _ h := h.of_kept (idleStall_kept _) (idleStall_prog _) (endCycle_intDetected _ _)
  take t h := h.of_kept (dmcTake_kept _) (congrArg Cpu.prog (dmcTake_cpu t)) (congrArg Cpu.intDetected (dmcTake_cpu t))
  fetch _ h := h.of_kept (dmcFetch_kept _) (dmcFetch_prog _) (dmcFetch_intDetected _)
  get _ h := h.of_kept (oamGet_kept _) (oamGet_prog _) (by simp only [oamGet, endCycle_intDetected, busAfterRead_cpu])
  put _ h := h.of_kept (oamPut_kept _) (oamPut_prog _) (by simp only [oamPut, endCycle_intDetected, busWrite_cpu])

theorem entryRow_congr (b : Bool) (n : Nat) {s t : State} (hp : t.cpu.prog = s.cpu.prog) (hr : t.cpu.regs = s.cpu.regs)
    (w : (entryRow b n s).write.isNone = true) : entryRow b n t = entryRow b n s := by
  have ht : t.target = s.target := by unfold State.target; rw [hp]
  unfold entryRow at w ⊢
  dsimp only at w ⊢
  rw [hr, ht]
  split
  · exact absurd w (by simp [pushRow, writeRow])
  · exact absurd w (by simp [pushRow, writeRow])
  · exact absurd w (by simp [pushRow, writeRow])
  · rfl
  · rfl

theorem Shape.row_congr (sh : Shape) (n : Nat) {s t : State} (hp : t.cpu.prog = s.cpu.prog) (hr : t.cpu.regs = s.cpu.regs)
    (w : (sh.row n s).write.isNone = true) : sh.row n t = sh.row n s := by
  have ht : t.target = s.target := by unfold State.target; rw [hp]
  have hm (m : AddrMode) : m.row n t = m.row n s := by
    cases m <;> simp only [AddrMode.row, fetchRow, hp, hr, ht]
  cases sh
  case brk =>
    simp only [Shape.row] at w ⊢
    split
    · rw [hr]
    · next h =>
      refine entryRow_congr true n hp hr ?_
      split at w
      · exact absurd rfl h
      · exact w
  all_goals
    simp only [Shape.row, fixupRow, readTargetRow, rmwRow, unstableRow, dropRow, pushRow, beforePullRow, fetchRow, hp, hr, ht, hm]

/-- While the Cpu is held at a read, its next row is the same. -/
theorem SameCpu.nextRow {s t : State} (h : SameCpu s t) (w : s.nextRow.write.isNone = true) : t.nextRow = s.nextRow := by
  unfold State.nextRow at w ⊢
  rw [h.prog, h.intDetected, h.params]
  revert w
  dsimp only
  split
  · split
    · rw [h.regs]
      exact fun _ => rfl
    · rw [fetchRow, fetchRow, h.regs]
      exact fun _ => rfl
  · exact fun w => Shape.row_congr _ _ h.prog h.regs w
  · split
    · rw [dropRow, dropRow, h.regs]
      exact fun _ => rfl
    · exact fun w => entryRow_congr _ _ h.prog h.regs w

/-- The Cpu runs and its next cycle is a read. -/
structure Held (c : State) : Prop where
  runs : c.cpu.halted = false
  read : c.nextRow.write.isNone = true

theorem Held.congr {c t : State} (h : Held c) (k : SameCpu c t) : Held t :=
  ⟨k.halted.trans h.runs, by rw [k.nextRow h.read]; exact h.read⟩

/-- The DMA units leave it there. -/
theorem held_dmaClosed : DmaClosed Held where
  fields d s h := h.congr ((sameCpu_dmaClosed s).fields d s (.refl s))
  idle s h := h.congr ((sameCpu_dmaClosed s).idle s (.refl s))
  take s h := h.congr ((sameCpu_dmaClosed s).take s (.refl s))
  fetch s h := h.congr ((sameCpu_dmaClosed s).fetch s (.refl s))
  get s h := h.congr ((sameCpu_dmaClosed s).get s (.refl s))
  put s h := h.congr ((sameCpu_dmaClosed s).put s (.refl s))

/-! ## Single cycles -/

/-- `t` is some cycles after `c`. -/
def Cycles (c t : State) : Prop := ∃ n, cyclesAfter n c = t

theorem cyclesAfter_add (m n : Nat) (s : State) : cyclesAfter (m + n) s = cyclesAfter n (cyclesAfter m s) := by
  induction m generalizing s with
  | zero => rw [Nat.zero_add]; rfl
  | succ m ih => rw [Nat.succ_add]; exact ih _

theorem Cycles.refl (c : State) : Cycles c c := ⟨0, rfl⟩

theorem Cycles.trans {c t u : State} (h : Cycles c t) (h' : Cycles t u) : Cycles c u := by
  obtain ⟨n, rfl⟩ := h
  obtain ⟨m, rfl⟩ := h'
  exact ⟨n + m, cyclesAfter_add n m c⟩

/-- A cycle of a DMA unit that has the bus. -/
theorem Held.dma {c t : State} (h : Held c) (w : c.dmaWaiting = true) (e : dmaCycle c = t) : Cycles c t := by
  refine ⟨1, ?_⟩
  show stepCycle c = t
  unfold stepCycle
  rw [h.runs, h.read, w, if_neg (by simp), if_pos (by rfl), e]

/-! ## The OAM DMA -/

/-- The cycles the OAM DMA has ahead of it from its next pair on. -/
def Dma.left (d : Dma) : Nat := 2 * (256 - d.oamIndex) + d.owed

theorem oamEnd_of_pos {s : State} (h : s.dma.stall ≠ 0) : oamEnd s = s := by
  unfold oamEnd
  rw [if_neg h]

theorem dmaCycle_start {c : State} (p : c.dma.oamPending = true) (h : c.dma.stall = 0) :
    dmaCycle c = idleStall
      { c with dma := { c.dma with oamIndex := 0, stall := 513 + (c.cycle + 1) % 2, owed := 0, late := false } } := by
  unfold dmaCycle
  rw [if_pos p]
  exact if_pos h

theorem dmaCycle_after {c : State} (p : c.dma.oamPending = true) (h : c.dma.stall ≠ 0) (hi : c.dma.oamIndex = 256) :
    dmaCycle c = oamEnd (lateCycle c) := by
  unfold dmaCycle
  rw [if_pos p]
  dsimp only
  rw [if_neg h, if_pos hi]

theorem dmaCycle_idle {c : State} (p : c.dma.oamPending = true) (hi : c.dma.oamIndex < 256) (h : c.dma.left < c.dma.stall) :
    dmaCycle c = idleStall c := by
  unfold dmaCycle
  rw [if_pos p]
  dsimp only
  rw [if_neg (by omega), if_neg (by omega)]
  exact if_pos h

theorem dmaCycle_pair {c : State} (p : c.dma.oamPending = true) (hi : c.dma.oamIndex < 256) (h : c.dma.stall = c.dma.left) :
    dmaCycle c = if c.defersPair then collisionFetch c else oamGet (oamMeet c) := by
  have hl : c.dma.left ≠ 0 := by unfold Dma.left; omega
  unfold dmaCycle
  rw [if_pos p]
  dsimp only
  rw [if_neg (by omega), if_neg (by omega), if_neg]
  · exact if_pos h.symm
  · show ¬ c.dma.left < _
    omega

theorem dmaCycle_put {c : State} (p : c.dma.oamPending = true) (h0 : c.dma.stall ≠ 0) (hi : c.dma.oamIndex < 256)
    (h : c.dma.stall < c.dma.left) : dmaCycle c = oamEnd (oamLast (oamPut c)) := by
  unfold dmaCycle
  rw [if_pos p]
  dsimp only
  rw [if_neg h0, if_neg (by omega), if_neg, if_neg]
  · show ¬ c.dma.left = _
    omega
  · show ¬ c.dma.left < _
    omega

theorem waiting_of_oam {c : State} (p : c.dma.oamPending = true) : c.dmaWaiting = true := by simp [State.dmaWaiting, p]

/-- `n` idle cycles in front of a pair. -/
theorem cycles_idles (n : Nat) {c : State} (h : Held c) (p : c.dma.oamPending = true) (hi : c.dma.oamIndex < 256)
    (hn : c.dma.left + n ≤ c.dma.stall) : Cycles c (idleStalls n c) := by
  induction n generalizing c with
  | zero => exact .refl c
  | succ n ih =>
    have hl : 2 ≤ c.dma.left := by unfold Dma.left; omega
    have d := idleStall_dma c
    refine (h.dma (waiting_of_oam p) (dmaCycle_idle p hi (by omega))).trans (ih (held_dmaClosed.idle _ h) (by rw [d]; exact p) (by rw [d]; exact hi) ?_)
    have : (idleStall c).dma.left = c.dma.left := by unfold Dma.left; rw [d]
    rw [this, d]
    dsimp only
    omega

/-- The first cycle after the last put cycle settles what was put off. -/
theorem lateCycle_dma (s : State) :
    (lateCycle s).dma =
      { s.dma with stall := s.dma.stall - 1, late := false, dmcPending := (lateCycle s).apu.dmc.wantsByte } := by
  unfold lateCycle
  split
  · exact dmcFetch_dma _
  · next h => rw [idleStall_dma]; simp [h]

/-- The other cycles after it. -/
theorem cycles_tail (k : Nat) {c : State} (h : Held c) (p : c.dma.oamPending = true) (hi : c.dma.oamIndex = 256)
    (hl : c.dma.late = false) (hk : c.dma.stall = k) : Cycles (oamEnd c) (oamOver (idleStalls k c)) := by
  induction k generalizing c with
  | zero =>
    rw [oamEnd, if_pos hk]
    exact .refl _
  | succ k ih =>
    have d := idleStall_dma c
    have e : dmaCycle c = oamEnd (idleStall c) := by
      rw [dmaCycle_after p (by omega) hi, lateCycle, hl]
      rfl
    rw [oamEnd_of_pos (by omega)]
    refine (h.dma (waiting_of_oam p) e).trans (ih (held_dmaClosed.idle _ h) ?_ ?_ ?_ ?_) <;> rw [d]
    · exact p
    · exact hi
    · exact hl
    · dsimp only; omega

/-- The cycles after the last put cycle. -/
theorem cycles_rest {c : State} (h : Held c) (p : c.dma.oamPending = true) (hi : c.dma.oamIndex = 256) :
    Cycles (oamEnd c) (oamRest c) := by
  by_cases h0 : c.dma.stall = 0
  · rw [oamEnd, oamRest, if_pos h0, if_pos h0]
    exact .refl _
  · have d := lateCycle_dma c
    rw [oamEnd_of_pos h0, oamRest, if_neg h0]
    refine (h.dma (waiting_of_oam p) (dmaCycle_after p h0 hi)).trans
      (cycles_tail (c.dma.stall - 1) (held_dmaClosed.late h) ?_ ?_ ?_ ?_) <;> rw [d]
    · exact p
    · exact hi

/-- A fetch is pending exactly when the channel wants a byte. -/
def Coherent (c : State) : Prop := c.dma.dmcPending = c.apu.dmc.wantsByte

theorem idleStall_coherent (s : State) : Coherent (idleStall s) := by unfold Coherent; rw [idleStall_dma]
theorem dmcFetch_coherent (s : State) : Coherent (dmcFetch s) := by unfold Coherent; rw [dmcFetch_dma]
theorem dmcTake_coherent (s : State) : Coherent (dmcTake s) := by
  unfold Coherent; rw [dmcTake_dma, (dmcTake_full s).1]
theorem lateCycle_coherent (s : State) : Coherent (lateCycle s) := by unfold Coherent; rw [lateCycle_dma]
theorem oamGet_coherent (s : State) : Coherent (oamGet s) := by unfold Coherent; rw [oamGet_dma]
theorem oamPut_coherent (s : State) : Coherent (oamPut s) := by unfold Coherent; rw [oamPut_dma]

theorem oamMeet_coherent {s : State} (h : Coherent s) : Coherent (oamMeet s) := by
  unfold oamMeet
  split
  · split
    · exact dmcTake_coherent s
    · exact h
    · exact h
  · exact h

theorem oamLast_coherent {s : State} (h : Coherent s) : Coherent (oamLast s) := by
  unfold oamLast
  split <;> exact h

theorem oamOver_coherent {s : State} (h : Coherent s) : Coherent (oamOver s) := by
  unfold oamOver
  exact h

theorem idleStalls_coherent (n : Nat) {s : State} (h : Coherent s) : Coherent (idleStalls n s) := by
  induction n generalizing s with
  | zero => exact h
  | succ n ih => exact ih (idleStall_coherent s)

/-- The OAM DMA is at the get cycle in front of its last `n` pairs. -/
structure AtGet (n : Nat) (c : State) : Prop where
  pending  : c.dma.oamPending = true
  index    : c.dma.oamIndex + n = 256
  stall    : c.dma.stall = 2 * n + c.dma.owed
  coherent : Coherent c

theorem AtGet.left {n : Nat} {c : State} (h : AtGet n c) : c.dma.left = 2 * n + c.dma.owed := by
  unfold Dma.left
  have := h.index
  omega

theorem defersPair_iff (c : State) : c.defersPair = true ↔ c.collides = true ∧ 2 ≤ c.collisionExtra := by
  simp [State.defersPair]

theorem collides_iff (c : State) : c.collides = true ↔ c.dma.dmcPending = true ∧ c.dma.late = false := by
  simp [State.collides]

/-- A fetch in a get cycle: two cycles put the pair off, the others are owed. -/
theorem collisionFetch_dma (c : State) :
    (collisionFetch c).dma =
      { c.dma with
        stall := c.dma.stall + c.collisionExtra - 1
        owed := c.dma.owed + (c.collisionExtra - 2)
        dmcPending := (collisionFetch c).apu.dmc.wantsByte } :=
  dmcFetch_dma _

theorem Held.collisionFetch {c : State} (h : Held c) : Held (collisionFetch c) :=
  held_dmaClosed.fetch _ (held_dmaClosed.fields _ _ h)

/-- What a fetch that does not defer its pair leaves of the counters: as many cycles more to steal as come after the last put. -/
theorem oamMeet_dma (c : State) :
    ∃ (k : Nat) (l w : Bool),
      (oamMeet c).dma = { c.dma with stall := c.dma.stall + k, owed := c.dma.owed + k, late := l, dmcPending := w } := by
  unfold oamMeet
  split
  · split
    · exact ⟨0, c.dma.late, false, dmcTake_dma c⟩
    · exact ⟨1, true, c.dma.dmcPending, rfl⟩
    · exact ⟨0, c.dma.late, c.dma.dmcPending, rfl⟩
  · exact ⟨0, c.dma.late, c.dma.dmcPending, rfl⟩

@[inherit_doc oamMeet_dma]
theorem oamLast_dma (c : State) :
    ∃ (k : Nat) (l : Bool), (oamLast c).dma = { c.dma with stall := c.dma.stall + k, owed := c.dma.owed + k, late := l } := by
  unfold oamLast
  split
  · exact ⟨c.collisionExtra, true, rfl⟩
  · exact ⟨0, c.dma.late, rfl⟩

theorem AtGet.meet {n : Nat} {c : State} (g : AtGet n c) : AtGet n (oamMeet c) := by
  obtain ⟨k, l, w, d⟩ := oamMeet_dma c
  have hs := g.stall
  refine ⟨?_, ?_, ?_, oamMeet_coherent g.coherent⟩ <;> rw [d]
  · exact g.pending
  · exact g.index
  · dsimp only; omega

theorem AtGet.last {n : Nat} {c : State} (g : AtGet n c) : AtGet n (oamLast c) := by
  obtain ⟨k, l, d⟩ := oamLast_dma c
  have hs := g.stall
  refine ⟨?_, ?_, ?_, oamLast_coherent g.coherent⟩ <;> rw [d]
  · exact g.pending
  · exact g.index
  · dsimp only; omega

/-- A fetch that defers its pair takes the get cycle, and nothing the put cycle. -/
theorem cycles_collision {n : Nat} {c : State} (h : Held c) (g : AtGet (n + 1) c) :
    Cycles c (dmaCollision c) ∧ Held (dmaCollision c) ∧ AtGet (n + 1) (dmaCollision c) := by
  refine ⟨?_, held_dmaClosed.collision h, ?_⟩
  all_goals
    have d := collisionFetch_dma c
    have hs := g.stall
    have hi := g.index
    unfold dmaCollision
    split
  · next hd =>
    have hx := ((defersPair_iff c).1 hd).2
    have e1 : dmaCycle c = Machine.collisionFetch c := by
      rw [dmaCycle_pair g.pending (by omega) (by rw [g.left, g.stall]), if_pos hd]
    have p1 : (Machine.collisionFetch c).dma.oamPending = true := by rw [d]; exact g.pending
    refine (h.dma (waiting_of_oam g.pending) e1).trans (h.collisionFetch.dma (waiting_of_oam p1) ?_)
    refine dmaCycle_idle p1 (by rw [d]; dsimp only; omega) ?_
    unfold Dma.left
    rw [d]
    dsimp only
    omega
  · exact .refl c
  · next hd =>
    have hx := ((defersPair_iff c).1 hd).2
    refine ⟨?_, ?_, ?_, idleStall_coherent _⟩ <;> rw [idleStall_dma, d]
    · exact g.pending
    · exact g.index
    · dsimp only; omega
  · exact g

/-- After two fetches in front of one pair a third cannot be pending (R395). -/
theorem dmaCollision_twice (c : State) : (dmaCollision (dmaCollision c)).defersPair = false := by
  have one {t : State} (ht : t.defersPair = true) : dmaCollision t = idleStall (collisionFetch t) := by
    unfold dmaCollision; rw [if_pos ht]
  have none' {t : State} (ht : t.defersPair = false) : dmaCollision t = t := by
    unfold dmaCollision; rw [ht]; rfl
  have full {t : State} (ht : t.dma.dmcPending = false) : t.defersPair = false := by
    simp [State.defersPair, State.collides, ht]
  cases h1 : c.defersPair
  · rw [none' h1, none' h1, h1]
  · rw [one h1]
    cases h2 : (idleStall (collisionFetch c)).defersPair
    · rw [none' h2, h2]
    · have h3 := ((collides_iff _).1 ((defersPair_iff _).1 h2).1).1
      rw [one h2]
      apply full
      rw [idleStall_dma]
      dsimp only
      have w : (idleStall (collisionFetch c)).apu.dmc.wantsByte = true := (idleStall_coherent _).symm.trans h3
      have hl := idleStall_lately (k := 23) _ (dmcFetch_lately _) (by omega) w
      have f (t : State) (ht : 23 ≤ t.apu.dmc.timer) :
          (collisionFetch t).apu.dmc.wantsByte = false ∧ 22 ≤ (collisionFetch t).apu.dmc.timer := dmcFetch_full _ ht
      obtain ⟨f1, f2⟩ := f _ hl
      rw [idleStall_dmc]
      split
      · exact ((Dmc.tick_counts _ _ (k := 21) f2).2).trans f1
      · exact f1

/-- One pair; the OAM DMA ends with its put cycle when nothing is left to steal. -/
theorem cycles_pair {n : Nat} {c : State} (h : Held c) (g : AtGet (n + 1) c) :
    let u := oamLast (oamPut (oamGet (oamMeet (dmaCollision (dmaCollision c)))))
    Cycles c (oamEnd u) ∧ Held u ∧ AtGet n u := by
  obtain ⟨c1, h1, g1⟩ := cycles_collision h g
  obtain ⟨c2, h2, g2⟩ := cycles_collision h1 g1
  have q := dmaCollision_twice c
  have c3 := c1.trans c2
  dsimp only
  generalize dmaCollision (dmaCollision c) = b at *
  have e : dmaCycle b = oamGet (oamMeet b) := by
    have := g2.index
    rw [dmaCycle_pair g2.pending (by omega) (by rw [g2.left, g2.stall]), q]
    rfl
  have g3 := g2.meet
  have h3 := held_dmaClosed.meet h2
  have c4 := c3.trans (h2.dma (waiting_of_oam g2.pending) e)
  generalize oamMeet b = t at *
  have hs := g3.stall
  have hi := g3.index
  have d := oamGet_dma t
  have d' := oamPut_dma (oamGet t)
  rw [d] at d'
  dsimp only at d'
  have h4 := held_dmaClosed.get _ h3
  have g5 : AtGet n (oamPut (oamGet t)) := by
    refine ⟨?_, ?_, ?_, oamPut_coherent _⟩ <;> rw [d']
    · exact g3.pending
    · dsimp only; omega
    · dsimp only; omega
  refine ⟨c4.trans (h4.dma ?_ ?_), held_dmaClosed.last (held_dmaClosed.put _ h4), g5.last⟩
  · exact waiting_of_oam (by rw [d]; exact g3.pending)
  · rw [dmaCycle_put]
    · rw [d]; exact g3.pending
    · rw [d]; dsimp only; omega
    · rw [d]; dsimp only; omega
    · unfold Dma.left
      rw [d]
      dsimp only
      omega

/-- The pairs that are left, and what comes after them. -/
theorem cycles_pairs (n : Nat) {c : State} (h : Held c) (g : AtGet n c) : Cycles (oamEnd c) (oamRest (oamPairs n c)) := by
  have hs := g.stall
  have hi := g.index
  induction n generalizing c with
  | zero =>
    exact cycles_rest h g.pending hi
  | succ n ih =>
    obtain ⟨e, k, r⟩ := cycles_pair h g
    rw [oamEnd_of_pos (by omega)]
    exact e.trans (ih k r r.stall r.index)

theorem idleStalls_dma (n : Nat) {s : State} (h : Coherent s) :
    (idleStalls n s).dma =
      { s.dma with stall := s.dma.stall - n, dmcPending := (idleStalls n s).apu.dmc.wantsByte } := by
  induction n generalizing s with
  | zero =>
    show s.dma = { s.dma with stall := s.dma.stall, dmcPending := s.apu.dmc.wantsByte }
    rw [← h]
  | succ n ih =>
    show (idleStalls n (idleStall s)).dma = _
    rw [ih (idleStall_coherent s), idleStall_dma]
    dsimp only
    rw [Nat.sub_sub, Nat.add_comm 1 n]
    rfl

/-- A pending OAM DMA, at its start or wherever single cycles have left it, does its cycles to the end. -/
theorem cycles_oamDma {c : State} (h : Held c) (p : c.dma.oamPending = true) (co : Coherent c)
    (s : c.dma.stall = 0 ∨ c.dma.oamIndex = 256 ∨ c.dma.oamIndex < 256 ∧ c.dma.left ≤ c.dma.stall + 1) :
    Cycles c (oamDma c) := by
  have hb := held_dmaClosed.begun h
  have e : oamDma c = oamRest (oamPairs (256 - (oamBegun c).dma.oamIndex) (oamBegun c)) := by
    unfold oamDma
    rw [if_pos p]
  -- from the next get cycle on
  have atGet {b : State} (hb : Held b) {n : Nat} (g : AtGet (n + 1) b) :
      Cycles b (oamRest (oamPairs (256 - b.dma.oamIndex) b)) := by
    have hs := g.stall
    have hi := g.index
    have := cycles_pairs (n + 1) hb g
    rw [oamEnd_of_pos (by omega)] at this
    rwa [show 256 - b.dma.oamIndex = n + 1 by omega]
  rw [e]
  by_cases h0 : c.dma.stall = 0
  · generalize ha : (c.cycle + 1) % 2 = al
    have e1 := dmaCycle_start p h0
    rw [ha] at e1
    generalize hc : ({ c with dma := { c.dma with oamIndex := 0, stall := 513 + al, owed := 0, late := false } } : State) = c1 at e1
    have eb : oamBegun c = idleStalls al (idleStall c1) := by
      unfold oamBegun
      rw [if_pos h0]
      dsimp only
      rw [ha, hc, Nat.add_comm]
      rfl
    have h1 : Held (idleStall c1) := by rw [← hc]; exact held_dmaClosed.idle _ (held_dmaClosed.fields _ _ h)
    have d := idleStall_dma c1
    have dc : c1.dma = { c.dma with oamIndex := 0, stall := 513 + al, owed := 0, late := false } := by rw [← hc]
    have d2 := idleStalls_dma al (idleStall_coherent c1)
    rw [dc] at d
    refine (h.dma (waiting_of_oam p) e1).trans ?_
    rw [eb] at hb ⊢
    refine (cycles_idles al h1 (by rw [d]; exact p) (by rw [d]; exact Nat.zero_lt_succ 255) ?_).trans (atGet (n := 255) hb ⟨?_, ?_, ?_, ?_⟩)
    · unfold Dma.left; rw [d]; dsimp only; omega
    · rw [d2, d]; exact p
    · rw [d2, d]
    · rw [d2, d]; dsimp only; omega
    · exact idleStalls_coherent _ (idleStall_coherent _)
  · by_cases hi : c.dma.oamIndex = 256
    · have eb : oamBegun c = c := by
        unfold oamBegun
        rw [if_neg h0]
        exact if_pos hi
      have := cycles_rest h p hi
      rw [oamEnd_of_pos h0] at this
      rwa [eb, hi]
    · obtain ⟨hlt, hl⟩ : c.dma.oamIndex < 256 ∧ c.dma.left ≤ c.dma.stall + 1 := by
        rcases s with s | s | s
        · exact absurd s h0
        · exact absurd s hi
        · exact s
      by_cases hp : c.dma.stall < c.dma.left
      · have eb : oamBegun c = oamLast (oamPut c) := by
          unfold oamBegun
          rw [if_neg h0]
          dsimp only
          rw [if_neg hi]
          exact if_pos hp
        have d := oamPut_dma c
        have g0 : AtGet (255 - c.dma.oamIndex) (oamPut c) := by
          unfold Dma.left at hl hp
          refine ⟨?_, ?_, ?_, oamPut_coherent c⟩ <;> rw [d]
          · exact p
          · dsimp only; omega
          · dsimp only; omega
        have g := g0.last
        rw [eb] at hb ⊢
        refine (h.dma (waiting_of_oam p) (dmaCycle_put p h0 hlt hp)).trans ?_
        have hgi := g.index
        have := cycles_pairs _ hb g
        rwa [show 256 - (oamLast (oamPut c)).dma.oamIndex = 255 - c.dma.oamIndex by omega]
      · have eb : oamBegun c = idleStalls (c.dma.stall - c.dma.left) c := by
          unfold oamBegun
          rw [if_neg h0]
          dsimp only
          rw [if_neg hi]
          exact if_neg hp
        have d := idleStalls_dma (c.dma.stall - c.dma.left) co
        rw [eb] at hb ⊢
        refine (cycles_idles _ h p hlt (by omega)).trans (atGet (n := 255 - c.dma.oamIndex) hb ⟨?_, ?_, ?_, ?_⟩)
        · rw [d]; exact p
        · rw [d]; dsimp only; omega
        · rw [d]
          dsimp only
          unfold Dma.left at hp ⊢
          omega
        · exact idleStalls_coherent _ co

/-! ## A delta-modulation fetch by itself -/

/-- No OAM DMA is going on, and a stall is that of a pending fetch. -/
structure Alone (c : State) : Prop where
  held     : Held c
  pending  : c.dma.oamPending = false
  coherent : Coherent c
  stall    : c.dma.stall = 0 ∨ c.dma.dmcPending = true
  late     : c.dma.late = false

/-- A cycle of the stall that is not its last: the channel still wants its byte. -/
theorem Alone.idle {c : State} (h : Alone c) (w : c.dma.dmcPending = true) (n : Nat) :
    let t := idleStall { c with dma := { c.dma with stall := n + 1 } }
    Alone t ∧ t.dma.dmcPending = true ∧ t.dma.stall = n := by
  have hw : (idleStall { c with dma := { c.dma with stall := n + 1 } }).apu.dmc.wantsByte = true :=
    idleStall_wants _ (h.coherent.symm.trans w)
  have d := idleStall_dma { c with dma := { c.dma with stall := n + 1 } }
  have hp : (idleStall { c with dma := { c.dma with stall := n + 1 } }).dma.dmcPending = true := by rw [d]; exact hw
  exact ⟨⟨held_dmaClosed.idle _ (held_dmaClosed.fields _ _ h.held), by rw [d]; exact h.pending, idleStall_coherent _, .inr hp,
      by rw [d]; exact h.late⟩,
    hp, by rw [d]; rfl⟩

theorem Alone.waiting {c : State} (h : Alone c) (w : c.dma.dmcPending = true) : c.dmaWaiting = true := by
  simp [State.dmaWaiting, State.collides, w, h.late]

theorem dmaCycle_alone {c : State} (h : c.dma.oamPending = false) : dmaCycle c = dmcStallCycle c := by
  unfold dmaCycle
  rw [h]
  rfl

theorem dmcStallCycle_of_stall (n : Nat) {c : State} (hn : c.dma.stall = n + 1) :
    dmcStallCycle c = if n = 0 then dmcFetch c else idleStall c := by
  unfold dmcStallCycle
  dsimp only
  rw [if_neg (show ¬ c.dma.stall = 0 by omega), hn]
  simp only [Nat.add_eq_right]

/-- The last `n + 1` cycles of the stall. -/
theorem cycles_fetch (n : Nat) {c : State} (h : Alone c) (w : c.dma.dmcPending = true) (hn : c.dma.stall = n + 1) :
    Cycles c (dmcFetch (idleStalls n c)) := by
  have e := dmcStallCycle_of_stall n hn
  have hw : c.dmaWaiting = true := h.waiting w
  induction n generalizing c with
  | zero => exact h.held.dma hw ((dmaCycle_alone h.pending).trans e)
  | succ n ih =>
    obtain ⟨a, p, s⟩ := h.idle w (n + 1)
    rw [← hn] at a p s
    have s' := (show (idleStall c).dma.stall = n + 1 from s)
    exact (h.held.dma hw ((dmaCycle_alone h.pending).trans (e.trans (if_neg (by omega))))).trans
      (ih a p s' (dmcStallCycle_of_stall n s') (a.waiting p))

/-- What the whole stall of a pending fetch is. -/
theorem dmcDma_eq {c : State} (w : c.dma.dmcPending = true) (n : Nat)
    (hn : n + 1 = if c.dma.stall = 0 then Config.dmcStall else c.dma.stall) :
    dmcDma c = dmcFetch (idleStalls n { c with dma := { c.dma with stall := n + 1 } }) := by
  unfold dmcDma
  rw [if_pos w]
  dsimp only
  rw [← hn]
  rfl

/-- A pending fetch in front of a read cycle does its cycles to the end. -/
theorem cycles_dmcDma {c : State} (h : Alone c) : Cycles c (dmcDma c) ∧ Alone (dmcDma c) ∧ (dmcDma c).dma.stall = 0 := by
  by_cases w : c.dma.dmcPending = true
  · obtain ⟨n, hn⟩ : ∃ n, n + 1 = if c.dma.stall = 0 then Config.dmcStall else c.dma.stall := by
      split
      · exact ⟨3, rfl⟩
      · exact ⟨c.dma.stall - 1, by omega⟩
    have e := dmcDma_eq w n hn
    have d := idleStalls_dma n (s := { c with dma := { c.dma with stall := n + 1 } }) h.coherent
    have f : (dmcDma c).dma = _ := (congrArg State.dma e).trans (dmcFetch_dma _)
    rw [d] at f
    dsimp only at f
    have hs : (dmcDma c).dma.stall = 0 := by rw [f]; dsimp only; omega
    refine ⟨?_, ⟨held_dmaClosed.dmcDma h.held, by rw [f]; exact h.pending, by rw [e]; exact dmcFetch_coherent _, .inl hs,
      by rw [f]; exact h.late⟩, hs⟩
    by_cases h0 : c.dma.stall = 0
    · rw [if_pos h0] at hn
      obtain rfl : n = 3 := by change n + 1 = 4 at hn; omega
      obtain ⟨a, p, s⟩ := h.idle w 3
      rw [e]
      refine (h.held.dma (h.waiting w) ?_).trans (cycles_fetch 2 a p s)
      rw [dmaCycle_alone h.pending]
      unfold dmcStallCycle
      rw [if_pos h0]
      rfl
    · rw [if_neg h0] at hn
      rw [e, hn]
      exact cycles_fetch n h w hn.symm
  · have e : dmcDma c = c := by unfold dmcDma; exact if_neg w
    rw [e]
    refine ⟨.refl c, h, ?_⟩
    rcases h.stall with s | s
    · exact s
    · exact absurd s w

theorem idleStalls_lately (n : Nat) {k : Nat} {s : State} (h : s.apu.dmc.Lately (k + n)) (hk : k + n ≤ 24)
    (w : s.apu.dmc.wantsByte = true) :
    (idleStalls n s).apu.dmc.Lately k ∧ (idleStalls n s).apu.dmc.wantsByte = true := by
  induction n generalizing s with
  | zero => exact ⟨h, w⟩
  | succ n ih => exact ih (idleStall_lately s h (by omega)) (by omega) (idleStall_wants s w)

/-- After two fetches in front of a read cycle a third cannot be pending (R395). -/
theorem dmcDma_twice {c : State} (h : Alone c) : (dmcDma (dmcDma c)).dma.dmcPending = false := by
  have none' {t : State} (ht : t.dma.dmcPending = false) : dmcDma t = t := by
    unfold dmcDma; rw [ht]; rfl
  obtain ⟨-, a, s⟩ := cycles_dmcDma h
  cases h1 : c.dma.dmcPending
  · rw [none' h1, none' h1, h1]
  · cases h2 : (dmcDma c).dma.dmcPending
    · rw [none' h2, h2]
    · have l : (dmcDma c).apu.dmc.Lately 24 := by
        unfold dmcDma
        rw [if_pos h1]
        exact dmcFetch_lately _
      have e := dmcDma_eq h2 3 (by rw [s]; rfl)
      obtain ⟨l3, w3⟩ := idleStalls_lately 3 (k := 21)
        (s := { (dmcDma c) with dma := { (dmcDma c).dma with stall := 3 + 1 } }) l (by omega) (a.coherent.symm.trans h2)
      rw [e, dmcFetch_dma]
      exact (dmcFetch_full (k := 20) _ (l3 w3)).1

/-! ## Everything the DMA units do in front of a read cycle -/

theorem State.dmaSound_iff (s : State) :
    s.dmaSound = true ↔ Coherent s ∧ (s.dma.stall = 0 ∨ s.cpu.halted = true ∨ s.nextRow.write.isNone = true)
      ∧ (s.dma.oamPending = true → s.cpu.halted = false
          ∧ (s.dma.stall = 0 ∨ s.dma.oamIndex = 256 ∨ s.dma.oamIndex < 256 ∧ s.dma.left ≤ s.dma.stall + 1))
      ∧ (s.dma.oamPending = false → s.dma.stall = 0 ∨ s.dma.dmcPending = true)
      ∧ (s.dma.late = true → s.dma.dmcPending = true
          ∧ (s.dma.oamPending = true ∧ s.dma.stall ≠ 0
            ∨ s.dma.oamPending = false ∧ s.dma.stall = 0 ∧ s.cpu.halted = false ∧ s.nextRow.write.isNone = true)) := by
  unfold State.dmaSound Coherent Dma.left
  cases s.dma.late <;> cases s.dma.oamPending <;>
    simp [Bool.and_eq_true, Bool.or_eq_true, beq_iff_eq, decide_eq_true_eq, or_assoc, and_assoc]

theorem oamBegun_coherent {c : State} (h : Coherent c) : Coherent (oamBegun c) := by
  unfold oamBegun
  dsimp only
  split
  · exact idleStalls_coherent _ h
  split
  · exact h
  split
  · exact oamLast_coherent (oamPut_coherent c)
  · exact idleStalls_coherent _ h

theorem oamRest_coherent {s : State} (h : Coherent s) : Coherent (oamRest s) := by
  unfold oamRest
  split
  · exact oamOver_coherent h
  · exact oamOver_coherent (idleStalls_coherent _ (lateCycle_coherent s))

theorem oamRest_dma (s : State) : (oamRest s).dma.oamPending = false ∧ (oamRest s).dma.stall = 0 := by
  unfold oamRest oamOver
  refine ⟨rfl, ?_⟩
  dsimp only
  split
  · next h => exact h
  · rw [idleStalls_dma _ (lateCycle_coherent s), lateCycle_dma]
    dsimp only
    omega

theorem dmaCollision_coherent {s : State} (h : Coherent s) : Coherent (dmaCollision s) := by
  unfold dmaCollision
  split
  · exact idleStall_coherent _
  · exact h

theorem oamPairs_coherent (n : Nat) {c : State} (h : Coherent c) : Coherent (oamPairs n c) := by
  induction n generalizing c with
  | zero => exact h
  | succ n ih => exact ih (oamLast_coherent (oamPut_coherent _))

/-! ### A fetch that was put off -/

/-- Only a pending fetch is put off. -/
def PutOff (c : State) : Prop := c.dma.late = true → c.dma.dmcPending = true

/-- A cycle in which the channel gets no byte keeps the fetch pending. -/
theorem PutOff.cycle {s t : State} (h : PutOff s) (co : Coherent s) (ct : Coherent t) (l : t.dma.late = s.dma.late)
    (e : t.apu.dmc = if s.cycle % 2 = 1 then s.apu.dmc.tick s.params.region else s.apu.dmc) : PutOff t :=
  fun x => ct.trans (wants_of_dmc e (co.symm.trans (h (l.symm.trans x))))

theorem PutOff.idle {s : State} (h : PutOff s) (co : Coherent s) : PutOff (idleStall s) :=
  h.cycle co (idleStall_coherent s) (by rw [idleStall_dma]) (idleStall_dmc s)

theorem PutOff.get {s : State} (h : PutOff s) (co : Coherent s) : PutOff (oamGet s) :=
  h.cycle co (oamGet_coherent s) (by rw [oamGet_dma]) (oamGet_dmc s)

theorem PutOff.put {s : State} (h : PutOff s) (co : Coherent s) : PutOff (oamPut s) :=
  h.cycle co (oamPut_coherent s) (by rw [oamPut_dma]) (oamPut_dmc s)

theorem PutOff.meet {s : State} (h : PutOff s) : PutOff (oamMeet s) := by
  unfold oamMeet
  split
  · next x =>
    obtain ⟨w, l⟩ := (collides_iff s).1 x
    split
    · exact fun y => absurd (l.symm.trans ((congrArg Dma.late (dmcTake_dma s)).symm.trans y)) (by simp)
    · exact fun _ => w
    · exact h
  · exact h

theorem PutOff.last {s : State} (h : PutOff s) : PutOff (oamLast s) := by
  unfold oamLast
  split
  · next x =>
    rw [Bool.and_eq_true] at x
    exact fun _ => ((collides_iff s).1 x.2).1
  · exact h

theorem PutOff.idles (n : Nat) {s : State} (h : PutOff s) (co : Coherent s) : PutOff (idleStalls n s) := by
  induction n generalizing s with
  | zero => exact h
  | succ n ih => exact ih (h.idle co) (idleStall_coherent s)

theorem PutOff.collision {s : State} (h : PutOff s) : PutOff (dmaCollision s) := by
  unfold dmaCollision
  split
  · next x =>
    have l := ((collides_iff s).1 ((defersPair_iff s).1 x).1).2
    intro y
    rw [idleStall_dma, collisionFetch_dma] at y
    exact absurd (l.symm.trans y) (by simp)
  · exact h

theorem PutOff.pairs (n : Nat) {s : State} (h : PutOff s) (co : Coherent s) : PutOff (oamPairs n s) := by
  induction n generalizing s with
  | zero => exact h
  | succ n ih =>
    have c := oamMeet_coherent (dmaCollision_coherent (dmaCollision_coherent co))
    exact ih ((h.collision.collision.meet.get c).put (oamGet_coherent _)).last (oamLast_coherent (oamPut_coherent _))

theorem PutOff.begun {s : State} (h : PutOff s) (co : Coherent s) : PutOff (oamBegun s) := by
  unfold oamBegun
  dsimp only
  split
  · exact PutOff.idles _ (fun y => absurd y (by simp)) co
  split
  · exact h
  split
  · exact (h.put co).last
  · exact h.idles _ co

theorem PutOff.rest {s : State} (h : PutOff s) : PutOff (oamRest s) := by
  unfold oamRest oamOver
  split
  · exact h
  · exact PutOff.idles (s := lateCycle s) _ (fun y => absurd y (by rw [lateCycle_dma]; simp)) (lateCycle_coherent s)

theorem PutOff.oamDma {s : State} (h : PutOff s) (co : Coherent s) : PutOff (oamDma s) := by
  unfold Machine.oamDma
  split
  · exact ((h.begun co).pairs _ (oamBegun_coherent co)).rest
  · exact h

/-- A put-off fetch is settled, and nothing else changes of what the DMA units are doing. -/
theorem PutOff.shared {s : State} (h : PutOff s) :
    (sharedFetch s).dma = { s.dma with late := false, dmcPending := s.dma.dmcPending && !s.dma.late } := by
  unfold sharedFetch
  cases l : s.dma.late
  · rw [Bool.false_and, if_neg (by simp), Bool.not_false, Bool.and_true, ← l]
  · rw [h l, Bool.and_true, if_pos rfl]
    dsimp only
    rw [dmcTake_dma]
    rfl

theorem oamDma_coherent {c : State} (co : Coherent c) : Coherent (oamDma c) := by
  unfold oamDma
  split
  · exact oamRest_coherent (oamPairs_coherent _ (oamBegun_coherent co))
  · exact co

/-- The DMA units do single cycles until neither has work that takes one; a fetch that was put off to the Cpu's read is then
still to be made. -/
theorem cycles_stalls {c : State} (h : Held c) (q : c.dmaSound = true) :
    ∃ b, Cycles c b ∧ SameCpu c b ∧ b.dmaWaiting = false ∧ sharedFetch b = stalls c := by
  obtain ⟨co, -, s1, s2, s3⟩ := c.dmaSound_iff.1 q
  have c0 : Cycles c (oamDma c) := by
    by_cases p : c.dma.oamPending = true
    · exact cycles_oamDma h p co (s1 p).2
    · unfold oamDma
      rw [if_neg p]
      exact .refl c
  have k := sameCpu_dmaClosed c
  have d : (oamDma c).dma.oamPending = false
      ∧ ((oamDma c).dma.stall = 0 ∨ (oamDma c).dma.dmcPending = true ∧ (oamDma c).dma.late = false) := by
    unfold oamDma
    by_cases p : c.dma.oamPending = true
    · rw [if_pos p]
      obtain ⟨d1, d2⟩ := oamRest_dma (oamPairs (256 - (oamBegun c).dma.oamIndex) (oamBegun c))
      exact ⟨d1, .inl d2⟩
    · rw [if_neg p]
      rw [Bool.not_eq_true] at p
      refine ⟨p, ?_⟩
      cases l : c.dma.late
      · exact (s2 p).imp_right (⟨·, rfl⟩)
      · rcases (s3 l).2 with x | x
        · exact absurd (p.symm.trans x.1) (by simp)
        · exact .inl x.2.1
  have lo := PutOff.oamDma (fun x => (s3 x).1) co
  have ho := held_dmaClosed.oamDma h
  have so := k.oamDma (.refl c)
  have oo := oamDma_coherent co
  have e : stalls c = dmcDma (dmcDma (sharedFetch (oamDma c))) := rfl
  rw [e]
  generalize oamDma c = u at *
  have ds := lo.shared
  cases l : u.dma.late
  · have es : sharedFetch u = u := by unfold sharedFetch; rw [l]; rfl
    have a : Alone u := ⟨ho, d.1, oo, d.2.imp_right (·.1), l⟩
    obtain ⟨c1, a1, -⟩ := cycles_dmcDma a
    obtain ⟨c2, a2, z⟩ := cycles_dmcDma a1
    rw [es]
    refine ⟨_, (c0.trans c1).trans c2, k.dmcDma (k.dmcDma so), ?_, ?_⟩
    · simp [State.dmaWaiting, State.collides, a2.pending, dmcDma_twice a, z]
    · unfold sharedFetch; rw [a2.late]; rfl
  · have es (t : State) (ht : t.dma.dmcPending = false) : dmcDma t = t := by unfold dmcDma; rw [ht]; rfl
    rw [l] at ds d
    have hp : (sharedFetch u).dma.dmcPending = false := by rw [ds]; simp
    rw [es _ hp, es _ hp]
    refine ⟨u, c0, so, ?_, rfl⟩
    have z : u.dma.stall = 0 := d.2.resolve_right (by simp)
    simp [State.dmaWaiting, State.collides, d.1, l, z]

/-! ## One row -/

/-- A row with the DMA cycles in front of it is some single cycles. -/
theorem runRow_cycles {c : State} (nh : c.cpu.halted = false) (q : c.dmaSound = true) :
    ∃ n, 1 ≤ n ∧ cyclesAfter n c = runRow c := by
  cases hw : c.nextRow.write with
  | some v =>
    refine ⟨1, Nat.le_refl 1, ?_⟩
    show stepCycle c = _
    unfold stepCycle
    rw [nh, if_neg (by simp), hw, if_neg (by simp), cpuCycle, runRow, hw]
    rfl
  | none =>
    have h : Held c := ⟨nh, by rw [hw]; rfl⟩
    obtain ⟨b, ⟨n, e⟩, k, w, es⟩ := cycles_stalls h q
    refine ⟨n + 1, Nat.le_add_left 1 n, ?_⟩
    rw [cyclesAfter_add, e]
    show stepCycle b = _
    unfold stepCycle
    rw [k.halted, nh, w, if_neg (by simp), Bool.and_false, if_neg (by simp), cpuCycle, k.nextRow h.read, es, runRow, hw]
    rfl

/-! ## The DMA units stay where single cycles can leave them -/

/-- What the Cpu does at the end of a row changes neither the DMA units nor the Apu. -/
theorem after_dma (s : State) (v : Byte) (t : State) :
    (s.nextRow.after v t).dma = t.dma ∧ (s.nextRow.after v t).apu = t.apu := by
  have h : CpuClosed (fun u => u.dma = t.dma ∧ u.apu = t.apu) :=
    ⟨fun _ _ h => h, fun _ _ h => h, fun _ _ h => h, fun _ h => h⟩
  exact h.nextRow s v (fun _ _ h => h) ⟨rfl, rfl⟩

/-- A row that writes does not halt the Cpu. -/
theorem after_halted (s : State) (v : Byte) (t : State) (w : s.nextRow.write ≠ none) :
    (s.nextRow.after v t).cpu.halted = t.cpu.halted := by
  have h : CpuClosed (fun u => u.cpu.halted = t.cpu.halted) :=
    ⟨fun _ _ h => h, fun _ _ h => h, fun _ _ h => h, fun _ h => h⟩
  exact h.nextRow s v (fun e => absurd e w) rfl

/-- A cycle of a delta-modulation stall, or of the wait for one. -/
theorem dmcStallCycle_sound {c : State} (p : c.dma.oamPending = false) (l : c.dma.late = false) (co : Coherent c)
    (w : c.dma.dmcPending = true) (r : (dmcStallCycle c).cpu.halted = true ∨ (dmcStallCycle c).nextRow.write.isNone = true) :
    (dmcStallCycle c).dmaSound = true := by
  obtain ⟨n, hn⟩ : ∃ n, dmcStallCycle c = idleStall { c with dma := { c.dma with stall := n + 2 } }
      ∨ dmcStallCycle c = dmcFetch c ∧ c.dma.stall = 1 := by
    unfold dmcStallCycle
    by_cases h0 : c.dma.stall = 0
    · rw [if_pos h0]; exact ⟨2, .inl rfl⟩
    · rw [if_neg h0]
      by_cases h1 : c.dma.stall = 1
      · exact ⟨0, .inr ⟨if_pos h1, h1⟩⟩
      · refine ⟨c.dma.stall - 2, .inl ((if_neg h1).trans ?_)⟩
        rw [show c.dma.stall - 2 + 2 = c.dma.stall by omega]
  rw [State.dmaSound_iff]
  refine ⟨?_, .inr r, ?_, ?_, ?_⟩ <;> rcases hn with e | ⟨e, s⟩ <;> rw [e]
  · exact idleStall_coherent _
  · exact dmcFetch_coherent _
  · rw [idleStall_dma]; exact fun h => absurd (p.symm.trans h) (by simp)
  · rw [dmcFetch_dma]; exact fun h => absurd (p.symm.trans h) (by simp)
  · intro _
    right
    rw [idleStall_dma]
    exact idleStall_wants _ (co.symm.trans w)
  · intro _
    left
    rw [dmcFetch_dma, s]
  · rw [idleStall_dma]; exact fun h => absurd (l.symm.trans h) (by simp)
  · rw [dmcFetch_dma]; exact fun h => absurd (l.symm.trans h) (by simp)

/-- An OAM DMA goes on, or is over with the cycle. -/
theorem oamEnd_sound {u : State} (h : Held u) (co : Coherent u) (p : u.dma.oamPending = true) (l : PutOff u)
    (i : u.dma.oamIndex = 256 ∨ u.dma.oamIndex < 256 ∧ u.dma.left ≤ u.dma.stall + 1) : (oamEnd u).dmaSound = true := by
  unfold oamEnd
  rw [State.dmaSound_iff]
  split
  · next z =>
    exact ⟨oamOver_coherent co, .inl z, fun x => absurd x (by simp [oamOver]), fun _ => .inl z,
      fun x => ⟨l x, .inr ⟨rfl, z, h.runs, h.read⟩⟩⟩
  · next z =>
    exact ⟨co, .inr (.inr h.read), fun _ => ⟨h.runs, .inr i⟩, fun x => absurd (p.symm.trans x) (by simp),
      fun x => ⟨l x, .inl ⟨p, z⟩⟩⟩

/-- A cycle of a DMA unit that has the bus. -/
theorem dmaCycle_sound {c : State} (h : Held c) (q : c.dmaSound = true) (w : c.dmaWaiting = true) :
    (dmaCycle c).dmaSound = true := by
  obtain ⟨co, -, s1, s2, s3⟩ := c.dmaSound_iff.1 q
  have l : PutOff c := fun x => (s3 x).1
  by_cases p : c.dma.oamPending = true
  · by_cases h0 : c.dma.stall = 0
    · rw [dmaCycle_start p h0]
      have hh := held_dmaClosed.idle _
        (held_dmaClosed.fields { c.dma with oamIndex := 0, stall := 513 + (c.cycle + 1) % 2, owed := 0, late := false } c h)
      have d := idleStall_dma
        { c with dma := { c.dma with oamIndex := 0, stall := 513 + (c.cycle + 1) % 2, owed := 0, late := false } }
      rw [← oamEnd_of_pos (s := idleStall _) (by rw [d]; dsimp only; omega)]
      refine oamEnd_sound hh (idleStall_coherent _) (by rw [d]; exact p) (fun x => ?_) (.inr ⟨by rw [d]; exact Nat.zero_lt_succ 255, ?_⟩)
      · rw [d] at x; exact absurd x (by simp)
      · unfold Dma.left; rw [d]; dsimp only; omega
    · have hi := (s1 p).2.resolve_left h0
      by_cases h256 : c.dma.oamIndex = 256
      · rw [dmaCycle_after p h0 h256]
        have d := lateCycle_dma c
        refine oamEnd_sound (held_dmaClosed.late h) (lateCycle_coherent _) (by rw [d]; exact p) (fun x => ?_)
          (.inl (by rw [d]; exact h256))
        rw [d] at x; exact absurd x (by simp)
      · obtain ⟨hlt, hle⟩ := hi.resolve_left h256
        have hpos : 2 ≤ c.dma.left := by unfold Dma.left; omega
        by_cases hl : c.dma.left < c.dma.stall
        · rw [dmaCycle_idle p hlt hl]
          have d := idleStall_dma c
          rw [← oamEnd_of_pos (s := idleStall _) (by rw [d]; dsimp only; omega)]
          refine oamEnd_sound (held_dmaClosed.idle c h) (idleStall_coherent _) (by rw [d]; exact p)
            (l.cycle co (idleStall_coherent _) (by rw [d]) (idleStall_dmc c)) (.inr ⟨by rw [d]; exact hlt, ?_⟩)
          unfold Dma.left at hl ⊢
          rw [d]
          dsimp only
          omega
        · by_cases he : c.dma.stall = c.dma.left
          · rw [dmaCycle_pair p hlt he]
            split
            · next x =>
              obtain ⟨hc, hx⟩ := (defersPair_iff c).1 x
              have d := collisionFetch_dma c
              rw [← oamEnd_of_pos (s := collisionFetch c) (by rw [d]; dsimp only; omega)]
              refine oamEnd_sound h.collisionFetch (dmcFetch_coherent _) (by rw [d]; exact p) (fun y => ?_)
                (.inr ⟨by rw [d]; exact hlt, ?_⟩)
              · rw [d] at y; exact absurd (((collides_iff c).1 hc).2.symm.trans y) (by simp)
              · unfold Dma.left at he ⊢
                rw [d]
                dsimp only
                omega
            · obtain ⟨k, v, u, m⟩ := oamMeet_dma c
              have hh := held_dmaClosed.get _ (held_dmaClosed.meet h)
              have lm := l.meet
              have cm := oamMeet_coherent co
              generalize oamMeet c = b at *
              have d := oamGet_dma b
              have lg := lm.cycle cm (oamGet_coherent b) (by rw [d]) (oamGet_dmc b)
              rw [m] at d
              rw [← oamEnd_of_pos (s := oamGet b) (by rw [d]; dsimp only; omega)]
              refine oamEnd_sound hh (oamGet_coherent _) (by rw [d]; exact p) lg (.inr ⟨by rw [d]; exact hlt, ?_⟩)
              unfold Dma.left at he ⊢
              rw [d]
              dsimp only
              omega
          · rw [dmaCycle_put p h0 hlt (by omega)]
            have d := oamPut_dma c
            have lp : PutOff (oamPut c) := l.cycle co (oamPut_coherent c) (by rw [d]) (oamPut_dmc c)
            have hh := held_dmaClosed.last (held_dmaClosed.put _ h)
            obtain ⟨k, v, m⟩ := oamLast_dma (oamPut c)
            refine oamEnd_sound hh (oamLast_coherent (oamPut_coherent _)) (by rw [m, d]; exact p) lp.last ?_
            rw [m, d]
            by_cases hlast : c.dma.oamIndex = 255
            · exact .inl (by dsimp only; omega)
            · refine .inr ⟨by dsimp only; omega, ?_⟩
              unfold Dma.left at he hl hle ⊢
              dsimp only
              omega
  · have p' : c.dma.oamPending = false := by simpa using p
    have l' : c.dma.late = false := by
      cases x : c.dma.late
      · rfl
      · rcases (s3 x).2 with y | y
        · exact absurd (p'.symm.trans y.1) (by simp)
        · simp [State.dmaWaiting, State.collides, p', x, y.2.1] at w
    have hw : c.dma.dmcPending = true := by
      rcases s2 p' with z | z
      · simpa [State.dmaWaiting, State.collides, p', l', z] using w
      · exact z
    have hh : Held (dmcStallCycle c) := by
      unfold dmcStallCycle
      dsimp only
      split <;> split
      · exact held_dmaClosed.fetch _ (held_dmaClosed.fields _ _ h)
      · exact held_dmaClosed.idle _ (held_dmaClosed.fields _ _ h)
      · exact held_dmaClosed.fetch _ h
      · exact held_dmaClosed.idle _ h
    rw [dmaCycle_alone p']
    exact dmcStallCycle_sound p' l' co hw (.inr hh.read)

/-- The end of a row in which no stall is going on. -/
theorem after_sound {s u : State} {v : Byte} (co : Coherent u) (z : u.dma.stall = 0) (l : u.dma.late = false)
    (nh : u.dma.oamPending = true → (s.nextRow.after v u).cpu.halted = false) : (s.nextRow.after v u).dmaSound = true := by
  obtain ⟨d, a⟩ := after_dma s v u
  rw [State.dmaSound_iff]
  unfold Coherent
  rw [d, a]
  exact ⟨co, .inl z, fun p => ⟨nh p, .inl z⟩, fun _ => .inl z, fun x => absurd (l.symm.trans x) (by simp)⟩

theorem busWrite_stall (a : Addr) (v : Byte) (s : State) :
    (busWrite a v s).dma.stall = s.dma.stall ∧ (busWrite a v s).dma.late = s.dma.late := by
  unfold busWrite; dsimp only; repeat' split
  all_goals exact ⟨rfl, rfl⟩

theorem MicroOp.begun_fields (m : MicroOp) (s : State) : (m.begun s).dma = s.dma ∧ (m.begun s).cpu.halted = s.cpu.halted := by
  unfold MicroOp.begun
  split <;> exact ⟨rfl, rfl⟩

/-- A cycle of the Cpu. -/
theorem cpuCycle_sound {c : State} (nh : c.cpu.halted = false) (q : c.dmaSound = true)
    (w : ¬ (c.nextRow.write.isNone && c.dmaWaiting) = true) : (cpuCycle c).dmaSound = true := by
  obtain ⟨-, st, -, -, s3⟩ := c.dmaSound_iff.1 q
  unfold cpuCycle
  dsimp only
  split
  · next v hv =>
    obtain ⟨td, th⟩ := c.nextRow.begun_fields c
    have z : c.dma.stall = 0 := by
      rcases st with z | z | z
      · exact z
      · exact absurd (nh.symm.trans z) (by simp)
      · rw [hv] at z; exact absurd z (by simp)
    have l : c.dma.late = false := by
      cases x : c.dma.late
      · rfl
      · rcases (s3 x).2 with y | y
        · exact absurd z y.2
        · exact absurd y.2.2.2 (by rw [hv]; simp)
    refine after_sound ?_ ?_ ?_ (fun _ => ?_)
    · unfold Coherent; rw [endCycle_dmaFields]
    · rw [endCycle_dmaFields]; dsimp only; rw [(busWrite_stall _ _ _).1, td, z]
    · rw [endCycle_dmaFields]; dsimp only; rw [(busWrite_stall _ _ _).2, td, l]
    · rw [after_halted _ _ _ (by rw [hv]; simp), (endCycle_kept _ _).halted, busWrite_cpu, th, nh]
  · next hv =>
    have hw : c.dmaWaiting = false := by rw [hv] at w; simpa using w
    have hz : c.dma.oamPending = false ∧ c.dma.stall = 0 := by
      simp only [State.dmaWaiting, Bool.or_eq_false_iff, bne_eq_false_iff_eq] at hw
      exact ⟨hw.1.1, hw.2⟩
    have d := endCycle_dmaFields false (busAfterRead c.nextRow.addr (c.nextRow.begun (sharedFetch c)))
    rw [busAfterRead_dma, (c.nextRow.begun_fields _).1, PutOff.shared (fun x => (s3 x).1)] at d
    refine after_sound ?_ ?_ ?_ (fun p => ?_)
    · unfold Coherent; rw [d]
    · rw [d]; exact hz.2
    · rw [d]
    · rw [d] at p; exact absurd (hz.1.symm.trans p) (by simp)

/-- A single cycle leaves the DMA units where single cycles can leave them. -/
theorem stepCycle_sound {c : State} (q : c.dmaSound = true) : (stepCycle c).dmaSound = true := by
  obtain ⟨co, st, s1, s2, s3⟩ := c.dmaSound_iff.1 q
  unfold stepCycle
  by_cases nh : c.cpu.halted = true
  · rw [if_pos nh]
    have p : c.dma.oamPending = false := by
      cases h : c.dma.oamPending
      · rfl
      · exact absurd (nh.symm.trans (s1 h).1) (by simp)
    have l : c.dma.late = false := by simpa [p, nh] using s3
    have hk := (haltedCycle_kept c).halted.trans nh
    unfold haltedCycle at hk ⊢
    split
    · next w =>
      rw [if_pos w] at hk
      exact dmcStallCycle_sound p l co w (.inl hk)
    · next w =>
      rw [if_neg w] at hk
      have d := endCycle_dmaFields false c
      have z : c.dma.stall = 0 := (s2 p).resolve_right w
      rw [State.dmaSound_iff]
      refine ⟨?_, .inr (.inl hk), ?_, ?_, ?_⟩
      · unfold Coherent; rw [d]
      · rw [d]; exact fun h => absurd (p.symm.trans h) (by simp)
      · rw [d]; exact fun _ => .inl z
      · rw [d]; exact fun h => absurd (l.symm.trans h) (by simp)
  · rw [if_neg nh]
    have nh' : c.cpu.halted = false := by simpa using nh
    split
    · next w =>
      rw [Bool.and_eq_true] at w
      exact dmaCycle_sound ⟨nh', w.1⟩ q w.2
    · next w => exact cpuCycle_sound nh' q w

theorem cyclesAfter_sound (n : Nat) {c : State} (q : c.dmaSound = true) : (cyclesAfter n c).dmaSound = true := by
  induction n generalizing c with
  | zero => exact q
  | succ n ih => exact ih (stepCycle_sound q)

/-- A row, or a cycle of the halted Cpu, is some single cycles. -/
theorem rowStep_cycles {c : State} (q : c.dmaSound = true) : ∃ n, 1 ≤ n ∧ cyclesAfter n c = rowStep c := by
  unfold rowStep
  by_cases nh : c.cpu.halted = true
  · refine ⟨1, Nat.le_refl 1, ?_⟩
    show stepCycle c = _
    unfold stepCycle
    rw [if_pos nh, if_pos nh]
  · rw [if_neg nh]
    exact runRow_cycles (by simpa using nh) q

/-- So are any number of rows. -/
theorem rowsAfter_cycles (n : Nat) {c : State} (q : c.dmaSound = true) : ∃ m, n ≤ m ∧ cyclesAfter m c = rowsAfter n c := by
  induction n generalizing c with
  | zero => exact ⟨0, Nat.le_refl 0, rfl⟩
  | succ n ih =>
    obtain ⟨k, h1, e⟩ := rowStep_cycles q
    obtain ⟨m, h2, e'⟩ := ih (c := rowStep c) (by rw [← e]; exact cyclesAfter_sound k q)
    refine ⟨k + m, by omega, ?_⟩
    rw [cyclesAfter_add, e, e']
    rfl

end Sys2Proof.Machine
end

