-- ==== Sys2Proof/Laws/Completion.lean ====
section
/-! SUPPORT. What is in flight completes: no sequence has more than eight rows, so `completeInFlight` ends at an instruction
boundary, by single cycles. -/

namespace Sys2Proof.Machine

/-- The sequence is over, or the position in it is that of `g`. -/
def Progress.Through (g h : Progress) : Prop := h = Progress.idle ∨ h.ir = g.ir ∧ h.tcycle = g.tcycle

theorem AddrMode.row_through (m : AddrMode) (n : Nat) (s : State) (v : Byte) (t : State) :
    t.cpu.prog.Through ((m.row n s).after v t).cpu.prog := by
  cases m <;> simp only [AddrMode.row, fetchRow, dummyRow, readRow] <;> (try split) <;> exact .inr ⟨rfl, rfl⟩

theorem entryRow_through (b : Bool) (n : Nat) (s : State) (v : Byte) (t : State) :
    t.cpu.prog.Through ((entryRow b n s).after v t).cpu.prog := by
  simp only [entryRow, pushRow, writeRow, readRow]
  split <;> first
    | exact .inr ⟨rfl, rfl⟩
    | exact .inl rfl

theorem rmwRow_through (new : Flags → Byte → Byte) (op : Byte → Regs → Regs) (k : Nat) (s : State) (v : Byte) (t : State) :
    t.cpu.prog.Through ((rmwRow new op k s).after v t).cpu.prog := by
  simp only [rmwRow, writeRow, readRow]
  split <;> first
    | exact .inr ⟨rfl, rfl⟩
    | exact .inl rfl

/-- A row moves on in its sequence, or ends it. -/
theorem Shape.row_through (sh : Shape) (n : Nat) (s : State) (v : Byte) (t : State) :
    t.cpu.prog.Through ((sh.row n s).after v t).cpu.prog := by
  cases sh <;>
    simp only [Shape.row, fixupRow, readTargetRow, unstableRow, dropRow, pushRow, beforePullRow, fetchRow, dummyRow, writeRow,
      readRow, State.jump] <;>
    (repeat' split) <;> (try dsimp only) <;> (repeat' split) <;>
    first
      | exact AddrMode.row_through _ _ _ _ _
      | exact rmwRow_through _ _ _ _ _ _
      | exact entryRow_through _ _ _ _ _
      | exact .inr ⟨rfl, rfl⟩
      | exact .inl rfl

theorem entryRow_last (b : Bool) (n : Nat) (s : State) (v : Byte) (t : State) :
    ((entryRow b (n + 7) s).after v t).cpu.prog = Progress.idle := rfl

/-- The eighth row, if a sequence has one, ends it. -/
theorem Shape.row_last (sh : Shape) (n : Nat) (s : State) (v : Byte) (t : State) :
    ((sh.row (n + 8) s).after v t).cpu.prog = Progress.idle := by
  cases sh with
  | implied op => rfl
  | imm op => rfl
  | read m op => cases m <;> simp [Shape.row, AddrMode.cycles] <;> rfl
  | store m val => cases m <;> simp [Shape.row, AddrMode.cycles] <;> rfl
  | rmw m new op => cases m <;> simp [Shape.row, AddrMode.cycles, AddrMode.indexed] <;> rfl
  | unstable m val op => cases m <;> simp [Shape.row, AddrMode.cycles] <;> rfl
  | branch cond => rfl
  | jmpAbs => rfl
  | jmpInd => rfl
  | jsr => rfl
  | rts => rfl
  | rti => rfl
  | brk => rfl
  | pushOf val => rfl
  | pullTo op => rfl
  | jam => rfl

/-- Only the row that ends JAM halts the Cpu. -/
theorem nextRow_halted (s : State) (v : Byte) (t : State) :
    (s.nextRow.after v t).cpu.prog = Progress.idle ∨ (s.nextRow.after v t).cpu.halted = t.cpu.halted := by
  have h : CpuClosed (fun u => u.cpu.halted = t.cpu.halted) :=
    ⟨fun _ _ h => h, fun _ _ h => h, fun _ _ h => h, fun _ h => h⟩
  unfold State.nextRow
  dsimp only
  split
  · split <;> exact .inr rfl
  · next op _ =>
    generalize shapeOf s.params op = sh
    by_cases hj : sh = .jam
    · subst hj; exact .inl rfl
    · exact .inr (h.shapeRow _ _ _ _ (fun e => absurd e hj) rfl)
  · split
    · exact .inr rfl
    · exact .inr (h.entryRow _ _ _ _ rfl)

/-- The position after a row that reads or writes: one further, or the sequence is over. -/
structure Onward (c u : State) : Prop where
  flight : u.cpu.prog.ir ≠ .nothing
  count  : u.cpu.prog.tcycle = c.cpu.prog.tcycle + 1
  runs   : u.cpu.halted = false

/-- A row goes on in its sequence or ends it; the eighth ends it. -/
theorem runRow_onward {c : State} (nh : c.cpu.halted = false) :
    ((runRow c).cpu.prog = Progress.idle ∨ Onward c (runRow c))
      ∧ (c.cpu.prog.ir ≠ .nothing → 7 ≤ c.cpu.prog.tcycle → (runRow c).cpu.prog = Progress.idle) := by
  -- the state in front of what the Cpu does with the byte
  obtain ⟨v, t, e, hp, hh⟩ : ∃ v t, runRow c = c.nextRow.after v t
      ∧ t.cpu.prog = c.cpu.prog.tick ∧ t.cpu.halted = c.cpu.halted := by
    unfold runRow
    dsimp only
    split
    · exact ⟨_, _, rfl, writeCycle_prog _ _ _ _, writeCycle_halted _ _ _ _⟩
    · exact ⟨_, _, rfl, readCycle_prog _ _ _, (readCycle_kept _ _ _).halted⟩
  rw [e]
  have hn := nextRow_halted c v t
  rw [hh, nh] at hn
  -- what each kind of sequence does with the position
  have through {g : Progress} (hi : c.cpu.prog.ir ≠ .nothing) (h : t.cpu.prog.Through g) :
      g = Progress.idle ∨ g.ir ≠ .nothing ∧ g.tcycle = c.cpu.prog.tcycle + 1 := by
    rcases h with h | ⟨h1, h2⟩
    · exact .inl h
    · rw [hp] at h1 h2
      exact .inr ⟨by rw [h1]; exact hi, h2⟩
  have onward {u : State} (h : u.cpu.prog = Progress.idle ∨ u.cpu.halted = false)
      (h' : u.cpu.prog = Progress.idle ∨ u.cpu.prog.ir ≠ .nothing ∧ u.cpu.prog.tcycle = c.cpu.prog.tcycle + 1) :
      u.cpu.prog = Progress.idle ∨ Onward c u := by
    rcases h' with h' | ⟨h1, h2⟩
    · exact .inl h'
    · rcases h with h | h
      · exact .inl h
      · exact .inr ⟨h1, h2, h⟩
  refine ⟨onward hn ?_, ?_⟩
  · unfold State.nextRow
    dsimp only
    split
    · next hi =>
      have ht : t.cpu.prog.tcycle = c.cpu.prog.tcycle + 1 := by rw [hp]; rfl
      split
      · exact .inr ⟨by simp [dummyRow, readRow], ht⟩
      · exact .inr ⟨by simp [fetchRow, readRow], ht⟩
    · next hi => exact through (by rw [hi]; simp) (Shape.row_through _ _ _ _ _)
    · next hi =>
      have hi' : c.cpu.prog.ir ≠ .nothing := by rw [hi]; simp
      split
      · exact through hi' (.inr ⟨rfl, rfl⟩)
      · exact through hi' (entryRow_through _ _ _ _ _)
  · intro hi h7
    obtain ⟨n, hn⟩ : ∃ n, c.cpu.prog.tcycle + 1 = n + 8 := ⟨c.cpu.prog.tcycle - 7, by omega⟩
    unfold State.nextRow
    rw [hn]
    dsimp only
    split
    · next h => exact absurd h hi
    · exact Shape.row_last _ _ _ _ _
    · rw [if_neg (by omega)]
      exact entryRow_last false (n + 1) c v t

theorem runRows_boundary (k : Nat) {c : State} (h : c.cpu.prog = Progress.idle) : runRows k c = c := by
  cases k with
  | zero => rfl
  | succ k =>
    unfold runRows
    rw [if_pos]
    simp [State.atBoundary, h]

/-- Rows enough for the eighth lead to the boundary. -/
theorem runRows_idle (k : Nat) {c : State} (nh : c.cpu.halted = false) (hi : c.cpu.prog.ir ≠ .nothing)
    (h : 7 ≤ c.cpu.prog.tcycle + k) : (runRows (k + 1) c).cpu.prog = Progress.idle := by
  induction k generalizing c with
  | zero =>
    unfold runRows
    split
    · next b =>
      rw [Bool.or_eq_true, nh] at b
      simpa [State.atBoundary] using b
    · exact (runRow_onward nh).2 hi h
  | succ k ih =>
    unfold runRows
    split
    · next b =>
      rw [Bool.or_eq_true, nh] at b
      simpa [State.atBoundary] using b
    · rcases (runRow_onward nh).1 with e | o
      · rw [runRows_boundary _ e, e]
      · exact ih o.runs o.flight (by rw [o.count]; omega)

/-- WHAT IS IN FLIGHT COMPLETES: the Cpu is at a boundary afterwards. -/
theorem completeInFlight_idle {c : State} (nh : c.cpu.halted = false) : (completeInFlight c).cpu.prog = Progress.idle := by
  by_cases hi : c.cpu.prog.ir = .nothing
  · unfold completeInFlight runRows
    split
    · next b =>
      rw [Bool.or_eq_true, nh] at b
      simpa [State.atBoundary] using b
    · rcases (runRow_onward nh).1 with e | o
      · rw [runRows_boundary _ e, e]
      · exact runRows_idle 6 o.runs o.flight (by rw [o.count]; omega)
  · exact runRows_idle 7 nh hi (by omega)

/-- It completes by single cycles. -/
theorem runRows_cycles (k : Nat) {c : State} (q : c.dmaSound = true) : ∃ n, cyclesAfter n c = runRows k c := by
  induction k generalizing c with
  | zero => exact ⟨0, rfl⟩
  | succ k ih =>
    unfold runRows
    split
    · exact ⟨0, rfl⟩
    · next b =>
      rw [Bool.or_eq_true, not_or] at b
      obtain ⟨n, -, e⟩ := runRow_cycles (by simpa using b.2) q
      obtain ⟨m, e'⟩ := ih (c := runRow c) (by rw [← e]; exact cyclesAfter_sound n q)
      exact ⟨n + m, by rw [cyclesAfter_add, e, e']⟩

end Sys2Proof.Machine
end

