-- ==== Sys2Proof/Laws/CycleMachine.lean ====
section
/-! SUPPORT. Every sequence row by row: from the opcode fetch its rows one after another, each with the DMA cycles in front of
it, lead to the state the sequence makes at once. -/

namespace Sys2Proof.Machine

/-- The operand bytes the bus will answer are those of `a`, for the first `k` of them. -/
structure Fetches (k : Nat) (a : Addr) (s' : State) : Prop where
  b1 : 1 ≤ k → readValue false s'.cpu.regs.pc s' = lo a
  b2 : 2 ≤ k → readValue false (fetchOperand false id s').cpu.regs.pc (fetchOperand false id s') = hi a

theorem Fetches.second {k a s'} (h : Fetches k a s') (hk : 2 ≤ k) (f : Progress → Progress) :
   readValue false (fetchOperand false f s').cpu.regs.pc (fetchOperand false f s') = hi a := by
  rw [← h.b2 hk]
  have e : fetchOperand false f s' = (fetchOperand false id s').withProg (fetchOperand false f s').cpu.prog := rfl
  rw [e]
  exact (readCycle_withProg _ _ _ _).2

/-- The number of operand bytes of a mode. -/
def AddrMode.operandBytes : AddrMode → Nat
  | .abs => 2 | .abx => 2 | .aby => 2 | _ => 1

theorem Ready.stepRead (p a) {sh n c} (h : Ready sh n c) {f} (row : sh.row (n + 1) c = readRow p a f) :
   rowStep c = f (readValue p a c) (readCycle p a c) := rowStep_read h.runs (h.row.trans row)

/-- The two pointer rows. -/
theorem cycles_pointer {sh n c} (h : Ready sh n c)
   (r1 : ∀ c, sh.row (n+1) c = readRow false (word 0 c.cpu.prog.ptr) (fun b t => t.mapProg
       (fun g => { g with adl := b })))
   (F : State → Progress → Progress)
   (r2 : ∀ c, sh.row (n+2) c = readRow false (word 0 (c.cpu.prog.ptr + 1)) (fun b t => t.mapProg
       (fun g => F c { g with adh := b })))
   (hF : ∀ c c' : State, c'.cpu.regs = c.cpu.regs → F c' = F c) :
   rowStep (rowStep c) = (readPointer c).mapProg (F c) ∧ Ready sh (n+2) (readPointer c) := by
  have e1 := Ready.stepRead _ _ h (r1 c)
  have h1 : Ready sh (n+1) (rowStep c) := by rw [e1]; exact (h.read _ _).prog (fun _ => ⟨rfl, rfl⟩)
  have e2 := Ready.stepRead _ _ h1 (r2 _)
  have hp : (rowStep c).cpu.prog.ptr = c.cpu.prog.ptr := by
    rw [e1]; show (readCycle _ _ _).cpu.prog.ptr = _; rw [readCycle_prog]
  have hr : (rowStep c).cpu.regs = c.cpu.regs := by
    rw [e1]; show (readCycle _ _ _).cpu.regs = _; rw [readCycle_regs]
  rw [hF c _ hr, hp] at e2
  have ep : rowStep (rowStep c) = (readPointer c).mapProg (F c) := by
    rw [e2, e1]; rfl
  refine ⟨ep, ?_⟩
  have := (h1.read false (word 0 (c.cpu.prog.ptr + 1))).prog (f :=
      fun g => { g with adh := readValue false (word 0 (c.cpu.prog.ptr + 1)) (rowStep c) }) (fun _ => ⟨rfl, rfl⟩)
  rw [e1] at this
  exact this

theorem mapProg_id (s : State) : s.mapProg (fun g => g) = s := rfl

theorem fetchOperand_comp (p f) (F : Progress → Progress) (c : State) : fetchOperand p (fun g => F (f g)) c =
    (fetchOperand p f c).mapProg F := rfl

section

variable {m : AddrMode} {sh : Shape} {s : State} {a : Addr}

theorem cycles_addrZpIndexed (h : Ready sh 1 (fetchOpcode s)) (b1 : readValue false (fetchOpcode s).cpu.regs.pc
    (fetchOpcode s) = lo a)
   (hrow : ∀ n c, n ≤ m.cycles → sh.row n c = m.row n c) (f : Regs → Byte) (hm : 3 ≤ m.cycles) (r2 : ∀ c,
       m.row 2 c = fetchRow false c (fun b g => { g with adl := b, adh := 0 }))
      (r3 : ∀ c : State, m.row 3 c = dummyRow false c.target (·.mapProg
          (fun g => { g with adl := g.adl + f c.cpu.regs }))) :
      rowStep (rowStep (fetchOpcode s)) = addrZpIndexed f (lo a) s ∧ Ready sh 3 (addrZpIndexed f (lo a) s) := by
  have e1' : rowStep (fetchOpcode s) = addrZp (lo a) s := rowStep_fetch h ((hrow 2 _ (by omega)).trans (r2 _)) b1
  have h1 : Ready sh 2 (addrZp (lo a) s) := h.fetch false (fun _ => ⟨rfl, rfl⟩)
  have e2 := Ready.stepRead _ _ h1 ((hrow 3 _ hm).trans (r3 _))
  rw [e1', e2]
  have h3 := (h1.read false (addrZp (lo a) s).target).prog (f :=
      fun g => { g with adl := g.adl + f (addrZp (lo a) s).cpu.regs }) (fun _ => ⟨rfl, rfl⟩)
  exact ⟨rfl, h3⟩

theorem cycles_addrAbs (h : Ready sh 1 (fetchOpcode s)) (hf : Fetches 2 a (fetchOpcode s))
   (hrow : ∀ n c, n ≤ m.cycles → sh.row n c = m.row n c) (F : State → Progress → Progress) (hm : m.cycles = 3) (r2 : ∀ c,
       m.row 2 c = fetchRow false c (fun b g => { g with adl := b }))
      (r3 : ∀ c : State, m.row 3 c = fetchRow false c (fun b g => F c { g with adh := b })) :
      rowStep (rowStep (fetchOpcode s)) = (addrAbs a s).mapProg (F (fetchOperand false
          (fun g => { g with adl := lo a }) (fetchOpcode s))) ∧ Ready sh 3 (addrAbs a s) := by
  have e1 : rowStep (fetchOpcode s) = fetchOperand false (fun g => { g with adl := lo a }) (fetchOpcode s) :=
      rowStep_fetch h ((hrow 2 _ (by omega)).trans (r2 _)) (hf.b1 (by omega))
  have h1 := h.fetch false (f := fun g => { g with adl := lo a }) (fun _ => ⟨rfl, rfl⟩)
  rw [e1]
  refine ⟨?_, h1.fetch false (fun _ => ⟨rfl, rfl⟩)⟩
  have e2 := rowStep_fetch h1 ((hrow 3 _ (by omega)).trans (r3 _)) (hf.second (by omega) _)
  rw [e2, fetchOperand_comp]
  rfl

theorem addrAbs_register (f : Regs → Byte) (hf : ∀ r : Regs, f r.incPc = f r) : f (addrAbs a s).cpu.regs = f
    (fetchOperand false (fun g => { g with adl := lo a }) (fetchOpcode s)).cpu.regs := by
  rw [addrAbs, fetchOperand_regs, hf]

theorem cycles_addrIndexed (h : Ready sh 1 (fetchOpcode s)) (hf : Fetches 2 a (fetchOpcode s))
   (hrow : ∀ n c, n ≤ m.cycles → sh.row n c = m.row n c) (f : Regs → Byte) (hfr : ∀ r : Regs, f r.incPc = f r) (hm
       : m.cycles = 3) (r2 : ∀ c, m.row 2 c = fetchRow false c (fun b g => { g with adl := b }))
      (r3 : ∀ c : State, m.row 3 c = fetchRow false c (fun b g => Progress.addIndex (f c.cpu.regs) { g with adh := b })) :
      rowStep (rowStep (fetchOpcode s)) = addrIndexed f a s ∧ Ready sh 3 (addrIndexed f a s) := by
  obtain ⟨e, r⟩ := cycles_addrAbs h hf hrow (fun c => Progress.addIndex (f c.cpu.regs)) hm r2 r3
  rw [← addrAbs_register (a := a) (s := s) f hfr] at e
  have h3 := r.prog (f := Progress.addIndex (f (addrAbs a s).cpu.regs)) (fun _ => ⟨rfl, rfl⟩)
  exact ⟨e, h3⟩

theorem cycles_addrIzx (h : Ready sh 1 (fetchOpcode s)) (b1 : readValue false (fetchOpcode s).cpu.regs.pc
    (fetchOpcode s) = lo a)
   (hrow : ∀ n c, n ≤ 5 → sh.row n c = AddrMode.izx.row n c) :
   rowStep (rowStep (rowStep (rowStep (fetchOpcode s)))) = addrIzx (lo a) s ∧ Ready sh 5 (addrIzx (lo a) s) := by
  have e1' : rowStep (fetchOpcode s) = addrZp (lo a) s := rowStep_fetch h (hrow 2 _ (by decide)) b1
  have h1 : Ready sh 2 (addrZp (lo a) s) := h.fetch false (fun _ => ⟨rfl, rfl⟩)
  have e2 := Ready.stepRead _ _ h1 (hrow 3 _ (by decide))
  have hadl : (addrZp (lo a) s).cpu.prog.adl = lo a := by unfold addrZp; rw [fetchOperand_prog]
  generalize hu : addrZp (lo a) s = u at *
  have ha : (readCycle false u.target u).cpu.prog.adl = lo a := by rw [readCycle_prog]; exact hadl
  have e2' : rowStep u = (readCycle false u.target u).mapProg (fun g => { g with ptr := lo a + u.cpu.regs.x }) := by
    rw [e2]
    show (readCycle false u.target u).withProg
        { (readCycle false u.target u).cpu.prog with ptr := (readCycle false u.target u).cpu.prog.adl + u.cpu.regs.x } = _
    rw [ha]
    rfl
  have h2 : Ready sh 3 (rowStep u) := by
    rw [e2']
    exact (h1.read _ _).prog (f := fun g => { g with ptr := lo a + u.cpu.regs.x }) (fun _ => ⟨rfl, rfl⟩)
  obtain ⟨e3, h3⟩ := cycles_pointer h2 (fun c => hrow 4 c (by decide)) (fun _ g => g) (fun c => hrow 5 c (by decide))
      (fun _ _ _ => rfl)
  rw [mapProg_id] at e3
  have ez : addrIzx (lo a) s = readPointer (rowStep u) := by rw [e2', ← hu]; rfl
  rw [e1', e3, ez]
  exact ⟨rfl, h3⟩

theorem cycles_addrIzy (h : Ready sh 1 (fetchOpcode s)) (b1 : readValue false (fetchOpcode s).cpu.regs.pc
    (fetchOpcode s) = lo a)
   (hrow : ∀ n c, n ≤ 4 → sh.row n c = AddrMode.izy.row n c) :
   rowStep (rowStep (rowStep (fetchOpcode s))) = addrIzy (lo a) s ∧ Ready sh 4 (addrIzy (lo a) s) := by
  have e1 : rowStep (fetchOpcode s) = fetchOperand false (fun g => { g with ptr := lo a }) (fetchOpcode s) :=
      rowStep_fetch h (hrow 2 _ (by decide)) b1
  have h1 := h.fetch false (f := fun g => { g with ptr := lo a }) (fun _ => ⟨rfl, rfl⟩)
  have ez : addrIzy (lo a) s = (readPointer (fetchOperand false (fun g => { g with ptr := lo a })
      (fetchOpcode s))).mapProg (Progress.addIndex (readPointer (fetchOperand false (fun g => { g with ptr := lo a })
      (fetchOpcode s))).cpu.regs.y) := rfl
  generalize fetchOperand false (fun g => { g with ptr := lo a }) (fetchOpcode s) = u at *
  obtain ⟨e3, h3⟩ := cycles_pointer h1 (fun c => hrow 3 c (by decide)) (fun c => Progress.addIndex c.cpu.regs.y)
      (fun c => hrow 4 c (by decide)) (fun c c' e => by rw [e])
  rw [readPointer_regs] at ez
  rw [e1, e3, ez]
  exact ⟨rfl, h3.prog (fun _ => ⟨rfl, rfl⟩)⟩

/-- The address cycles of every mode. -/
theorem cycles_addressed (m : AddrMode) (h : Ready sh 1 (fetchOpcode s))
   (hrow : ∀ n c, n ≤ m.cycles → sh.row n c = m.row n c) (hf : Fetches (AddrMode.operandBytes m) a (fetchOpcode s)) :
   rowsAfter (m.cycles - 1) (fetchOpcode s) = m.addressed a s ∧ Ready sh m.cycles (m.addressed a s) := by
  have b1 : readValue false (fetchOpcode s).cpu.regs.pc (fetchOpcode s) = lo a := hf.b1 (by cases m <;> decide)
  cases m with
  | zp =>
    have e1 : rowStep (fetchOpcode s) = addrZp (lo a) s := rowStep_fetch h (hrow 2 _ (by decide)) b1
    have h1 : Ready sh 2 (addrZp (lo a) s) := h.fetch false (fun _ => ⟨rfl, rfl⟩)
    exact ⟨e1, h1⟩
  | zpx => exact cycles_addrZpIndexed h b1 hrow Regs.x (by decide) (fun _ => rfl) (fun _ => rfl)
  | zpy => exact cycles_addrZpIndexed h b1 hrow Regs.y (by decide) (fun _ => rfl) (fun _ => rfl)
  | abs =>
    obtain ⟨e, r⟩ := cycles_addrAbs h hf hrow (fun _ g => g) rfl (fun _ => rfl) (fun _ => rfl)
    rw [mapProg_id] at e
    exact ⟨e, r⟩
  | abx => exact cycles_addrIndexed h hf hrow Regs.x (fun _ => rfl) rfl (fun _ => rfl) (fun _ => rfl)
  | aby => exact cycles_addrIndexed h hf hrow Regs.y (fun _ => rfl) rfl (fun _ => rfl) (fun _ => rfl)
  | izx => exact cycles_addrIzx h b1 hrow
  | izy => exact cycles_addrIzy h b1 hrow

end

/-- The number of operand bytes a sequence uses. -/
def Shape.operandBytes : Shape → Nat
  | .implied _ => 0 | .imm _ => 1 | .read m _ => AddrMode.operandBytes m | .store m _ => AddrMode.operandBytes m | .rmw m
      _ _ => AddrMode.operandBytes m
  | .unstable m _ _ => AddrMode.operandBytes m | .branch _ => 1 | .jmpAbs => 2 | .jmpInd => 2 | .jsr => 1 | _ => 0

theorem Ready.stepWrite (p a v) {sh n c} (h : Ready sh n c) {f} (row : sh.row (n + 1) c = writeRow p a v f) :
   rowStep c = f (writeCycle p a v c) := rowStep_write h.runs (h.row.trans row)

/-- `t` is some rows after `c`. -/
def Reach (c t : State) : Prop := ∃ n, rowsAfter n c = t

theorem Reach.refl (c) : Reach c c := ⟨0, rfl⟩

theorem Reach.one {c t} (h : rowStep c = t) : Reach c t := ⟨1, h⟩

theorem Reach.trans {c t u} (h : Reach c t) (h' : Reach t u) : Reach c u := by
  obtain ⟨n, rfl⟩ := h; obtain ⟨m, rfl⟩ := h'; exact ⟨n + m, rowsAfter_add n m c⟩

/-- The row that reads at `EA_unfixed`. -/
theorem cycles_fixup {sh n c} (h : Ready sh n c) (row : sh.row (n+1) c = fixupRow c) : rowStep c = fixupCycle c
    ∧ Ready sh (n+1) (fixupCycle c) :=
  ⟨Ready.stepRead _ _ h row, (h.read false c.target).prog (fun _ => ⟨rfl, rfl⟩)⟩

variable {s : State} {a : Addr}

theorem reach_read (m op) (h : Ready (.read m op) 1 (fetchOpcode s)) (hf : Fetches (AddrMode.operandBytes m) a
    (fetchOpcode s)) : Reach (fetchOpcode s) (m.read op a s) := by
  obtain ⟨e, r⟩ := cycles_addressed m h (fun n c hn => by simp only [Shape.row, if_pos hn]) hf
  refine Reach.trans ⟨_, e⟩ ?_
  have t := m.addressed_target a s
  unfold AddrMode.read AddrMode.beforeRead
  dsimp only
  have last (n c) (hc : Ready (.read m op) n c) (hr : (Shape.read m op).row (n+1) c = readTargetRow op c) : Reach c
      (readTarget op c) := Reach.one (Ready.stepRead _ _ hc hr)
  by_cases hi : m.indexed = true
  · rw [if_pos hi] at t
    by_cases hc : m.crosses a s = true
    · rw [if_pos hc]
      obtain ⟨e2, r2⟩ := cycles_fixup r (by simp [Shape.row, hi, t.2.2.1, hc])
      exact (Reach.one e2).trans (last _ _ r2 (by simp [Shape.row]))
    · rw [if_neg hc]
      exact last _ _ r (by simp [Shape.row, t.2.2.1, hc])
  · have hc : m.crosses a s = false := by simp [AddrMode.crosses, hi]
    rw [hc, if_neg (by simp)]
    exact last _ _ r (by simp [Shape.row, hi])

/-- The cycles in front of a store or a modification. -/
theorem reach_beforeWrite {sh} (m : AddrMode) (h : Ready sh 1 (fetchOpcode s)) (hrow : ∀ n c, n ≤ m.cycles →
    sh.row n c = m.row n c)
   (hfx : ∀ c, m.indexed = true → sh.row (m.cycles + 1) c = fixupRow c) (hf : Fetches (AddrMode.operandBytes m) a
       (fetchOpcode s)) :
   Reach (fetchOpcode s) (m.beforeWrite a s) ∧ Ready sh (m.cycles + if m.indexed then 1 else 0) (m.beforeWrite a s) := by
  obtain ⟨e, r⟩ := cycles_addressed m h hrow hf
  unfold AddrMode.beforeWrite
  dsimp only
  by_cases hi : m.indexed = true
  · rw [if_pos hi, if_pos hi]
    obtain ⟨e2, r2⟩ := cycles_fixup r (hfx _ hi)
    exact ⟨Reach.trans ⟨_, e⟩ (Reach.one e2), r2⟩
  · rw [if_neg hi, if_neg hi]
    exact ⟨⟨_, e⟩, r⟩

theorem reach_store (m val) (h : Ready (.store m val) 1 (fetchOpcode s)) (hf : Fetches (AddrMode.operandBytes m) a
    (fetchOpcode s)) : Reach (fetchOpcode s) (m.store val a s) := by
  obtain ⟨e, r⟩ := reach_beforeWrite m h (fun n c hn => by simp only [Shape.row, if_pos hn])
      (fun c hi => by simp [Shape.row, hi]) hf
  refine e.trans (Reach.one ?_)
  rw [Ready.stepWrite true (m.beforeWrite a s).target (val (m.beforeWrite a s).cpu.regs) r (f := finish)]
  · rfl
  · by_cases hi : m.indexed = true <;> simp [Shape.row, hi]

theorem reach_rmw (m new op) (h : Ready (.rmw m new op) 1 (fetchOpcode s)) (hf : Fetches (AddrMode.operandBytes m) a
    (fetchOpcode s)) : Reach (fetchOpcode s) (m.rmw new op a s) := by
  obtain ⟨e, r⟩ := reach_beforeWrite m h (fun n c hn => by simp only [Shape.row, if_pos hn])
      (fun c hi => by simp [Shape.row, hi]) hf
  refine e.trans ?_
  generalize hN : (m.cycles + if m.indexed then 1 else 0) = N at r
  have hrow : ∀ k c, 1 ≤ k → (Shape.rmw m new op).row (N + k) c = rmwRow new op k c := by
    intro k c hk
    subst hN
    by_cases hi : m.indexed = true
    · simp only [Shape.row, hi, if_true]
      rw [if_neg (by omega), if_neg (by omega)]; congr 1; omega
    · simp only [Shape.row, hi]
      simp
      omega
  have em : m.rmw new op a s = rmwTarget new op (m.beforeWrite a s) := rfl
  rw [em]
  generalize m.beforeWrite a s = u at r
  have e1 := Ready.stepRead _ _ r (hrow 1 u (by omega))
  have r1 := (r.read false u.target).prog (f := fun g => { g with data := readValue false u.target u }) (fun _ => ⟨rfl,
      rfl⟩)
  refine (Reach.one e1).trans ?_
  unfold rmwTarget
  dsimp only
  have hd : ((readCycle false u.target u).mapProg (fun g => { g with data := readValue false u.target u })).cpu.prog.data
      = readValue false u.target u := rfl
  generalize (readCycle false u.target u).mapProg (fun g => { g with data := readValue false u.target u }) = v at *
  have e2 := Ready.stepWrite _ _ _ r1 (hrow 2 v (by omega))
  refine (Reach.one e2).trans ?_
  show Reach (writeCycle false v.target v.cpu.prog.data v) _
  have nh : (writeCycle false v.target v.cpu.prog.data v).cpu.halted = false := (writeCycle_halted _ _ _ _).trans r1.runs
  obtain ⟨opc, q1, q2⟩ := r1.shape
  have hp := writeCycle_prog false v.target v.cpu.prog.data v
  obtain ⟨-, -, -, k4, -⟩ := writeCycle_storedAt false v.target v.cpu.prog.data v
  rw [hd] at hp k4 nh ⊢
  generalize writeCycle false v.target (readValue false u.target u) v = w at *
  have hrw : w.nextRow = rmwRow new op 3 w := by
    rw [← hrow 3 w (by omega)]
    unfold State.nextRow
    rw [hp]
    dsimp only
    rw [q1, k4]
    dsimp only
    rw [q2, r1.count]
  have e3 := rowStep_write nh hrw
  refine Reach.one (e3.trans ?_)
  have hwd : w.cpu.prog.data = readValue false u.target u := by rw [hp]; exact hd
  rw [hwd]

theorem reach_unstable (m val op) (_ : m.indexed = true) (h : Ready (.unstable m val op) 1 (fetchOpcode s)) (hf
    : Fetches (AddrMode.operandBytes m) a (fetchOpcode s)) :
    Reach (fetchOpcode s) (storeUnstable val op (m.addressed a s)) := by
  obtain ⟨e, r⟩ := cycles_addressed m h (fun n c hn => by simp only [Shape.row, if_pos hn]) hf
  refine Reach.trans ⟨_, e⟩ ?_
  generalize m.addressed a s = u at r
  obtain ⟨e2, r2⟩ := cycles_fixup r (by simp [Shape.row])
  refine (Reach.one e2).trans ?_
  obtain ⟨p1, p2, p3⟩ := fixupCycle_prog u
  have kr := (fixupCycle_kept u).regs
  unfold storeUnstable
  dsimp only
  generalize fixupCycle u = w at *
  have hv : (val w.cpu.regs &&& (if w.cpu.prog.fixup then w.cpu.prog.adh else w.cpu.prog.adh + 1)) = val u.cpu.regs &&&
      (u.cpu.prog.adh + 1) := by
    rw [kr, p2, p3]
    cases hx : u.cpu.prog.fixup
    · simp
    · simp
  have row : (Shape.unstable m val op).row (m.cycles + 1 + 1) w = unstableRow val op w := by simp [Shape.row]
  have e3 := Ready.stepWrite _ _ _ r2 row
  refine Reach.one (e3.trans ?_)
  rw [hv]

theorem reach_implied (op) (h : Ready (.implied op) 1 (fetchOpcode s)) : Reach (fetchOpcode s) (implied op s) := by
  unfold implied
  generalize fetchOpcode s = t at *
  exact Reach.one (Ready.stepRead true t.cpu.regs.pc h (f := fun _ t => finish (t.mapRegs op)) rfl)

theorem reach_imm (op) (h : Ready (.imm op) 1 (fetchOpcode s)) (hf : readValue true (fetchOpcode s).cpu.regs.pc
    (fetchOpcode s) = lo a) : Reach (fetchOpcode s) (readImm op (lo a) s) := by
  unfold readImm
  generalize fetchOpcode s = t at *
  refine Reach.one ?_
  rw [Ready.stepRead true t.cpu.regs.pc h (f := fun b t => finish ((t.mapRegs Regs.incPc).mapRegs (op b))) rfl, hf]
  rfl

/-- The last row of a branch into another page. -/
theorem reach_branch_carry {y : State} (cond) (tg : Addr) (r : Ready (.branch cond) 3 y) :
    Reach (y.mapProg (fun g => { g with adl := lo tg, adh := hi tg })) (finish ((dummyFetch true y).jump tg)) := by
  have row : (Shape.branch cond).row 4 (y.mapProg (fun g => { g with adl := lo tg, adh := hi tg }))
      = dummyRow true y.cpu.regs.pc (fun t => finish (t.jump (word (hi tg) (lo tg)))) := rfl
  rw [word_hi_lo] at row
  have r' := r.prog (f := fun g => { g with adl := lo tg, adh := hi tg }) (fun _ => ⟨rfl, rfl⟩)
  have e := Ready.stepRead true y.cpu.regs.pc r' (f := fun _ t => finish (t.jump tg)) row
  have w := (readCycle_withProg true y.cpu.regs.pc y { y.cpu.prog with adl := lo tg, adh := hi tg }).1
  change readCycle true y.cpu.regs.pc (y.mapProg (fun g => { g with adl := lo tg, adh := hi tg })) = _ at w
  rw [w] at e
  exact Reach.one e

theorem reach_branch (cond) (h : Ready (.branch cond) 1 (fetchOpcode s)) (hf : readValue true (fetchOpcode s).cpu.regs.pc
    (fetchOpcode s) = lo a) : Reach (fetchOpcode s) (branch cond (lo a) s) := by
  have e1 := Ready.stepRead true (fetchOpcode s).cpu.regs.pc h (f := fun b t =>
          let u := (t.mapProg (fun g => { g with data := b })).mapRegs Regs.incPc
          if cond u.cpu.regs.p then u else finish u) rfl
  rw [hf] at e1
  have r1 := h.fetch true (f := fun g => { g with data := lo a }) (fun _ => ⟨rfl, rfl⟩)
  have hd : (fetchOperand true (fun g => { g with data := lo a }) (fetchOpcode s)).cpu.prog.data = lo a := rfl
  have e1' : rowStep (fetchOpcode s) = if cond (fetchOperand true (fun g => { g with data := lo a })
      (fetchOpcode s)).cpu.regs.p then fetchOperand true (fun g => { g with data := lo a }) (fetchOpcode s) else finish
      (fetchOperand true (fun g => { g with data := lo a }) (fetchOpcode s)) := e1
  refine (Reach.one e1').trans ?_
  unfold branch
  dsimp only
  generalize fetchOperand true (fun g => { g with data := lo a }) (fetchOpcode s) = t at *
  split
  · have e2 := Ready.stepRead false t.cpu.regs.pc r1 (f := fun _ u => if hi
      (t.cpu.regs.pc + sext t.cpu.prog.data) = hi t.cpu.regs.pc then finish (u.jump
      (t.cpu.regs.pc + sext t.cpu.prog.data))
          else
            (u.jump (word (hi t.cpu.regs.pc) (lo (t.cpu.regs.pc + sext t.cpu.prog.data)))).mapProg
                (fun g =>
                { g with adl := lo (t.cpu.regs.pc + sext t.cpu.prog.data), adh := hi (t.cpu.regs.pc + sext t.cpu.prog.data) })) rfl
    rw [hd] at e2
    generalize htg : t.cpu.regs.pc + sext (lo a) = tg at e2 ⊢
    refine (Reach.one e2).trans ?_
    split
    · next heq =>
      have : word (hi t.cpu.regs.pc) (lo tg) = tg := by rw [← heq, word_hi_lo]
      rw [this]
      exact Reach.refl _
    · next hne =>
      have r2 := (r1.read false t.cpu.regs.pc).regs (fun r => { r with pc := word (hi t.cpu.regs.pc) (lo tg) })
      change Ready (.branch cond) 3 ((readCycle false t.cpu.regs.pc t).jump (word (hi t.cpu.regs.pc) (lo tg))) at r2
      exact reach_branch_carry cond tg r2
  · exact Reach.refl _

theorem reach_jmpAbs (h : Ready .jmpAbs 1 (fetchOpcode s)) (hf : Fetches 2 a (fetchOpcode s)) : Reach (fetchOpcode s)
    (jmpAbs a s) := by
  have e1 := rowStep_fetch h (f := fun b g => { g with adl := b }) rfl (hf.b1 (by omega))
  have r1 := h.fetch false (f := fun g => { g with adl := lo a }) (fun _ => ⟨rfl, rfl⟩)
  have b2 := hf.second (by omega) (fun g => { g with adl := lo a })
  unfold jmpAbs
  dsimp only
  refine (Reach.one e1).trans ?_
  have hl : (fetchOperand false (fun g => { g with adl := lo a }) (fetchOpcode s)).cpu.prog.adl = lo a := rfl
  generalize fetchOperand false (fun g => { g with adl := lo a }) (fetchOpcode s) = t at *
  have e2 := Ready.stepRead true t.cpu.regs.pc r1 (f := fun h t => finish (t.jump (word h t.cpu.prog.adl))) rfl
  rw [readValue_poll true, b2] at e2
  refine Reach.one (e2.trans ?_)
  have : (readCycle true t.cpu.regs.pc t).cpu.prog.adl = t.cpu.prog.adl := by rw [readCycle_prog]
  rw [this]
  rfl

theorem reach_jmpInd (h : Ready .jmpInd 1 (fetchOpcode s)) (hf : Fetches 2 a (fetchOpcode s)) : Reach (fetchOpcode s)
    (jmpInd a s) := by
  have e1 := rowStep_fetch h (f := fun b g => { g with adl := b }) rfl (hf.b1 (by omega))
  have r1 := h.fetch false (f := fun g => { g with adl := lo a }) (fun _ => ⟨rfl, rfl⟩)
  have b2 := hf.second (by omega) (fun g => { g with adl := lo a })
  have e2 := rowStep_fetch r1 (f := fun b g => { g with adh := b }) rfl b2
  have r2 := r1.fetch false (f := fun g => { g with adh := hi a }) (fun _ => ⟨rfl, rfl⟩)
  refine ((Reach.one e1).trans (Reach.one e2)).trans ?_
  show Reach (addrAbs a s) _
  change Ready .jmpInd 3 (addrAbs a s) at r2
  unfold jmpInd
  dsimp only
  generalize addrAbs a s = t at *
  have e3 := Ready.stepRead false t.target r2 (f := fun b t => t.mapProg (fun g => { g with data := b })) rfl
  have r3 := (r2.read false t.target).prog (f := fun g => { g with data := readValue false t.target t }) (fun _ => ⟨rfl,
      rfl⟩)
  refine (Reach.one e3).trans ?_
  generalize (readCycle false t.target t).mapProg (fun g => { g with data := readValue false t.target t }) = u at *
  have e4 := Ready.stepRead true (word u.cpu.prog.adh (u.cpu.prog.adl + 1)) r3 (f := fun h t => finish (t.jump
      (word h t.cpu.prog.data))) rfl
  refine Reach.one (e4.trans ?_)
  have : (readCycle true (word u.cpu.prog.adh (u.cpu.prog.adl + 1)) u).cpu.prog.data = u.cpu.prog.data :=
      by rw [readCycle_prog]
  rw [this]

theorem reach_jsr (h : Ready .jsr 1 (fetchOpcode s)) (hf : Fetches 1 a (fetchOpcode s)) : Reach (fetchOpcode s)
    (jumpSubroutine a s) := by
  have e1 := rowStep_fetch h (f := fun b g => { g with adl := b }) rfl (hf.b1 (by omega))
  have r1 := h.fetch false (f := fun g => { g with adl := lo a }) (fun _ => ⟨rfl, rfl⟩)
  refine (Reach.one e1).trans ?_
  unfold jumpSubroutine
  dsimp only
  generalize fetchOperand false (fun g => { g with adl := lo a }) (fetchOpcode s) = t at *
  have e2 := Ready.stepRead false t.cpu.regs.stackAddr r1 (f := fun _ t => id t) rfl
  have r2 := r1.read false t.cpu.regs.stackAddr
  refine (Reach.one e2).trans ?_
  change Reach (stackRead false t) _
  change Ready .jsr 3 (stackRead false t) at r2
  generalize stackRead false t = u at *
  have e3 := Ready.stepWrite false u.cpu.regs.stackAddr (hi u.cpu.regs.pc) r2 (f := fun t => id (t.mapRegs Regs.decS)) rfl
  have r3 := (r2.write false u.cpu.regs.stackAddr (hi u.cpu.regs.pc)).regs Regs.decS
  refine (Reach.one e3).trans ?_
  change Reach (push false (hi u.cpu.regs.pc) u) _
  change Ready .jsr 4 (push false (hi u.cpu.regs.pc) u) at r3
  generalize push false (hi u.cpu.regs.pc) u = v at *
  have e4 := Ready.stepWrite false v.cpu.regs.stackAddr (lo v.cpu.regs.pc) r3 (f := fun t => id (t.mapRegs Regs.decS)) rfl
  have r4 := (r3.write false v.cpu.regs.stackAddr (lo v.cpu.regs.pc)).regs Regs.decS
  refine (Reach.one e4).trans ?_
  change Reach (push false (lo v.cpu.regs.pc) v) _
  change Ready .jsr 5 (push false (lo v.cpu.regs.pc) v) at r4
  generalize push false (lo v.cpu.regs.pc) v = w at *
  have e5 := Ready.stepRead true w.cpu.regs.pc r4 (f := fun h t => finish (t.jump (word h t.cpu.prog.adl))) rfl
  refine Reach.one (e5.trans ?_)
  have : (readCycle true w.cpu.regs.pc w).cpu.prog.adl = w.cpu.prog.adl := by rw [readCycle_prog]
  rw [this]
  rfl

theorem reach_drop {sh} (h : Ready sh 1 (fetchOpcode s)) (hr : ∀ c, sh.row 2 c = dropRow c) : Reach (fetchOpcode s)
    (dummyFetch false (fetchOpcode s)) ∧ Ready sh 2 (dummyFetch false (fetchOpcode s)) := by
  have e1 := Ready.stepRead false (fetchOpcode s).cpu.regs.pc h (f := fun _ t => id t) (hr _)
  exact ⟨Reach.one e1, h.read false _⟩

theorem reach_beforePull {sh c} (h : Ready sh 2 c) (hr : ∀ c, sh.row 3 c = beforePullRow c) : Reach c (beforePull c)
    ∧ Ready sh 3 (beforePull c) :=
  ⟨Reach.one (Ready.stepRead false c.cpu.regs.stackAddr h (f := fun _ t => t.mapRegs Regs.incS) (hr _)),
      (h.read false _).regs _⟩

theorem reach_pushOf (val) (h : Ready (.pushOf val) 1 (fetchOpcode s)) : Reach (fetchOpcode s) (pushRegister val s) := by
  obtain ⟨e, r⟩ := reach_drop h (fun _ => rfl)
  refine e.trans ?_
  unfold pushRegister
  dsimp only
  generalize dummyFetch false (fetchOpcode s) = t at *
  exact Reach.one (Ready.stepWrite true t.cpu.regs.stackAddr (val t.cpu.regs) r (f := fun u => finish
      (u.mapRegs Regs.decS)) rfl)

theorem reach_pullTo (op) (h : Ready (.pullTo op) 1 (fetchOpcode s)) : Reach (fetchOpcode s) (pullRegister op s) := by
  obtain ⟨e, r⟩ := reach_drop h (fun _ => rfl)
  refine e.trans ?_
  unfold pullRegister
  dsimp only
  generalize dummyFetch false (fetchOpcode s) = t at *
  obtain ⟨e2, r2⟩ := reach_beforePull r (fun _ => rfl)
  refine e2.trans ?_
  generalize beforePull t = u at *
  exact Reach.one (Ready.stepRead true u.cpu.regs.stackAddr r2 (f := fun v t => finish (t.mapRegs (op v))) rfl)

theorem reach_jam (h : Ready .jam 1 (fetchOpcode s)) : Reach (fetchOpcode s) (jam s) := by
  unfold jam
  dsimp only
  generalize fetchOpcode s = t at *
  exact Reach.one (Ready.stepRead false t.cpu.regs.pc h (f :=
      fun _ t => finish { t with cpu := { t.cpu with halted := true } }) rfl)

theorem reach_rts (h : Ready .rts 1 (fetchOpcode s)) : Reach (fetchOpcode s) (returnSubroutine s) := by
  obtain ⟨e, r⟩ := reach_drop h (fun _ => rfl)
  refine e.trans ?_
  unfold returnSubroutine
  dsimp only
  generalize dummyFetch false (fetchOpcode s) = t at *
  obtain ⟨e2, r2⟩ := reach_beforePull r (fun _ => rfl)
  refine e2.trans ?_
  generalize beforePull t = u at *
  have e3 := Ready.stepRead false u.cpu.regs.stackAddr r2 (f := fun l t => t.mapRegs (fun r => (r.setPcl l).incS)) rfl
  have r3 := (r2.read false u.cpu.regs.stackAddr).regs
    (fun r => (r.setPcl (readValue false u.cpu.regs.stackAddr u)).incS)
  refine (Reach.one e3).trans ?_
  change Reach ((stackRead false u).mapRegs (fun r => (r.setPcl (stackValue false u)).incS)) _
  change Ready .rts 4 ((stackRead false u).mapRegs (fun r => (r.setPcl (stackValue false u)).incS)) at r3
  generalize (stackRead false u).mapRegs (fun r => (r.setPcl (stackValue false u)).incS) = x at *
  have e4 := Ready.stepRead false x.cpu.regs.stackAddr r3 (f := fun h t => t.mapRegs (Regs.setPch h)) rfl
  have r4 := (r3.read false x.cpu.regs.stackAddr).regs (Regs.setPch (readValue false x.cpu.regs.stackAddr x))
  refine (Reach.one e4).trans ?_
  change Reach ((stackRead false x).mapRegs (Regs.setPch (stackValue false x))) _
  change Ready .rts 5 ((stackRead false x).mapRegs (Regs.setPch (stackValue false x))) at r4
  generalize (stackRead false x).mapRegs (Regs.setPch (stackValue false x)) = y at *
  exact Reach.one (Ready.stepRead true y.cpu.regs.pc r4 (f := fun _ t => finish (t.mapRegs Regs.incPc)) rfl)

theorem reach_rti (h : Ready .rti 1 (fetchOpcode s)) : Reach (fetchOpcode s) (finish (leaveInterrupt (dummyFetch false
    (fetchOpcode s)))) := by
  obtain ⟨e, r⟩ := reach_drop h (fun _ => rfl)
  refine e.trans ?_
  generalize dummyFetch false (fetchOpcode s) = t at *
  unfold leaveInterrupt
  dsimp only
  obtain ⟨e2, r2⟩ := reach_beforePull r (fun _ => rfl)
  refine e2.trans ?_
  generalize beforePull t = u at *
  have e3 := Ready.stepRead false u.cpu.regs.stackAddr r2 (f := fun p t => t.mapRegs
      (fun r => { r with p := Flags.unpack p, s := r.s + 1 })) rfl
  have r3 := (r2.read false u.cpu.regs.stackAddr).regs (fun r =>
      { r with p := Flags.unpack (readValue false u.cpu.regs.stackAddr u), s := r.s + 1 })
  refine (Reach.one e3).trans ?_
  change Reach ((stackRead false u).mapRegs (fun r => { r with p := Flags.unpack (stackValue false u), s := r.s + 1 })) _
  change Ready .rti 4 ((stackRead false u).mapRegs (fun r =>
      { r with p := Flags.unpack (stackValue false u), s := r.s + 1 })) at r3
  generalize (stackRead false u).mapRegs (fun r => { r with p := Flags.unpack (stackValue false u), s := r.s + 1 }) = x
      at *
  have e4 := Ready.stepRead false x.cpu.regs.stackAddr r3 (f := fun l t => t.mapRegs (fun r => (r.setPcl l).incS)) rfl
  have r4 := (r3.read false x.cpu.regs.stackAddr).regs
    (fun r => (r.setPcl (readValue false x.cpu.regs.stackAddr x)).incS)
  refine (Reach.one e4).trans ?_
  change Reach ((stackRead false x).mapRegs (fun r => (r.setPcl (stackValue false x)).incS)) _
  change Ready .rti 5 ((stackRead false x).mapRegs (fun r => (r.setPcl (stackValue false x)).incS)) at r4
  generalize (stackRead false x).mapRegs (fun r => (r.setPcl (stackValue false x)).incS) = y at *
  exact Reach.one (Ready.stepRead true y.cpu.regs.stackAddr r4 (f := fun h t => finish (t.mapRegs (Regs.setPch h))) rfl)

/-- The machine is inside BRK (`b`) or the interrupt sequence. -/
def Entering (b : Bool) (ir : InFlight) (p : Params) : Prop := (b = false ∧ ir = .int) ∨ (b = true ∧ ∃ op,
    ir = .opcode op ∧ shapeOf p op = .brk)

/-- It is there with `n` cycles over. -/
structure EntryReady (b : Bool) (n : Nat) (c : State) : Prop where
  ir : Entering b c.cpu.prog.ir c.params
  count  : c.cpu.prog.tcycle = n
  runs   : c.cpu.halted = false

theorem EntryReady.row {b n c} (h : EntryReady b n c) (hn : 2 ≤ n) : c.nextRow = entryRow b (n+1) c := by
  unfold State.nextRow
  rcases h.ir with ⟨rfl, e⟩ | ⟨rfl, op, e, e2⟩
  · rw [e, h.count]; dsimp only; rw [if_neg (by omega)]
  · rw [e, h.count]; dsimp only; rw [e2]; match n, hn with | n+2, _ => rfl

theorem EntryReady.read {b n c} (h : EntryReady b n c) (p : Bool) (a : Addr) : EntryReady b (n + 1) (readCycle p a c) :=
    by
  have k := readCycle_kept p a c
  exact ⟨by rw [readCycle_prog, k.params]; exact h.ir, by rw [readCycle_prog]; exact congrArg (· + 1) h.count,
    k.halted.trans h.runs⟩

theorem EntryReady.write {b n c} (h : EntryReady b n c) (p : Bool) (a : Addr) (v : Byte)
    : EntryReady b (n + 1) (writeCycle p a v c) := by
  obtain ⟨-, -, -, k4, -⟩ := writeCycle_storedAt p a v c
  exact ⟨by rw [writeCycle_prog, k4]; exact h.ir, by rw [writeCycle_prog]; exact congrArg (· + 1) h.count,
    (writeCycle_halted p a v c).trans h.runs⟩

theorem EntryReady.prog {b n c} (h : EntryReady b n c) {f : Progress → Progress}
    (hf : ∀ g, (f g).ir = g.ir ∧ (f g).tcycle = g.tcycle) : EntryReady b n (c.mapProg f) :=
  ⟨by rw [show (c.mapProg f).cpu.prog.ir = c.cpu.prog.ir from (hf _).1]; exact h.ir, (hf _).2.trans h.count, h.runs⟩

theorem EntryReady.regs {b n c} (h : EntryReady b n c) (f : Regs → Regs) : EntryReady b n (c.mapRegs f) := ⟨h.ir,
    h.count, h.runs⟩

/-- The machine with another `nmi_pending`, which only the detectors see. -/
def setNmi (s : State) (x : Bool) : State := { s with cpu := { s.cpu with nmiPending := x } }

theorem EntryReady.nmi {b n c} (h : EntryReady b n c) (x) : EntryReady b n (setNmi c x) := ⟨h.ir, h.count, h.runs⟩

theorem dots_nmi (n x) (s : State) : dots n (setNmi s x) = setNmi (dots n s) x := by
  induction n generalizing s with
  | zero => rfl
  | succ n ih => exact ih (dot s)

theorem busWrite_nmi (a v x) (s : State) : busWrite a v (setNmi s x) = setNmi (busWrite a v s) x := by
  unfold busWrite; dsimp only; repeat' split
  all_goals rfl

theorem endCycle_nmi (w x) (s : State) : endCycle w (setNmi s x) = setNmi (endCycle w s) (x ||
    ((endCycle w s).cpu.nmiPrev && !s.cpu.nmiPrev)) := by
  have h : dots (setNmi s x).dotsThisCycle (setNmi s x) = setNmi (dots s.dotsThisCycle s) x := dots_nmi _ x s
  unfold endCycle
  rw [h]
  have e := dots_prog s.dotsThisCycle s
  rw [← e]
  rfl

theorem writeCycle_clearNmi (a v) (s : State) : writeCycle false a v (clearNmi s) = setNmi (writeCycle false a v s)
    ((writeCycle false a v s).cpu.nmiPrev && !s.cpu.nmiPrev) := by
  show endCycle true (busWrite a v (setNmi (s.mapProg Progress.tick) false)) = _
  rw [busWrite_nmi, endCycle_nmi, busWrite_cpu]
  rfl

/-- The two vector rows. -/
theorem reach_vector {b w} (v : Addr) (h : EntryReady b 5 w) (ht : w.target = v) : Reach w (finish (loadVector v w)) := by
  unfold loadVector
  dsimp only
  have e1 := rowStep_read h.runs (p := false) (a := w.target) (f := fun l t => t.mapRegs (fun r => (r.setPcl l).setI))
      (h.row (by omega))
  rw [ht] at e1
  have r1 := (h.read false v).regs (fun r => (r.setPcl (readValue false v w)).setI)
  refine (Reach.one e1).trans ?_
  have ht' : ((readCycle false v w).mapRegs (fun r => (r.setPcl (readValue false v w)).setI)).target = v := by
    rw [← ht]; show word (readCycle false w.target w).cpu.prog.adh (readCycle false w.target w).cpu.prog.adl = _
    rw [readCycle_prog]; rfl
  generalize (readCycle false v w).mapRegs (fun r => (r.setPcl (readValue false v w)).setI) = y at *
  have e2 := rowStep_read r1.runs (p := false) (a := y.target + 1) (f := fun h t => finish (t.mapRegs (Regs.setPch h)))
      (r1.row (by omega))
  rw [ht'] at e2
  exact Reach.one e2

/-- Rows 3 to 7 of BRK and of the interrupt sequence. -/
theorem reach_entry {b u} (h : EntryReady b 2 u) : Reach u (finish (enterInterrupt b u)) := by
  unfold enterInterrupt
  dsimp only
  have e1 := rowStep_write h.runs (p := false) (a := u.cpu.regs.stackAddr) (v := hi u.cpu.regs.pc) (f := fun t => id
      (t.mapRegs Regs.decS)) (h.row (by omega))
  have r1 := (h.write false u.cpu.regs.stackAddr (hi u.cpu.regs.pc)).regs Regs.decS
  refine (Reach.one e1).trans ?_
  change Reach (push false (hi u.cpu.regs.pc) u) _
  change EntryReady b 3 (push false (hi u.cpu.regs.pc) u) at r1
  have hpc : (push false (hi u.cpu.regs.pc) u).cpu.regs.pc = u.cpu.regs.pc := by rw [push_regs]; rfl
  have hlo : lo u.cpu.regs.pc = lo (push false (hi u.cpu.regs.pc) u).cpu.regs.pc := by rw [hpc]
  rw [hlo]
  generalize push false (hi u.cpu.regs.pc) u = v at *
  have e2 := rowStep_write r1.runs (p := false) (a := v.cpu.regs.stackAddr) (v := lo v.cpu.regs.pc) (f := fun t => id
      (t.mapRegs Regs.decS)) (r1.row (by omega))
  have r2 := (r1.write false v.cpu.regs.stackAddr (lo v.cpu.regs.pc)).regs Regs.decS
  refine (Reach.one e2).trans ?_
  change Reach (push false (lo v.cpu.regs.pc) v) _
  change EntryReady b 4 (push false (lo v.cpu.regs.pc) v) at r2
  generalize push false (lo v.cpu.regs.pc) v = x at *
  have e3 := rowStep_write r2.runs (p := false) (a := x.cpu.regs.stackAddr) (v := x.cpu.regs.p.pack b) (f := fun t =>
      (fun (t : State) =>
        ({ t with cpu := { t.cpu with nmiPending := t.cpu.nmiPrev && !x.cpu.nmiPrev } } : State).mapProg
          (fun g => { g with adl := lo x.chosenVector, adh := hi x.chosenVector })) (t.mapRegs Regs.decS)) (r2.row
              (by omega))
  have r3 := (((r2.write false x.cpu.regs.stackAddr (x.cpu.regs.p.pack b)).regs Regs.decS).nmi
      ((writeCycle false x.cpu.regs.stackAddr (x.cpu.regs.p.pack b) x).cpu.nmiPrev && !x.cpu.nmiPrev)).prog (f :=
      fun g => { g with adl := lo x.chosenVector, adh := hi x.chosenVector }) (fun _ => ⟨rfl, rfl⟩)
  have hp : push false (x.cpu.regs.p.pack b) (clearNmi x) = setNmi (push false (x.cpu.regs.p.pack b) x)
      ((writeCycle false x.cpu.regs.stackAddr (x.cpu.regs.p.pack b) x).cpu.nmiPrev && !x.cpu.nmiPrev) := by
    unfold push
    show (writeCycle false x.cpu.regs.stackAddr _ (clearNmi x)).mapRegs _ = _
    rw [writeCycle_clearNmi]
    rfl
  refine (Reach.one e3).trans ?_
  have hc : (clearNmi x).cpu.regs.p = x.cpu.regs.p := rfl
  rw [hp]
  change Reach ((setNmi (push false (x.cpu.regs.p.pack b) x) ((writeCycle false x.cpu.regs.stackAddr
      (x.cpu.regs.p.pack b) x).cpu.nmiPrev && !x.cpu.nmiPrev)).mapProg
      (fun g => { g with adl := lo x.chosenVector, adh := hi x.chosenVector })) _
  change EntryReady b 5 ((setNmi (push false (x.cpu.regs.p.pack b) x) ((writeCycle false x.cpu.regs.stackAddr
      (x.cpu.regs.p.pack b) x).cpu.nmiPrev && !x.cpu.nmiPrev)).mapProg
      (fun g => { g with adl := lo x.chosenVector, adh := hi x.chosenVector })) at r3
  generalize setNmi (push false (x.cpu.regs.p.pack b) x) ((writeCycle false x.cpu.regs.stackAddr
      (x.cpu.regs.p.pack b) x).cpu.nmiPrev && !x.cpu.nmiPrev) = y at *
  have e4 := reach_vector x.chosenVector r3 (word_hi_lo _)
  have ef : finish (loadVector x.chosenVector (y.mapProg (fun g =>
      { g with adl := lo x.chosenVector, adh := hi x.chosenVector }))) = finish (loadVector x.chosenVector y) := by
    unfold loadVector
    dsimp only
    obtain ⟨w1, w2⟩ := readCycle_withProg false x.chosenVector y
        { y.cpu.prog with adl := lo x.chosenVector, adh := hi x.chosenVector }
    change readCycle false x.chosenVector (y.mapProg (fun g =>
        { g with adl := lo x.chosenVector, adh := hi x.chosenVector })) = _ at w1
    change readValue false x.chosenVector (y.mapProg (fun g =>
        { g with adl := lo x.chosenVector, adh := hi x.chosenVector })) = _ at w2
    rw [w1, w2]
    generalize readValue false x.chosenVector y = l
    generalize readCycle false x.chosenVector y = z at *
    generalize Progress.tick { y.cpu.prog with adl := lo x.chosenVector, adh := hi x.chosenVector } = g
    obtain ⟨v1, v2⟩ := readCycle_withProg false (x.chosenVector + 1) (z.mapRegs (fun r => (r.setPcl l).setI)) g
    change readCycle false (x.chosenVector + 1) ((z.withProg g).mapRegs (fun r => (r.setPcl l).setI)) = _ at v1
    change readValue false (x.chosenVector + 1) ((z.withProg g).mapRegs (fun r => (r.setPcl l).setI)) = _ at v2
    rw [v1, v2]
    rfl
  rw [ef] at e4
  exact e4

theorem reach_brk (h : Ready .brk 1 (fetchOpcode s)) : Reach (fetchOpcode s) (finish (enterInterrupt true
    (fetchOperand false id (fetchOpcode s)))) := by
  generalize fetchOpcode s = t at *
  have e1 := Ready.stepRead false t.cpu.regs.pc h (f := fun _ u => u.mapRegs Regs.incPc) rfl
  have r1 := (h.read false t.cpu.regs.pc).regs Regs.incPc
  refine (Reach.one e1).trans ?_
  change Reach (fetchOperand false id t) _
  change Ready .brk 2 (fetchOperand false id t) at r1
  obtain ⟨op, o1, o2⟩ := r1.shape
  exact reach_entry ⟨Or.inr ⟨rfl, op, o1, o2⟩, r1.count, r1.runs⟩

/-- EVERY SEQUENCE of an instruction, from its opcode fetch. -/
theorem reach_shape (sh : Shape) (h : Ready sh 1 (fetchOpcode s)) (hf : Fetches (Shape.operandBytes sh) a
    (fetchOpcode s)) (hi : ∀ m v o, sh = .unstable m v o → m.indexed = true) : Reach (fetchOpcode s) (sh.run a s) := by
  have pl : readValue true (fetchOpcode s).cpu.regs.pc (fetchOpcode s) = readValue false (fetchOpcode s).cpu.regs.pc
      (fetchOpcode s) := readValue_poll _ _ _
  cases sh with
  | implied op => exact reach_implied op h
  | imm op => exact reach_imm op h (pl.trans (hf.b1 (Nat.le_refl _)))
  | read m op => exact reach_read m op h hf
  | store m val => exact reach_store m val h hf
  | rmw m new op => exact reach_rmw m new op h hf
  | unstable m val op => exact reach_unstable m val op (hi _ _ _ rfl) h hf
  | branch cond => exact reach_branch cond h (pl.trans (hf.b1 (Nat.le_refl _)))
  | jmpAbs => exact reach_jmpAbs h hf
  | jmpInd => exact reach_jmpInd h hf
  | jsr => exact reach_jsr h hf
  | rts => exact reach_rts h
  | rti => exact reach_rti h
  | brk => exact reach_brk h
  | pushOf val => exact reach_pushOf val h
  | pullTo op => exact reach_pullTo op h
  | jam => exact reach_jam h

/-- The interrupt sequence, from the boundary. -/
theorem reach_int (nh : s.cpu.halted = false) (ni : s.cpu.intDetected = true) (hp
    : s.cpu.prog = Progress.idle) :
    ∃ n, 1 ≤ n ∧ rowsAfter n s = interruptSequence s := by
  have row : s.nextRow = dummyRow false s.cpu.regs.pc (fun t =>
      { t with cpu := { t.cpu with intDetected := false, prog := { t.cpu.prog with ir := .int } } }) := by
    unfold State.nextRow
    rw [hp]
    simp only [Progress.idle, ni, if_true]
  have e1 := rowStep_read nh row
  generalize hu :
      ({ readCycle false s.cpu.regs.pc s with cpu := { (readCycle false s.cpu.regs.pc s).cpu with intDetected := false, prog := { (readCycle false s.cpu.regs.pc s).cpu.prog with ir := .int } } } : State) = u at e1
  have k := readCycle_kept false s.cpu.regs.pc s
  have ku : u.cpu.prog = { Progress.idle with ir := .int, tcycle := 1 } := by
    rw [← hu]; show ({ (readCycle false s.cpu.regs.pc s).cpu.prog with ir := .int } : Progress) = _
    rw [readCycle_prog, hp]; rfl
  have n1 : u.cpu.halted = false := by rw [← hu]; exact k.halted.trans nh
  have row2 : u.nextRow = dropRow u := by
    unfold State.nextRow
    rw [ku]
    rfl
  have e2 := rowStep_read n1 row2
  have r2 : EntryReady false 2 (dummyFetch false u) := by
    have k2 := readCycle_kept false u.cpu.regs.pc u
    refine ⟨Or.inl ⟨rfl, ?_⟩, ?_, k2.halted.trans n1⟩
    · show (readCycle false u.cpu.regs.pc u).cpu.prog.ir = _; rw [readCycle_prog, ku]
    · show (readCycle false u.cpu.regs.pc u).cpu.prog.tcycle = _; rw [readCycle_prog, ku]
  obtain ⟨n, hn⟩ := reach_entry r2
  refine ⟨n + 2, by omega, ?_⟩
  show rowsAfter n (rowStep (rowStep s)) = _
  have e1' : rowStep s = u := e1
  have e2' : rowStep u = dummyFetch false u := e2
  rw [e1', e2', hn]
  unfold interruptSequence
  dsimp only
  have w := (readCycle_withProg false s.cpu.regs.pc s { s.cpu.prog with ir := .int }).1
  have hd : dummyFetch false (s.mapProg (fun g => { g with ir := .int })) = (readCycle false s.cpu.regs.pc s).withProg
      (Progress.tick { s.cpu.prog with ir := .int }) := w
  have hk :
      ({ dummyFetch false (s.mapProg (fun g => { g with ir := .int })) with cpu := { (dummyFetch false (s.mapProg (fun g => { g with ir := .int }))).cpu with intDetected := false } } : State) = u := by
    rw [hd, ← hu]
    show _ =
        ({ readCycle false s.cpu.regs.pc s with cpu := { (readCycle false s.cpu.regs.pc s).cpu with intDetected := false, prog := { (readCycle false s.cpu.regs.pc s).cpu.prog with ir := .int } } } : State)
    rw [readCycle_prog]
    rfl
  rw [hk]

/-- The number of operand bytes of a format. -/
def Format.operandBytes : Format → Nat | .f1 _ => 0 | .f2 _ => 1 | .f3 _ => 2

/-- The unstable stores have an indexed mode. -/
def Shape.unstableIndexed : Shape → Bool | .unstable m _ _ => m.indexed | _ => true

theorem shapeRow_operands (p q : Params) (k : Nat) : (shapeRow p k).map (fun x => (Shape.operandBytes x,
    Shape.unstableIndexed x)) = (shapeRow q k).map (fun x => (Shape.operandBytes x, Shape.unstableIndexed x)) := by
  match k with
  | 0 => rfl | 1 => rfl | 2 => rfl | 3 => rfl | 4 => rfl | 5 => rfl | 6 => rfl | 7 => rfl | 8 => rfl | 9 => rfl | 10 =>
      rfl | 11 => rfl
  | 12 => rfl | 13 => rfl | 14 => rfl | _ + 15 => rfl

theorem shapeOf_operands (p q : Params) (op : Byte) : (Shape.operandBytes (shapeOf p op), Shape.unstableIndexed
    (shapeOf p op)) = (Shape.operandBytes (shapeOf q op), Shape.unstableIndexed (shapeOf q op)) := by
  have h := shapeRow_operands p q (op.toNat / 16)
  unfold shapeOf
  rw [← List.getD_map (f := fun x => (Shape.operandBytes x, Shape.unstableIndexed x)), ← List.getD_map (f := fun x =>
      (Shape.operandBytes x, Shape.unstableIndexed x)), h]

/-- An opcode has at least the operand bytes its sequence uses. -/
theorem formatOf_operands : ∀ op : Byte, Shape.operandBytes (shapeOf Params.default op) ≤ Format.operandBytes
    (formatOf op) ∧ Shape.unstableIndexed (shapeOf Params.default op) = true := by decide +kernel

end Sys2Proof.Machine
end

