-- ==== Sys2Proof/Laws/Devices.lean ====
section
/-! SUPPORT. The device registers through the cycles of the machine; the machine with rendering off and no delta-modulation
sample playing, in which a cycle moves nothing but clocks. -/

namespace Sys2Proof.Machine

/-! ## Device registers -/

/-- The device registers a program writes are as before. -/
structure SameDevices (s t : State) : Prop where
  ppu     : s.ppu.SameLatches t.ppu
  apu     : s.apu.SameRegisters t.apu
  ctrl    : t.ctrl = s.ctrl
  page    : t.dma.oamPage = s.dma.oamPage
  pending : t.dma.oamPending = s.dma.oamPending

theorem SameDevices.refl (s : State) : SameDevices s s := ⟨.refl _, .refl _, rfl, rfl, rfl⟩

theorem SameDevices.of_eq {s t : State} (h1 : t.ppu = s.ppu) (h2 : t.apu = s.apu) (h3 : t.ctrl = s.ctrl)
    (h4 : t.dma = s.dma) : SameDevices s t :=
  ⟨h1 ▸ .refl _, h2 ▸ .refl _, h3, by rw [h4], by rw [h4]⟩

theorem SameDevices.trans {s t u : State} (h : SameDevices s t) (h' : SameDevices t u) : SameDevices s u :=
  ⟨h.ppu.trans h'.ppu, h.apu.trans h'.apu, h'.ctrl.trans h.ctrl, h'.page.trans h.page, h'.pending.trans h.pending⟩

theorem SameDevices.registers {s t : State} (h : SameDevices s t) : t.deviceRegisters = s.deviceRegisters := by
  obtain ⟨p, a, c, d, e⟩ := h
  simp only [State.deviceRegisters, p.ctrl, p.mask, p.t, p.x, p.w, p.readBuffer, p.ioLatch, p.oam, a.ctrl1, a.sweep1, a.ctrl2,
    a.sweep2, a.ctrl3, a.period3, a.ctrl4, a.mode4, a.ctrl5, a.addrReg, a.lenReg, a.enables, a.fiveStep, a.inhibit, c, d, e]

theorem dots_devices (n : Nat) (s : State) : SameDevices s (dots n s) := by
  induction n generalizing s with
  | zero => exact .refl s
  | succ n ih =>
    have h : SameDevices s (dot s) := ⟨dotPpu_latches s.env s.ppu s.mapper, .refl _, rfl, rfl, rfl⟩
    exact h.trans (ih (dot s))

/-- No clock of a cycle changes a device register. -/
theorem endCycle_devices (w : Bool) (s : State) : SameDevices s (endCycle w s) := by
  have h := dots_devices s.dotsThisCycle s
  have ha := h.apu.trans (Apu.stepCycle_registers (dots s.dotsThisCycle s).apu (dots s.dotsThisCycle s).params.region
    (dots s.dotsThisCycle s).cycle)
  exact ⟨h.ppu, ha, h.ctrl, h.page, h.pending⟩

/-- A bus access outside the device registers reaches no device. -/
theorem busAfterRead_devices (a : Addr) (s : State) (h : a.toNat < 0x2000 ∨ 0x4020 ≤ a.toNat) :
    SameDevices s (busAfterRead a s) := by
  unfold busAfterRead
  dsimp only
  split
  · exact .of_eq rfl rfl rfl rfl
  split
  · exact absurd h (by omega)
  split
  · exact absurd h (by omega)
  split
  · exact absurd h (by omega)
  split
  · exact absurd h (by omega)
  split
  · exact .refl s
  split
  · exact .of_eq rfl rfl rfl rfl
  · exact .refl s

@[inherit_doc busAfterRead_devices]
theorem busWrite_devices (a : Addr) (v : Byte) (s : State) (h : a.toNat < 0x2000 ∨ 0x4020 ≤ a.toNat) :
    SameDevices s (busWrite a v s) := by
  unfold busWrite
  dsimp only
  split
  · exact .of_eq rfl rfl rfl rfl
  split
  · exact absurd h (by omega)
  split
  · exact absurd h (by omega)
  split
  · exact absurd h (by omega)
  split
  · exact absurd h (by omega)
  split
  · exact absurd h (by omega)
  split
  · exact absurd h (by omega)
  split
  · exact absurd h (by omega)
  · exact .of_eq rfl rfl rfl rfl

theorem mapProg_devices (f : Progress → Progress) (s : State) : SameDevices s (s.mapProg f) := .of_eq rfl rfl rfl rfl

theorem poll_devices (s : State) : SameDevices s (poll s) := .of_eq rfl rfl rfl rfl

theorem beginRead_devices (p : Bool) (s : State) (h : s.dmaQuiet = true) : SameDevices s (beginRead p s) := by
  unfold beginRead
  dsimp only
  rw [stalls_quiet s h]
  cases p <;> exact .of_eq rfl rfl rfl rfl

theorem readCycle_devices (p : Bool) (a : Addr) (s : State) (ha : a.toNat < 0x2000 ∨ 0x4020 ≤ a.toNat)
    (h : s.dmaQuiet = true) : SameDevices s (readCycle p a s) :=
  ((beginRead_devices p s h).trans (busAfterRead_devices a _ ha)).trans (endCycle_devices _ _)

theorem writeCycle_devices (p : Bool) (a : Addr) (v : Byte) (s : State) (ha : a.toNat < 0x2000 ∨ 0x4020 ≤ a.toNat) :
    SameDevices s (writeCycle p a v s) := by
  refine SameDevices.trans ?_ (endCycle_devices _ _)
  refine SameDevices.trans ?_ (busWrite_devices a v _ ha)
  cases p <;> exact .of_eq rfl rfl rfl rfl

/-! ## Rendering off -/

/-- The Ppu's part of a dot with rendering off touches neither `v`, `oam_addr` nor the position's parity rule. -/
theorem dotPpu_oamAddr (e : Env) (p : Ppu) (m : Mapper) (h : p.rendering = false) : (dotPpu e p m).oamAddr = p.oamAddr := by
  have ha : (p.advance e.params.region).oamAddr = p.oamAddr := by
    unfold Ppu.advance
    repeat' split
    all_goals rfl
  have hr (q : Ppu) (hq : p.SameLatches q) : q.active e.params.region = false := by
    have : q.rendering = p.rendering := by unfold Ppu.rendering; rw [hq.mask]
    unfold Ppu.active
    rw [this, h, Bool.false_and]
  have hb : (p.beforeFetch e).oamAddr = p.oamAddr := by
    refine Eq.trans ?_ ha
    unfold Ppu.beforeFetch
    generalize p.advance e.params.region = q
    have h1 : (q.flagsAt e.params.region).oamAddr = q.oamAddr := by
      unfold Ppu.flagsAt; repeat' split
      all_goals rfl
    have h2 (q : Ppu) : (q.clockBackground e.params.region).oamAddr = q.oamAddr := by
      unfold Ppu.clockBackground; split <;> rfl
    have h3 (q : Ppu) : (q.outputAt e.epoch).oamAddr = q.oamAddr := by
      unfold Ppu.outputAt; split <;> rfl
    rw [h3, h2, h1]
  have hl : p.SameLatches (p.beforeFetch e) :=
    (p.advance_latches _).trans
      (((Ppu.flagsAt_place _ _).trans (Ppu.clockBackground_place _ _)).trans (Ppu.outputAt_place _ _)).latches
  have hq := hr _ hl
  unfold dotPpu Ppu.fetchAddr Ppu.lineWork
  simp only [hq]
  exact hb

/-- Rendering is off and no delta-modulation byte is wanted, so no DMA unit but the OAM DMA has work. -/
structure Still (s : State) : Prop where
  rendering : s.ppu.rendering = false
  remaining : s.apu.dmc.remaining = 0
  pending   : s.dma.dmcPending = false

theorem rendering_congr {p q : Ppu} (h : q.mask = p.mask) : q.rendering = p.rendering := by unfold Ppu.rendering; rw [h]

theorem dots_oamAddr (n : Nat) (s : State) (h : s.ppu.rendering = false) : (dots n s).ppu.oamAddr = s.ppu.oamAddr := by
  induction n generalizing s with
  | zero => rfl
  | succ n ih =>
    have h1 : (dot s).ppu.rendering = false := (rendering_congr (dotPpu_latches s.env s.ppu s.mapper).mask).trans h
    exact (ih _ h1).trans (dotPpu_oamAddr s.env s.ppu s.mapper h)

/-- A cycle keeps the machine still and leaves OAM and `oam_addr` alone. -/
theorem endCycle_still (w : Bool) {s : State} (h : Still s) :
    Still (endCycle w s) ∧ (endCycle w s).ppu.oam = s.ppu.oam ∧ (endCycle w s).ppu.oamAddr = s.ppu.oamAddr := by
  have hd := endCycle_devices w s
  have hr : (endCycle w s).apu.dmc.remaining = 0 := by
    show ((dots s.dotsThisCycle s).apu.stepCycle _ _).dmc.remaining = 0
    rw [Apu.stepCycle_remaining, (dots_fields s.dotsThisCycle s).2.1, h.remaining]
  refine ⟨⟨(rendering_congr hd.ppu.mask).trans h.rendering, hr, ?_⟩, hd.ppu.oam, dots_oamAddr _ _ h.rendering⟩
  show (endCycle w s).apu.dmc.wantsByte = false
  simp [Dmc.wantsByte, hr]

/-- A cycle changes of the DMA state only whether a delta-modulation fetch is pending. -/
theorem endCycle_dma (w : Bool) {s : State} (h : Still s) : (endCycle w s).dma = s.dma := by
  have hp := (endCycle_still w h).1.pending
  have e : (endCycle w s).dma = { s.dma with dmcPending := (endCycle w s).dma.dmcPending } := by
    show ({ (dots s.dotsThisCycle s).dma with dmcPending := (endCycle w s).dma.dmcPending } : Dma) = _
    rw [(dots_fields s.dotsThisCycle s).1]
  rw [e, hp, ← h.pending]

/-- A bus read keeps the machine still and leaves OAM and `oam_addr` alone. -/
theorem busAfterRead_still (a : Addr) {s : State} (h : Still s) :
    Still (busAfterRead a s) ∧ (busAfterRead a s).ppu.oam = s.ppu.oam ∧ (busAfterRead a s).ppu.oamAddr = s.ppu.oamAddr := by
  obtain ⟨h1, h2, -⟩ := busAfterRead_fields a s
  have hp : (busAfterRead a s).ppu.mask = s.ppu.mask ∧ (busAfterRead a s).ppu.oam = s.ppu.oam
      ∧ (busAfterRead a s).ppu.oamAddr = s.ppu.oamAddr := by
    unfold busAfterRead
    dsimp only
    split
    · exact ⟨rfl, rfl, rfl⟩
    split
    · unfold Ppu.afterRead
      split <;> exact ⟨rfl, rfl, rfl⟩
    repeat' split
    all_goals exact ⟨rfl, rfl, rfl⟩
  exact ⟨⟨(rendering_congr hp.1).trans h.rendering, by rw [h2, h.remaining], by rw [h1, h.pending]⟩, hp.2⟩

/-- Changing the Cpu or the DMA counters keeps the machine still. -/
theorem Still.congr {s t : State} (h : Still s) (h1 : t.ppu = s.ppu) (h2 : t.apu = s.apu)
    (h3 : t.dma.dmcPending = s.dma.dmcPending) : Still t :=
  ⟨by rw [h1, h.rendering], by rw [h2, h.remaining], by rw [h3, h.pending]⟩

end Sys2Proof.Machine
end

