-- ==== Sys2Proof/Laws/Encoding.lean ====
section
/-! SUPPORT. The encoding of the instruction a format makes. -/

namespace Sys2Proof.Machine

/-- The operand bytes of a format's encoding, low byte first. -/
def encodedOperand (f : Format) (a : Addr) : List Byte :=
  match f with
  | .f1 _ => []
  | .f2 _ => [lo a]
  | .f3 _ => [lo a, hi a]

/-- The instruction a format makes is encoded as the opcode byte and the operand bytes, whatever its operand. -/
def Format.HasByte (f : Format) (op : Byte) : Prop := ∀ a : Addr, encode (Format.make f a) = op :: encodedOperand f a

theorem opcodeRow0_bytes : List.Forall₂ Format.HasByte opcodeRow0
    [0x00, 0x01, 0x02, 0x03, 0x04, 0x05, 0x06, 0x07, 0x08, 0x09, 0x0A, 0x0B, 0x0C, 0x0D, 0x0E, 0x0F] :=
  .cons (fun _ => rfl) <| .cons (fun _ => rfl) <| .cons (fun _ => rfl) <| .cons (fun _ => rfl) <|
  .cons (fun _ => rfl) <| .cons (fun _ => rfl) <| .cons (fun _ => rfl) <| .cons (fun _ => rfl) <|
  .cons (fun _ => rfl) <| .cons (fun _ => rfl) <| .cons (fun _ => rfl) <| .cons (fun _ => rfl) <|
  .cons (fun _ => rfl) <| .cons (fun _ => rfl) <| .cons (fun _ => rfl) <| .cons (fun _ => rfl) <| .nil

theorem opcodeRow1_bytes : List.Forall₂ Format.HasByte opcodeRow1
    [0x10, 0x11, 0x12, 0x13, 0x14, 0x15, 0x16, 0x17, 0x18, 0x19, 0x1A, 0x1B, 0x1C, 0x1D, 0x1E, 0x1F] :=
  .cons (fun _ => rfl) <| .cons (fun _ => rfl) <| .cons (fun _ => rfl) <| .cons (fun _ => rfl) <|
  .cons (fun _ => rfl) <| .cons (fun _ => rfl) <| .cons (fun _ => rfl) <| .cons (fun _ => rfl) <|
  .cons (fun _ => rfl) <| .cons (fun _ => rfl) <| .cons (fun _ => rfl) <| .cons (fun _ => rfl) <|
  .cons (fun _ => rfl) <| .cons (fun _ => rfl) <| .cons (fun _ => rfl) <| .cons (fun _ => rfl) <| .nil

theorem opcodeRow2_bytes : List.Forall₂ Format.HasByte opcodeRow2
    [0x20, 0x21, 0x22, 0x23, 0x24, 0x25, 0x26, 0x27, 0x28, 0x29, 0x2A, 0x2B, 0x2C, 0x2D, 0x2E, 0x2F] :=
  .cons (fun _ => rfl) <| .cons (fun _ => rfl) <| .cons (fun _ => rfl) <| .cons (fun _ => rfl) <|
  .cons (fun _ => rfl) <| .cons (fun _ => rfl) <| .cons (fun _ => rfl) <| .cons (fun _ => rfl) <|
  .cons (fun _ => rfl) <| .cons (fun _ => rfl) <| .cons (fun _ => rfl) <| .cons (fun _ => rfl) <|
  .cons (fun _ => rfl) <| .cons (fun _ => rfl) <| .cons (fun _ => rfl) <| .cons (fun _ => rfl) <| .nil

theorem opcodeRow3_bytes : List.Forall₂ Format.HasByte opcodeRow3
    [0x30, 0x31, 0x32, 0x33, 0x34, 0x35, 0x36, 0x37, 0x38, 0x39, 0x3A, 0x3B, 0x3C, 0x3D, 0x3E, 0x3F] :=
  .cons (fun _ => rfl) <| .cons (fun _ => rfl) <| .cons (fun _ => rfl) <| .cons (fun _ => rfl) <|
  .cons (fun _ => rfl) <| .cons (fun _ => rfl) <| .cons (fun _ => rfl) <| .cons (fun _ => rfl) <|
  .cons (fun _ => rfl) <| .cons (fun _ => rfl) <| .cons (fun _ => rfl) <| .cons (fun _ => rfl) <|
  .cons (fun _ => rfl) <| .cons (fun _ => rfl) <| .cons (fun _ => rfl) <| .cons (fun _ => rfl) <| .nil

theorem opcodeRow4_bytes : List.Forall₂ Format.HasByte opcodeRow4
    [0x40, 0x41, 0x42, 0x43, 0x44, 0x45, 0x46, 0x47, 0x48, 0x49, 0x4A, 0x4B, 0x4C, 0x4D, 0x4E, 0x4F] :=
  .cons (fun _ => rfl) <| .cons (fun _ => rfl) <| .cons (fun _ => rfl) <| .cons (fun _ => rfl) <|
  .cons (fun _ => rfl) <| .cons (fun _ => rfl) <| .cons (fun _ => rfl) <| .cons (fun _ => rfl) <|
  .cons (fun _ => rfl) <| .cons (fun _ => rfl) <| .cons (fun _ => rfl) <| .cons (fun _ => rfl) <|
  .cons (fun _ => rfl) <| .cons (fun _ => rfl) <| .cons (fun _ => rfl) <| .cons (fun _ => rfl) <| .nil

theorem opcodeRow5_bytes : List.Forall₂ Format.HasByte opcodeRow5
    [0x50, 0x51, 0x52, 0x53, 0x54, 0x55, 0x56, 0x57, 0x58, 0x59, 0x5A, 0x5B, 0x5C, 0x5D, 0x5E, 0x5F] :=
  .cons (fun _ => rfl) <| .cons (fun _ => rfl) <| .cons (fun _ => rfl) <| .cons (fun _ => rfl) <|
  .cons (fun _ => rfl) <| .cons (fun _ => rfl) <| .cons (fun _ => rfl) <| .cons (fun _ => rfl) <|
  .cons (fun _ => rfl) <| .cons (fun _ => rfl) <| .cons (fun _ => rfl) <| .cons (fun _ => rfl) <|
  .cons (fun _ => rfl) <| .cons (fun _ => rfl) <| .cons (fun _ => rfl) <| .cons (fun _ => rfl) <| .nil

theorem opcodeRow6_bytes : List.Forall₂ Format.HasByte opcodeRow6
    [0x60, 0x61, 0x62, 0x63, 0x64, 0x65, 0x66, 0x67, 0x68, 0x69, 0x6A, 0x6B, 0x6C, 0x6D, 0x6E, 0x6F] :=
  .cons (fun _ => rfl) <| .cons (fun _ => rfl) <| .cons (fun _ => rfl) <| .cons (fun _ => rfl) <|
  .cons (fun _ => rfl) <| .cons (fun _ => rfl) <| .cons (fun _ => rfl) <| .cons (fun _ => rfl) <|
  .cons (fun _ => rfl) <| .cons (fun _ => rfl) <| .cons (fun _ => rfl) <| .cons (fun _ => rfl) <|
  .cons (fun _ => rfl) <| .cons (fun _ => rfl) <| .cons (fun _ => rfl) <| .cons (fun _ => rfl) <| .nil

theorem opcodeRow7_bytes : List.Forall₂ Format.HasByte opcodeRow7
    [0x70, 0x71, 0x72, 0x73, 0x74, 0x75, 0x76, 0x77, 0x78, 0x79, 0x7A, 0x7B, 0x7C, 0x7D, 0x7E, 0x7F] :=
  .cons (fun _ => rfl) <| .cons (fun _ => rfl) <| .cons (fun _ => rfl) <| .cons (fun _ => rfl) <|
  .cons (fun _ => rfl) <| .cons (fun _ => rfl) <| .cons (fun _ => rfl) <| .cons (fun _ => rfl) <|
  .cons (fun _ => rfl) <| .cons (fun _ => rfl) <| .cons (fun _ => rfl) <| .cons (fun _ => rfl) <|
  .cons (fun _ => rfl) <| .cons (fun _ => rfl) <| .cons (fun _ => rfl) <| .cons (fun _ => rfl) <| .nil

theorem opcodeRow8_bytes : List.Forall₂ Format.HasByte opcodeRow8
    [0x80, 0x81, 0x82, 0x83, 0x84, 0x85, 0x86, 0x87, 0x88, 0x89, 0x8A, 0x8B, 0x8C, 0x8D, 0x8E, 0x8F] :=
  .cons (fun _ => rfl) <| .cons (fun _ => rfl) <| .cons (fun _ => rfl) <| .cons (fun _ => rfl) <|
  .cons (fun _ => rfl) <| .cons (fun _ => rfl) <| .cons (fun _ => rfl) <| .cons (fun _ => rfl) <|
  .cons (fun _ => rfl) <| .cons (fun _ => rfl) <| .cons (fun _ => rfl) <| .cons (fun _ => rfl) <|
  .cons (fun _ => rfl) <| .cons (fun _ => rfl) <| .cons (fun _ => rfl) <| .cons (fun _ => rfl) <| .nil

theorem opcodeRow9_bytes : List.Forall₂ Format.HasByte opcodeRow9
    [0x90, 0x91, 0x92, 0x93, 0x94, 0x95, 0x96, 0x97, 0x98, 0x99, 0x9A, 0x9B, 0x9C, 0x9D, 0x9E, 0x9F] :=
  .cons (fun _ => rfl) <| .cons (fun _ => rfl) <| .cons (fun _ => rfl) <| .cons (fun _ => rfl) <|
  .cons (fun _ => rfl) <| .cons (fun _ => rfl) <| .cons (fun _ => rfl) <| .cons (fun _ => rfl) <|
  .cons (fun _ => rfl) <| .cons (fun _ => rfl) <| .cons (fun _ => rfl) <| .cons (fun _ => rfl) <|
  .cons (fun _ => rfl) <| .cons (fun _ => rfl) <| .cons (fun _ => rfl) <| .cons (fun _ => rfl) <| .nil

theorem opcodeRowA_bytes : List.Forall₂ Format.HasByte opcodeRowA
    [0xA0, 0xA1, 0xA2, 0xA3, 0xA4, 0xA5, 0xA6, 0xA7, 0xA8, 0xA9, 0xAA, 0xAB, 0xAC, 0xAD, 0xAE, 0xAF] :=
  .cons (fun _ => rfl) <| .cons (fun _ => rfl) <| .cons (fun _ => rfl) <| .cons (fun _ => rfl) <|
  .cons (fun _ => rfl) <| .cons (fun _ => rfl) <| .cons (fun _ => rfl) <| .cons (fun _ => rfl) <|
  .cons (fun _ => rfl) <| .cons (fun _ => rfl) <| .cons (fun _ => rfl) <| .cons (fun _ => rfl) <|
  .cons (fun _ => rfl) <| .cons (fun _ => rfl) <| .cons (fun _ => rfl) <| .cons (fun _ => rfl) <| .nil

theorem opcodeRowB_bytes : List.Forall₂ Format.HasByte opcodeRowB
    [0xB0, 0xB1, 0xB2, 0xB3, 0xB4, 0xB5, 0xB6, 0xB7, 0xB8, 0xB9, 0xBA, 0xBB, 0xBC, 0xBD, 0xBE, 0xBF] :=
  .cons (fun _ => rfl) <| .cons (fun _ => rfl) <| .cons (fun _ => rfl) <| .cons (fun _ => rfl) <|
  .cons (fun _ => rfl) <| .cons (fun _ => rfl) <| .cons (fun _ => rfl) <| .cons (fun _ => rfl) <|
  .cons (fun _ => rfl) <| .cons (fun _ => rfl) <| .cons (fun _ => rfl) <| .cons (fun _ => rfl) <|
  .cons (fun _ => rfl) <| .cons (fun _ => rfl) <| .cons (fun _ => rfl) <| .cons (fun _ => rfl) <| .nil

theorem opcodeRowC_bytes : List.Forall₂ Format.HasByte opcodeRowC
    [0xC0, 0xC1, 0xC2, 0xC3, 0xC4, 0xC5, 0xC6, 0xC7, 0xC8, 0xC9, 0xCA, 0xCB, 0xCC, 0xCD, 0xCE, 0xCF] :=
  .cons (fun _ => rfl) <| .cons (fun _ => rfl) <| .cons (fun _ => rfl) <| .cons (fun _ => rfl) <|
  .cons (fun _ => rfl) <| .cons (fun _ => rfl) <| .cons (fun _ => rfl) <| .cons (fun _ => rfl) <|
  .cons (fun _ => rfl) <| .cons (fun _ => rfl) <| .cons (fun _ => rfl) <| .cons (fun _ => rfl) <|
  .cons (fun _ => rfl) <| .cons (fun _ => rfl) <| .cons (fun _ => rfl) <| .cons (fun _ => rfl) <| .nil

theorem opcodeRowD_bytes : List.Forall₂ Format.HasByte opcodeRowD
    [0xD0, 0xD1, 0xD2, 0xD3, 0xD4, 0xD5, 0xD6, 0xD7, 0xD8, 0xD9, 0xDA, 0xDB, 0xDC, 0xDD, 0xDE, 0xDF] :=
  .cons (fun _ => rfl) <| .cons (fun _ => rfl) <| .cons (fun _ => rfl) <| .cons (fun _ => rfl) <|
  .cons (fun _ => rfl) <| .cons (fun _ => rfl) <| .cons (fun _ => rfl) <| .cons (fun _ => rfl) <|
  .cons (fun _ => rfl) <| .cons (fun _ => rfl) <| .cons (fun _ => rfl) <| .cons (fun _ => rfl) <|
  .cons (fun _ => rfl) <| .cons (fun _ => rfl) <| .cons (fun _ => rfl) <| .cons (fun _ => rfl) <| .nil

theorem opcodeRowE_bytes : List.Forall₂ Format.HasByte opcodeRowE
    [0xE0, 0xE1, 0xE2, 0xE3, 0xE4, 0xE5, 0xE6, 0xE7, 0xE8, 0xE9, 0xEA, 0xEB, 0xEC, 0xED, 0xEE, 0xEF] :=
  .cons (fun _ => rfl) <| .cons (fun _ => rfl) <| .cons (fun _ => rfl) <| .cons (fun _ => rfl) <|
  .cons (fun _ => rfl) <| .cons (fun _ => rfl) <| .cons (fun _ => rfl) <| .cons (fun _ => rfl) <|
  .cons (fun _ => rfl) <| .cons (fun _ => rfl) <| .cons (fun _ => rfl) <| .cons (fun _ => rfl) <|
  .cons (fun _ => rfl) <| .cons (fun _ => rfl) <| .cons (fun _ => rfl) <| .cons (fun _ => rfl) <| .nil

theorem opcodeRowF_bytes : List.Forall₂ Format.HasByte opcodeRowF
    [0xF0, 0xF1, 0xF2, 0xF3, 0xF4, 0xF5, 0xF6, 0xF7, 0xF8, 0xF9, 0xFA, 0xFB, 0xFC, 0xFD, 0xFE, 0xFF] :=
  .cons (fun _ => rfl) <| .cons (fun _ => rfl) <| .cons (fun _ => rfl) <| .cons (fun _ => rfl) <|
  .cons (fun _ => rfl) <| .cons (fun _ => rfl) <| .cons (fun _ => rfl) <| .cons (fun _ => rfl) <|
  .cons (fun _ => rfl) <| .cons (fun _ => rfl) <| .cons (fun _ => rfl) <| .cons (fun _ => rfl) <|
  .cons (fun _ => rfl) <| .cons (fun _ => rfl) <| .cons (fun _ => rfl) <| .cons (fun _ => rfl) <| .nil

/-- The sixteen opcode bytes of row `k`. -/
def rowBytes (k : Nat) : List Byte := (List.range 16).map (fun j => BitVec.ofNat 8 (16 * k + j))

theorem opcodeRow_bytes (k : Nat) (h : k < 16) : List.Forall₂ Format.HasByte (opcodeRow k) (rowBytes k) := by
  match k, h with
  | 0, _ => exact opcodeRow0_bytes
  | 1, _ => exact opcodeRow1_bytes
  | 2, _ => exact opcodeRow2_bytes
  | 3, _ => exact opcodeRow3_bytes
  | 4, _ => exact opcodeRow4_bytes
  | 5, _ => exact opcodeRow5_bytes
  | 6, _ => exact opcodeRow6_bytes
  | 7, _ => exact opcodeRow7_bytes
  | 8, _ => exact opcodeRow8_bytes
  | 9, _ => exact opcodeRow9_bytes
  | 10, _ => exact opcodeRowA_bytes
  | 11, _ => exact opcodeRowB_bytes
  | 12, _ => exact opcodeRowC_bytes
  | 13, _ => exact opcodeRowD_bytes
  | 14, _ => exact opcodeRowE_bytes
  | 15, _ => exact opcodeRowF_bytes
  | n + 16, h => exact absurd h (by omega)

theorem HasByte.getD {fs : List Format} {bs : List Byte} (h : List.Forall₂ Format.HasByte fs bs) (n : Nat)
    (hn : n < fs.length) (f : Format) (b : Byte) : Format.HasByte (fs.getD n f) (bs.getD n b) := by
  induction h generalizing n with
  | nil => simp at hn
  | cons h _ ih =>
    cases n with
    | zero => exact h
    | succ n => exact ih n (by simpa using hn)

/-- The encoding of the instruction that an opcode byte's format makes. -/
theorem encode_make (op : Byte) (a : Addr) :
    encode (Format.make (formatOf op) a) = op :: encodedOperand (formatOf op) a := by
  have hop := op.isLt
  have h := HasByte.getD (opcodeRow_bytes (op.toNat / 16) (by omega)) (op.toNat % 16)
    (by rw [opcodeRow_length]; omega) (.f1 .nop) 0 a
  have e : ∀ b : Byte, (rowBytes (b.toNat / 16)).getD (b.toNat % 16) 0 = b := by decide
  rw [e op] at h
  exact h

theorem opcodeByte_make (op : Byte) (a : Addr) : opcodeByte (Format.make (formatOf op) a) = op := by
  rw [opcodeByte, encode_make]; rfl

end Sys2Proof.Machine
end

