-- ==== Sys2Proof/Laws/OamTransfer.lean ====
section
/-! SUPPORT. The OAM DMA in a machine with rendering off and no delta-modulation fetch: cycles, and what OAM holds after. -/

namespace Sys2Proof.Machine

/-! ## A pair of an OAM DMA in a still machine -/

/-- No delta-modulation fetch comes in between. -/
theorem collides_still {s} (h : Still s) : s.collides = false := by
  unfold State.collides; rw [h.pending]; rfl

@[inherit_doc collides_still]
theorem dmaCollision_still {s} (h : Still s) : dmaCollision s = s := by
  unfold dmaCollision State.defersPair; rw [collides_still h]; rfl

@[inherit_doc collides_still]
theorem oamMeet_still {s} (h : Still s) : oamMeet s = s := by
  unfold oamMeet; rw [collides_still h]; rfl

@[inherit_doc collides_still]
theorem oamLast_still {s} (h : Still s) : oamLast s = s := by
  unfold oamLast; rw [collides_still h, Bool.and_false]; rfl

/-- `t` is one pair after `s`: OAM has one byte more, the one memory holds at the index of the page. -/
structure OamPair (s t : State) : Prop where
  still : Still t
  cycle : t.cycle = s.cycle + 2
  index : t.dma = { s.dma with oamIndex := s.dma.oamIndex + 1, stall := s.dma.stall - 2, oamLatch := t.dma.oamLatch }
  addr  : t.ppu.oamAddr = s.ppu.oamAddr + 1
  oam   : ∃ b, (∀ x, s.memByte (word s.dma.oamPage (BitVec.ofNat 8 s.dma.oamIndex)) = some x → b = x)
      ∧ t.ppu.oam = s.ppu.oam.set s.ppu.oamAddr.toNat b
  kept  : Kept s t

/-- A stolen cycle without a transfer. -/
theorem idleStall_still {s} (h : Still s) : Still (idleStall s) ∧ (idleStall s).ppu.oam = s.ppu.oam ∧
    (idleStall s).ppu.oamAddr = s.ppu.oamAddr
   ∧ (idleStall s).dma = { s.dma with stall := s.dma.stall - 1 } ∧ (idleStall s).cycle = s.cycle + 1 := by
  have h0 : Still { s with dma := { s.dma with stall := s.dma.stall - 1 } } := h.congr rfl rfl rfl
  obtain ⟨h1, h2, h3⟩ := endCycle_still false h0
  exact ⟨h1, h2, h3, endCycle_dma false h0, endCycle_cycle _ _⟩

theorem oamGetPut_still {s} (h : Still s) : OamPair s (oamPut (oamGet s)) := by
  have k := (oamGet_kept s).trans (oamPut_kept _)
  generalize ha : word s.dma.oamPage (BitVec.ofNat 8 s.dma.oamIndex) = a
  obtain ⟨b1, b2, b3⟩ := busAfterRead_still a h
  have bd := (busAfterRead_fields a s).1
  have bc := (busAfterRead_fields a s).2.2
  have hg : Still
      { busAfterRead a s with dma := { (busAfterRead a s).dma with oamLatch := busValue a s, stall := (busAfterRead a s).dma.stall - 1 } } := b1.congr rfl rfl rfl
  have eg : oamGet s = endCycle false
      { busAfterRead a s with dma := { (busAfterRead a s).dma with oamLatch := busValue a s, stall := (busAfterRead a s).dma.stall - 1 } } := by
    rw [oamGet, ha]
  obtain ⟨g1, g2, g3⟩ := endCycle_still false hg
  have gd := endCycle_dma false hg
  have gc := endCycle_cycle false
      { busAfterRead a s with dma := { (busAfterRead a s).dma with oamLatch := busValue a s, stall := (busAfterRead a s).dma.stall - 1 } }
  rw [← eg] at g1 g2 g3 gd gc
  have g2' : (oamGet s).ppu.oam = s.ppu.oam := g2.trans b2
  have g3' : (oamGet s).ppu.oamAddr = s.ppu.oamAddr := g3.trans b3
  have gd' : (oamGet s).dma = { s.dma with oamLatch := busValue a s, stall := s.dma.stall - 1 } := gd.trans
      (by dsimp only; rw [bd])
  have gc' : (oamGet s).cycle = s.cycle + 1 := gc.trans (by dsimp only; rw [bc])
  generalize oamGet s = u at *
  have hact (q : Ppu) (r) (hq : q.rendering = false) : q.active r = false := by unfold Ppu.active; rw [hq]; rfl
  have hw : busWrite 0x2004 u.dma.oamLatch u =
      { u.drive u.dma.oamLatch with ppu := { u.ppu with ioLatch := u.dma.oamLatch, oam := u.ppu.oam.set u.ppu.oamAddr.toNat u.dma.oamLatch, oamAddr := u.ppu.oamAddr + 1 }, draw := (busWrite 0x2004 u.dma.oamLatch u).draw } := by
    have e : (busWrite 0x2004 u.dma.oamLatch u).ppu = ({ u.ppu with ioLatch := u.dma.oamLatch }
        : Ppu).writeOamData u.params.region u.draw u.dma.oamLatch := rfl
    have e2 : ({ u.ppu with ioLatch := u.dma.oamLatch } : Ppu).writeOamData u.params.region u.draw u.dma.oamLatch =
        { u.ppu with ioLatch := u.dma.oamLatch, oam := u.ppu.oam.set u.ppu.oamAddr.toNat u.dma.oamLatch, oamAddr := u.ppu.oamAddr + 1 } := by
      unfold Ppu.writeOamData
      rw [hact _ _ (by exact g1.rendering)]
      rfl
    rw [← e2, ← e]
    rfl
  have ep : oamPut u = endCycle true
      { busWrite 0x2004 u.dma.oamLatch u with dma := { u.dma with oamIndex := u.dma.oamIndex + 1, stall := u.dma.stall - 1 } } := rfl
  have hp : Still
      { busWrite 0x2004 u.dma.oamLatch u with dma := { u.dma with oamIndex := u.dma.oamIndex + 1, stall := u.dma.stall - 1 } } := by
    rw [hw]
    exact ⟨(rendering_congr rfl).trans g1.rendering, g1.remaining, g1.pending⟩
  obtain ⟨p1, p2, p3⟩ := endCycle_still true hp
  have pd := endCycle_dma true hp
  have pc := endCycle_cycle true
      { busWrite 0x2004 u.dma.oamLatch u with dma := { u.dma with oamIndex := u.dma.oamIndex + 1, stall := u.dma.stall - 1 } }
  rw [← ep] at p1 p2 p3 pd pc
  refine ⟨p1, ?_, ?_, ?_, ⟨busValue a s, fun x hx => busValue_of_memByte (by rw [← ha]; exact hx), ?_⟩, k⟩
  · rw [pc, hw]; show u.cycle + 1 = _; omega
  · rw [pd, gd']; simp only [Nat.sub_sub]
  · rw [p3, hw]; show u.ppu.oamAddr + 1 = _; rw [g3']
  · rw [p2, hw]; show u.ppu.oam.set _ _ = _; rw [g2', g3', gd']

theorem oamPair_still {s} (h : Still s) : OamPair s (oamLast (oamPut (oamGet (oamMeet (dmaCollision (dmaCollision s)))))) := by
  have p := oamGetPut_still h
  rw [dmaCollision_still h, dmaCollision_still h, oamMeet_still h, oamLast_still p.still]
  exact p

/-- `n` such cycles. -/
theorem idleStalls_still (n) {s} (h : Still s) : Still (idleStalls n s) ∧ (idleStalls n s).ppu.oam = s.ppu.oam ∧
    (idleStalls n s).ppu.oamAddr = s.ppu.oamAddr
   ∧ (idleStalls n s).dma = { s.dma with stall := s.dma.stall - n } ∧ (idleStalls n s).cycle = s.cycle + n := by
  induction n generalizing s with
  | zero => exact ⟨h, rfl, rfl, rfl, rfl⟩
  | succ n ih =>
    obtain ⟨h1, h2, h3, h4, h5⟩ := idleStall_still h
    obtain ⟨k1, k2, k3, k4, k5⟩ := ih h1
    refine ⟨k1, k2.trans h2, k3.trans h3, k4.trans ?_, k5.trans ?_⟩
    · rw [h4]; simp only [Nat.sub_sub, Nat.add_comm 1]
    · rw [h5]; omega

/-- An OAM DMA of which no cycle was made yet: its halt and alignment cycles, then 256 pairs. -/
theorem oamDma_fresh {s : State} (h : Still s) (hp : s.dma.oamPending = true) (h0 : s.dma.stall = 0) :
    oamDma s = oamRest (oamPairs 256 (idleStalls (1 + (s.cycle + 1) % 2)
      { s with dma := { s.dma with oamIndex := 0, stall := 513 + (s.cycle + 1) % 2, owed := 0, late := false } })) := by
  have hb : Still
      { s with dma := { s.dma with oamIndex := 0, stall := 513 + (s.cycle + 1) % 2, owed := 0, late := false } } := h.congr rfl rfl rfl
  obtain ⟨-, -, -, k4, -⟩ := idleStalls_still (1 + (s.cycle + 1) % 2) hb
  have e : oamBegun s = idleStalls (1 + (s.cycle + 1) % 2)
      { s with dma := { s.dma with oamIndex := 0, stall := 513 + (s.cycle + 1) % 2, owed := 0, late := false } } := by
    unfold oamBegun
    exact if_pos h0
  have ei : (oamBegun s).dma.oamIndex = 0 := by rw [e, k4]
  unfold oamDma
  rw [if_pos hp]
  dsimp only
  rw [ei, e]

/-- `n` pairs, at most 256: the `n` bytes of OAM from `oam_addr` on are those of the page from the index on, the others are as
before. -/
theorem oamPairs_still (n) {s} (h : Still s) (hn : n ≤ 256) :
    let t := oamPairs n s
    Still t ∧ t.cycle = s.cycle + 2 * n ∧ t.dma.stall = s.dma.stall - 2 * n
      ∧ t.ppu.oamAddr = s.ppu.oamAddr + BitVec.ofNat 8 n
      ∧ (∀ j, j < n → ∀ b, s.memByte (word s.dma.oamPage (BitVec.ofNat 8 (s.dma.oamIndex + j))) = some b →
           t.ppu.oamByte t.epoch (s.ppu.oamAddr + BitVec.ofNat 8 j).toNat = b)
      ∧ (∀ j, n ≤ j → j < 256 → t.ppu.oamByte t.epoch (s.ppu.oamAddr + BitVec.ofNat 8 j).toNat = s.ppu.oamByte s.epoch
          (s.ppu.oamAddr + BitVec.ofNat 8 j).toNat) := by
  induction n generalizing s with
  | zero => exact ⟨h, rfl, rfl, by simp [oamPairs], fun j hj => absurd hj (by omega), fun _ _ _ => rfl⟩
  | succ n ih =>
    have p := oamPair_still h
    generalize hu : oamLast (oamPut (oamGet (oamMeet (dmaCollision (dmaCollision s))))) = u at p
    have et : oamPairs (n + 1) s = oamPairs n u := by rw [← hu]; rfl
    dsimp only
    rw [et]
    obtain ⟨i1, i2, i4, i5, i6, i7⟩ := ih p.still (by omega)
    obtain ⟨b, hb, ho⟩ := p.oam
    have hd := p.index
    have hpage : u.dma.oamPage = s.dma.oamPage := by rw [hd]
    have hidx : u.dma.oamIndex = s.dma.oamIndex + 1 := by rw [hd]
    have hst : u.dma.stall = s.dma.stall - 2 := by rw [hd]
    have one : ∀ m : Nat, s.ppu.oamAddr + 1 + BitVec.ofNat 8 m = s.ppu.oamAddr + BitVec.ofNat 8 (m + 1) := by
      intro m; apply BitVec.eq_of_toNat_eq; simp; omega
    have ob : ∀ k, u.ppu.oamByte u.epoch k = if k = s.ppu.oamAddr.toNat then b else s.ppu.oamByte s.epoch k := by
      intro k; unfold Ppu.oamByte; rw [ho, p.kept.epoch, Memory.read_set]
    have wrap : s.ppu.oamAddr + 1 + BitVec.ofNat 8 255 = s.ppu.oamAddr := by
      apply BitVec.eq_of_toNat_eq; simp; omega
    refine ⟨i1, by rw [i2, p.cycle]; omega, by rw [i4, hst]; omega, by rw [i5, p.addr, one], ?_, ?_⟩
    · intro j hj x hx
      by_cases h0 : j = 0
      · subst h0
        have := i7 255 (by omega) (by omega)
        rw [p.addr, wrap, ob, if_pos rfl] at this
        simp only [BitVec.add_zero]
        exact this.trans (hb x (by simpa using hx))
      · have := i6 (j - 1) (by omega) x
          (by rw [p.kept.memByte, hpage, hidx]; rw [show s.dma.oamIndex + 1 + (j - 1) = s.dma.oamIndex + j by omega]; exact hx)
        rw [p.addr, one, show j - 1 + 1 = j by omega] at this
        exact this
    · intro j hj hj2
      have := i7 (j - 1) (by omega) (by omega)
      rw [p.addr, one, show j - 1 + 1 = j by omega, ob, if_neg] at this
      · exact this
      · intro e
        have e2 : s.ppu.oamAddr + BitVec.ofNat 8 j = s.ppu.oamAddr := BitVec.eq_of_toNat_eq e
        have := congrArg BitVec.toNat e2
        simp at this; omega

end Sys2Proof.Machine
end

