-- ==== Sys2Proof/Laws/ResetSequence.lean ====
section
/-! SUPPORT. The reset sequence: seven read cycles in a machine with rendering off and no DMA unit with work. -/

namespace Sys2Proof.Machine

/-- `t` is `k` cycles after `s` inside a reset sequence. -/
structure Resetting (s t : State) (k : Nat) : Prop where
  still : Still t
  dma   : t.dma = s.dma
  ctrl  : t.ppu.ctrl = 0
  mask  : t.ppu.mask = 0
  en    : t.apu.enables = 0
  nmi   : t.cpu.nmiPending = false
  int   : t.cpu.intDetected = false
  cycle : t.cycle = s.cycle + k
  place : s.params.region = .ntsc → t.ppu.scanline = 0 ∧ t.ppu.dot = 3 * k ∧ t.ppu.oddFrame = false
  same  : Same s t

/-- Dots of one line with rendering off. -/
theorem dots_line (n : Nat) (s : State) (hr : s.ppu.rendering = false) (hs : s.ppu.scanline = 0) (hd
    : s.ppu.dot + n ≤ 340) (ho : s.ppu.oddFrame = false) :
   (dots n s).ppu.scanline = 0 ∧ (dots n s).ppu.dot = s.ppu.dot + n ∧ (dots n s).ppu.oddFrame = false := by
  induction n generalizing s with
  | zero => exact ⟨hs, rfl, ho⟩
  | succ n ih =>
    have hl := dotPpu_latches s.env s.ppu s.mapper
    have h := dotPpu_place s.env s.ppu s.mapper
    have ha : s.ppu.advance s.params.region = { s.ppu with dot := s.ppu.dot + 1 } := by
      unfold Ppu.advance
      rw [if_neg (fun x => by rw [hr] at x; exact absurd x.2.2.1 (by simp)), if_pos (by omega)]
    have e1 : (dot s).ppu.scanline = 0 := (h.scanline).trans
        (by show (s.ppu.advance s.params.region).scanline = 0; rw [ha]; exact hs)
    have e2 : (dot s).ppu.dot = s.ppu.dot + 1 := (h.dot).trans (by show (s.ppu.advance s.params.region).dot = _; rw [ha])
    have e3 : (dot s).ppu.oddFrame = false := (h.oddFrame).trans
        (by show (s.ppu.advance s.params.region).oddFrame = _; rw [ha]; exact ho)
    obtain ⟨i1, i2, i3⟩ := ih (dot s) ((rendering_congr hl.mask).trans hr) e1 (by rw [e2]; omega) e3
    exact ⟨i1, by rw [show dots (n+1) s = dots n (dot s) from rfl, i2, e2]; omega, i3⟩

/-- A read cycle of the sequence, whatever is at its address. -/
theorem Resetting.read {s t k} (a : Addr) (hq : s.dma.oamPending = false ∧ s.dma.stall = 0) (h : Resetting s t k) (hk
    : 3 * k + 3 ≤ 340) : Resetting s (readCycle false a t) (k + 1) := by
  have q : t.dmaQuiet = true := by
    rw [dmaQuiet_iff]; exact ⟨by rw [h.dma]; exact hq.1, h.still.pending, by rw [h.dma]; exact hq.2, h.still.remaining⟩
  have kept := readCycle_kept false a t
  have eb : beginRead false t = t.mapProg (fun g => { g with tcycle := g.tcycle + 1 }) := by
    unfold beginRead; rw [stalls_quiet t q]; rfl
  have e : readCycle false a t = endCycle false (busAfterRead a (t.mapProg
      (fun g => { g with tcycle := g.tcycle + 1 }))) := by
    rw [readCycle, eb]
  generalize hu : t.mapProg (fun g => { g with tcycle := g.tcycle + 1 }) = u at e
  have su : Still u := by rw [← hu]; exact h.still.congr rfl rfl rfl
  have hb := busAfterRead_still a su
  have hf := busAfterRead_fields a u
  have hp : (busAfterRead a u).ppu.mask = u.ppu.mask ∧ (busAfterRead a u).ppu.ctrl = u.ppu.ctrl ∧
      (busAfterRead a u).apu.enables = u.apu.enables
      ∧ (busAfterRead a u).ppu.scanline = u.ppu.scanline ∧ (busAfterRead a u).ppu.dot = u.ppu.dot ∧
          (busAfterRead a u).ppu.oddFrame = u.ppu.oddFrame
      ∧ (busAfterRead a u).params = u.params ∧ (busAfterRead a u).cycle = u.cycle := by
    unfold busAfterRead
    dsimp only
    split
    · exact ⟨rfl, rfl, rfl, rfl, rfl, rfl, rfl, rfl⟩
    split
    · unfold Ppu.afterRead
      split <;> exact ⟨rfl, rfl, rfl, rfl, rfl, rfl, rfl, rfl⟩
    repeat' split
    all_goals exact ⟨rfl, rfl, rfl, rfl, rfl, rfl, rfl, rfl⟩
  obtain ⟨p1, p2, p3, p4, p5, p6, p7, p8⟩ := hp
  generalize hw : busAfterRead a u = w at *
  have uc : w.cpu = u.cpu := by rw [← hw]; simp
  have hd := endCycle_devices false w
  have hs := endCycle_still false hb.1
  have hdet := endCycle_detect false w
  have up : u.ppu = t.ppu := by rw [← hu]; rfl
  have ua : u.apu = t.apu := by rw [← hu]; rfl
  have c0 : (endCycle false w).ppu.ctrl = 0 := by rw [hd.ppu.ctrl, p2, up, h.ctrl]
  have nl : (endCycle false w).nmiLine = false := by unfold State.nmiLine; rw [c0]; rfl
  rw [← e] at hd hs hdet c0 nl
  refine ⟨hs.1, ?_, c0, by rw [hd.ppu.mask, p1, up, h.mask], by rw [hd.apu.enables, p3, ua, h.en], ?_, ?_, ?_, ?_,
      h.same.trans kept.same⟩
  · rw [e, endCycle_dma _ hb.1, hf.1, ← hu]; exact h.dma
  · rw [hdet.2.2, hdet.1, State.nmiSeen, nl, uc, ← hu]; simp [h.nmi]
  · rw [readCycle_noPoll]; exact h.int
  · rw [e, endCycle_cycle, p8, ← hu]; show t.cycle + 1 = _; rw [h.cycle]; omega
  · intro hr
    obtain ⟨a1, a2, a3⟩ := h.place hr
    have hw3 : w.dotsThisCycle = 3 := by
      unfold State.dotsThisCycle; rw [p7, ← hu]
      show (match t.params.region with | .ntsc => 3 | .pal => _) = 3
      rw [h.same.params, hr]
    have := dots_line 3 w hb.1.rendering (by rw [p4, up, a1]) (by rw [p5, up, a2]; omega) (by rw [p6, up, a3])
    rw [e]
    show (dots w.dotsThisCycle w).ppu.scanline = 0 ∧ _ ∧ _
    rw [hw3]
    refine ⟨this.1, ?_, ?_⟩
    · show (dots w.dotsThisCycle w).ppu.dot = _; rw [hw3, this.2.1, p5, up, a2]; omega
    · show (dots w.dotsThisCycle w).ppu.oddFrame = _; rw [hw3]; exact this.2.2

theorem Resetting.regs {s t k} (f : Regs → Regs) (h : Resetting s t k) : Resetting s (t.mapRegs f) k :=
  ⟨h.still.congr rfl rfl rfl, h.dma, h.ctrl, h.mask, h.en, h.nmi, h.int, h.cycle, h.place, h.same.trans
      (mapRegs_same _ _)⟩

theorem Resetting.prog {s t k} (f : Progress → Progress) (h : Resetting s t k) : Resetting s (t.mapProg f) k :=
  ⟨h.still.congr rfl rfl rfl, h.dma, h.ctrl, h.mask, h.en, h.nmi, h.int, h.cycle, h.place, h.same.trans
      (mapProg_kept _ _).same⟩

/-- The whole sequence, from a still machine whose registers a reset has cleared. -/
theorem resetSequence_resetting {s} (h : Resetting s s 0) (hq : s.dma.oamPending = false ∧ s.dma.stall = 0) : Resetting s
    (resetSequence s) 7 := by
  unfold resetSequence loadVector dummyFetch
  dsimp only
  refine Resetting.prog _ (Resetting.regs _ ?_)
  refine Resetting.read _ hq ?_ (by omega)
  refine Resetting.regs _ ?_
  iterate 6 (refine Resetting.read _ hq ?_ (by omega); try refine Resetting.regs _ ?_)
  exact Resetting.prog _ h

/-- What the sequence does to the registers. -/
theorem resetSequence_regs (s : State) : (resetSequence s).cpu.regs =
    { s.cpu.regs with s := s.cpu.regs.s - 3, pc := s.vectorWord 0xFFFC, p := { s.cpu.regs.p with i := true } } := by
  unfold resetSequence
  dsimp only
  have e : ∀ t : State, (finish t).cpu.regs = t.cpu.regs := fun _ => rfl
  rw [e]
  generalize hu : (readCycle false _ _).mapRegs Regs.decS = u
  have hs : Same s u := by
    rw [← hu]
    refine Same.trans ?_ (mapRegs_same _ _)
    refine Same.trans ?_ (readCycle_kept _ _ _).same
    refine Same.trans ?_ (mapRegs_same _ _)
    refine Same.trans ?_ (readCycle_kept _ _ _).same
    refine Same.trans ?_ (mapRegs_same _ _)
    refine Same.trans ?_ (readCycle_kept _ _ _).same
    refine Same.trans ?_ (dummyFetch_same _ _)
    refine Same.trans ?_ (dummyFetch_same _ _)
    exact (mapProg_kept _ _).same
  have hr : u.cpu.regs = { s.cpu.regs with s := s.cpu.regs.s - 3 } := by
    rw [← hu]
    simp only [mapRegs_regs, readCycle_regs, dummyFetch_regs, Regs.decS, (mapProg_kept _ _).regs]
    have : s.cpu.regs.s - 1 - 1 - 1 = s.cpu.regs.s - 3 := by bv_omega
    rw [this]
  rw [(loadVector_spec Config.resetVector u (by decide) (by decide)).1, hr]
  have v := State.vectorWord_congr (t := u) (s := s) (fun a _ => hs.memByte a) Config.resetVector (by decide) (by decide)
  rw [v]
  rfl

end Sys2Proof.Machine
end

