-- ==== Sys2Proof/Laws/Snapshots.lean ====
section
/-! SUPPORT. Snapshots (spec/70_reset_and_hazards.md R438): a cartridge's identity tells it from every other one, a snapshot of
another cartridge or variant is rejected, and loading what was just saved changes nothing. -/

namespace Sys2Proof

theorem MapperKind.code_injective {a b : MapperKind} (h : a.code = b.code) : a = b := by
  revert h; cases a <;> cases b <;> decide

theorem Mirroring.code_injective {a b : Mirroring} (h : a.code = b.code) : a = b := by
  revert h; cases a <;> cases b <;> decide

/-- Of two lists of one length, the codes tell where the rest begins. -/
theorem cellsCode_append_injective {l m : List Host.Cell} {t u : List Nat} (n : l.length = m.length)
    (h : cellsCode l ++ t = cellsCode m ++ u) : l = m ∧ t = u := by
  induction l generalizing m with
  | nil =>
    obtain rfl := List.length_eq_zero_iff.1 n.symm
    exact ⟨rfl, h⟩
  | cons x l ih =>
    obtain ⟨y, m, rfl⟩ := List.exists_cons_of_length_eq_add_one n.symm
    simp only [cellsCode, List.cons_append, List.cons.injEq] at h
    obtain ⟨h1, h2, h3⟩ := h
    obtain ⟨rfl, rfl⟩ := ih (by simpa using n) h3
    exact ⟨by rw [show x = y from Prod.ext h1 (BitVec.eq_of_toNat_eq h2)], rfl⟩

theorem cellsCode_length (l : List Host.Cell) : (cellsCode l).length = 2 * l.length := by
  induction l with
  | nil => rfl
  | cons x l ih => simp only [cellsCode, List.length_cons, ih]; omega

theorem cellsCode_injective {l m : List Host.Cell} (h : cellsCode l = cellsCode m) : l = m := by
  have n := congrArg List.length h
  rw [cellsCode_length, cellsCode_length] at n
  exact (cellsCode_append_injective (t := []) (u := []) (by omega) (by rw [h])).1

theorem Cartridge.code_injective {a b : Cartridge} (h : a.code = b.code) : a = b := by
  simp only [Cartridge.code, List.cons_append, List.nil_append, List.cons.injEq] at h
  obtain ⟨h1, h2, h3, h4, h5, h6, h7⟩ := h
  obtain ⟨h8, h9⟩ := cellsCode_append_injective h6 h7
  have h5' : a.battery = b.battery := by revert h5; cases a.battery <;> cases b.battery <;> decide
  cases a
  cases b
  cases MapperKind.code_injective h1
  cases Mirroring.code_injective h4
  cases cellsCode_injective h9
  cases h2
  cases h3
  cases h5'
  cases h8
  rfl

/-- Two cartridges never have the same identity. -/
theorem Cartridge.identity_injective {a b : Cartridge} (h : a.identity = b.identity) : a = b :=
  Cartridge.code_injective (Config.identityCode.injective h)

namespace Machine

/-- A snapshot of another cartridge is rejected, whatever state it holds. -/
theorem loadState_of_other {saved running : State} {snap : Snapshot} (h : saveState saved = some snap)
    (hc : saved.cart ≠ running.cart) : loadState snap running = .error .mismatched := by
  unfold saveState at h
  split at h
  · cases h
    exact if_pos (.inl fun e => hc (Cartridge.identity_injective e))
  · exact absurd h (by simp)

/-- `save_state()` followed by `load_state()` gives the machine back. -/
theorem loadState_saveState {s : State} {snap : Snapshot} (hi : s.inv = true) (h : saveState s = some snap) :
    loadState snap s = .ok s := by
  unfold saveState at h
  split at h
  · cases h
    refine (if_neg (fun e => e.elim (· rfl) (· rfl))).trans (if_pos ?_)
    rw [Snapshot.wellFormed, Bool.and_eq_true]
    exact ⟨beq_self_eq_true _, hi⟩
  · exact absurd h (by simp)

end Machine
end Sys2Proof
end

