-- ==== Sys2Proof/Safety.lean ====
section
/-! DEFINITION. What counts as a safe run and as the end of one, in the terms claims use. -/

namespace Sys2Proof

open Machine

/-- A run of `k` steps answers a next state (no step can stop: R14, R355, R443). -/
def Runs (k : Nat) (s t : State) : Prop := core.run k s = .next t

/-- An instruction boundary at which a run of a program ends (R445): PC is the address the claim names, or the Cpu is halted. -/
def Machine.State.endsAt (endPc : Addr) (s : State) : Bool := s.atBoundary && (s.cpu.regs.pc == endPc || s.cpu.halted)

/-- THE END OF A RUN (R445): `t` is "the first instruction boundary at which one of these holds", `k` steps after `s`. -/
def EndsAfter (k : Nat) (endPc : Addr) (s t : State) : Prop :=
  Runs k s t ∧ t.endsAt endPc = true ∧ ∀ j, j < k → ∀ u, Runs j s u → u.endsAt endPc = false

/-- The run of a program with at most `fuel` steps: the state it ends in; `none` for "a run that reaches neither within the fuel",
which "is not ended" (R445). -/
def runToEnd : Nat → Addr → State → Option State
  | 0, endPc, s => if s.endsAt endPc then some s else none
  | fuel + 1, endPc, s =>
    if s.endsAt endPc then some s
    else
      match step s with
      | .next t => runToEnd fuel endPc t
      | .fault _ => none
      | .refused _ => none

/-- A safe step: it answers a next state that keeps the invariant. -/
def SafeStep (s : State) : Prop := ∃ t, step s = .next t ∧ t.inv = true

end Sys2Proof
end

