-- ==== Sys2Proof/Tests/Slice0.lean ====
section
/-! SUPPORT. The model's own tests: the words of spec/30_encoding.md and of the instruction rules decode to their instructions,
the refusals of `wellFormed`, the reset state, one-step vectors of spec/95_test_vectors.md, and for every obligation with
hypotheses a witness that they can be met. Expected values are the spec's. -/

namespace Sys2Proof.Tests

open Sys2Proof.Machine

set_option Elab.async false

/-! ## Decoding: one word per constructor, written out from the encodings of the instruction rules -/

/-- R151 to R162. -/
theorem test_decode_loads_stores_transfers :
    decodeTableWord 16 0xA7A9 = some (.ldaImm 0xA7) ∧ decodeTableWord 16 0xA7A5 = some (.ldaZp 0xA7)
    ∧ decodeTableWord 16 0xA7B5 = some (.ldaZpx 0xA7) ∧ decodeTableWord 24 0xC35AAD = some (.ldaAbs 0xC35A)
    ∧ decodeTableWord 24 0xC35ABD = some (.ldaAbx 0xC35A) ∧ decodeTableWord 24 0xC35AB9 = some (.ldaAby 0xC35A)
    ∧ decodeTableWord 16 0xA7A1 = some (.ldaIzx 0xA7) ∧ decodeTableWord 16 0xA7B1 = some (.ldaIzy 0xA7)
    ∧ decodeTableWord 16 0xA7A2 = some (.ldxImm 0xA7) ∧ decodeTableWord 16 0xA7A6 = some (.ldxZp 0xA7)
    ∧ decodeTableWord 16 0xA7B6 = some (.ldxZpy 0xA7) ∧ decodeTableWord 24 0xC35AAE = some (.ldxAbs 0xC35A)
    ∧ decodeTableWord 24 0xC35ABE = some (.ldxAby 0xC35A) ∧ decodeTableWord 16 0xA7A0 = some (.ldyImm 0xA7)
    ∧ decodeTableWord 16 0xA7A4 = some (.ldyZp 0xA7) ∧ decodeTableWord 16 0xA7B4 = some (.ldyZpx 0xA7)
    ∧ decodeTableWord 24 0xC35AAC = some (.ldyAbs 0xC35A) ∧ decodeTableWord 24 0xC35ABC = some (.ldyAbx 0xC35A)
    ∧ decodeTableWord 16 0xA785 = some (.staZp 0xA7) ∧ decodeTableWord 16 0xA795 = some (.staZpx 0xA7)
    ∧ decodeTableWord 24 0xC35A8D = some (.staAbs 0xC35A) ∧ decodeTableWord 24 0xC35A9D = some (.staAbx 0xC35A)
    ∧ decodeTableWord 24 0xC35A99 = some (.staAby 0xC35A) ∧ decodeTableWord 16 0xA781 = some (.staIzx 0xA7)
    ∧ decodeTableWord 16 0xA791 = some (.staIzy 0xA7) ∧ decodeTableWord 16 0xA786 = some (.stxZp 0xA7)
    ∧ decodeTableWord 16 0xA796 = some (.stxZpy 0xA7) ∧ decodeTableWord 24 0xC35A8E = some (.stxAbs 0xC35A)
    ∧ decodeTableWord 16 0xA784 = some (.styZp 0xA7) ∧ decodeTableWord 16 0xA794 = some (.styZpx 0xA7)
    ∧ decodeTableWord 24 0xC35A8C = some (.styAbs 0xC35A) ∧ decodeTableWord 8 0xAA = some .tax
    ∧ decodeTableWord 8 0xA8 = some .tay ∧ decodeTableWord 8 0x8A = some .txa ∧ decodeTableWord 8 0x98 = some .tya
    ∧ decodeTableWord 8 0xBA = some .tsx ∧ decodeTableWord 8 0x9A = some .txs := by
  refine ⟨?_, ?_, ?_, ?_, ?_, ?_, ?_, ?_, ?_, ?_, ?_, ?_, ?_, ?_, ?_, ?_, ?_, ?_, ?_, ?_, ?_, ?_, ?_, ?_, ?_, ?_, ?_, ?_, ?_, ?_, ?_, ?_, ?_, ?_, ?_, ?_, ?_⟩
  all_goals rfl

/-- R170 to R173. -/
theorem test_decode_stack :
    decodeTableWord 8 0x48 = some .pha ∧ decodeTableWord 8 0x08 = some .php ∧ decodeTableWord 8 0x68 = some .pla
    ∧ decodeTableWord 8 0x28 = some .plp := by
  refine ⟨?_, ?_, ?_, ?_⟩
  all_goals rfl

/-- R180 to R183. -/
theorem test_decode_logic :
    decodeTableWord 16 0xA729 = some (.andImm 0xA7) ∧ decodeTableWord 16 0xA725 = some (.andZp 0xA7)
    ∧ decodeTableWord 16 0xA735 = some (.andZpx 0xA7) ∧ decodeTableWord 24 0xC35A2D = some (.andAbs 0xC35A)
    ∧ decodeTableWord 24 0xC35A3D = some (.andAbx 0xC35A) ∧ decodeTableWord 24 0xC35A39 = some (.andAby 0xC35A)
    ∧ decodeTableWord 16 0xA721 = some (.andIzx 0xA7) ∧ decodeTableWord 16 0xA731 = some (.andIzy 0xA7)
    ∧ decodeTableWord 16 0xA709 = some (.oraImm 0xA7) ∧ decodeTableWord 16 0xA705 = some (.oraZp 0xA7)
    ∧ decodeTableWord 16 0xA715 = some (.oraZpx 0xA7) ∧ decodeTableWord 24 0xC35A0D = some (.oraAbs 0xC35A)
    ∧ decodeTableWord 24 0xC35A1D = some (.oraAbx 0xC35A) ∧ decodeTableWord 24 0xC35A19 = some (.oraAby 0xC35A)
    ∧ decodeTableWord 16 0xA701 = some (.oraIzx 0xA7) ∧ decodeTableWord 16 0xA711 = some (.oraIzy 0xA7)
    ∧ decodeTableWord 16 0xA749 = some (.eorImm 0xA7) ∧ decodeTableWord 16 0xA745 = some (.eorZp 0xA7)
    ∧ decodeTableWord 16 0xA755 = some (.eorZpx 0xA7) ∧ decodeTableWord 24 0xC35A4D = some (.eorAbs 0xC35A)
    ∧ decodeTableWord 24 0xC35A5D = some (.eorAbx 0xC35A) ∧ decodeTableWord 24 0xC35A59 = some (.eorAby 0xC35A)
    ∧ decodeTableWord 16 0xA741 = some (.eorIzx 0xA7) ∧ decodeTableWord 16 0xA751 = some (.eorIzy 0xA7)
    ∧ decodeTableWord 16 0xA724 = some (.bitZp 0xA7) ∧ decodeTableWord 24 0xC35A2C = some (.bitAbs 0xC35A) := by
  refine ⟨?_, ?_, ?_, ?_, ?_, ?_, ?_, ?_, ?_, ?_, ?_, ?_, ?_, ?_, ?_, ?_, ?_, ?_, ?_, ?_, ?_, ?_, ?_, ?_, ?_, ?_⟩
  all_goals rfl

/-- R186 to R190. -/
theorem test_decode_arithmetic_compares :
    decodeTableWord 16 0xA769 = some (.adcImm 0xA7) ∧ decodeTableWord 16 0xA765 = some (.adcZp 0xA7)
    ∧ decodeTableWord 16 0xA775 = some (.adcZpx 0xA7) ∧ decodeTableWord 24 0xC35A6D = some (.adcAbs 0xC35A)
    ∧ decodeTableWord 24 0xC35A7D = some (.adcAbx 0xC35A) ∧ decodeTableWord 24 0xC35A79 = some (.adcAby 0xC35A)
    ∧ decodeTableWord 16 0xA761 = some (.adcIzx 0xA7) ∧ decodeTableWord 16 0xA771 = some (.adcIzy 0xA7)
    ∧ decodeTableWord 16 0xA7E9 = some (.sbcImm 0xA7) ∧ decodeTableWord 16 0xA7E5 = some (.sbcZp 0xA7)
    ∧ decodeTableWord 16 0xA7F5 = some (.sbcZpx 0xA7) ∧ decodeTableWord 24 0xC35AED = some (.sbcAbs 0xC35A)
    ∧ decodeTableWord 24 0xC35AFD = some (.sbcAbx 0xC35A) ∧ decodeTableWord 24 0xC35AF9 = some (.sbcAby 0xC35A)
    ∧ decodeTableWord 16 0xA7E1 = some (.sbcIzx 0xA7) ∧ decodeTableWord 16 0xA7F1 = some (.sbcIzy 0xA7)
    ∧ decodeTableWord 16 0xA7C9 = some (.cmpImm 0xA7) ∧ decodeTableWord 16 0xA7C5 = some (.cmpZp 0xA7)
    ∧ decodeTableWord 16 0xA7D5 = some (.cmpZpx 0xA7) ∧ decodeTableWord 24 0xC35ACD = some (.cmpAbs 0xC35A)
    ∧ decodeTableWord 24 0xC35ADD = some (.cmpAbx 0xC35A) ∧ decodeTableWord 24 0xC35AD9 = some (.cmpAby 0xC35A)
    ∧ decodeTableWord 16 0xA7C1 = some (.cmpIzx 0xA7) ∧ decodeTableWord 16 0xA7D1 = some (.cmpIzy 0xA7)
    ∧ decodeTableWord 16 0xA7E0 = some (.cpxImm 0xA7) ∧ decodeTableWord 16 0xA7E4 = some (.cpxZp 0xA7)
    ∧ decodeTableWord 24 0xC35AEC = some (.cpxAbs 0xC35A) ∧ decodeTableWord 16 0xA7C0 = some (.cpyImm 0xA7)
    ∧ decodeTableWord 16 0xA7C4 = some (.cpyZp 0xA7) ∧ decodeTableWord 24 0xC35ACC = some (.cpyAbs 0xC35A) := by
  refine ⟨?_, ?_, ?_, ?_, ?_, ?_, ?_, ?_, ?_, ?_, ?_, ?_, ?_, ?_, ?_, ?_, ?_, ?_, ?_, ?_, ?_, ?_, ?_, ?_, ?_, ?_, ?_, ?_, ?_, ?_⟩
  all_goals rfl

/-- R200 to R209. -/
theorem test_decode_shifts_incdec :
    decodeTableWord 8 0x0A = some .aslAcc ∧ decodeTableWord 16 0xA706 = some (.aslZp 0xA7)
    ∧ decodeTableWord 16 0xA716 = some (.aslZpx 0xA7) ∧ decodeTableWord 24 0xC35A0E = some (.aslAbs 0xC35A)
    ∧ decodeTableWord 24 0xC35A1E = some (.aslAbx 0xC35A) ∧ decodeTableWord 8 0x4A = some .lsrAcc
    ∧ decodeTableWord 16 0xA746 = some (.lsrZp 0xA7) ∧ decodeTableWord 16 0xA756 = some (.lsrZpx 0xA7)
    ∧ decodeTableWord 24 0xC35A4E = some (.lsrAbs 0xC35A) ∧ decodeTableWord 24 0xC35A5E = some (.lsrAbx 0xC35A)
    ∧ decodeTableWord 8 0x2A = some .rolAcc ∧ decodeTableWord 16 0xA726 = some (.rolZp 0xA7)
    ∧ decodeTableWord 16 0xA736 = some (.rolZpx 0xA7) ∧ decodeTableWord 24 0xC35A2E = some (.rolAbs 0xC35A)
    ∧ decodeTableWord 24 0xC35A3E = some (.rolAbx 0xC35A) ∧ decodeTableWord 8 0x6A = some .rorAcc
    ∧ decodeTableWord 16 0xA766 = some (.rorZp 0xA7) ∧ decodeTableWord 16 0xA776 = some (.rorZpx 0xA7)
    ∧ decodeTableWord 24 0xC35A6E = some (.rorAbs 0xC35A) ∧ decodeTableWord 24 0xC35A7E = some (.rorAbx 0xC35A)
    ∧ decodeTableWord 16 0xA7E6 = some (.incZp 0xA7) ∧ decodeTableWord 16 0xA7F6 = some (.incZpx 0xA7)
    ∧ decodeTableWord 24 0xC35AEE = some (.incAbs 0xC35A) ∧ decodeTableWord 24 0xC35AFE = some (.incAbx 0xC35A)
    ∧ decodeTableWord 16 0xA7C6 = some (.decZp 0xA7) ∧ decodeTableWord 16 0xA7D6 = some (.decZpx 0xA7)
    ∧ decodeTableWord 24 0xC35ACE = some (.decAbs 0xC35A) ∧ decodeTableWord 24 0xC35ADE = some (.decAbx 0xC35A)
    ∧ decodeTableWord 8 0xE8 = some .inx ∧ decodeTableWord 8 0xC8 = some .iny ∧ decodeTableWord 8 0xCA = some .dex
    ∧ decodeTableWord 8 0x88 = some .dey := by
  refine ⟨?_, ?_, ?_, ?_, ?_, ?_, ?_, ?_, ?_, ?_, ?_, ?_, ?_, ?_, ?_, ?_, ?_, ?_, ?_, ?_, ?_, ?_, ?_, ?_, ?_, ?_, ?_, ?_, ?_, ?_, ?_, ?_⟩
  all_goals rfl

/-- R220 to R232. -/
theorem test_decode_control :
    decodeTableWord 24 0xC35A4C = some (.jmpAbs 0xC35A) ∧ decodeTableWord 24 0xC35A6C = some (.jmpInd 0xC35A)
    ∧ decodeTableWord 24 0xC35A20 = some (.jsr 0xC35A) ∧ decodeTableWord 8 0x60 = some .rts
    ∧ decodeTableWord 16 0xA710 = some (.bpl 0xA7) ∧ decodeTableWord 16 0xA730 = some (.bmi 0xA7)
    ∧ decodeTableWord 16 0xA750 = some (.bvc 0xA7) ∧ decodeTableWord 16 0xA770 = some (.bvs 0xA7)
    ∧ decodeTableWord 16 0xA790 = some (.bcc 0xA7) ∧ decodeTableWord 16 0xA7B0 = some (.bcs 0xA7)
    ∧ decodeTableWord 16 0xA7D0 = some (.bne 0xA7) ∧ decodeTableWord 16 0xA7F0 = some (.beq 0xA7) := by
  refine ⟨?_, ?_, ?_, ?_, ?_, ?_, ?_, ?_, ?_, ?_, ?_, ?_⟩
  all_goals rfl

/-- R240 to R249. -/
theorem test_decode_flags_system :
    decodeTableWord 8 0x18 = some .clc ∧ decodeTableWord 8 0x38 = some .sec ∧ decodeTableWord 8 0x58 = some .cli
    ∧ decodeTableWord 8 0x78 = some .sei ∧ decodeTableWord 8 0xB8 = some .clv ∧ decodeTableWord 8 0xD8 = some .cld
    ∧ decodeTableWord 8 0xF8 = some .sed ∧ decodeTableWord 8 0xEA = some .nop ∧ decodeTableWord 8 0x00 = some .brk
    ∧ decodeTableWord 8 0x40 = some .rti := by
  refine ⟨?_, ?_, ?_, ?_, ?_, ?_, ?_, ?_, ?_, ?_⟩
  all_goals rfl

/-- R261 to R263. -/
theorem test_decode_rmw_combinations_slo_rla_sre :
    decodeTableWord 16 0xA707 = some (.sloZp 0xA7) ∧ decodeTableWord 16 0xA717 = some (.sloZpx 0xA7)
    ∧ decodeTableWord 24 0xC35A0F = some (.sloAbs 0xC35A) ∧ decodeTableWord 24 0xC35A1F = some (.sloAbx 0xC35A)
    ∧ decodeTableWord 24 0xC35A1B = some (.sloAby 0xC35A) ∧ decodeTableWord 16 0xA703 = some (.sloIzx 0xA7)
    ∧ decodeTableWord 16 0xA713 = some (.sloIzy 0xA7) ∧ decodeTableWord 16 0xA727 = some (.rlaZp 0xA7)
    ∧ decodeTableWord 16 0xA737 = some (.rlaZpx 0xA7) ∧ decodeTableWord 24 0xC35A2F = some (.rlaAbs 0xC35A)
    ∧ decodeTableWord 24 0xC35A3F = some (.rlaAbx 0xC35A) ∧ decodeTableWord 24 0xC35A3B = some (.rlaAby 0xC35A)
    ∧ decodeTableWord 16 0xA723 = some (.rlaIzx 0xA7) ∧ decodeTableWord 16 0xA733 = some (.rlaIzy 0xA7)
    ∧ decodeTableWord 16 0xA747 = some (.sreZp 0xA7) ∧ decodeTableWord 16 0xA757 = some (.sreZpx 0xA7)
    ∧ decodeTableWord 24 0xC35A4F = some (.sreAbs 0xC35A) ∧ decodeTableWord 24 0xC35A5F = some (.sreAbx 0xC35A)
    ∧ decodeTableWord 24 0xC35A5B = some (.sreAby 0xC35A) ∧ decodeTableWord 16 0xA743 = some (.sreIzx 0xA7)
    ∧ decodeTableWord 16 0xA753 = some (.sreIzy 0xA7) := by
  refine ⟨?_, ?_, ?_, ?_, ?_, ?_, ?_, ?_, ?_, ?_, ?_, ?_, ?_, ?_, ?_, ?_, ?_, ?_, ?_, ?_, ?_⟩
  all_goals rfl

/-- R264, R267, R268. -/
theorem test_decode_rmw_combinations_rra_dcp_isc :
    decodeTableWord 16 0xA767 = some (.rraZp 0xA7) ∧ decodeTableWord 16 0xA777 = some (.rraZpx 0xA7)
    ∧ decodeTableWord 24 0xC35A6F = some (.rraAbs 0xC35A) ∧ decodeTableWord 24 0xC35A7F = some (.rraAbx 0xC35A)
    ∧ decodeTableWord 24 0xC35A7B = some (.rraAby 0xC35A) ∧ decodeTableWord 16 0xA763 = some (.rraIzx 0xA7)
    ∧ decodeTableWord 16 0xA773 = some (.rraIzy 0xA7) ∧ decodeTableWord 16 0xA7C7 = some (.dcpZp 0xA7)
    ∧ decodeTableWord 16 0xA7D7 = some (.dcpZpx 0xA7) ∧ decodeTableWord 24 0xC35ACF = some (.dcpAbs 0xC35A)
    ∧ decodeTableWord 24 0xC35ADF = some (.dcpAbx 0xC35A) ∧ decodeTableWord 24 0xC35ADB = some (.dcpAby 0xC35A)
    ∧ decodeTableWord 16 0xA7C3 = some (.dcpIzx 0xA7) ∧ decodeTableWord 16 0xA7D3 = some (.dcpIzy 0xA7)
    ∧ decodeTableWord 16 0xA7E7 = some (.iscZp 0xA7) ∧ decodeTableWord 16 0xA7F7 = some (.iscZpx 0xA7)
    ∧ decodeTableWord 24 0xC35AEF = some (.iscAbs 0xC35A) ∧ decodeTableWord 24 0xC35AFF = some (.iscAbx 0xC35A)
    ∧ decodeTableWord 24 0xC35AFB = some (.iscAby 0xC35A) ∧ decodeTableWord 16 0xA7E3 = some (.iscIzx 0xA7)
    ∧ decodeTableWord 16 0xA7F3 = some (.iscIzy 0xA7) := by
  refine ⟨?_, ?_, ?_, ?_, ?_, ?_, ?_, ?_, ?_, ?_, ?_, ?_, ?_, ?_, ?_, ?_, ?_, ?_, ?_, ?_, ?_⟩
  all_goals rfl

/-- R265, R266, R269 to R273. -/
theorem test_decode_sax_lax_immediates :
    decodeTableWord 16 0xA787 = some (.saxZp 0xA7) ∧ decodeTableWord 16 0xA797 = some (.saxZpy 0xA7)
    ∧ decodeTableWord 24 0xC35A8F = some (.saxAbs 0xC35A) ∧ decodeTableWord 16 0xA783 = some (.saxIzx 0xA7)
    ∧ decodeTableWord 16 0xA7A7 = some (.laxZp 0xA7) ∧ decodeTableWord 16 0xA7B7 = some (.laxZpy 0xA7)
    ∧ decodeTableWord 24 0xC35AAF = some (.laxAbs 0xC35A) ∧ decodeTableWord 24 0xC35ABF = some (.laxAby 0xC35A)
    ∧ decodeTableWord 16 0xA7A3 = some (.laxIzx 0xA7) ∧ decodeTableWord 16 0xA7B3 = some (.laxIzy 0xA7)
    ∧ decodeTableWord 16 0xA70B = some (.anc0B 0xA7) ∧ decodeTableWord 16 0xA72B = some (.anc2B 0xA7)
    ∧ decodeTableWord 16 0xA74B = some (.alr 0xA7) ∧ decodeTableWord 16 0xA76B = some (.arr 0xA7)
    ∧ decodeTableWord 16 0xA7CB = some (.axs 0xA7) ∧ decodeTableWord 16 0xA7EB = some (.sbcImmEB 0xA7) := by
  refine ⟨?_, ?_, ?_, ?_, ?_, ?_, ?_, ?_, ?_, ?_, ?_, ?_, ?_, ?_, ?_, ?_⟩
  all_goals rfl

/-- R274 to R276. -/
theorem test_decode_undocumented_nops :
    decodeTableWord 8 0x1A = some .nop1A ∧ decodeTableWord 8 0x3A = some .nop3A
    ∧ decodeTableWord 8 0x5A = some .nop5A ∧ decodeTableWord 8 0x7A = some .nop7A
    ∧ decodeTableWord 8 0xDA = some .nopDA ∧ decodeTableWord 8 0xFA = some .nopFA
    ∧ decodeTableWord 16 0xA780 = some (.nopImm80 0xA7) ∧ decodeTableWord 16 0xA782 = some (.nopImm82 0xA7)
    ∧ decodeTableWord 16 0xA789 = some (.nopImm89 0xA7) ∧ decodeTableWord 16 0xA7C2 = some (.nopImmC2 0xA7)
    ∧ decodeTableWord 16 0xA7E2 = some (.nopImmE2 0xA7) ∧ decodeTableWord 16 0xA704 = some (.nopZp04 0xA7)
    ∧ decodeTableWord 16 0xA744 = some (.nopZp44 0xA7) ∧ decodeTableWord 16 0xA764 = some (.nopZp64 0xA7)
    ∧ decodeTableWord 16 0xA714 = some (.nopZpx14 0xA7) ∧ decodeTableWord 16 0xA734 = some (.nopZpx34 0xA7)
    ∧ decodeTableWord 16 0xA754 = some (.nopZpx54 0xA7) ∧ decodeTableWord 16 0xA774 = some (.nopZpx74 0xA7)
    ∧ decodeTableWord 16 0xA7D4 = some (.nopZpxD4 0xA7) ∧ decodeTableWord 16 0xA7F4 = some (.nopZpxF4 0xA7)
    ∧ decodeTableWord 24 0xC35A0C = some (.nopAbs 0xC35A) ∧ decodeTableWord 24 0xC35A1C = some (.nopAbx1C 0xC35A)
    ∧ decodeTableWord 24 0xC35A3C = some (.nopAbx3C 0xC35A) ∧ decodeTableWord 24 0xC35A5C = some (.nopAbx5C 0xC35A)
    ∧ decodeTableWord 24 0xC35A7C = some (.nopAbx7C 0xC35A) ∧ decodeTableWord 24 0xC35ADC = some (.nopAbxDC 0xC35A)
    ∧ decodeTableWord 24 0xC35AFC = some (.nopAbxFC 0xC35A) := by
  refine ⟨?_, ?_, ?_, ?_, ?_, ?_, ?_, ?_, ?_, ?_, ?_, ?_, ?_, ?_, ?_, ?_, ?_, ?_, ?_, ?_, ?_, ?_, ?_, ?_, ?_, ?_, ?_⟩
  all_goals rfl

/-- R284 to R291. -/
theorem test_decode_jam_unstable :
    decodeTableWord 8 0x02 = some .jam02 ∧ decodeTableWord 8 0x12 = some .jam12
    ∧ decodeTableWord 8 0x22 = some .jam22 ∧ decodeTableWord 8 0x32 = some .jam32
    ∧ decodeTableWord 8 0x42 = some .jam42 ∧ decodeTableWord 8 0x52 = some .jam52
    ∧ decodeTableWord 8 0x62 = some .jam62 ∧ decodeTableWord 8 0x72 = some .jam72
    ∧ decodeTableWord 8 0x92 = some .jam92 ∧ decodeTableWord 8 0xB2 = some .jamB2
    ∧ decodeTableWord 8 0xD2 = some .jamD2 ∧ decodeTableWord 8 0xF2 = some .jamF2
    ∧ decodeTableWord 24 0xC35ABB = some (.las 0xC35A) ∧ decodeTableWord 16 0xA78B = some (.xaa 0xA7)
    ∧ decodeTableWord 16 0xA7AB = some (.lxa 0xA7) ∧ decodeTableWord 24 0xC35A9F = some (.shaAby 0xC35A)
    ∧ decodeTableWord 16 0xA793 = some (.shaIzy 0xA7) ∧ decodeTableWord 24 0xC35A9E = some (.shx 0xC35A)
    ∧ decodeTableWord 24 0xC35A9C = some (.shy 0xC35A) ∧ decodeTableWord 24 0xC35A9B = some (.tas 0xC35A) := by
  refine ⟨?_, ?_, ?_, ?_, ?_, ?_, ?_, ?_, ?_, ?_, ?_, ?_, ?_, ?_, ?_, ?_, ?_, ?_, ?_, ?_⟩
  all_goals rfl

/-- The decoder refuses by name what is too short (R120, R121). -/
theorem test_decode_short :
    decode [] = .error .noBytes ∧ decode [0xA9] = .error (.truncated 0xA9 2) ∧ decode [0x4C, 0x00] = .error (.truncated 0x4C 3)
    ∧ decode [0xEA, 0xA9] = .ok (.nop, [0xA9]) := by
  refine ⟨?_, ?_, ?_, ?_⟩
  all_goals rfl

/-! ## Well-formedness: for each check an image it refuses -/

/-- A small image in the form `wellFormed` asks for. -/
def goodImage : Cartridge := { Cartridge.blank with prg := [(0, 0x4C), (0x7FFF, 0x80)], chr := [(0x1FFF, 1)] }

theorem test_image_good : goodImage.wellFormed = true ∧ (Instr.ldaImm 0).wellFormed = true := by decide

theorem test_image_without_prg : { goodImage with prgBanks := 0, prg := [] }.wellFormed = false := by decide

theorem test_image_nrom_prg_too_large : { goodImage with prgBanks := 3 }.wellFormed = false
    ∧ { goodImage with mapper := .uxrom, prgBanks := 3 }.wellFormed = true := by decide

theorem test_image_chr_too_large : { goodImage with chrBanks := 2 }.wellFormed = false
    ∧ { goodImage with mapper := .uxrom, chrBanks := 2 }.wellFormed = false
    ∧ { goodImage with mapper := .mmc3, chrBanks := 2 }.wellFormed = true := by decide

theorem test_image_prg_outside : { goodImage with prg := [(0x8000, 1)] }.wellFormed = false := by decide

theorem test_image_prg_not_rising : { goodImage with prg := [(5, 1), (5, 2)] }.wellFormed = false
    ∧ { goodImage with prg := [(6, 1), (5, 2)] }.wellFormed = false := by decide

theorem test_image_prg_lists_zero : { goodImage with prg := [(5, 0)] }.wellFormed = false := by decide

theorem test_image_chr_outside : { goodImage with chr := [(0x2000, 1)] }.wellFormed = false
    ∧ { goodImage with chrBanks := 0 }.wellFormed = false := by decide

theorem test_image_chr_lists_zero : { goodImage with chr := [(5, 1), (6, 0)] }.wellFormed = false := by decide

/-- The header of R88: a bad tag, an unknown mapper number, missing data; 16 KB of PRG, CHR RAM, vertical mirroring, battery. -/
theorem test_header :
    parseImage [0x4E, 0x45, 0x53, 0x1B] = .error .badHeader
    ∧ parseImage [0x4E, 0x45, 0x53, 0x1A, 0, 0, 0x30, 0, 0, 0, 0, 0, 0, 0, 0, 0] = .error .unsupportedMapper
    ∧ parseImage [0x4E, 0x45, 0x53, 0x1A, 1, 0, 0x03, 0, 0, 0, 0, 0, 0, 0, 0, 0] = .error .truncatedData
    ∧ parseImage [0x4E, 0x45, 0x53, 0x1A, 0, 0, 0x43, 0, 0, 0, 0, 0, 0, 0, 0, 0]
      = .ok { mapper := .mmc3, prgBanks := 0, chrBanks := 0, prg := [], chr := [], mirroring := .vertical, battery := true } := by
  decide +kernel

/-! ## Reset -/

/-- The machine of R421 in front of its first instruction, in the blank image. -/
def resetMachine : State := State.started Cartridge.blank Params.default 0 []

theorem test_reset_cpu : resetMachine.cpu = State.reset.cpu := by decide +kernel

theorem test_reset_apu : resetMachine.apu = State.reset.apu := by decide +kernel

set_option maxRecDepth 100000 in
theorem test_reset_picture : resetMachine.ppu.frame = State.reset.ppu.frame ∧ resetMachine.ppu.vblank = State.reset.ppu.vblank := by
  constructor <;> rfl

theorem test_reset_ppu : resetMachine.ppu = State.reset.ppu := by
  have h : { resetMachine.ppu with frame := [], vblank := false } = { State.reset.ppu with frame := [], vblank := false } := by
    decide +kernel
  have hf := test_reset_picture
  generalize resetMachine.ppu = p at *
  generalize State.reset.ppu = q at *
  obtain ⟨⟩ := p
  obtain ⟨⟩ := q
  simp_all

/-- `State.reset` is what the power-on sequence gives. -/
theorem test_reset : resetMachine = State.reset := by
  have h1 := test_reset_cpu
  have h2 := test_reset_apu
  have h3 := test_reset_ppu
  have h4 : resetMachine.mapper = State.reset.mapper := by decide +kernel
  have h5 : (resetMachine.ram, resetMachine.ctrl, resetMachine.dma, resetMachine.busLatch, resetMachine.busDriven,
        resetMachine.prevWrite)
      = (State.reset.ram, State.reset.ctrl, State.reset.dma, State.reset.busLatch, State.reset.busDriven,
          State.reset.prevWrite) := by decide +kernel
  have h6 : (resetMachine.cycle, resetMachine.cart, resetMachine.params, resetMachine.epoch, resetMachine.draw)
      = (State.reset.cycle, State.reset.cart, State.reset.params, State.reset.epoch, State.reset.draw) := by decide +kernel
  generalize resetMachine = s at *
  generalize State.reset = t at *
  obtain ⟨⟩ := s
  obtain ⟨⟩ := t
  simp_all

/-- The machine keeps its invariant from the start (R35 to R47). -/
theorem test_reset_inv : State.reset.inv = true := by decide +kernel

/-! ## One step per instruction: vectors of spec/95_test_vectors.md, part 2 -/

/-- Registers, the flags named by their letters. -/
def regs (a x y sp : Byte) (pc : Addr) (flags : String) : Regs :=
  let on := fun c => flags.toList.contains c
  { a := a, x := x, y := y, s := sp, pc := pc, p := { n := on 'N', v := on 'V', d := on 'D', i := on 'I', z := on 'Z', c := on 'C' } }

/-- The machine after reset, its cycle counter at 0, with the given registers and bytes. -/
def machineAt (r : Regs) (cells : List (Addr × Byte)) : State :=
  cells.foldl (fun s c => s.placeByte c.1 c.2) { State.reset with cycle := 0, cpu := { State.reset.cpu with regs := r } }

/-- One step: the instruction's bytes, the registers and bytes before, the registers, stored bytes and cycles after. -/
def vector (bytes : List Byte) (start : Regs) (cells : List (Addr × Byte)) (stop : Regs) (stored : List (Addr × Byte))
    (cycles : Nat) : Bool :=
  match step ((machineAt start cells).placeBytes start.pc bytes) with
  | .next t => t.cpu.regs == stop && t.cycle == cycles && stored.all (fun c => t.memByte c.1 == some c.2)
  | .fault _ => false
  | .refused _ => false

theorem test_t1_2_lda :
    vector [0xA9, 0x80] (regs 0x00 0x00 0x00 0xFD 0x8000 "I") []
      (regs 0x80 0x00 0x00 0xFD 0x8002 "NI") [] 2 = true := by decide +kernel

theorem test_t1_4_lda :
    vector [0xB5, 0xFF] (regs 0x00 0x02 0x00 0xFD 0x8000 "I") [(0x0001, 0x33), (0x0101, 0x99)]
      (regs 0x33 0x02 0x00 0xFD 0x8002 "I") [] 4 = true := by decide +kernel

theorem test_t1_6_lda :
    vector [0xBD, 0xF0, 0x02] (regs 0x00 0x10 0x00 0xFD 0x8000 "I") [(0x0200, 0x77), (0x0300, 0x22)]
      (regs 0x22 0x10 0x00 0xFD 0x8003 "I") [] 5 = true := by decide +kernel

theorem test_t1_7_lda :
    vector [0xB9, 0xFF, 0x02] (regs 0x00 0x00 0x01 0xFD 0x8000 "I") [(0x0300, 0x80)]
      (regs 0x80 0x00 0x01 0xFD 0x8003 "NI") [] 5 = true := by decide +kernel

theorem test_t1_8_lda :
    vector [0xA1, 0xFE] (regs 0x00 0x01 0x00 0xFD 0x8000 "I") [(0x0000, 0x02), (0x00FF, 0x34), (0x0100, 0x07), (0x0234, 0x5A)]
      (regs 0x5A 0x01 0x00 0xFD 0x8002 "I") [] 6 = true := by decide +kernel

theorem test_t1_9_lda :
    vector [0xB1, 0x10] (regs 0x00 0x00 0x01 0xFD 0x8000 "I") [(0x0010, 0xFF), (0x0011, 0x02), (0x0300, 0x44)]
      (regs 0x44 0x00 0x01 0xFD 0x8002 "I") [] 6 = true := by decide +kernel

theorem test_t1_12_ldx :
    vector [0xB6, 0x10] (regs 0x00 0x55 0xF8 0xFD 0x8000 "I") [(0x0008, 0x00)]
      (regs 0x00 0x00 0xF8 0xFD 0x8002 "IZ") [] 4 = true := by decide +kernel

theorem test_t1_13_ldy :
    vector [0xBC, 0x00, 0x02] (regs 0x00 0x05 0x00 0xFD 0x8000 "I") [(0x0205, 0xFE)]
      (regs 0x00 0x05 0xFE 0xFD 0x8003 "NI") [] 4 = true := by decide +kernel

theorem test_t1_15_lda :
    vector [0xAD, 0x00, 0x50] (regs 0x00 0x00 0x00 0xFD 0x8000 "I") []
      (regs 0x50 0x00 0x00 0xFD 0x8003 "I") [] 4 = true := by decide +kernel

theorem test_t1_17_sta :
    vector [0x9D, 0xF0, 0x02] (regs 0x66 0x10 0x00 0xFD 0x8000 "I") [(0x0300, 0x00), (0x0200, 0x00)]
      (regs 0x66 0x10 0x00 0xFD 0x8003 "I") [(0x0300, 0x66), (0x0200, 0x00)] 5 = true := by decide +kernel

theorem test_t1_18_sta :
    vector [0x91, 0x10] (regs 0x77 0x00 0x02 0xFD 0x8000 "I") [(0x0010, 0x00), (0x0011, 0x03), (0x0302, 0x00)]
      (regs 0x77 0x00 0x02 0xFD 0x8002 "I") [(0x0302, 0x77)] 6 = true := by decide +kernel

theorem test_t1_19_sta :
    vector [0x81, 0x20] (regs 0x88 0x04 0x00 0xFD 0x8000 "I") [(0x0024, 0x00), (0x0025, 0x04), (0x0400, 0x00)]
      (regs 0x88 0x04 0x00 0xFD 0x8002 "I") [(0x0400, 0x88)] 6 = true := by decide +kernel

theorem test_t1_20_stx :
    vector [0x96, 0x10] (regs 0x00 0x12 0xFF 0xFD 0x8000 "I") [(0x000F, 0x00)]
      (regs 0x00 0x12 0xFF 0xFD 0x8002 "I") [(0x000F, 0x12)] 4 = true := by decide +kernel

theorem test_t1_21_sty :
    vector [0x94, 0x10] (regs 0x00 0x01 0x13 0xFD 0x8000 "I") [(0x0011, 0x00)]
      (regs 0x00 0x01 0x13 0xFD 0x8002 "I") [(0x0011, 0x13)] 4 = true := by decide +kernel

theorem test_t1_23_tax :
    vector [0xAA] (regs 0x00 0x55 0x00 0xFD 0x8000 "I") []
      (regs 0x00 0x00 0x00 0xFD 0x8001 "IZ") [] 2 = true := by decide +kernel

theorem test_t1_24_tay :
    vector [0xA8] (regs 0xFF 0x00 0x00 0xFD 0x8000 "I") []
      (regs 0xFF 0x00 0xFF 0xFD 0x8001 "NI") [] 2 = true := by decide +kernel

theorem test_t1_25_txa :
    vector [0x8A] (regs 0x00 0x10 0x00 0xFD 0x8000 "I") []
      (regs 0x10 0x10 0x00 0xFD 0x8001 "I") [] 2 = true := by decide +kernel

theorem test_t1_26_tya :
    vector [0x98] (regs 0x00 0x00 0x80 0xFD 0x8000 "I") []
      (regs 0x80 0x00 0x80 0xFD 0x8001 "NI") [] 2 = true := by decide +kernel

theorem test_t1_27_tsx :
    vector [0xBA] (regs 0x00 0x00 0x00 0xFD 0x8000 "I") []
      (regs 0x00 0xFD 0x00 0xFD 0x8001 "NI") [] 2 = true := by decide +kernel

theorem test_t1_28_txs :
    vector [0x9A] (regs 0x00 0x00 0x00 0xFD 0x8000 "NI") []
      (regs 0x00 0x00 0x00 0x00 0x8001 "NI") [] 2 = true := by decide +kernel

theorem test_t2_2_pha :
    vector [0x48] (regs 0x42 0x00 0x00 0x00 0x8000 "I") [(0x0100, 0x00)]
      (regs 0x42 0x00 0x00 0xFF 0x8001 "I") [(0x0100, 0x42)] 3 = true := by decide +kernel

theorem test_t2_4_php :
    vector [0x08] (regs 0x00 0x00 0x00 0xFD 0x8000 "NC") [(0x01FD, 0x00)]
      (regs 0x00 0x00 0x00 0xFC 0x8001 "NC") [(0x01FD, 0xB1)] 3 = true := by decide +kernel

theorem test_t2_6_pla :
    vector [0x68] (regs 0x00 0x00 0x00 0xFF 0x8000 "I") [(0x0100, 0x80)]
      (regs 0x80 0x00 0x00 0x00 0x8001 "NI") [] 4 = true := by decide +kernel

theorem test_t2_7_plp :
    vector [0x28] (regs 0x00 0x00 0x00 0xFC 0x8000 "I") [(0x01FD, 0xFF)]
      (regs 0x00 0x00 0x00 0xFD 0x8001 "NVDIZC") [] 4 = true := by decide +kernel

theorem test_t3_1_and :
    vector [0x29, 0x0F] (regs 0xF0 0x00 0x00 0xFD 0x8000 "I") []
      (regs 0x00 0x00 0x00 0xFD 0x8002 "IZ") [] 2 = true := by decide +kernel

theorem test_t3_2_ora :
    vector [0x09, 0x80] (regs 0x01 0x00 0x00 0xFD 0x8000 "I") []
      (regs 0x81 0x00 0x00 0xFD 0x8002 "NI") [] 2 = true := by decide +kernel

theorem test_t3_3_eor :
    vector [0x49, 0xFF] (regs 0xFF 0x00 0x00 0xFD 0x8000 "I") []
      (regs 0x00 0x00 0x00 0xFD 0x8002 "IZ") [] 2 = true := by decide +kernel

theorem test_t3_4_bit :
    vector [0x24, 0x10] (regs 0x01 0x00 0x00 0xFD 0x8000 "I") [(0x0010, 0xC0)]
      (regs 0x01 0x00 0x00 0xFD 0x8002 "NVIZ") [] 3 = true := by decide +kernel

theorem test_t3_6_adc :
    vector [0x69, 0x50] (regs 0x50 0x00 0x00 0xFD 0x8000 "I") []
      (regs 0xA0 0x00 0x00 0xFD 0x8002 "NVI") [] 2 = true := by decide +kernel

theorem test_t3_12_adc :
    vector [0x69, 0x01] (regs 0x99 0x00 0x00 0xFD 0x8000 "DI") []
      (regs 0x9A 0x00 0x00 0xFD 0x8002 "NDI") [] 2 = true := by decide +kernel

theorem test_t3_14_sbc :
    vector [0xE9, 0xF0] (regs 0x50 0x00 0x00 0xFD 0x8000 "IC") []
      (regs 0x60 0x00 0x00 0xFD 0x8002 "I") [] 2 = true := by decide +kernel

theorem test_t3_17_sbc :
    vector [0xE9, 0x00] (regs 0x00 0x00 0x00 0xFD 0x8000 "I") []
      (regs 0xFF 0x00 0x00 0xFD 0x8002 "NI") [] 2 = true := by decide +kernel

theorem test_t3_21_cmp :
    vector [0xC9, 0x41] (regs 0x40 0x00 0x00 0xFD 0x8000 "I") []
      (regs 0x40 0x00 0x00 0xFD 0x8002 "NI") [] 2 = true := by decide +kernel

theorem test_t3_22_cmp :
    vector [0xC9, 0x80] (regs 0x00 0x00 0x00 0xFD 0x8000 "VI") []
      (regs 0x00 0x00 0x00 0xFD 0x8002 "NVI") [] 2 = true := by decide +kernel

theorem test_t3_23_cpx :
    vector [0xE0, 0x0A] (regs 0x00 0x05 0x00 0xFD 0x8000 "I") []
      (regs 0x00 0x05 0x00 0xFD 0x8002 "NI") [] 2 = true := by decide +kernel

theorem test_t3_24_cpy :
    vector [0xC0, 0x00] (regs 0x00 0x00 0xFF 0xFD 0x8000 "I") []
      (regs 0x00 0x00 0xFF 0xFD 0x8002 "NIC") [] 2 = true := by decide +kernel

theorem test_t3_26_eor :
    vector [0x51, 0x10] (regs 0x0F 0x00 0xFF 0xFD 0x8000 "I") [(0x0010, 0x01), (0x0011, 0x02), (0x0300, 0xFF)]
      (regs 0xF0 0x00 0xFF 0xFD 0x8002 "NI") [] 6 = true := by decide +kernel

theorem test_t4_1_asl :
    vector [0x0A] (regs 0x81 0x00 0x00 0xFD 0x8000 "I") []
      (regs 0x02 0x00 0x00 0xFD 0x8001 "IC") [] 2 = true := by decide +kernel

theorem test_t4_3_lsr :
    vector [0x4A] (regs 0x01 0x00 0x00 0xFD 0x8000 "NI") []
      (regs 0x00 0x00 0x00 0xFD 0x8001 "IZC") [] 2 = true := by decide +kernel

theorem test_t4_4_rol :
    vector [0x2A] (regs 0x40 0x00 0x00 0xFD 0x8000 "IC") []
      (regs 0x81 0x00 0x00 0xFD 0x8001 "NI") [] 2 = true := by decide +kernel

theorem test_t4_7_ror :
    vector [0x6A] (regs 0x01 0x00 0x00 0xFD 0x8000 "I") []
      (regs 0x00 0x00 0x00 0xFD 0x8001 "IZC") [] 2 = true := by decide +kernel

theorem test_t4_8_asl :
    vector [0x06, 0x10] (regs 0x00 0x00 0x00 0xFD 0x8000 "I") [(0x0010, 0x55)]
      (regs 0x00 0x00 0x00 0xFD 0x8002 "NI") [(0x0010, 0xAA)] 5 = true := by decide +kernel

theorem test_t4_9_lsr :
    vector [0x4E, 0x00, 0x02] (regs 0x00 0x00 0x00 0xFD 0x8000 "I") [(0x0200, 0x55)]
      (regs 0x00 0x00 0x00 0xFD 0x8003 "IC") [(0x0200, 0x2A)] 6 = true := by decide +kernel

theorem test_t4_10_rol :
    vector [0x36, 0x10] (regs 0x00 0xF1 0x00 0xFD 0x8000 "IC") [(0x0001, 0x80)]
      (regs 0x00 0xF1 0x00 0xFD 0x8002 "IC") [(0x0001, 0x01)] 6 = true := by decide +kernel

theorem test_t4_11_ror :
    vector [0x7E, 0x00, 0x02] (regs 0x00 0x01 0x00 0xFD 0x8000 "IC") [(0x0201, 0x00)]
      (regs 0x00 0x01 0x00 0xFD 0x8003 "NI") [(0x0201, 0x80)] 7 = true := by decide +kernel

theorem test_t4_12_inc :
    vector [0xE6, 0x10] (regs 0x00 0x00 0x00 0xFD 0x8000 "I") [(0x0010, 0xFF)]
      (regs 0x00 0x00 0x00 0xFD 0x8002 "IZ") [(0x0010, 0x00)] 5 = true := by decide +kernel

theorem test_t4_13_inc :
    vector [0xFE, 0xFF, 0x02] (regs 0x00 0x01 0x00 0xFD 0x8000 "I") [(0x0300, 0x7F)]
      (regs 0x00 0x01 0x00 0xFD 0x8003 "NI") [(0x0300, 0x80)] 7 = true := by decide +kernel

theorem test_t4_14_dec :
    vector [0xCE, 0x00, 0x02] (regs 0x00 0x00 0x00 0xFD 0x8000 "I") [(0x0200, 0x01)]
      (regs 0x00 0x00 0x00 0xFD 0x8003 "IZ") [(0x0200, 0x00)] 6 = true := by decide +kernel

theorem test_t4_15_dec :
    vector [0xD6, 0x10] (regs 0x00 0x01 0x00 0xFD 0x8000 "I") [(0x0011, 0x00)]
      (regs 0x00 0x01 0x00 0xFD 0x8002 "NI") [(0x0011, 0xFF)] 6 = true := by decide +kernel

theorem test_t4_16_inx :
    vector [0xE8] (regs 0x00 0x7F 0x00 0xFD 0x8000 "I") []
      (regs 0x00 0x80 0x00 0xFD 0x8001 "NI") [] 2 = true := by decide +kernel

theorem test_t4_17_iny :
    vector [0xC8] (regs 0x00 0x00 0xFF 0xFD 0x8000 "I") []
      (regs 0x00 0x00 0x00 0xFD 0x8001 "IZ") [] 2 = true := by decide +kernel

theorem test_t4_18_dex :
    vector [0xCA] (regs 0x00 0x01 0x00 0xFD 0x8000 "I") []
      (regs 0x00 0x00 0x00 0xFD 0x8001 "IZ") [] 2 = true := by decide +kernel

theorem test_t4_19_dey :
    vector [0x88] (regs 0x00 0x00 0x00 0xFD 0x8000 "I") []
      (regs 0x00 0x00 0xFF 0xFD 0x8001 "NI") [] 2 = true := by decide +kernel

theorem test_t5_1_jmp :
    vector [0x4C, 0x00, 0x90] (regs 0x00 0x00 0x00 0xFD 0x8000 "I") []
      (regs 0x00 0x00 0x00 0xFD 0x9000 "I") [] 3 = true := by decide +kernel

theorem test_t5_3_jmp :
    vector [0x6C, 0xFF, 0x02] (regs 0x00 0x00 0x00 0xFD 0x8000 "I") [(0x0200, 0x12), (0x02FF, 0x34), (0x0300, 0x56)]
      (regs 0x00 0x00 0x00 0xFD 0x1234 "I") [] 5 = true := by decide +kernel

theorem test_t5_4_jsr :
    vector [0x20, 0x00, 0x90] (regs 0x00 0x00 0x00 0xFD 0x8000 "I") [(0x01FD, 0x00), (0x01FC, 0x00)]
      (regs 0x00 0x00 0x00 0xFB 0x9000 "I") [(0x01FD, 0x80), (0x01FC, 0x02)] 6 = true := by decide +kernel

theorem test_t5_6_rts :
    vector [0x60] (regs 0x00 0x00 0x00 0xFB 0x8000 "I") [(0x01FC, 0xFF), (0x01FD, 0x80)]
      (regs 0x00 0x00 0x00 0xFD 0x8100 "I") [] 6 = true := by decide +kernel

theorem test_t5_7_jsr :
    vector [0x20, 0x00, 0x90] (regs 0x00 0x00 0x00 0x00 0x8000 "I") [(0x0100, 0x00), (0x01FF, 0x00)]
      (regs 0x00 0x00 0x00 0xFE 0x9000 "I") [(0x0100, 0x80), (0x01FF, 0x02)] 6 = true := by decide +kernel

theorem test_t5_9_bpl :
    vector [0x10, 0x02] (regs 0x00 0x00 0x00 0xFD 0x8000 "I") []
      (regs 0x00 0x00 0x00 0xFD 0x8004 "I") [] 3 = true := by decide +kernel

theorem test_t5_11_bmi :
    vector [0x30, 0xFD] (regs 0x00 0x00 0x00 0xFD 0x8000 "NI") []
      (regs 0x00 0x00 0x00 0xFD 0x7FFF "NI") [] 4 = true := by decide +kernel

theorem test_t5_12_bvc :
    vector [0x50, 0x7F] (regs 0x00 0x00 0x00 0xFD 0x8000 "I") []
      (regs 0x00 0x00 0x00 0xFD 0x8081 "I") [] 3 = true := by decide +kernel

theorem test_t5_13_bvs :
    vector [0x70, 0x7F] (regs 0x00 0x00 0x00 0xFD 0x8000 "I") []
      (regs 0x00 0x00 0x00 0xFD 0x8002 "I") [] 2 = true := by decide +kernel

theorem test_t5_14_bcc :
    vector [0x90, 0x80] (regs 0x00 0x00 0x00 0xFD 0x8000 "I") []
      (regs 0x00 0x00 0x00 0xFD 0x7F82 "I") [] 4 = true := by decide +kernel

theorem test_t5_15_bcs :
    vector [0xB0, 0x00] (regs 0x00 0x00 0x00 0xFD 0x8000 "IC") []
      (regs 0x00 0x00 0x00 0xFD 0x8002 "IC") [] 3 = true := by decide +kernel

theorem test_t5_16_bne :
    vector [0xD0, 0x05] (regs 0x00 0x00 0x00 0xFD 0x8000 "IZ") []
      (regs 0x00 0x00 0x00 0xFD 0x8002 "IZ") [] 2 = true := by decide +kernel

theorem test_t5_19_beq :
    vector [0xF0, 0x01] (regs 0x00 0x00 0x00 0xFD 0x80FD "IZ") []
      (regs 0x00 0x00 0x00 0xFD 0x8100 "IZ") [] 4 = true := by decide +kernel

theorem test_t5_21_bne :
    vector [0xD0, 0xFF] (regs 0x00 0x00 0x00 0xFD 0x80FE "I") []
      (regs 0x00 0x00 0x00 0xFD 0x80FF "I") [] 4 = true := by decide +kernel

theorem test_t6_1_clc :
    vector [0x18] (regs 0x00 0x00 0x00 0xFD 0x8000 "IC") []
      (regs 0x00 0x00 0x00 0xFD 0x8001 "I") [] 2 = true := by decide +kernel

theorem test_t6_2_sec :
    vector [0x38] (regs 0x00 0x00 0x00 0xFD 0x8000 "I") []
      (regs 0x00 0x00 0x00 0xFD 0x8001 "IC") [] 2 = true := by decide +kernel

theorem test_t6_3_cli :
    vector [0x58] (regs 0x00 0x00 0x00 0xFD 0x8000 "I") []
      (regs 0x00 0x00 0x00 0xFD 0x8001 "") [] 2 = true := by decide +kernel

theorem test_t6_4_sei :
    vector [0x78] (regs 0x00 0x00 0x00 0xFD 0x8000 "") []
      (regs 0x00 0x00 0x00 0xFD 0x8001 "I") [] 2 = true := by decide +kernel

theorem test_t6_5_clv :
    vector [0xB8] (regs 0x00 0x00 0x00 0xFD 0x8000 "VI") []
      (regs 0x00 0x00 0x00 0xFD 0x8001 "I") [] 2 = true := by decide +kernel

theorem test_t6_6_cld :
    vector [0xD8] (regs 0x00 0x00 0x00 0xFD 0x8000 "DI") []
      (regs 0x00 0x00 0x00 0xFD 0x8001 "I") [] 2 = true := by decide +kernel

theorem test_t6_7_sed :
    vector [0xF8] (regs 0x00 0x00 0x00 0xFD 0x8000 "I") []
      (regs 0x00 0x00 0x00 0xFD 0x8001 "DI") [] 2 = true := by decide +kernel

theorem test_t6_8_nop :
    vector [0xEA] (regs 0x00 0x00 0x00 0xFD 0x8000 "I") []
      (regs 0x00 0x00 0x00 0xFD 0x8001 "I") [] 2 = true := by decide +kernel

theorem test_t6_9_brk :
    vector [0x00, 0xEA] (regs 0x00 0x00 0x00 0xFD 0x8000 "ZC") [(0xFFFE, 0x00), (0xFFFF, 0x90), (0x01FD, 0x00), (0x01FC, 0x00), (0x01FB, 0x00)]
      (regs 0x00 0x00 0x00 0xFA 0x9000 "IZC") [(0x01FD, 0x80), (0x01FC, 0x02), (0x01FB, 0x33)] 7 = true := by decide +kernel

theorem test_t6_10_brk :
    vector [0x00, 0xEA] (regs 0x00 0x00 0x00 0xFD 0x8000 "NDI") [(0xFFFE, 0x00), (0xFFFF, 0x90), (0x01FD, 0x00), (0x01FC, 0x00), (0x01FB, 0x00)]
      (regs 0x00 0x00 0x00 0xFA 0x9000 "NDI") [(0x01FD, 0x80), (0x01FC, 0x02), (0x01FB, 0xBC)] 7 = true := by decide +kernel

theorem test_t6_11_rti :
    vector [0x40] (regs 0x00 0x00 0x00 0xFA 0x8000 "I") [(0x01FB, 0x33), (0x01FC, 0x02), (0x01FD, 0x80)]
      (regs 0x00 0x00 0x00 0xFD 0x8002 "ZC") [] 6 = true := by decide +kernel

theorem test_t6_12_rti :
    vector [0x40] (regs 0x00 0x00 0x00 0xFA 0x8000 "I") [(0x01FB, 0xFF), (0x01FC, 0x34), (0x01FD, 0x12)]
      (regs 0x00 0x00 0x00 0xFD 0x1234 "NVDIZC") [] 6 = true := by decide +kernel

theorem test_t7_1_slo :
    vector [0x07, 0x10] (regs 0x01 0x00 0x00 0xFD 0x8000 "I") [(0x0010, 0x81)]
      (regs 0x03 0x00 0x00 0xFD 0x8002 "IC") [(0x0010, 0x02)] 5 = true := by decide +kernel

theorem test_t7_2_rla :
    vector [0x27, 0x10] (regs 0xFF 0x00 0x00 0xFD 0x8000 "IC") [(0x0010, 0x40)]
      (regs 0x81 0x00 0x00 0xFD 0x8002 "NI") [(0x0010, 0x81)] 5 = true := by decide +kernel

theorem test_t7_3_sre :
    vector [0x47, 0x10] (regs 0xFF 0x00 0x00 0xFD 0x8000 "I") [(0x0010, 0x03)]
      (regs 0xFE 0x00 0x00 0xFD 0x8002 "NIC") [(0x0010, 0x01)] 5 = true := by decide +kernel

theorem test_t7_4_rra :
    vector [0x67, 0x10] (regs 0x01 0x00 0x00 0xFD 0x8000 "IC") [(0x0010, 0x02)]
      (regs 0x82 0x00 0x00 0xFD 0x8002 "NI") [(0x0010, 0x81)] 5 = true := by decide +kernel

theorem test_t7_5_sax :
    vector [0x87, 0x10] (regs 0xF0 0x3C 0x00 0xFD 0x8000 "I") [(0x0010, 0x00)]
      (regs 0xF0 0x3C 0x00 0xFD 0x8002 "I") [(0x0010, 0x30)] 3 = true := by decide +kernel

theorem test_t7_7_lax :
    vector [0xB3, 0x10] (regs 0x01 0x01 0x01 0xFD 0x8000 "I") [(0x0010, 0xFF), (0x0011, 0x02), (0x0300, 0x00)]
      (regs 0x00 0x00 0x01 0xFD 0x8002 "IZ") [] 6 = true := by decide +kernel

theorem test_t7_8_dcp :
    vector [0xC7, 0x10] (regs 0x40 0x00 0x00 0xFD 0x8000 "I") [(0x0010, 0x41)]
      (regs 0x40 0x00 0x00 0xFD 0x8002 "IZC") [(0x0010, 0x40)] 5 = true := by decide +kernel

theorem test_t7_10_isc :
    vector [0xE7, 0x10] (regs 0x10 0x00 0x00 0xFD 0x8000 "IC") [(0x0010, 0x0F)]
      (regs 0x00 0x00 0x00 0xFD 0x8002 "IZC") [(0x0010, 0x10)] 5 = true := by decide +kernel

theorem test_t7_13_rra :
    vector [0x7B, 0xFF, 0x02] (regs 0x7F 0x00 0x01 0xFD 0x8000 "I") [(0x0300, 0x03)]
      (regs 0x81 0x00 0x01 0xFD 0x8003 "NVI") [(0x0300, 0x01)] 7 = true := by decide +kernel

theorem test_t7_14_anc :
    vector [0x0B, 0x80] (regs 0xFF 0x00 0x00 0xFD 0x8000 "I") []
      (regs 0x80 0x00 0x00 0xFD 0x8002 "NIC") [] 2 = true := by decide +kernel

theorem test_t7_15_anc :
    vector [0x2B, 0x7F] (regs 0xFF 0x00 0x00 0xFD 0x8000 "IC") []
      (regs 0x7F 0x00 0x00 0xFD 0x8002 "I") [] 2 = true := by decide +kernel

theorem test_t7_16_alr :
    vector [0x4B, 0x03] (regs 0xFF 0x00 0x00 0xFD 0x8000 "I") []
      (regs 0x01 0x00 0x00 0xFD 0x8002 "IC") [] 2 = true := by decide +kernel

theorem test_t7_17_arr :
    vector [0x6B, 0xFF] (regs 0xC0 0x00 0x00 0xFD 0x8000 "IC") []
      (regs 0xE0 0x00 0x00 0xFD 0x8002 "NIC") [] 2 = true := by decide +kernel

theorem test_t7_18_arr :
    vector [0x6B, 0xFF] (regs 0x40 0x00 0x00 0xFD 0x8000 "I") []
      (regs 0x20 0x00 0x00 0xFD 0x8002 "VI") [] 2 = true := by decide +kernel

theorem test_t7_20_axs :
    vector [0xCB, 0x02] (regs 0x0F 0x07 0x00 0xFD 0x8000 "I") []
      (regs 0x0F 0x05 0x00 0xFD 0x8002 "IC") [] 2 = true := by decide +kernel

theorem test_t7_21_axs :
    vector [0xCB, 0x10] (regs 0xFF 0x05 0x00 0xFD 0x8000 "I") []
      (regs 0xFF 0xF5 0x00 0xFD 0x8002 "NI") [] 2 = true := by decide +kernel

theorem test_t7_22_sbc :
    vector [0xEB, 0x10] (regs 0x10 0x00 0x00 0xFD 0x8000 "IC") []
      (regs 0x00 0x00 0x00 0xFD 0x8002 "IZC") [] 2 = true := by decide +kernel

theorem test_t7_23_nop :
    vector [0x1A] (regs 0x00 0x00 0x00 0xFD 0x8000 "I") []
      (regs 0x00 0x00 0x00 0xFD 0x8001 "I") [] 2 = true := by decide +kernel

theorem test_t7_24_nop :
    vector [0x80, 0xFF] (regs 0x00 0x00 0x00 0xFD 0x8000 "I") []
      (regs 0x00 0x00 0x00 0xFD 0x8002 "I") [] 2 = true := by decide +kernel

theorem test_t7_25_nop :
    vector [0x04, 0x10] (regs 0x00 0x00 0x00 0xFD 0x8000 "I") []
      (regs 0x00 0x00 0x00 0xFD 0x8002 "I") [] 3 = true := by decide +kernel

theorem test_t7_26_nop :
    vector [0x14, 0x10] (regs 0x00 0x00 0x00 0xFD 0x8000 "I") []
      (regs 0x00 0x00 0x00 0xFD 0x8002 "I") [] 4 = true := by decide +kernel

theorem test_t7_28_nop :
    vector [0x1C, 0xFF, 0x02] (regs 0x00 0x01 0x00 0xFD 0x8000 "I") []
      (regs 0x00 0x01 0x00 0xFD 0x8003 "I") [] 5 = true := by decide +kernel

theorem test_t7_29_las :
    vector [0xBB, 0x00, 0x02] (regs 0x00 0x00 0x00 0xF0 0x8000 "I") [(0x0200, 0x3C)]
      (regs 0x30 0x30 0x00 0x30 0x8003 "I") [] 4 = true := by decide +kernel

theorem test_t7_30_xaa :
    vector [0x8B, 0x0F] (regs 0x01 0xFF 0x00 0xFD 0x8000 "I") []
      (regs 0x0F 0xFF 0x00 0xFD 0x8002 "I") [] 2 = true := by decide +kernel

theorem test_t7_32_lxa :
    vector [0xAB, 0x5A] (regs 0x00 0x00 0x00 0xFD 0x8000 "I") []
      (regs 0x5A 0x5A 0x00 0xFD 0x8002 "I") [] 2 = true := by decide +kernel

theorem test_t7_34_sha :
    vector [0x9F, 0x00, 0x02] (regs 0xFF 0xFF 0x00 0xFD 0x8000 "I") [(0x0200, 0x00)]
      (regs 0xFF 0xFF 0x00 0xFD 0x8003 "I") [(0x0200, 0x03)] 5 = true := by decide +kernel

theorem test_t7_35_sha :
    vector [0x93, 0x10] (regs 0xFF 0x0F 0x01 0xFD 0x8000 "I") [(0x0010, 0x00), (0x0011, 0x06), (0x0601, 0x00)]
      (regs 0xFF 0x0F 0x01 0xFD 0x8002 "I") [(0x0601, 0x07)] 6 = true := by decide +kernel

theorem test_t7_37_shx :
    vector [0x9E, 0xF8, 0x02] (regs 0x00 0xFF 0x10 0xFD 0x8000 "I") [(0x0308, 0x00), (0x0208, 0x00)]
      (regs 0x00 0xFF 0x10 0xFD 0x8003 "I") [(0x0308, 0x03), (0x0208, 0x00)] 5 = true := by decide +kernel

theorem test_t7_38_shx :
    vector [0x9E, 0xF8, 0x02] (regs 0x00 0x01 0x10 0xFD 0x8000 "I") [(0x0108, 0x00), (0x0308, 0x00)]
      (regs 0x00 0x01 0x10 0xFD 0x8003 "I") [(0x0108, 0x01), (0x0308, 0x00)] 5 = true := by decide +kernel

theorem test_t7_39_shy :
    vector [0x9C, 0x00, 0x06] (regs 0x00 0x00 0x07 0xFD 0x8000 "I") [(0x0600, 0x00)]
      (regs 0x00 0x00 0x07 0xFD 0x8003 "I") [(0x0600, 0x07)] 5 = true := by decide +kernel

theorem test_t7_40_tas :
    vector [0x9B, 0x00, 0x02] (regs 0xF3 0x3F 0x00 0xFD 0x8000 "I") [(0x0200, 0x00)]
      (regs 0xF3 0x3F 0x00 0x33 0x8003 "I") [(0x0200, 0x03)] 5 = true := by decide +kernel

theorem test_t7_41_jam :
    vector [0x02] (regs 0x55 0x00 0x00 0xFD 0x8000 "I") []
      (regs 0x55 0x00 0x00 0xFD 0x8001 "I") [] 2 = true := by decide +kernel

/-! ## Placing a program, and the devices -/

/-- A word placed where the next step fetches is the instruction that step runs, from reset and from a machine whose PC is at a
device register (log entry 2). -/
theorem test_fetch_word :
    (State.reset.withFetchWord 24 0xC35A8D).fetched = .staAbs 0xC35A
    ∧ ({ State.reset with cpu := { State.reset.cpu with halted := true, regs := { State.reset.cpu.regs with pc := 0x2002 } } }.withFetchWord
        16 0xA7A9).fetched = .ldaImm 0xA7 := by
  constructor <;> rfl

/-- V2: the shared write toggle (R386): 0x7D then 0x5E to register 5, 0x3D then 0xF0 to register 6. -/
theorem test_scroll_writes :
    let s := busWrite 0x2006 0xF0 (busWrite 0x2006 0x3D (busWrite 0x2005 0x5E (busWrite 0x2005 0x7D State.reset)))
    (s.ppu.t, s.ppu.v, s.ppu.x, s.ppu.w) = ((0x3DF0 : BitVec 15), (0x3DF0 : BitVec 15), (5 : BitVec 3), false) := by decide +kernel

/-- V6: `UXROM` with 8 banks (R90). -/
theorem test_uxrom_banks :
    let c : Cartridge := { Cartridge.blank with mapper := .uxrom, prgBanks := 8 }
    let m : Mapper := { regs := .uxrom 0, prgRam := [], chrRam := [], ntRam := [] }
    let n := m.prgWrite c Params.default false 0x8000 0x05
    (m.prgOffset c 0x8000, m.prgOffset c 0xC000) = (0x00000, 0x1C000)
    ∧ (n.prgOffset c 0x8000, n.prgOffset c 0xBFFF, n.prgOffset c 0xFFFC) = (0x14000, 0x17FFF, 0x1FFFC)
    ∧ (n.prgWrite c Params.default false 0xFFFF 0x0B).regs = .uxrom 3 := by decide

/-- V8: `MMC3` PRG and CHR windows (R93). -/
theorem test_mmc3_banks :
    let c : Cartridge := { Cartridge.blank with mapper := .mmc3, prgBanks := 16, chrBanks := 16 }
    let r : Mmc3 :=
      { bankSelect := 0, banks := List.replicate 8 0, mirror := false, ramProtect := 0, irqLatch := 0, irqCounter := 0,
        irqReload := false, irqEnable := false, irqFlag := false, a12 := false, a12Low := 0 }
    let w := fun (a : Nat) (v : Byte) (m : Mapper) => m.prgWrite c Params.default false a v
    let m := w 0x8001 0x0C (w 0x8000 0x06 { regs := .mmc3 r, prgRam := [], chrRam := [], ntRam := [] })
    let n := w 0x8000 0x46 m
    let o := w 0x8001 0x05 (w 0x8000 0x00 m)
    (m.prgOffset c 0x8000, m.prgOffset c 0xC000, m.prgOffset c 0xE000) = (0x18000, 0x3C000, 0x3E000)
    ∧ (n.prgOffset c 0x8000, n.prgOffset c 0xC000, n.prgOffset c 0xE000) = (0x3C000, 0x18000, 0x3E000)
    ∧ (o.chrOffset c 0x0000, o.chrOffset c 0x0400) = (0x1000, 0x1400)
    ∧ ((w 0x8000 0x80 o).chrOffset c 0x1000, (w 0x8000 0x80 o).chrOffset c 0x17FF) = (0x1000, 0x17FF) := by decide +kernel

/-- V11: nine reads of port 1 with A and Start held (R97, R98); bits 7 to 5 are the latch's, here 0x40. -/
theorem test_controller_reads :
    let held : ButtonSet := { ButtonSet.released with a := true, start := true }
    let s := busWrite 0x4016 0 (busWrite 0x4016 1 (State.reset.withInputs held ButtonSet.released))
    let reads := fun (n : Nat) =>
      busValue 0x4016 { (Nat.repeat (fun s => busAfterRead 0x4016 { s with busLatch := 0x40 }) n s) with busLatch := 0x40 }
    (List.range 9).map reads = [0x41, 0x40, 0x40, 0x41, 0x40, 0x40, 0x40, 0x40, 0x41] := by decide +kernel

/-- V12: open bus (R70): `LDA $4FFF,X` with X = 1 reads the latch as its own dummy read left it. -/
theorem test_open_bus : vector [0xBD, 0xFF, 0x4F] (regs 0x00 0x01 0x00 0xFD 0x8000 "I") []
    (regs 0x4F 0x01 0x00 0xFD 0x8003 "I") [] 5 = true := by decide +kernel

/-- R70, log entry 30: with `OPEN_BUS_DECAY` given the latch is the byte driven last until that many cycles have passed, and then a
value nothing fixes. -/
theorem test_open_bus_decay :
    let s := { State.reset with busLatch := 0x40, busDriven := 10, cycle := 13, params := { Params.default with openBusDecay := some 4 } }
    s.openBus = 0x40 ∧ { s with cycle := 14 }.openBus = Config.decayedLatch 0x40 4
    ∧ { s with cycle := 14, params := Params.default }.openBus = 0x40 := by
  refine ⟨?_, ?_, ?_⟩
  all_goals rfl

/-- A machine after two cycles of `LDA $C35A`. -/
def inFlight : State := cyclesAfter 2 ((machineAt (regs 0 0 0 0xFD 0x8000 "I") [(0x035A, 0x77)]).placeBytes 0x8000 [0xAD, 0x5A, 0x03])

/-- R439: from the middle of an instruction a step ends at that instruction's end. -/
theorem test_step_completes :
    (match step inFlight with
      | .next t => t.cpu.regs == regs 0x77 0 0 0xFD 0x8003 "I" && t.cycle == 4 && t.atBoundary
      | .fault _ => false
      | .refused _ => false) = true ∧ inFlight.cycle = 2 ∧ inFlight.atBoundary = false := by decide +kernel

/-- R314: RTS in single cycles: PCL is there after cycle 4, PCH after cycle 5, the increment after cycle 6. -/
theorem test_rts_cycles :
    let s := (machineAt (regs 0 0 0 0xFB 0x8000 "I") [(0x01FC, 0x34), (0x01FD, 0x92)]).placeBytes 0x8000 [0x60]
    (cyclesAfter 4 s).cpu.regs.pc = 0x8034 ∧ (cyclesAfter 5 s).cpu.regs.pc = 0x9234 ∧ (cyclesAfter 6 s).cpu.regs.pc = 0x9235 := by
  decide +kernel

/-- A delta-modulation channel that wants a byte and, `last` being true, takes it for its output unit in the cycle it comes. -/
def wantingByte (last : Bool) : State :=
  { State.reset with
    cycle := if last then 8 else 100
    apu := { State.reset.apu with
      dmc := { State.reset.apu.dmc with buffer := none, remaining := 2, bits := 1, timer := if last then 1 else 60 } }
    dma := { State.reset.dma with dmcPending := true } }

/-- R103, R432: a fetch takes four cycles; where the output unit takes the byte in the cycle it comes, a second one follows at once. -/
theorem test_second_fetch :
    (stalls (wantingByte false)).cycle = 104 ∧ (stalls (wantingByte true)).cycle = 16
    ∧ (stalls (wantingByte true)).apu.dmc.remaining = 0 ∧ (stalls (wantingByte true)).dma.dmcPending = false := by decide +kernel

/-- That channel at the get cycle of the pair with index `i` of an OAM DMA that has `n` cycles to steal. -/
def meeting (i n : Nat) : State :=
  { wantingByte false with dma := { (wantingByte false).dma with oamPending := true, oamIndex := i, stall := n } }

/-- R101, R104: where a collision costs two cycles, the fetch takes a get and a put cycle, and the pair comes in the next get
cycle. -/
theorem test_collision_of_two (h : Config.dmcOamCollisionExtra 5 = 2) :
    let t := dmaCollision (meeting 5 502)
    t.cycle = 102 ∧ t.dma.oamIndex = 5 ∧ t.dma.stall = 502 ∧ t.dma.dmcPending = false ∧ t.apu.dmc.remaining = 1 := by
  have d : (meeting 5 502).defersPair = true := (defersPair_iff _).2 ⟨rfl, Nat.le_of_eq h.symm⟩
  have e : collisionFetch (meeting 5 502) = dmcFetch (meeting 5 504) := by
    unfold collisionFetch
    rw [show (meeting 5 502).collisionExtra = 2 from h]
    rfl
  unfold dmaCollision
  rw [if_pos d, e]
  refine ⟨?_, ?_, ?_, ?_, ?_⟩
  all_goals rfl

/-- R104: where it costs one, the pair is made as it would have been, and one cycle more is left to steal after the last pair. -/
theorem test_collision_of_one (h : Config.dmcOamCollisionExtra 5 = 1) :
    let t := oamGet (oamMeet (meeting 5 502))
    t.cycle = 101 ∧ t.dma.stall = 502 ∧ t.dma.owed = 1 ∧ t.dma.late = true ∧ t.dma.dmcPending = true
    ∧ (lateCycle { t with dma := { t.dma with oamIndex := 256, stall := 1 } }).apu.dmc.remaining = 1 := by
  have e : oamMeet (meeting 5 502) = putOff 1 (meeting 5 502) := by
    unfold oamMeet
    rw [show (meeting 5 502).collisionExtra = 1 from h]
    rfl
  rw [e]
  refine ⟨?_, ?_, ?_, ?_, ?_, ?_⟩
  all_goals rfl

/-- R104: where it costs nothing, the byte comes in the cycle of the pair. -/
theorem test_collision_of_none (h : Config.dmcOamCollisionExtra 5 = 0) :
    let t := oamGet (oamMeet (meeting 5 502))
    t.cycle = 101 ∧ t.dma.stall = 501 ∧ t.dma.owed = 0 ∧ t.apu.dmc.remaining = 1 := by
  have e : oamMeet (meeting 5 502) = dmcTake (meeting 5 502) := by
    unfold oamMeet
    rw [show (meeting 5 502).collisionExtra = 0 from h]
    rfl
  rw [e]
  refine ⟨?_, ?_, ?_, ?_⟩
  all_goals rfl

/-- R104: a fetch that is pending after the last put cycle costs the parameter, not `DMC_STALL`; where that is nothing, the Cpu's
next read is made in the cycle that fetches the byte. -/
theorem test_collision_at_the_end (n : Nat) (h : Config.dmcOamCollisionExtra 256 = n) :
    (oamLast (meeting 256 0)).dma.stall = n
    ∧ (n = 0 → (stalls (oamOver (oamLast (meeting 256 0)))).cycle = 100
        ∧ (stalls (oamOver (oamLast (meeting 256 0)))).apu.dmc.remaining = 1) := by
  have e : oamLast (meeting 256 0) = putOff n (meeting 256 0) := by
    unfold oamLast
    rw [show (meeting 256 0).collisionExtra = n from h]
    rfl
  rw [e]
  refine ⟨Nat.zero_add n, ?_⟩
  rintro rfl
  exact ⟨rfl, rfl⟩

/-- R445: the end of a run is the first boundary with PC at the end address. -/
theorem test_end_of_run :
    let s := (machineAt (regs 0 0 0 0xFD 0x8000 "I") []).placeBytes 0x8000 [0xEA, 0xEA, 0xEA]
    (runToEnd 3 0x8002 s).map (fun t => (t.cpu.regs.pc, t.cycle)) = some (0x8002, 4)
    ∧ (runToEnd 1 0x8002 s).isNone = true ∧ inFlight.endsAt inFlight.cpu.regs.pc = false := by decide +kernel

/-- R423: a power-cycle is a new power-on, after which nothing drawn before is drawn again. -/
theorem test_power_cycle :
    let t := powerCycle { State.reset with draw := 7 }
    t.epoch = 1 ∧ t.draw = 7 ∧ t.cycle = 7 ∧ t.cpu.regs.s = 0xFD := by decide +kernel

/-- R438: a snapshot is taken at a boundary only; one that holds a state in the middle of an instruction, or one of another
variant or of another image of the same variant, is reported. -/
theorem test_snapshots :
    let snap (s : State) (k : MapperKind) : Snapshot :=
      { machine := { s with cart := Cartridge.blank }, identity := State.reset.cart.identity, variant := k }
    let other : State := { State.reset with cart := { State.reset.cart with prg := [(0, 0xEA)] } }
    saveState inFlight = none ∧ loadState (snap inFlight .nrom) State.reset = .error .malformed
    ∧ loadState (snap State.reset .mmc1) State.reset = .error .mismatched
    ∧ loadState (snap State.reset .nrom) other = .error .mismatched
    ∧ loadState (snap State.reset .nrom) State.reset = .ok State.reset := by
  have h : inFlight.atBoundary = false := by decide +kernel
  have save : saveState State.reset
      = some { machine := { State.reset with cart := Cartridge.blank }, identity := State.reset.cart.identity, variant := .nrom } := by
    rfl
  have same : ¬ (State.reset.cart.identity ≠ State.reset.cart.identity
      ∨ MapperKind.nrom ≠ State.reset.cart.mapper) := fun x => x.elim (fun y => y rfl) (fun y => y rfl)
  refine ⟨by simp [saveState, h], ?_, if_pos (.inr (by decide)), loadState_of_other save (by decide), ?_⟩
  · exact (if_neg same).trans (if_neg (by decide +kernel))
  · exact loadState_saveState test_reset_inv save

/-! ## Witnesses: the hypotheses of the obligations can be met -/

theorem witness_EncodeDecode : decode [0x9D, 0x34, 0x12, 0xEA] = .ok (.staAbx 0x1234, [0xEA]) := by rfl

theorem witness_EveryOpcodeDecodes : (encode (.ldaImm 1)).head? = (encode (.ldaImm 2)).head? := by rfl

/-- The premise of the frames about a read byte, at the edges of what memory holds: RAM's last mirror, PRG data's ends. -/
theorem witness_memory_byte :
    let s := machineAt (regs 0 0 0 0xFD 0x8000 "I") [(0x07FF, 0x5A), (0x8000, 0x11), (0xFFFF, 0x22), (0x6000, 0x33), (0x7FFF, 0x44)]
    s.memByte 0x07FF = some 0x5A ∧ s.memByte 0x1FFF = some 0x5A ∧ s.memByte 0x2000 = none ∧ s.memByte 0x401F = none
    ∧ s.memByte 0x4020 = none ∧ s.memByte 0x5FFF = none ∧ s.memByte 0x6000 = some 0x33 ∧ s.memByte 0x7FFF = some 0x44
    ∧ s.memByte 0x8000 = some 0x11 ∧ s.memByte 0xFFFF = some 0x22 := by decide +kernel

/-- The premise of `Takes` and of InstructionCycles, and an instruction boundary. -/
theorem witness_quiet : State.reset.dmaQuiet = true ∧ State.reset.cpu.prog = Progress.idle := by decide +kernel

theorem witness_SignedOverflow : let r := regs 0x7F 0 0 0xFD 0x8000 "IC"
    r.a = 0x7F ∧ r.p.c = true := by decide

/-- The premises of Jumps: the pointer's bytes are in memory, at a page's end. -/
theorem witness_Jumps : let s := machineAt (regs 0 0 0 0xFD 0x8000 "I") [(0x02FF, 0x34), (0x0200, 0x12)]
    s.memByte 0x02FF = some 0x34 ∧ s.memByte (word (hi 0x02FF) (lo 0x02FF + 1)) = some 0x12 := by decide +kernel

/-- The premises of Subroutines: JSR's third byte is where it was placed, and not on the stack. -/
theorem witness_Subroutines :
    let s := (machineAt (regs 0 0 0 0xFD 0x8000 "I") []).placeBytes 0x8000 [0x20, 0x34, 0x90]
    let t := execJsr 0x9034 s
    (match t with
      | .next t => t.memByte (s.cpu.regs.pc + 2) == some (hi 0x9034)
      | .fault _ => false
      | .refused _ => false) = true := by decide +kernel

/-- A halted machine, with an interrupt pending. -/
def haltedMachine : State :=
  { State.reset with cpu := { State.reset.cpu with halted := true, nmiPending := true, intDetected := true } }

theorem witness_JamHaltsTheCpu : haltedMachine.cpu.halted = true := by rfl

theorem witness_StepRunsDecoded :
    let s := (machineAt (regs 0 0 0 0xFD 0x8000 "I") []).placeBytes 0x8000 [0x9D, 0x34, 0x12]
    s.cpu.prog = Progress.idle ∧ s.cpu.halted = false ∧ s.cpu.intDetected = false ∧ decode [0x9D, 0x34, 0x12] = .ok (.staAbx 0x1234, [])
    ∧ s.memByte s.cpu.regs.pc = some 0x9D ∧ s.memByte (s.cpu.regs.pc + 1) = some 0x34
    ∧ s.memByte (s.cpu.regs.pc + 2) = some 0x12 := by
  refine ⟨?_, ?_, ?_, ?_, ?_, ?_, ?_⟩
  all_goals rfl

theorem witness_InstructionCycles_halted : haltedMachine.dmaQuiet = true ∧ haltedMachine.cpu.halted = true := by decide +kernel

/-- StepIsCycles: after reset, in the middle of an instruction, with a delta-modulation fetch or an OAM DMA pending, in the middle of
either, and a halted Cpu. -/
theorem witness_StepIsCycles :
    State.reset.dmaSound = true ∧ inFlight.dmaSound = true ∧ (wantingByte false).dmaSound = true
    ∧ (stepCycle (wantingByte false)).dmaSound = true ∧ (stepCycle (wantingByte false)).dma.stall = 3
    ∧ { State.reset with dma := { State.reset.dma with oamPending := true } }.dmaSound = true
    ∧ (stepCycle { State.reset with dma := { State.reset.dma with oamPending := true } }).dmaSound = true
    ∧ haltedMachine.dmaSound = true := by decide +kernel

theorem witness_InterruptEntry :
    let s := { State.reset with cpu := { State.reset.cpu with intDetected := true } }
    s.cpu.prog = Progress.idle ∧ s.cpu.halted = false ∧ s.cpu.intDetected = true := by decide

theorem witness_HaltedCpuKeepsDetecting : haltedMachine.cpu.halted = true ∧ haltedMachine.cpu.nmiPending = true := by decide

/-- BranchPoll: BNE at a page's end, taken across the page, taken inside it, and not taken. -/
theorem witness_BranchPoll :
    branchInstrs[6]?.isSome = true
    ∧ (let next : Addr := 0x80FD + 2; hi (next + sext 1) ≠ hi next ∧ hi (next + sext 0) = hi next)
    ∧ (branchInstrs[6]?.map (fun p => (p.2 (regs 0 0 0 0 0 "").p, p.2 (regs 0 0 0 0 0 "Z").p))) = some (true, false) := by
  decide

/-- Detectors: a cycle whose last dot makes (241, 1) with the NMI enable set: the line rises. -/
def beforeVblank : State :=
  { State.reset with ppu := { State.reset.ppu with vblank := false, ctrl := 0x80, scanline := 240, dot := 339 } }

theorem witness_Detectors_rise :
    ((stepCycle beforeVblank).cpu.nmiPrev && !beforeVblank.cpu.nmiPrev) = true ∧ (stepCycle beforeVblank).cpu.nmiPending = true := by
  decide +kernel

/-- A machine whose Ppu is at a dot of line 241, with the NMI enable set. -/
def onLine241 (race : Bool) (dot : Nat) (vblank : Bool) : State :=
  { State.reset with
    params := { Params.default with vblRaceSuppression := race }
    ppu := { State.reset.ppu with vblank := vblank, ctrl := 0x80, scanline := 241, dot := dot } }

/-- R383: a status read that coincides with the dot that sets the flag suppresses flag and NMI when the parameter is on; with the
document's order the flag is then set and the NMI raised. -/
theorem test_vblank_race_same_dot :
    let on := readCycle false 0x2002 (onLine241 true 0 false)
    let off := readCycle false 0x2002 (onLine241 false 0 false)
    on.ppu.vblank = false ∧ on.cpu.nmiPending = false ∧ off.ppu.vblank = true ∧ off.cpu.nmiPending = true := by decide +kernel

/-- R383: a status read one dot later returns the flag and suppresses the NMI when the parameter is on; with the document's order
the NMI was latched before it. -/
theorem test_vblank_race_next_dot :
    let before (race : Bool) : State := endCycle false { onLine241 race 0 false with ppu := { beforeVblank.ppu with dot := 339 } }
    let after (race : Bool) : State := readCycle false 0x2002 (before race)
    (before true).ppu.dot = 1 ∧ (busValue 0x2002 (before true)).getLsbD 7 = true ∧ (after true).cpu.nmiPending = false
    ∧ (after false).cpu.nmiPending = true := by decide +kernel

/-- Detectors: the fifth cycle of BRK and of an interrupt sequence, where a pending NMI is taken. -/
def beforeVectorChoice (f : InFlight) : State :=
  { State.reset with
    cpu := { State.reset.cpu with nmiPending := true, prog := { Progress.idle with ir := f, tcycle := 4 } }
    ppu := { State.reset.ppu with vblank := false } }

theorem witness_Detectors_taken :
    (beforeVectorChoice (.opcode 0)).cpu.nmiPending = true ∧ (stepCycle (beforeVectorChoice (.opcode 0))).cpu.nmiPending = false
    ∧ (beforeVectorChoice .int).cpu.nmiPending = true ∧ (stepCycle (beforeVectorChoice .int)).cpu.nmiPending = false := by
  decide +kernel

theorem witness_RamMirrors : (0x1FFF : Addr).toNat ≤ 0x1FFF ∧ (0x0FFF : Addr).toNat ≤ 0x1FFF
    ∧ (0x0FFF : Addr) &&& 0x07FF = 0x1FFF &&& 0x07FF := by decide

/-- OpenBus: the first and last addresses of each range; UXROM maps nothing below 0x8000. -/
theorem witness_OpenBus :
    (0x4000 ≤ (0x4014 : Addr).toNat ∧ (0x4014 : Addr).toNat ≤ 0x4014)
    ∧ (0x4018 ≤ (0x4018 : Addr).toNat ∧ (0x5FFF : Addr).toNat ≤ 0x5FFF)
    ∧ (0x6000 ≤ (0x6000 : Addr).toNat ∧ (0x7FFF : Addr).toNat ≤ 0x7FFF
      ∧ ({ regs := .uxrom 0, prgRam := [], chrRam := [], ntRam := [] } : Mapper).ramReadable Params.default = false)
    ∧ (0x4016 : Addr).toNat ≠ 0x4015 ∧ ¬ ((0x4016 : Addr).toNat ≤ 0x4014) ∧ ¬ (0x4018 ≤ (0x4017 : Addr).toNat)
    ∧ State.reset.params.openBusDecay = none ∧ { Params.default with openBusDecay := some 4 }.openBusDecay = some 4 := by decide

theorem witness_PpuStatusRead :
    0x2000 ≤ (0x2002 : Addr).toNat ∧ (0x3FFA : Addr).toNat ≤ 0x3FFF ∧ (0x2002 : Addr).toNat % 8 = 2 ∧ (0x3FFA : Addr).toNat % 8 = 2 := by
  decide

/-- ScrollAndAddressWrites: each register with the toggle at 0 and at 1, at the first and last mirror. -/
theorem witness_ScrollAndAddressWrites :
    (0x2005 : Addr).toNat % 8 = 5 ∧ (0x3FFD : Addr).toNat % 8 = 5 ∧ (0x2006 : Addr).toNat % 8 = 6 ∧ (0x3FFE : Addr).toNat % 8 = 6
    ∧ State.reset.ppu.w = false ∧ (busWrite 0x2005 0 State.reset).ppu.w = true ∧ (busWrite 0x3FFE 0 State.reset).ppu.w = true := by
  decide +kernel

/-- PpuDataPort: rendering not in progress with the address on either side of the palette's first, and rendering in progress. -/
theorem witness_PpuDataPort :
    (0x2007 : Addr).toNat % 8 = 7 ∧ (0x3FFF : Addr).toNat % 8 = 7 ∧ State.reset.ppu.active State.reset.params.region = false
    ∧ { State.reset.ppu with v := 0x3EFF }.v.toNat % 0x4000 < 0x3F00 ∧ 0x3F00 ≤ { State.reset.ppu with v := 0x3F00 }.v.toNat % 0x4000
    ∧ { State.reset.ppu with mask := 0x08 }.active .ntsc = true := by decide +kernel

/-- VblankFlag: a dot step that makes (241, 1), one that makes dot 1 of the pre-render line, one that makes dot 280 and one
that makes dot 304 of it with rendering enabled, one that makes none of these. -/
theorem witness_VblankFlag :
    { State.reset.ppu with scanline := 241, dot := 0, ctrl := 0x80 }.nextPosition .ntsc = (241, 1)
    ∧ { State.reset.ppu with scanline := 261, dot := 0 }.nextPosition .ntsc = (preRenderLine .ntsc, 1)
    ∧ { State.reset.ppu with scanline := 311, dot := 0 }.nextPosition .pal = (preRenderLine .pal, 1)
    ∧ { State.reset.ppu with scanline := 261, dot := 279, mask := 0x18 }.nextPosition .ntsc = (preRenderLine .ntsc, 280)
    ∧ { State.reset.ppu with scanline := 261, dot := 303, mask := 0x18 }.nextPosition .ntsc = (preRenderLine .ntsc, 304)
    ∧ { State.reset.ppu with mask := 0x18 }.rendering = true
    ∧ State.reset.ppu.nextPosition .ntsc = (0, 22) := by decide +kernel

/-- DotPosition: the end of a frame by the odd-frame skip and without it, and a step inside a frame. -/
theorem witness_DotPosition :
    { State.reset.ppu with scanline := 261, dot := 339, mask := 0x08, oddFrame := true }.nextPosition .ntsc = (0, 0)
    ∧ { State.reset.ppu with scanline := 261, dot := 339, mask := 0x08 }.nextPosition .ntsc = (261, 340)
    ∧ { State.reset.ppu with scanline := 261, dot := 340 }.nextPosition .ntsc = (0, 0)
    ∧ { State.reset.ppu with scanline := 311, dot := 340 }.nextPosition .pal = (0, 0) := by decide +kernel

/-- OamDma: a transfer pending from a page of RAM, in an even and in an odd cycle. -/
theorem witness_OamDma :
    let s := (machineAt (regs 0 0 0 0xFD 0x8000 "I") [(0x02FF, 0x5A)])
    let t := { s with cycle := 11, dma := { s.dma with oamPending := true, oamPage := 2 } }
    t.dma.oamPending = true ∧ t.dma.dmcPending = false ∧ t.dma.stall = 0 ∧ t.apu.dmc.remaining = 0 ∧ t.ppu.rendering = false
    ∧ t.memByte (word t.dma.oamPage 0xFF) = some 0x5A ∧ t.cycle % 2 = 1 ∧ { t with cycle := 12 }.cycle % 2 ≠ 1 := by decide +kernel

/-- ApuStatus: the delta-modulation bit with no byte left and with bytes left; a disabled channel. -/
theorem witness_ApuStatus :
    (0x10 : Byte).getLsbD 4 = true ∧ (0x0F : Byte).getLsbD 4 = false ∧ State.reset.apu.dmc.remaining = 0
    ∧ { State.reset.apu.dmc with remaining := 1 }.remaining ≠ 0 ∧ (3 < 4 ∧ (0x07 : Byte).getLsbD 3 = false)
    ∧ (0 < 4 ∧ (0x0E : Byte).getLsbD 0 = false) := by decide +kernel

/-- NoiseShiftRegister: an expired and a running timer, a silent and a sounding register. -/
theorem witness_NoiseShiftRegister :
    Noise.powerOn.timer = 0 ∧ Noise.powerOn.lfsr ≠ 0 ∧ { Noise.powerOn with timer := 1 }.timer ≠ 0
    ∧ Noise.powerOn.lfsr.toNat % 2 = 1 ∧ ({ Noise.powerOn with lfsr := 2, length := 1 }.lfsr.toNat % 2 = 0
      ∧ { Noise.powerOn with lfsr := 2, length := 1 }.length ≠ 0) := by decide

/-- DmcReader: the last byte with and without loop, a byte that is not the last; a silent and a sounding output unit, its last
bit with an empty and a full buffer. -/
theorem witness_DmcReader :
    ({ Dmc.powerOn with remaining := 1 }.remaining - 1 = 0 ∧ { Dmc.powerOn with ctrl := 0x40 }.ctrl.getLsbD 6 = true)
    ∧ Dmc.powerOn.ctrl.getLsbD 6 = false ∧ { Dmc.powerOn with remaining := 2 }.remaining - 1 ≠ 0
    ∧ Dmc.powerOn.silence = true ∧ { Dmc.powerOn with silence := false }.silence = false
    ∧ Dmc.powerOn.bits - 1 ≠ 0 ∧ { Dmc.powerOn with bits := 1 }.bits - 1 = 0
    ∧ { Dmc.powerOn with buffer := some 0x55 }.buffer = some 0x55 := by decide

/-- Mmc1Serial: the port empty, five addresses and values without bit 7, and a value with it. -/
theorem witness_Mmc1Serial :
    MapperRegs.powerOn 0 .mmc1 = .mmc1 { shift := 0, count := 0, control := 0x0C, chr0 := 0, chr1 := 0, prg := 0 }
    ∧ (∀ a ∈ [0x8000, 0x9FFF, 0xA000, 0xC000, 0xFFFF], 0x8000 ≤ a)
    ∧ (∀ v ∈ [(0x00 : Byte), 0x01, 0x7E, 0x7F, 0x01], v.getLsbD 7 = false) ∧ (0x80 : Byte).getLsbD 7 = true := by decide

/-- Mmc3ScanlineInterrupt: a qualifying rise of bit 12, one too early, no rise; each register's first and last address. -/
theorem witness_Mmc3ScanlineInterrupt :
    let r : Mmc3 :=
      { bankSelect := 0, banks := List.replicate 8 0, mirror := false, ramProtect := 0, irqLatch := 3, irqCounter := 0,
        irqReload := true, irqEnable := true, irqFlag := false, a12 := false, a12Low := 9 }
    let p := Params.default
    (0x1000 / 4096 % 2 = 1 ∧ r.a12 = false ∧ p.mmc3A12Filter ≤ r.a12Low)
    ∧ ¬ (0x1000 / 4096 % 2 = 1 ∧ r.a12 = false ∧ p.mmc3A12Filter ≤ { r with a12Low := 8 }.a12Low)
    ∧ ¬ (0x0FFF / 4096 % 2 = 1 ∧ r.a12 = false ∧ p.mmc3A12Filter ≤ r.a12Low)
    ∧ 0xC000 ≤ 0xC000 ∧ 0xDFFF < 0xE000 ∧ ¬ 0xE000 < 0xE000 ∧ 0xFFFF ≤ 0xFFFF := by decide

/-- NromAndUxromBanks: an image of each variant, the addresses at the edges of each clause, CHR data and CHR RAM. -/
theorem witness_NromAndUxromBanks :
    1 ≤ Cartridge.blank.prgBanks ∧ (0x8000 ≤ 0x8000 ∧ 0x8000 < 0xC000 ∧ 1 < Cartridge.blank.prgBanks) ∧ 0xC000 ≤ 0xC000
    ∧ (0x6000 ≤ 0x7FFF ∧ 0x7FFF ≤ 0x7FFF ∧ Params.default.nromPrgRam = true) ∧ 0x5FFF < 0x6000
    ∧ (0x7FFF ≤ 0x7FFF ∧ { Params.default with nromPrgRam := false }.nromPrgRam = false)
    ∧ Cartridge.blank.chrBanks = 1 ∧ { Cartridge.blank with chrBanks := 0 }.chrBanks = 0 ∧ 0x1FFF < 0x2000 := by decide

theorem witness_PowerOnState : Params.default.region = .ntsc ∧ { Params.default with region := .pal }.region ≠ .ntsc := by decide

theorem witness_HostReset : State.reset.params.region = .ntsc := by decide

theorem witness_MemoryAccessKeepsDeviceRegisters :
    ((0x1FFF : Addr).toNat < 0x2000 ∨ 0x4020 ≤ (0x1FFF : Addr).toNat) ∧ ((0x4020 : Addr).toNat < 0x2000 ∨ 0x4020 ≤ (0x4020 : Addr).toNat)
    ∧ State.reset.dmaQuiet = true := by decide +kernel

theorem witness_StepKeepsInvariant : State.reset.inv = true := test_reset_inv

end Sys2Proof.Tests
end

section
/-! SUPPORT. Every step goes on (R14, R355, R443): one relation between a state and a later one, kept by everything the induction
of `Laws/Closed.lean` asks for. -/

namespace Sys2Proof.Machine

/-- `t` is the same machine as `s`, at the same time or later: the image, the parameters and the power-on number are those of
`s`, and the cycle counter has not fallen. -/
structure Advances (s t : State) : Prop where
  cart   : t.cart = s.cart
  params : t.params = s.params
  epoch  : t.epoch = s.epoch
  cycle  : s.cycle ≤ t.cycle

theorem Advances.refl (s : State) : Advances s s := ⟨rfl, rfl, rfl, le_rfl⟩

theorem Advances.trans {s t u : State} (h : Advances s t) (h' : Advances t u) : Advances s u :=
  ⟨h'.cart.trans h.cart, h'.params.trans h.params, h'.epoch.trans h.epoch, h.cycle.trans h'.cycle⟩

/-- What `Kept` says of the machine and a count of the cycles in between. -/
theorem Kept.advances {s t : State} (k : Kept s t) (n : Nat) (hc : t.cycle = s.cycle + n) : Advances s t :=
  ⟨k.cart, k.params, k.epoch, hc ▸ Nat.le_add_right _ n⟩

/-! ## Single cycles -/

theorem endCycle_advances (w : Bool) (s : State) : Advances s (endCycle w s) :=
  (endCycle_kept w s).advances 1 (endCycle_cycle w s)

theorem idleStall_advances (s : State) : Advances s (idleStall s) :=
  (idleStall_kept s).advances 1 (endCycle_cycle _ _)

theorem dmcTake_advances (s : State) : Advances s (dmcTake s) :=
  (dmcTake_kept s).advances 0 (dmcTake_cycle s)

theorem dmcFetch_advances (s : State) : Advances s (dmcFetch s) :=
  (dmcFetch_kept s).advances 1 (by rw [dmcFetch, endCycle_cycle, dmcTake_cycle])

theorem busAfterRead_advances (a : Addr) (s : State) : Advances s (busAfterRead a s) := by
  obtain ⟨-, -, hc⟩ := busAfterRead_fields a s
  exact (busAfterRead_kept a s).advances 0 hc

theorem oamGet_advances (s : State) : Advances s (oamGet s) := by
  obtain ⟨-, -, hc⟩ := busAfterRead_fields (word s.dma.oamPage (BitVec.ofNat 8 s.dma.oamIndex)) s
  exact (oamGet_kept s).advances 1 (by rw [oamGet, endCycle_cycle, hc])

theorem oamPut_advances (s : State) : Advances s (oamPut s) :=
  (oamPut_kept s).advances 1 (by rw [oamPut, endCycle_cycle, busWrite_cycle])

/-- The DMA units keep the machine, and every cycle they steal counts. -/
theorem advances_dmaClosed (s : State) : DmaClosed (Advances s) where
  fields _ _ h := ⟨h.cart, h.params, h.epoch, h.cycle⟩
  idle _ h := h.trans (idleStall_advances _)
  take _ h := h.trans (dmcTake_advances _)
  fetch _ h := h.trans (dmcFetch_advances _)
  get _ h := h.trans (oamGet_advances _)
  put _ h := h.trans (oamPut_advances _)

theorem stalls_advances (s : State) : Advances s (stalls s) := (advances_dmaClosed s).stalls (.refl s)

/-- The poll and the micro-op position, after the stolen cycles, take no time. -/
theorem beginRead_advances (p : Bool) (s : State) : Advances s (beginRead p s) := by
  refine (stalls_advances s).trans ?_
  cases p <;> exact ⟨rfl, rfl, rfl, le_rfl⟩

/-- A read cycle of the Cpu, with the cycles DMA steals in front of it. -/
theorem readCycle_advances (p : Bool) (a : Addr) (s : State) : Advances s (readCycle p a s) :=
  ((beginRead_advances p s).trans (busAfterRead_advances a _)).trans (endCycle_advances false _)

/-- A write cycle of the Cpu: whatever the byte reaches, it is neither the image nor a parameter. -/
theorem writeCycle_advances (p : Bool) (a : Addr) (v : Byte) (s : State) : Advances s (writeCycle p a v s) := by
  obtain ⟨-, -, hcart, hparams, hepoch⟩ := writeCycle_storedAt p a v s
  exact ⟨hcart, hparams, hepoch, by rw [writeCycle_cycle]; exact Nat.le_succ _⟩

/-- A cycle of the halted Cpu takes one cycle, whether a DMA unit owns it or not. -/
theorem haltedCycle_cycle (s : State) : (haltedCycle s).cycle = s.cycle + 1 := by
  unfold haltedCycle dmcStallCycle
  dsimp only
  split
  · split <;> split <;> simp [idleStall, dmcFetch]
  · exact endCycle_cycle _ _

theorem haltedCycle_advances (s : State) : Advances s (haltedCycle s) :=
  (haltedCycle_kept s).advances 1 (haltedCycle_cycle s)

/-! ## Instructions and steps -/

/-- Every part of a step keeps the machine and lets no time run back. -/
theorem advances_closed (s : State) : Closed (Advances s) where
  read _ _ _ h := h.trans (readCycle_advances _ _ _)
  write _ _ _ _ h := h.trans (writeCycle_advances _ _ _ _)
  regs _ _ h := ⟨h.cart, h.params, h.epoch, h.cycle⟩
  prog _ _ h := ⟨h.cart, h.params, h.epoch, h.cycle⟩
  nmi _ _ h := ⟨h.cart, h.params, h.epoch, h.cycle⟩
  int _ h := ⟨h.cart, h.params, h.epoch, h.cycle⟩
  halt _ h := ⟨h.cart, h.params, h.epoch, h.cycle⟩

/-- Every instruction answers a later state of the same machine. -/
theorem exec_advances (i : Instr) (s : State) : ∃ t, exec i s = .next t ∧ Advances s t := (advances_closed s).exec i (.refl s)

/-- Every step answers a later state of the same machine. -/
theorem step_advances (s : State) : ∃ t, step s = .next t ∧ Advances s t :=
  (advances_closed s).step (fun _ h => h.trans (haltedCycle_advances _)) (.refl s)

/-- Settles O33: `Advances` is kept by every part of a step, so every instruction and every step answers a state it holds of. -/
theorem everyStepContinues : Obligations.EveryStepContinues := by
  intro s
  refine ⟨fun i => ?_, ?_⟩
  · obtain ⟨t, ht, a⟩ := exec_advances i s
    exact ⟨t, ht, a.cart, a.params, a.epoch, a.cycle⟩
  · obtain ⟨t, ht, a⟩ := step_advances s
    exact ⟨t, ht, a.cart, a.params, a.epoch, a.cycle⟩

end Sys2Proof.Machine
end

section
/-! SUPPORT. The byte of P (R24): what pushing it and pulling it back does to the flags. -/

namespace Sys2Proof.Machine

/-- Each flag comes back from the bit it was pushed in. -/
theorem Flags.unpack_pack (p : Flags) (b : Bool) : Flags.unpack (p.pack b) = p := by
  simp only [Flags.unpack, Flags.pack, BitVec.getLsbD_append]
  simp

/-- Bits 5 and 4 set. -/
theorem Flags.unpack_or_30 (v : Byte) : Flags.unpack (v ||| 0x30) = Flags.unpack v := by
  simp [Flags.unpack]

/-- Bits 5 and 4 cleared. -/
theorem Flags.unpack_and_CF (v : Byte) : Flags.unpack (v &&& 0xCF) = Flags.unpack v := by
  simp [Flags.unpack]

/-- Settles O5: the byte bit by bit (`pack_eq`, `unpack_eq`), and back. -/
theorem statusByte : Obligations.StatusByte :=
  fun p b v => ⟨pack_eq p b, unpack_eq v, p.unpack_pack b, Flags.unpack_or_30 v, Flags.unpack_and_CF v⟩

end Sys2Proof.Machine
end

section
/-! SUPPORT. A step is single cycles (R430, R439). The fetched instruction and the interrupt sequence are rows
(`Laws/CycleMachine.lean`), what is in flight completes by rows (`Laws/Completion.lean`), and rows are cycles
(`Laws/DmaCycles.lean`). -/

namespace Sys2Proof.Machine

/-! ## The fetched instruction -/

/-- A sequence that uses fewer operand bytes asks less of the bus. -/
theorem Fetches.mono {j k : Nat} {a : Addr} {s : State} (h : Fetches k a s) (hj : j ≤ k) : Fetches j a s :=
  ⟨fun h1 => h.b1 (h1.trans hj), fun h2 => h.b2 (h2.trans hj)⟩

/-- The operand `exec` is given is the one the operand cycles read, for as many bytes as the opcode's format has. -/
theorem exec_fetched_operand (s : State) :
    ∃ a, exec s.fetched s = .next ((shapeOf s.params s.nextOpcode).run a s)
      ∧ Fetches (Format.operandBytes (formatOf s.nextOpcode)) a (fetchOpcode s) := by
  refine ⟨_, exec_fetched s, ?_⟩
  cases formatOf s.nextOpcode with
  | f1 i => exact ⟨fun h => absurd h (Nat.not_succ_le_zero 0), fun h => absurd h (Nat.not_succ_le_zero 1)⟩
  | f2 i => exact ⟨fun _ => (lo_word 0 _).symm, fun h => absurd h (Nat.not_succ_le_self 1)⟩
  | f3 i => exact ⟨fun _ => (lo_word _ _).symm, fun _ => (hi_word _ _).symm⟩

/-- `formatOf_operands`, whatever the parameters. -/
theorem shapeOf_operandBytes_le (p : Params) (op : Byte) :
    (shapeOf p op).operandBytes ≤ Format.operandBytes (formatOf op) ∧ (shapeOf p op).unstableIndexed = true := by
  obtain ⟨hb, hu⟩ := Prod.mk.inj (shapeOf_operands p Params.default op)
  rw [hb, hu]
  exact formatOf_operands op

/-- The instruction at PC is its rows, and they end at a boundary. -/
theorem exec_fetched_rows {s : State} (nh : s.cpu.halted = false) (ni : s.cpu.intDetected = false)
    (hp : s.cpu.prog = Progress.idle) :
    ∃ n, 1 ≤ n ∧ exec s.fetched s = .next (rowsAfter n s) ∧ (rowsAfter n s).cpu.prog = Progress.idle := by
  obtain ⟨first, ready⟩ := rowStep_boundary nh ni hp
  obtain ⟨a, hexec, fetches⟩ := exec_fetched_operand s
  obtain ⟨bytes, indexed⟩ := shapeOf_operandBytes_le s.params s.nextOpcode
  obtain ⟨n, hn⟩ := reach_shape _ ready (fetches.mono bytes) (fun m v o e => by rwa [e] at indexed)
  have rows : rowsAfter (n + 1) s = (shapeOf s.params s.nextOpcode).run a s := by
    rw [← hn, ← first]
    rfl
  exact ⟨n + 1, Nat.le_add_left 1 n, by rw [rows]; exact hexec, by rw [rows]; exact run_idle _ _ _⟩

/-! ## The step, case by case -/

/-- A halted Cpu lets one cycle pass. -/
theorem step_halted {s : State} (h : s.cpu.halted = true) : step s = .next (stepCycle s) ∧ stepCycle s = haltedCycle s := by
  simp [step, stepCycle, h]

/-- From a boundary a step is rows: of the instruction at PC, or of the interrupt sequence. -/
theorem step_rows {s : State} (nh : s.cpu.halted = false) (hp : s.cpu.prog = Progress.idle) :
    ∃ n, 1 ≤ n ∧ step s = .next (rowsAfter n s) ∧ (rowsAfter n s).cpu.prog = Progress.idle := by
  have hb : s.atBoundary = true := by simp [State.atBoundary, hp]
  simp only [step, nh, hb]
  cases ni : s.cpu.intDetected with
  | false => exact exec_fetched_rows nh ni hp
  | true =>
    obtain ⟨n, hn, rows⟩ := reach_int nh ni hp
    exact ⟨n, hn, by rw [rows]; rfl, by rw [rows]; rfl⟩

/-- What is in flight takes a cycle at least: the boundary it ends at is not where it began. -/
theorem completeInFlight_cycles {s : State} (nh : s.cpu.halted = false) (hb : s.atBoundary = false)
    (q : s.dmaSound = true) : ∃ n, 1 ≤ n ∧ cyclesAfter n s = completeInFlight s := by
  obtain ⟨n, cycles⟩ := runRows_cycles 8 q
  refine ⟨n, Nat.one_le_iff_ne_zero.2 fun h0 => ?_, cycles⟩
  subst h0
  have same : s = completeInFlight s := cycles
  have hp : s.cpu.prog = Progress.idle := by
    rw [same]
    exact completeInFlight_idle nh
  simp [State.atBoundary, hp] at hb

/-- A step of a running Cpu is cycles up to a boundary, in the middle of an instruction too. -/
theorem step_cycles_of_running {s : State} (nh : s.cpu.halted = false) (q : s.dmaSound = true) :
    ∃ n, 1 ≤ n ∧ step s = .next (cyclesAfter n s) ∧ (cyclesAfter n s).cpu.prog = Progress.idle := by
  cases hb : s.atBoundary with
  | false =>
    obtain ⟨n, hn, cycles⟩ := completeInFlight_cycles nh hb q
    have hstep : step s = .next (completeInFlight s) := by simp [step, nh, hb]
    exact ⟨n, hn, by rw [cycles]; exact hstep, by rw [cycles]; exact completeInFlight_idle nh⟩
  | true =>
    obtain ⟨r, hr, hstep, idle⟩ := step_rows nh (by simpa [State.atBoundary] using hb)
    obtain ⟨n, hn, cycles⟩ := rowsAfter_cycles r q
    exact ⟨n, hr.trans hn, by rw [cycles]; exact hstep, by rw [cycles]; exact idle⟩

/-- A step is one cycle of a halted Cpu, otherwise cycles up to a boundary. -/
theorem step_cycles {s : State} (q : s.dmaSound = true) :
    ∃ n, 1 ≤ n ∧ step s = .next (cyclesAfter n s) ∧ (s.cpu.halted = true → n = 1)
      ∧ (s.cpu.halted = false → (cyclesAfter n s).cpu.prog = Progress.idle) := by
  cases h : s.cpu.halted with
  | true => exact ⟨1, le_rfl, (step_halted h).1, fun _ => rfl, nofun⟩
  | false =>
    obtain ⟨n, hn, hstep, idle⟩ := step_cycles_of_running h q
    exact ⟨n, hn, hstep, nofun, fun _ => idle⟩

/-- Settles O35: `step_cycles`, with `stepCycle_sound` for the single cycle. -/
theorem stepIsCycles : Obligations.StepIsCycles := by
  intro s q
  obtain ⟨n, hn, hstep, halted, running⟩ := step_cycles q
  exact ⟨stepCycle_sound q, n, hn, hstep, halted, fun nh => by simp [State.atBoundary, running nh]⟩

end Sys2Proof.Machine
end

section
/-! SUPPORT. The invariant: memories and counters fit after a step because every part of a step keeps them (`fits_closed`); the
DMA units are where single cycles can leave them because a step is single cycles. -/

namespace Sys2Proof.Machine

/-- After a step the DMA units are where single cycles can leave them. -/
theorem step_sound {s t : State} (q : s.dmaSound = true) (ht : step s = .next t) : t.dmaSound = true := by
  obtain ⟨n, -, hstep, -⟩ := step_cycles q
  cases hstep.symm.trans ht
  exact cyclesAfter_sound n q

/-- A step from a boundary ends at one; a halted Cpu stays at its own. -/
theorem step_idle {s t : State} (q : s.dmaSound = true) (hp : s.cpu.prog = Progress.idle) (ht : step s = .next t) :
    t.cpu.prog = Progress.idle := by
  cases h : s.cpu.halted with
  | true =>
    obtain ⟨hstep, hcycle⟩ := step_halted h
    cases hstep.symm.trans ht
    rw [hcycle, haltedCycle_prog, hp]
  | false =>
    obtain ⟨n, -, hstep, -, running⟩ := step_cycles q
    cases hstep.symm.trans ht
    exact running h

/-- Settles O59: `fits_closed` for memories, counters and mapper, `step_sound` for the DMA units, `step_idle` for the
boundary. -/
theorem stepKeepsInvariant : Obligations.StepKeepsInvariant := by
  intro s h
  obtain ⟨fits, sound, idle⟩ := s.inv_iff.1 h
  obtain ⟨t, ht, fits'⟩ := fits_closed.step (fun _ => haltedCycle_fits) fits
  exact ⟨t, ht, t.inv_iff.2 ⟨fits', step_sound sound ht, step_idle sound idle ht⟩⟩

/-- The machine after reset, memory by memory and counter by counter. -/
theorem reset_fits : State.reset.Fits where
  ram := rfl
  ppu := (Ppu.fits_iff _ _).1 ⟨by decide, by decide⟩
  apu := by decide
  mapper := (Mapper.fits_iff _ _).1 (by decide)
  index := Nat.zero_le _

/-- Settles O60: `reset_fits`, with no DMA unit at work and nothing in flight. -/
theorem resetInvariant : Obligations.ResetInvariant := State.reset.inv_iff.2 ⟨reset_fits, by decide, rfl⟩

end Sys2Proof.Machine
end

section
/-! SUPPORT. Power-on and reset (R44 to R46, R421, R422): both run the reset sequence from a machine that `Resetting` holds of at
its cycle 0. -/

namespace Sys2Proof.Machine

theorem Ppu.rendering_of_mask {p : Ppu} (h : p.mask = 0) : p.rendering = false := by
  simp [Ppu.rendering, h]

/-- The word at the reset vector is the same in the same memory. -/
theorem Same.resetWord {s t : State} (h : Same s t) : t.vectorWord 0xFFFC = s.vectorWord 0xFFFC :=
  State.vectorWord_congr (fun a _ => h.memByte a) _ (by decide) (by decide)

theorem started_resetting (cart : Cartridge) (params : Params) (epoch : Nat) (prgRam : Memory) :
    Resetting (State.powerOn cart params epoch prgRam) (State.started cart params epoch prgRam) 7 :=
  resetSequence_resetting
    { still := ⟨Ppu.rendering_of_mask rfl, rfl, rfl⟩, dma := rfl, ctrl := rfl, mask := rfl, en := rfl, nmi := rfl, int := rfl
      cycle := rfl, place := fun _ => ⟨rfl, rfl, rfl⟩, same := .refl _ }
    ⟨rfl, rfl⟩

theorem hostReset_resetting (s : State) : Resetting s.resetRequest (hostReset s) 7 :=
  resetSequence_resetting
    { still := ⟨Ppu.rendering_of_mask rfl, rfl, rfl⟩, dma := rfl, ctrl := rfl, mask := rfl, en := rfl, nmi := rfl, int := rfl
      cycle := rfl, place := fun _ => ⟨rfl, rfl, rfl⟩, same := .refl _ }
    ⟨rfl, rfl⟩

theorem hostReset_quiet (s : State) : (hostReset s).dmaQuiet = true := by
  have h := hostReset_resetting s
  exact (dmaQuiet_iff _).2 ⟨congrArg Dma.oamPending h.dma, h.still.pending, congrArg Dma.stall h.dma, h.still.remaining⟩

/-- Settles O56: `resetSequence_regs` from the power-on registers, and `started_resetting` for everything else. -/
theorem powerOnState : Obligations.PowerOnState := by
  intro cart params epoch prgRam
  have h := started_resetting cart params epoch prgRam
  refine ⟨?_, rfl, h.same.halted, h.int, h.nmi, h.cycle, h.same.ramByte, h.same.mapper.prgRam, h.same.cart, h.same.params,
    h.ctrl, h.mask, h.en, h.place⟩
  rw [h.same.resetWord]
  exact resetSequence_regs _

/-- Settles O57: `resetSequence_regs` from the registers reset finds, and `hostReset_resetting` for everything else. The name
`hostReset` is the model's function. -/
theorem hostReset_spec : Obligations.HostReset := by
  intro s
  have h := hostReset_resetting s
  exact ⟨resetSequence_regs _, h.same.halted, h.int, h.nmi, rfl, h.same.sameMemory, h.cycle, h.ctrl, h.mask, h.en,
    h.still.remaining, hostReset_quiet s, h.place⟩

end Sys2Proof.Machine
end

section
/-! SUPPORT. The bus, range by range (R61): which target answers a read, what drives the open-bus latch, and what the RAM and the
controller ports do with an access. -/

namespace Sys2Proof.Machine

/-! ## RAM (R62) -/

theorem and_07FF_toNat (a : Addr) : (a &&& 0x07FF).toNat = a.toNat % 0x0800 := by
  rw [BitVec.toNat_and]
  exact Nat.and_two_pow_sub_one_eq_mod a.toNat 11

theorem busValue_ram {a : Addr} (s : State) (h : a.toNat < 0x2000) : busValue a s = s.ramByte (a &&& 0x07FF).toNat := by
  rw [and_07FF_toNat]
  exact if_pos h

theorem busAfterRead_ram {a : Addr} (s : State) (h : a.toNat < 0x2000) : busAfterRead a s = s.drive (busValue a s) := if_pos h

theorem busWrite_ram {a : Addr} (v : Byte) (s : State) (h : a.toNat < 0x2000) :
    busWrite a v s = { s.drive v with ram := s.ram.set (a &&& 0x07FF).toNat v } := by
  rw [and_07FF_toNat]
  exact if_pos h

theorem busWrite_ram_ramByte {a : Addr} (v : Byte) (s : State) (h : a.toNat < 0x2000) (k : Nat) :
    (busWrite a v s).ramByte k = if k = (a &&& 0x07FF).toNat then v else s.ramByte k := by
  rw [busWrite_ram v s h]
  exact Memory.read_set _ _ _ _ _ _

/-- Settles O41: one equation per bus operation below 0x2000; a mirror is the same RAM byte, so it reads what was written. -/
theorem ramMirrors : Obligations.RamMirrors := by
  intro s a v ha
  have h : a.toNat < 0x2000 := Nat.lt_succ_of_le ha
  refine ⟨busValue_ram s h, busAfterRead_ram s h, busWrite_ram_ramByte v s h, ?_, ?_, ?_, fun b hb hab => ?_⟩
  · rw [busWrite_ram v s h]; rfl
  · rw [busWrite_ram v s h]; rfl
  · rw [busWrite_ram v s h]; rfl
  · rw [busValue_ram _ (Nat.lt_succ_of_le hb), busWrite_ram_ramByte v s h, hab, if_pos rfl]

/-! ## The open-bus latch (R70) -/

/-- The variant maps nothing below 0x8000 but the PRG RAM it shows at 0x6000. -/
theorem Mapper.prgRead_eq_none_iff (m : Mapper) (c : Cartridge) (p : Params) (e a : Nat) :
    m.prgRead c p e a = none ↔ a < 0x8000 ∧ (0x6000 ≤ a → m.ramReadable p = false) := by
  unfold Mapper.prgRead
  split
  · next h8 => simp [h8]
  next h8 =>
  split
  · next h6 => cases m.ramReadable p <;> simp [h6, Nat.lt_of_not_le h8]
  · next h6 => simp [h6, Nat.lt_of_not_le h8]

/-- No target answers a read of the address. -/
def State.Unanswered (s : State) (n : Nat) : Prop :=
  (0x4000 ≤ n ∧ n ≤ 0x4014) ∨ (0x4018 ≤ n ∧ n ≤ 0x5FFF) ∨ (0x6000 ≤ n ∧ n ≤ 0x7FFF ∧ s.mapper.ramReadable s.params = false)

/-- At a cartridge address that is where the variant maps nothing. -/
theorem State.unanswered_iff_prgRead (s : State) {n : Nat} (h : 0x4020 ≤ n) :
    s.Unanswered n ↔ s.mapper.prgRead s.cart s.params s.epoch n = none := by
  rw [Mapper.prgRead_eq_none_iff, State.Unanswered]
  cases s.mapper.ramReadable s.params <;> simp <;> omega

/-- A read of such an address gives the latch and changes nothing. -/
theorem State.Unanswered.read {s : State} {a : Addr} (h : s.Unanswered a.toNat) :
    busValue a s = s.openBus ∧ busAfterRead a s = s := by
  have range : ¬ a.toNat < 0x4000 ∧ ¬ a.toNat = 0x4015 ∧ ¬ a.toNat = 0x4016 ∧ ¬ a.toNat = 0x4017 := by
    rcases h with h | h | h <;> omega
  obtain ⟨h4000, h4015, h4016, h4017⟩ := range
  have h2000 : ¬ a.toNat < 0x2000 := by omega
  simp only [busValue, busAfterRead, h2000, h4000, h4015, h4016, h4017, if_false]
  by_cases io : a.toNat < 0x4020
  · simp only [io, if_true, and_self]
  · simp [io, (s.unanswered_iff_prgRead (Nat.le_of_not_lt io)).1 h]

/-- Every other read drives its byte on the latch, but for that of 0x4015 (R396). -/
theorem busAfterRead_drives {s : State} {a : Addr} (h : ¬ s.Unanswered a.toNat) (h4015 : a.toNat ≠ 0x4015) :
    (busAfterRead a s).busLatch = busValue a s ∧ (busAfterRead a s).busDriven = s.cycle := by
  unfold busAfterRead
  dsimp only
  split
  · exact ⟨rfl, rfl⟩
  split
  · exact ⟨rfl, rfl⟩
  split
  · exact ⟨rfl, rfl⟩
  split
  · exact ⟨rfl, rfl⟩
  split
  · exact absurd (by unfold State.Unanswered; omega) h
  next io =>
  split
  · exact ⟨rfl, rfl⟩
  next hm => exact absurd ((s.unanswered_iff_prgRead (Nat.le_of_not_lt io)).2 (Option.not_isSome_iff_eq_none.1 hm)) h

theorem busWrite_drives (a : Addr) (v : Byte) (s : State) :
    (busWrite a v s).busLatch = v ∧ (busWrite a v s).busDriven = s.cycle := by
  unfold busWrite
  dsimp only
  repeat' split
  all_goals exact ⟨rfl, rfl⟩

/-- Settles O42: the reads that find no target (`Unanswered.read`), the accesses that drive the latch, and what it then reads
as. -/
theorem openBus : Obligations.OpenBus := fun s a v =>
  ⟨State.Unanswered.read, busAfterRead_drives, busWrite_drives a v s, s.openBus_none, fun _ => s.openBus_fresh⟩

/-! ## The controller ports (R97, R98) -/

/-- The latch's three bits and the register's one bit do not overlap. -/
theorem controllerByte_toNat (latch sr : Byte) : (controllerByte latch sr).toNat = latch.toNat / 32 * 32 + sr.toNat % 2 := by
  have top : (latch &&& 0xE0).toNat = latch.toNat / 32 * 32 := by revert latch; decide
  have low : (sr &&& 1).toNat = sr.toNat % 2 := by revert sr; decide
  rw [controllerByte, BitVec.toNat_or, top, low, Nat.mul_comm]
  exact (Nat.two_pow_add_eq_or_of_lt (i := 5) (by omega) _).symm

theorem ButtonSet.byte_toNat (b : ButtonSet) :
    b.byte.toNat = b.a.toNat + 2 * b.b.toNat + 4 * b.select.toNat + 8 * b.start.toNat + 16 * b.up.toNat
      + 32 * b.down.toNat + 64 * b.left.toNat + 128 * b.right.toNat := by
  obtain ⟨a, b, select, start, up, down, left, right⟩ := b
  revert a b select start up down left right
  decide

theorem Controllers.write_eq (c : Controllers) (v : Byte) :
    c.write v = { c with
      strobe := v.getLsbD 0
      shift1 := if c.strobe = true ∨ v.getLsbD 0 = true then c.input1.byte else c.shift1
      shift2 := if c.strobe = true ∨ v.getLsbD 0 = true then c.input2.byte else c.shift2 } := by
  simp only [Controllers.write, Bool.or_eq_true]

/-- Settles O49: the two port reads and the strobe write are single arms of the bus; the byte of a read is
`controllerByte_toNat`, that of the buttons `ButtonSet.byte_toNat`. -/
theorem controllers : Obligations.Controllers := by
  intro s v
  refine ⟨⟨controllerByte_toNat _ _, rfl⟩, ⟨controllerByte_toNat _ _, rfl⟩, ?_, ButtonSet.byte_toNat⟩
  have strobe : busWrite 0x4016 v s = { s.drive v with ctrl := s.ctrl.write v } := rfl
  rw [strobe, Controllers.write_eq]

/-! ## Memory accesses and devices (R66) -/

/-- Settles O58: neither the access nor the clocks of its cycle reach a device register. -/
theorem memoryAccessKeepsDeviceRegisters : Obligations.MemoryAccessKeepsDeviceRegisters := fun s a polled v ha quiet =>
  ⟨(readCycle_devices polled a s ha quiet).registers, (writeCycle_devices polled a v s ha).registers⟩

end Sys2Proof.Machine
end

section
/-! SUPPORT. The mapper's two ports, range by range (R85, R87), and what each variant makes of them (R89 to R94). -/

namespace Sys2Proof.Machine

/-! ## The Cpu side of any variant -/

theorem Mapper.prgRead_rom {a : Nat} (m : Mapper) (c : Cartridge) (p : Params) (e : Nat) (h : 0x8000 ≤ a) :
    m.prgRead c p e a = some (prgByte c (m.prgOffset c a)) := if_pos h

theorem Mapper.prgRead_ram {a : Nat} {m : Mapper} {p : Params} (c : Cartridge) (e : Nat) (h6 : 0x6000 ≤ a) (h8 : a < 0x8000)
    (hr : m.ramReadable p = true) : m.prgRead c p e a = some (Memory.read e .prgRam m.prgRam (a - 0x6000)) := by
  rw [Mapper.prgRead, if_neg (Nat.not_le_of_lt h8), if_pos h6, if_pos hr]

theorem Mapper.prgWrite_rom {a : Nat} (m : Mapper) (c : Cartridge) (p : Params) (w : Bool) (v : Byte) (h : 0x8000 ≤ a) :
    m.prgWrite c p w a v = { m with regs := m.regs.write c w a v } := if_pos h

theorem Mapper.prgWrite_ram {a : Nat} {m : Mapper} {p : Params} (c : Cartridge) (w : Bool) (v : Byte) (h6 : 0x6000 ≤ a)
    (h8 : a < 0x8000) (hw : m.ramWritable p = true) :
    m.prgWrite c p w a v = { m with prgRam := m.prgRam.set (a - 0x6000) v } := by
  rw [Mapper.prgWrite, if_neg (Nat.not_le_of_lt h8), if_pos (by simp [h6, hw])]

theorem Mapper.prgWrite_ignored {a : Nat} {m : Mapper} {p : Params} (c : Cartridge) (w : Bool) (v : Byte) (h8 : a < 0x8000)
    (hw : 0x6000 ≤ a → m.ramWritable p = false) : m.prgWrite c p w a v = m := by
  rw [Mapper.prgWrite, if_neg (Nat.not_le_of_lt h8), if_neg (by simpa using hw)]

/-- Writing back the registers it holds does not change a mapper. -/
theorem Mapper.with_regs_self {m : Mapper} {r : MapperRegs} (h : m.regs = r) : { m with regs := r } = m := by
  rw [← h]

/-! ## NROM and UXROM (R89, R90) -/

theorem Mapper.nrom_read {m : Mapper} (h : m.regs = .nrom) (c : Cartridge) (p : Params) (e : Nat) {a : Nat} (ha : 0x8000 ≤ a) :
    m.prgRead c p e a = some (romRead c.prg ((a - 0x8000) % (c.prgBanks * 16384))) := by
  rw [m.prgRead_rom c p e ha, Mapper.prgOffset, h]
  rfl

theorem Mapper.nrom_write {m : Mapper} (h : m.regs = .nrom) (c : Cartridge) (p : Params) (w : Bool) (v : Byte) {a : Nat}
    (ha : 0x8000 ≤ a) : m.prgWrite c p w a v = m := by
  rw [m.prgWrite_rom c p w v ha, h]
  exact Mapper.with_regs_self h

/-- `NROM` shows PRG RAM, and stores in it, when the parameter says so. -/
theorem Mapper.nrom_ram {m : Mapper} (h : m.regs = .nrom) (p : Params) :
    m.ramReadable p = p.nromPrgRam ∧ m.ramWritable p = p.nromPrgRam := by
  simp only [Mapper.ramReadable, Mapper.ramWritable, h, and_self]

theorem Mapper.uxrom_ram {m : Mapper} {bank : Nat} (h : m.regs = .uxrom bank) (p : Params) :
    m.ramReadable p = false ∧ m.ramWritable p = false := by
  simp only [Mapper.ramReadable, Mapper.ramWritable, h, and_self]

/-- An offset inside the data does not wrap. -/
theorem prgByte_of_lt {c : Cartridge} {offset : Nat} (h : offset < c.prgBanks * 16384) :
    prgByte c offset = romRead c.prg offset := by
  rw [prgByte, Cartridge.prgSize, Nat.mod_eq_of_lt h]

theorem Mapper.uxrom_read_low {m : Mapper} {bank : Nat} (h : m.regs = .uxrom bank) {c : Cartridge} (p : Params) (e : Nat) {a : Nat}
    (h8 : 0x8000 ≤ a) (hC : a < 0xC000) (hb : bank < c.prgBanks) :
    m.prgRead c p e a = some (romRead c.prg (bank * 16384 + (a - 0x8000))) := by
  have offset : m.prgOffset c a = bank * 16384 + (a - 0x8000) := by simp only [Mapper.prgOffset, h, if_pos hC]
  rw [m.prgRead_rom c p e h8, offset, prgByte_of_lt (by omega)]

theorem Mapper.uxrom_read_high {m : Mapper} {bank : Nat} (h : m.regs = .uxrom bank) {c : Cartridge} (p : Params) (e : Nat) {a : Nat}
    (hC : 0xC000 ≤ a) (ha : a ≤ 0xFFFF) (hc : 1 ≤ c.prgBanks) :
    m.prgRead c p e a = some (romRead c.prg ((c.prgBanks - 1) * 16384 + (a - 0xC000))) := by
  have offset : m.prgOffset c a = (c.prgBanks - 1) * 16384 + (a - 0xC000) := by
    simp only [Mapper.prgOffset, h, if_neg (Nat.not_lt_of_le hC)]
  rw [m.prgRead_rom c p e (by omega), offset, prgByte_of_lt (by omega)]

theorem Mapper.uxrom_write {m : Mapper} {bank : Nat} (h : m.regs = .uxrom bank) (c : Cartridge) (p : Params) (w : Bool) (v : Byte)
    {a : Nat} (ha : 0x8000 ≤ a) : m.prgWrite c p w a v = { m with regs := .uxrom (v.toNat % c.prgBanks) } := by
  rw [m.prgWrite_rom c p w v ha, h]
  rfl

/-- The two variants without banks of CHR. -/
def Mapper.Unbanked (m : Mapper) : Prop := m.regs = .nrom ∨ ∃ bank, m.regs = .uxrom bank

theorem Mapper.Unbanked.chrOffset {m : Mapper} (h : m.Unbanked) {c : Cartridge} {a : Nat} (ha : a < c.chrSize) :
    m.chrOffset c a = a := by
  obtain h | ⟨bank, h⟩ := h <;> simp only [Mapper.chrOffset, h, Nat.mod_eq_of_lt ha]

theorem Mapper.Unbanked.header {m : Mapper} (h : m.Unbanked) (c : Cartridge) : m.mirroring c = c.mirroring ∧ m.irqLine = false := by
  obtain h | ⟨bank, h⟩ := h <;> simp only [Mapper.mirroring, Mapper.irqLine, h, and_self]

/-- One bank of CHR data is read at the address, and not written. -/
theorem Mapper.Unbanked.chrData {m : Mapper} (h : m.Unbanked) {c : Cartridge} (e : Nat) {a : Nat} (v : Byte) (ha : a < 0x2000)
    (hc : c.chrBanks = 1) : m.chrRead c e a = romRead c.chr a ∧ m.chrWrite c a v = m := by
  have offset := h.chrOffset (c := c) (a := a) (by simpa [Cartridge.chrSize, hc] using ha)
  simp [Mapper.chrRead, Mapper.chrWrite, hc, offset]

/-- CHR RAM is read and written at the address. -/
theorem Mapper.Unbanked.chrRam {m : Mapper} (h : m.Unbanked) {c : Cartridge} (e : Nat) {a : Nat} (v : Byte) (ha : a < 0x2000)
    (hc : c.chrBanks = 0) :
    m.chrRead c e a = Memory.read e .chrRam m.chrRam a ∧ m.chrWrite c a v = { m with chrRam := m.chrRam.set a v } := by
  have offset := h.chrOffset (c := c) (a := a) (by simpa [Cartridge.chrSize, hc] using ha)
  simp [Mapper.chrRead, Mapper.chrWrite, hc, offset]

/-- Settles O55: for each variant one lemma per address range; below 0x8000 the two differ in whether PRG RAM answers. -/
theorem nromAndUxromBanks : Obligations.NromAndUxromBanks := by
  intro m c p e a v w ha banks
  refine ⟨fun h => ?nrom, fun bank h => ?uxrom, fun h => ?both, rfl⟩
  case nrom =>
    obtain ⟨readable, writable⟩ := Mapper.nrom_ram h p
    refine ⟨fun h8 => ⟨Mapper.nrom_read h c p e h8, Mapper.nrom_write h c p w v h8⟩, fun h6 h7 on => ?_, fun closed => ?_⟩
    · have h8 : a < 0x8000 := Nat.lt_succ_of_le h7
      exact ⟨Mapper.prgRead_ram c e h6 h8 (readable.trans on), Mapper.prgWrite_ram c w v h6 h8 (writable.trans on)⟩
    · have h8 : a < 0x8000 := by omega
      have off (h6 : 0x6000 ≤ a) : p.nromPrgRam = false := (closed.resolve_left (Nat.not_lt_of_le h6)).2
      exact ⟨(m.prgRead_eq_none_iff c p e a).2 ⟨h8, fun h6 => readable.trans (off h6)⟩,
        Mapper.prgWrite_ignored c w v h8 fun h6 => writable.trans (off h6)⟩
  case uxrom =>
    obtain ⟨readable, writable⟩ := Mapper.uxrom_ram h p
    exact ⟨Mapper.uxrom_read_low h p e, fun hC => Mapper.uxrom_read_high h p e hC ha banks,
      fun h8 => ⟨(m.prgRead_eq_none_iff c p e a).2 ⟨h8, fun _ => readable⟩,
        Mapper.prgWrite_ignored c w v h8 fun _ => writable⟩,
      Mapper.uxrom_write h c p w v⟩
  case both =>
    have unbanked : m.Unbanked := h
    obtain ⟨mirroring, irq⟩ := unbanked.header c
    exact ⟨mirroring, irq, unbanked.chrData e v, unbanked.chrRam e v⟩

/-! ## The serial port of MMC1 (R91) -/

/-- The shift register with one more bit, which comes in at the top. -/
def shiftIn (shift : BitVec 5) (v : Byte) : BitVec 5 := (shift >>> 1) ||| ((BitVec.ofBool (v.getLsbD 0)).setWidth 5 <<< 4)

theorem shiftIn_toNat (shift : BitVec 5) (v : Byte) : (shiftIn shift v).toNat = shift.toNat / 2 + 16 * (v.toNat % 2) := by
  have bit : (v.getLsbD 0).toNat = v.toNat % 2 := by
    rw [BitVec.getLsbD, Nat.toNat_testBit, Nat.pow_zero, Nat.div_one]
  have sum : ∀ (x : BitVec 5) (b : Bool), ((x >>> 1) ||| ((BitVec.ofBool b).setWidth 5 <<< 4)).toNat = x.toNat / 2 + 16 * b.toNat := by
    decide
  rw [shiftIn, sum, bit]

/-- Five bits push out everything the shift register held before, so that the first is the least significant. -/
theorem shiftIn_five (shift : BitVec 5) (v0 v1 v2 v3 v4 : Byte) :
    shiftIn (shiftIn (shiftIn (shiftIn (shiftIn shift v0) v1) v2) v3) v4 =
      BitVec.ofNat 5
        (v0.toNat % 2 + 2 * (v1.toNat % 2) + 4 * (v2.toNat % 2) + 8 * (v3.toNat % 2) + 16 * (v4.toNat % 2)) := by
  apply BitVec.eq_of_toNat_eq
  have h := shift.isLt
  simp only [shiftIn_toNat, BitVec.toNat_ofNat]
  omega

/-- One of the first four bits only goes into the shift register. -/
theorem Mmc1.serialWrite_shift {r : Mmc1} (a : Nat) {v : Byte} (hv : v.getLsbD 7 = false) (hc : r.count + 1 < 5) :
    r.serialWrite a v = { r with shift := shiftIn r.shift v, count := r.count + 1 } := by
  simp only [Mmc1.serialWrite, hv, hc, if_true, shiftIn]
  rfl

/-- The registers once a value is complete: the address selects the one that takes it, and the port is empty. -/
def Mmc1.loaded (r : Mmc1) (a : Nat) (value : BitVec 5) : Mmc1 :=
  let done := { r with shift := 0, count := 0 }
  match a / 8192 % 4 with
  | 0 => { done with control := value }
  | 1 => { done with chr0 := value }
  | 2 => { done with chr1 := value }
  | _ => { done with prg := value }

theorem Mmc1.serialWrite_fifth {r : Mmc1} (a : Nat) {v : Byte} (hv : v.getLsbD 7 = false) (hc : r.count = 4) :
    r.serialWrite a v = r.loaded a (shiftIn r.shift v) := by
  simp only [Mmc1.serialWrite, hv, hc]
  rfl

/-- A write that is not filtered goes to the serial port. -/
theorem Mapper.mmc1_write {m : Mapper} {r : Mmc1} (h : m.regs = .mmc1 r) (c : Cartridge) (p : Params) {a : Nat} (v : Byte)
    (ha : 0x8000 ≤ a) : (m.prgWrite c p false a v).regs = .mmc1 (r.serialWrite a v) := by
  rw [m.prgWrite_rom c p false v ha, h]
  rfl

theorem Mapper.mmc1_write_filtered {m : Mapper} {r : Mmc1} (h : m.regs = .mmc1 r) (c : Cartridge) (p : Params) {a : Nat} (v : Byte)
    (ha : 0x8000 ≤ a) : m.prgWrite c p true a v = m := by
  rw [m.prgWrite_rom c p true v ha, h]
  exact Mapper.with_regs_self h

/-- Settles O53: four writes fill the port (`serialWrite_shift`), the fifth loads it (`serialWrite_fifth`), and what it then holds
is `shiftIn_five`. -/
theorem mmc1Serial : Obligations.Mmc1Serial := by
  intro m r c p h
  refine ⟨fun a v ha => ⟨Mapper.mmc1_write_filtered h c p v ha, fun hv => ?reset⟩,
    fun a0 a1 a2 a3 a4 v0 v1 v2 v3 v4 empty ha hv => ?load⟩
  case reset =>
    rw [Mapper.mmc1_write h c p v ha, Mmc1.serialWrite, if_pos hv]
  case load =>
    simp only [List.forall_mem_cons, List.not_mem_nil, false_imp_iff, implies_true, and_true] at ha hv
    obtain ⟨ha0, ha1, ha2, ha3, ha4⟩ := ha
    obtain ⟨hv0, hv1, hv2, hv3, hv4⟩ := hv
    have w0 := Mapper.mmc1_write h c p v0 ha0
    rw [Mmc1.serialWrite_shift a0 hv0 (by omega)] at w0
    have w1 := Mapper.mmc1_write w0 c p v1 ha1
    rw [Mmc1.serialWrite_shift a1 hv1 (by dsimp only; omega)] at w1
    have w2 := Mapper.mmc1_write w1 c p v2 ha2
    rw [Mmc1.serialWrite_shift a2 hv2 (by dsimp only; omega)] at w2
    have w3 := Mapper.mmc1_write w2 c p v3 ha3
    rw [Mmc1.serialWrite_shift a3 hv3 (by dsimp only; omega)] at w3
    have w4 := Mapper.mmc1_write w3 c p v4 ha4
    rw [Mmc1.serialWrite_fifth a4 hv4 (by dsimp only; omega), shiftIn_five] at w4
    exact w4

/-! ## The scanline counter of MMC3 (R94) -/

/-- A rise of bit 12 that counts: bit 12 had been 0 for the filter time. -/
def Mmc3.Rises (r : Mmc3) (p : Params) (a : Nat) : Prop := a / 4096 % 2 = 1 ∧ r.a12 = false ∧ p.mmc3A12Filter ≤ r.a12Low

theorem Mmc3.onPpuAddress_of_rises {r : Mmc3} {p : Params} {a : Nat} (h : r.Rises p a) :
    r.onPpuAddress p a = { r.clockCounter with a12 := true, a12Low := 0 } := by
  obtain ⟨high, low, long⟩ := h
  simp [Mmc3.onPpuAddress, high, low, long]

theorem Mmc3.onPpuAddress_of_not_rises {r : Mmc3} {p : Params} {a : Nat} (h : ¬ r.Rises p a) :
    r.onPpuAddress p a =
      { r with a12 := decide (a / 4096 % 2 = 1), a12Low := if decide (a / 4096 % 2 = 1) || r.a12 then 0 else r.a12Low } := by
  unfold Mmc3.onPpuAddress
  dsimp only
  rw [if_neg (by simpa [Mmc3.Rises] using h)]

/-- The registers of 0xC000 to 0xDFFF. -/
theorem Mmc3.registerWrite_counter {r : Mmc3} {a : Nat} (v : Byte) (h : a / 8192 % 4 = 2) :
    r.registerWrite a v = if a % 2 = 0 then { r with irqLatch := v } else { r with irqCounter := 0, irqReload := true } := by
  obtain even | odd := Nat.mod_two_eq_zero_or_one a
  · simp [Mmc3.registerWrite, h, even]
  · simp [Mmc3.registerWrite, h, odd]

/-- The registers of 0xE000 to 0xFFFF. -/
theorem Mmc3.registerWrite_enable {r : Mmc3} {a : Nat} (v : Byte) (h : a / 8192 % 4 = 3) :
    r.registerWrite a v =
      if a % 2 = 0 then { r with irqEnable := false, irqFlag := false } else { r with irqEnable := true } := by
  obtain even | odd := Nat.mod_two_eq_zero_or_one a
  · simp [Mmc3.registerWrite, h, even]
  · simp [Mmc3.registerWrite, h, odd]

theorem Mapper.mmc3_write {m : Mapper} {r : Mmc3} (h : m.regs = .mmc3 r) (c : Cartridge) (p : Params) (w : Bool) {a : Nat}
    (v : Byte) (ha : 0x8000 ≤ a) : (m.prgWrite c p w a v).regs = .mmc3 (r.registerWrite a v) := by
  rw [m.prgWrite_rom c p w v ha, h]
  rfl

theorem Mapper.mmc3_onPpuAddress {m : Mapper} {r : Mmc3} (h : m.regs = .mmc3 r) (p : Params) (a : Nat) :
    (m.onPpuAddress p a).regs = .mmc3 (r.onPpuAddress p a) := by
  simp only [Mapper.onPpuAddress, h]

theorem Mapper.mmc3_irqLine {m : Mapper} {r : Mmc3} (h : m.regs = .mmc3 r) : m.irqLine = r.irqFlag := by
  simp only [Mapper.irqLine, h]

/-- Settles O54: an address on the Ppu lines by whether it is a rise that counts (`Rises`), a register write by its half of the
range. -/
theorem mmc3ScanlineInterrupt : Obligations.Mmc3ScanlineInterrupt := by
  intro m r c p h
  refine ⟨Mapper.mmc3_irqLine h, fun a => ⟨r.onPpuAddress p a, Mapper.mmc3_onPpuAddress h p a, rfl, fun rises => ?rise,
    fun flat => ?flat⟩, fun a v after ha hmax => ?write⟩
  case rise =>
    rw [Mmc3.onPpuAddress_of_rises rises]
    simp [Mmc3.clockCounter]
  case flat =>
    rw [Mmc3.onPpuAddress_of_not_rises flat]
    exact ⟨rfl, rfl, rfl⟩
  case write =>
    rw [Mapper.mmc3_write h c p after v (by omega)]
    split
    · rw [Mmc3.registerWrite_counter v (by omega)]
    · rw [Mmc3.registerWrite_enable v (by omega)]

end Sys2Proof.Machine
end

section
/-! SUPPORT. The stolen cycles of an OAM DMA that nothing disturbs (R101, R102): `Laws/OamTransfer.lean` gives its idle cycles and
its pairs, here they are put together. -/

namespace Sys2Proof.Machine

theorem dmcDma_of_not_pending {s : State} (h : s.dma.dmcPending = false) : dmcDma s = s := by
  simp [dmcDma, h]

theorem sharedFetch_of_not_pending {s : State} (h : s.dma.dmcPending = false) : sharedFetch s = s := by
  simp [sharedFetch, h]

/-- The machine as its OAM DMA begins: no byte transferred, and all its cycles left to steal. -/
def State.oamStart (s : State) : State :=
  { s with dma := { s.dma with oamIndex := 0, stall := 513 + (s.cycle + 1) % 2, owed := 0, late := false } }

/-- `oamDma_fresh`, by name. -/
theorem oamDma_of_oamStart {s : State} (h : Still s) (hp : s.dma.oamPending = true) (h0 : s.dma.stall = 0) :
    oamDma s = oamRest (oamPairs 256 (idleStalls (1 + (s.cycle + 1) % 2) s.oamStart)) := oamDma_fresh h hp h0

theorem oamRest_of_stall_zero {s : State} (h : s.dma.stall = 0) : oamRest s = oamOver s := by
  rw [oamRest, if_pos h]

/-- `u` is the machine after the cycles of its OAM DMA, begun in `s`, that come before the pairs. -/
structure OamIdled (s u : State) : Prop where
  kept  : Kept s u
  still : Still u
  addr  : u.ppu.oamAddr = s.ppu.oamAddr
  page  : u.dma.oamPage = s.dma.oamPage
  index : u.dma.oamIndex = 0
  stall : u.dma.stall = 512
  cycle : u.cycle = s.cycle + (1 + (s.cycle + 1) % 2)

theorem idleStalls_oamStart {s : State} (h : Still s) : OamIdled s (idleStalls (1 + (s.cycle + 1) % 2) s.oamStart) := by
  have start : Still s.oamStart := h.congr rfl rfl rfl
  obtain ⟨still, -, addr, dma, cycle⟩ := idleStalls_still (1 + (s.cycle + 1) % 2) start
  refine ⟨(dma_kept s _).trans (idleStalls_kept _ s.oamStart), still, addr, by rw [dma]; rfl, by rw [dma]; rfl, ?_, cycle⟩
  rw [dma, State.oamStart]
  dsimp only
  omega

/-- `t` is the machine once its OAM DMA, begun in `s`, is over. -/
structure OamTransferred (s t : State) : Prop where
  still   : Still t
  pending : t.dma.oamPending = false
  stall   : t.dma.stall = 0
  cycle   : t.cycle = s.cycle + (if s.cycle % 2 = 1 then 513 else 514)
  addr    : t.ppu.oamAddr = s.ppu.oamAddr
  bytes   : ∀ i b : Byte, s.memByte (word s.dma.oamPage i) = some b → t.ppu.oamByte t.epoch (s.ppu.oamAddr + i).toNat = b

/-- After the last put cycle, with no cycle left, only the pending bit changes. -/
theorem OamTransferred.of_pairs {s t : State} (still : Still t) (stall : t.dma.stall = 0)
    (cycle : t.cycle = s.cycle + (if s.cycle % 2 = 1 then 513 else 514)) (addr : t.ppu.oamAddr = s.ppu.oamAddr)
    (bytes : ∀ i b : Byte, s.memByte (word s.dma.oamPage i) = some b → t.ppu.oamByte t.epoch (s.ppu.oamAddr + i).toNat = b) :
    OamTransferred s (oamRest t) := by
  rw [oamRest_of_stall_zero stall]
  exact ⟨still.congr rfl rfl rfl, rfl, stall, cycle, addr, bytes⟩

/-- In a still machine: the idle cycles, 256 pairs, and no cycle after them. -/
theorem oamDma_still {s : State} (h : Still s) (hp : s.dma.oamPending = true) (h0 : s.dma.stall = 0) :
    OamTransferred s (oamDma s) := by
  have idled := idleStalls_oamStart h
  rw [oamDma_of_oamStart h hp h0]
  generalize idleStalls (1 + (s.cycle + 1) % 2) s.oamStart = u at idled ⊢
  obtain ⟨still, cycle, stall, addr, bytes, -⟩ := oamPairs_still 256 idled.still le_rfl
  refine .of_pairs still (by rw [stall, idled.stall]) ?_ ?_ fun i b hb => ?_
  · rw [cycle, idled.cycle]
    split <;> omega
  · rw [addr, idled.addr]
    exact BitVec.add_zero _
  · have held : u.memByte (word u.dma.oamPage (BitVec.ofNat 8 (u.dma.oamIndex + i.toNat))) = some b := by
      rw [idled.kept.memByte, idled.page, idled.index, Nat.zero_add, BitVec.ofNat_toNat, BitVec.setWidth_eq]
      exact hb
    have byte := bytes i.toNat i.isLt b held
    rwa [BitVec.ofNat_toNat, BitVec.setWidth_eq, idled.addr] at byte

/-- Without a delta-modulation fetch the OAM DMA is all that happens in front of a read cycle. -/
theorem stalls_of_oamDma_still {s : State} (h : Still (oamDma s)) : stalls s = oamDma s := by
  rw [stalls, sharedFetch_of_not_pending h.pending, dmcDma_of_not_pending h.pending, dmcDma_of_not_pending h.pending]

/-- Settles O48: `oamDma_still`, with `stalls_kept` for registers and memory. The name `oamDma` is the model's function. -/
theorem oamDma_spec : Obligations.OamDma := by
  intro s hp hd h0 hr hrender
  have transfer := oamDma_still ⟨hrender, hr, hd⟩ hp h0
  have kept := stalls_kept s
  rw [← stalls_of_oamDma_still transfer.still] at transfer
  exact ⟨transfer.cycle, transfer.bytes, transfer.addr,
    (dmaQuiet_iff _).2 ⟨transfer.pending, transfer.still.pending, transfer.stall, transfer.still.remaining⟩, kept.regs,
    kept.sameMemory⟩

end Sys2Proof.Machine
end

section
/-! SUPPORT. Decoding and encoding (R120, R121, R134): what the decoder answers is told by the opcode's format and an operand, in
both directions; and the fetch cycles read the instruction the decoder reads from the bytes at PC. -/

namespace Sys2Proof.Machine

open Sys2Proof.Laws.Encoding

/-! ## The decoder on the bytes of an encoding -/

theorem decode_f1 {op : Byte} {i : Instr} (h : formatOf op = .f1 i) (rest : List Byte) :
    decode (op :: rest) = .ok (i, rest) := by
  simp only [decode, h]

theorem decode_f2 {op : Byte} {i : Byte → Instr} (h : formatOf op = .f2 i) (d : Byte) (rest : List Byte) :
    decode (op :: d :: rest) = .ok (i d, rest) := by
  simp only [decode, h]

theorem decode_f3 {op : Byte} {i : Addr → Instr} (h : formatOf op = .f3 i) (l m : Byte) (rest : List Byte) :
    decode (op :: l :: m :: rest) = .ok (i (word m l), rest) := by
  simp only [decode, h]

theorem decode_encodedOperand (op : Byte) (a : Addr) (rest : List Byte) :
    decode (op :: (encodedOperand (formatOf op) a ++ rest)) = .ok (Format.make (formatOf op) a, rest) := by
  cases h : formatOf op with
  | f1 i => exact decode_f1 h rest
  | f2 i => exact decode_f2 h (lo a) rest
  | f3 i =>
    refine (decode_f3 h (lo a) (hi a) rest).trans ?_
    rw [word_hi_lo, Format.make]

/-- Whatever decodes is an opcode byte, the operand bytes of its format, and the rest. -/
theorem decode_eq_ok {bytes rest : List Byte} {i : Instr} (h : decode bytes = .ok (i, rest)) :
    ∃ op a, bytes = op :: (encodedOperand (formatOf op) a ++ rest) ∧ i = Format.make (formatOf op) a := by
  match bytes with
  | [] => cases h
  | op :: tail =>
    refine ⟨op, ?_⟩
    cases hf : formatOf op with
    | f1 make =>
      rw [decode_f1 hf] at h
      cases h
      exact ⟨0, rfl, rfl⟩
    | f2 make =>
      match tail with
      | [] => simp [decode, hf] at h
      | d :: _ =>
        rw [decode_f2 hf] at h
        cases h
        exact ⟨word 0 d, by rw [encodedOperand, lo_word]; rfl, by rw [Format.make, lo_word]⟩
    | f3 make =>
      match tail with
      | [] => simp [decode, hf] at h
      | [_] => simp [decode, hf] at h
      | l :: m :: _ =>
        rw [decode_f3 hf] at h
        cases h
        exact ⟨word m l, by rw [encodedOperand, lo_word, hi_word]; rfl, rfl⟩

theorem encode_eq_operand (i : Instr) :
    encode i = opcodeByte i :: encodedOperand (formatOf (opcodeByte i)) (operandAddr i) := by
  obtain ⟨-, -, made⟩ := statement_of i
  rw [← encode_make, made]

/-- Settles O1: the instruction is what its opcode's format makes of its operand, in its encoding and in what is decoded. -/
theorem decodeEncode : Obligations.DecodeEncode := by
  intro i rest
  obtain ⟨wf, -, made⟩ := statement_of i
  refine ⟨wf, ?_⟩
  rw [encode_eq_operand, List.cons_append, decode_encodedOperand, made]

theorem encode_append_of_decode {bytes rest : List Byte} {i : Instr} (h : decode bytes = .ok (i, rest)) :
    encode i ++ rest = bytes := by
  obtain ⟨op, a, rfl, rfl⟩ := decode_eq_ok h
  rw [encode_make, List.cons_append]

/-- Settles O2: the bytes are an opcode byte and its format's operand bytes, which `encode_make` gives back. -/
theorem encodeDecode : Obligations.EncodeDecode := fun _ _ _ => encode_append_of_decode

/-! ## The opcode byte alone -/

theorem Format.length_bounds (f : Format) : 1 ≤ f.length ∧ f.length ≤ 3 := by
  cases f <;> simp [Format.length]

theorem encode_length (i : Instr) : (encode i).length = (formatOf (opcodeByte i)).length := by
  obtain ⟨-, length, -⟩ := statement_of i
  exact length

theorem encode_length_bounds (i : Instr) : 1 ≤ (encode i).length ∧ (encode i).length ≤ 3 := by
  rw [encode_length]
  exact Format.length_bounds _

theorem opcodeByte_eq_head? (i : Instr) : opcodeByte i = (encode i).head?.getD 0 := List.headD_eq_head?_getD

/-- No opcode asks for more than two bytes after it, so three bytes decode. -/
theorem decode_three_bytes (op b1 b2 : Byte) (rest : List Byte) :
    ∃ i rest', decode (op :: b1 :: b2 :: rest) = .ok (i, rest') := by
  cases h : formatOf op with
  | f1 i => exact ⟨i, _, decode_f1 h _⟩
  | f2 i => exact ⟨i b1, _, decode_f2 h _ _⟩
  | f3 i => exact ⟨i (word b2 b1), _, decode_f3 h _ _ _⟩

theorem hasOpcode_of_decode {op : Byte} {tail rest : List Byte} {i : Instr} (h : decode (op :: tail) = .ok (i, rest)) :
    HasOpcode i op := by
  obtain ⟨op', a, bytes, rfl⟩ := decode_eq_ok h
  obtain ⟨rfl, -⟩ := List.cons.inj bytes
  rw [HasOpcode, encode_make, List.head?_cons]

/-- What is left after decoding is the bytes from the encoding's length on. -/
theorem rest_of_decode {bytes rest : List Byte} {i : Instr} (h : decode bytes = .ok (i, rest)) :
    rest = bytes.drop (encode i).length := by
  rw [← encode_append_of_decode h, List.drop_left]

/-- Settles O3: three bytes decode, to an instruction of their first byte; its length is that of the opcode's format; and every
instruction answers a next state (`exec_eq_run`). -/
theorem everyOpcodeDecodes : Obligations.EveryOpcodeDecodes := by
  refine ⟨fun op b1 b2 rest => ?_, fun i j heads => ?_⟩
  · obtain ⟨i, rest', h⟩ := decode_three_bytes op b1 b2 rest
    obtain ⟨least, most⟩ := encode_length_bounds i
    exact ⟨i, hasOpcode_of_decode h, by rw [h, rest_of_decode h], least, most, fun s => ⟨_, exec_eq_run i s⟩⟩
  · rw [encode_length, encode_length, opcodeByte_eq_head?, opcodeByte_eq_head?, heads]

/-- Settles O4: the decoder evaluated on each word. -/
theorem sampleWords : Obligations.SampleWords := by
  refine ⟨?_, ?_, ?_, ?_, ?_, ?_, ?_, ?_, ?_, ?_, ?_, ?_⟩
  all_goals rfl

/-! ## The fetched instruction -/

theorem State.nextOpcode_of_memByte {s : State} {b : Byte} (h : s.memByte s.cpu.regs.pc = some b) : s.nextOpcode = b :=
  readValue_of_memByte false h

/-- The operand cycles read what memory held at the two addresses after the opcode when the instruction began. -/
theorem fetches_of_memByte {k : Nat} {a : Addr} {s : State} (h1 : 1 ≤ k → s.memByte (s.cpu.regs.pc + 1) = some (lo a))
    (h2 : 2 ≤ k → s.memByte (s.cpu.regs.pc + 2) = some (hi a)) : Fetches k a (fetchOpcode s) where
  b1 hk := by
    refine readValue_of_memByte false ?_
    rw [(fetchOpcode_same s).memByte, fetchOpcode_regs]
    exact h1 hk
  b2 hk := by
    refine readValue_of_memByte false ?_
    rw [((fetchOpcode_same s).trans (fetchOperand_same _ _ _)).memByte, fetchOperand_regs, fetchOpcode_regs, Regs.incPc_twice]
    exact h2 hk

theorem State.fetched_of_fetches {a : Addr} {s : State}
    (h : Fetches (Format.operandBytes (formatOf s.nextOpcode)) a (fetchOpcode s)) :
    s.fetched = Format.make (formatOf s.nextOpcode) a := by
  unfold State.fetched
  cases hf : formatOf s.nextOpcode with
  | f1 i => rfl
  | f2 i =>
    rw [hf] at h
    have first : s.nextOperand1 = lo a := h.b1 le_rfl
    rw [first, Format.make]
  | f3 i =>
    rw [hf] at h
    have first : s.nextOperand1 = lo a := h.b1 one_le_two
    have second : s.nextOperand2 = hi a := h.b2 le_rfl
    rw [first, second, word_hi_lo, Format.make]

theorem encodedOperand_getElem? (f : Format) (a : Addr) :
    (1 ≤ Format.operandBytes f → (encodedOperand f a)[0]? = some (lo a))
      ∧ (2 ≤ Format.operandBytes f → (encodedOperand f a)[1]? = some (hi a)) := by
  cases f with
  | f1 i => exact ⟨nofun, nofun⟩
  | f2 i => exact ⟨fun _ => rfl, fun h => absurd h (Nat.not_succ_le_self 1)⟩
  | f3 i => exact ⟨fun _ => rfl, fun _ => rfl⟩

/-- Memory holds the bytes at PC and at the addresses after it. -/
def State.HoldsAtPc (s : State) (bytes : List Byte) : Prop :=
  ∀ (k : Nat) (b : Byte), bytes[k]? = some b → s.memByte (s.cpu.regs.pc + BitVec.ofNat 16 k) = some b

/-- The fetch cycles read the instruction that the bytes in memory decode to. -/
theorem State.fetched_of_decode {s : State} {bytes : List Byte} {i : Instr} (h : decode bytes = .ok (i, []))
    (held : s.HoldsAtPc bytes) : s.fetched = i := by
  obtain ⟨op, a, rfl, rfl⟩ := decode_eq_ok h
  rw [List.append_nil] at held
  have opcode : s.nextOpcode = op := s.nextOpcode_of_memByte (by simpa using held 0 op rfl)
  obtain ⟨first, second⟩ := encodedOperand_getElem? (formatOf op) a
  rw [← opcode] at first second held ⊢
  exact s.fetched_of_fetches (fetches_of_memByte (fun hk => held 1 _ (first hk)) (fun hk => held 2 _ (second hk)))

theorem step_of_boundary {s : State} (idle : s.cpu.prog = Progress.idle) (nh : s.cpu.halted = false)
    (ni : s.cpu.intDetected = false) : step s = exec s.fetched s := by
  simp [step, State.atBoundary, idle, nh, ni]

/-- Settles O32: `step` has one branch left, and memory at PC decodes to what the fetch cycles read (`fetched_of_decode`). -/
theorem stepRunsDecoded : Obligations.StepRunsDecoded := by
  intro s idle nh ni
  have runs := step_of_boundary idle nh ni
  refine ⟨runs, fun bytes i h held => ?_⟩
  rw [runs, State.fetched_of_decode h held]

end Sys2Proof.Machine
end

section
/-! SUPPORT. Effective addresses as numbers (R125 to R130), and the two ways to tell that a page is crossed. -/

namespace Sys2Proof.Machine

theorem eaZpIndexed_toNat (d i : Byte) : (eaZpIndexed d i).toNat = (d.toNat + i.toNat) % 256 := by
  rw [eaZpIndexed, word_zero_toNat, BitVec.toNat_add]

theorem eaIndexed_toNat (a : Addr) (i : Byte) : (eaIndexed a i).toNat = (a.toNat + i.toNat) % 65536 := by
  have hi := i.isLt
  rw [eaIndexed, BitVec.toNat_add, BitVec.toNat_setWidth, Nat.mod_eq_of_lt (a := i.toNat) (by omega)]

theorem crossed_eq_carry (a : Addr) (i : Byte) : crossed a i = decide (256 ≤ a.toNat % 256 + i.toNat) := by
  rw [crossed, lo_toNat]

/-- The low bytes' sum carries exactly when the sum's high byte is another. -/
theorem crossed_eq_hi_ne (a : Addr) (i : Byte) : crossed a i = decide (hi (eaIndexed a i) ≠ hi a) := by
  have ha := a.isLt
  have hi := i.isLt
  rw [crossed_eq_carry, decide_eq_decide, ne_eq, BitVec.toNat_eq, hi_toNat, hi_toNat, eaIndexed_toNat]
  omega

/-- The two pointer bytes in page 0, the second one from the next address of the page. -/
theorem zeroPagePointer_toNat (s : State) (z : Byte) :
    (word (s.ramByte (z + 1).toNat) (s.ramByte z.toNat)).toNat
      = (s.ramByte (z.toNat % 256)).toNat + 256 * (s.ramByte ((z.toNat + 1) % 256)).toNat := by
  rw [word_toNat, BitVec.toNat_add, Nat.mod_eq_of_lt (a := z.toNat) z.isLt]
  exact (Nat.add_comm _ _).trans (congrArg _ (Nat.mul_comm _ _))

theorem baseIzy_toNat (d : Byte) (s : State) :
    (baseIzy d s).toNat = (s.ramByte (d.toNat % 256)).toNat + 256 * (s.ramByte ((d.toNat + 1) % 256)).toNat :=
  zeroPagePointer_toNat s d

theorem eaIzx_toNat (d : Byte) (s : State) :
    (eaIzx d s).toNat = (s.ramByte ((d.toNat + s.cpu.regs.x.toNat) % 256)).toNat
      + 256 * (s.ramByte (((d.toNat + s.cpu.regs.x.toNat) % 256 + 1) % 256)).toNat := by
  rw [eaIzx, zeroPagePointer_toNat, BitVec.toNat_add, Nat.mod_mod]

/-! ## The modes that can cross a page -/

theorem AddrMode.ea_of_indexed {m : AddrMode} (h : m.indexed = true) (a : Addr) (s : State) :
    m.ea a s = eaIndexed (m.base a s) (m.index s) := by
  have target := m.addressed_target a s
  rw [if_pos h] at target
  obtain ⟨-, -, -, ea⟩ := target
  exact ea

theorem AddrMode.crosses_of_indexed {m : AddrMode} (h : m.indexed = true) (a : Addr) (s : State) :
    m.crosses a s = decide (256 ≤ (m.base a s).toNat % 256 + (m.index s).toNat)
      ∧ m.crosses a s = decide (hi (m.ea a s) ≠ hi (m.base a s)) := by
  have carries : m.crosses a s = crossed (m.base a s) (m.index s) := by rw [AddrMode.crosses, h, Bool.true_and]
  rw [carries, m.ea_of_indexed h]
  exact ⟨crossed_eq_carry _ _, crossed_eq_hi_ne _ _⟩

/-- Settles O6: one number per mode, and `crosses_of_indexed` for the three modes that can cross a page. -/
theorem effectiveAddresses : Obligations.EffectiveAddresses := by
  intro s d8 a16
  dsimp only
  have operand : lo (word 0 d8) = d8 := lo_word 0 d8
  have base : AddrMode.izy.base (word 0 d8) s = baseIzy d8 s := by rw [AddrMode.base, operand]
  have crossesIzy := AddrMode.crosses_of_indexed (m := .izy) rfl (word 0 d8) s
  rw [base] at crossesIzy
  rw [← baseIzy_toNat]
  refine ⟨?zp, ?zpx, ?zpy, rfl, eaIndexed_toNat _ _, eaIndexed_toNat _ _, ?izx, ?izy,
    AddrMode.crosses_of_indexed (m := .abx) rfl a16 s, AddrMode.crosses_of_indexed (m := .aby) rfl a16 s, crossesIzy⟩
  case zp => rw [AddrMode.ea, operand, eaZp, word_zero_toNat]
  case zpx => rw [AddrMode.ea, operand, eaZpIndexed_toNat]
  case zpy => rw [AddrMode.ea, operand, eaZpIndexed_toNat]
  case izx => rw [AddrMode.ea, operand, eaIzx_toNat]
  case izy => rw [AddrMode.ea, operand, eaIndexed_toNat]

end Sys2Proof.Machine
end

section
/-! SUPPORT. Loads, stores and register instructions (R150 to R162, R206 to R209): `exec` runs the sequence of the opcode byte
(`exec_eq_run`), so the form of a statement follows from the opcode's entry in the table of sequences. -/

namespace Sys2Proof.Machine

theorem opcodeByte_of_hasOpcode {i : Instr} {op : Byte} (ho : HasOpcode i op) : opcodeByte i = op := by
  rw [opcodeByte_eq_head?, ho, Option.getD_some]

/-- What `exec` does with an instruction whose opcode has the sequence `sh` and whose operand is `a`. -/
theorem exec_of_shapeOf {i : Instr} {op : Byte} {a : Addr} {sh : Shape} {s : State} (ho : HasOpcode i op)
    (ha : operandAddr i = a) (hs : shapeOf s.params op = sh) : exec i s = .next (sh.run a s) := by
  rw [exec_eq_run, opcodeByte_of_hasOpcode ho, ha, hs]

/-- The tables of cycle counts hold of the sequence. -/
theorem timing_of_shapeOf {p : Params} {op : Byte} {sh : Shape} (hs : shapeOf p op = sh) :
    sh.timing = (baseCycles op, plusMode op, isBranch op) :=
  hs ▸ shapeOf_tables p op

/-! ## The forms of a statement, from the table of sequences

`g` is the operation the table gives, `f` the one the statement writes out. -/

theorem actsOnRegisters_of_implied {i : Instr} {op : Byte} {g f : Regs → Regs} {s : State} (ho : HasOpcode i op)
    (hs : shapeOf s.params op = .implied g) (hf : ∀ r, g r = f r) : ActsOnRegisters op i 1 f s := by
  obtain rfl : g = f := funext hf
  exact actsOnRegisters_implied ho (exec_of_shapeOf ho rfl hs)

theorem actsOnRegisters_of_imm {i : Instr} {op d8 : Byte} {g : Byte → Regs → Regs} {f : Regs → Regs} {s : State}
    (ho : HasOpcode i op) (ha : operandAddr i = word 0 d8) (hs : shapeOf s.params op = .imm g) (hf : ∀ r, g d8 r = f r) :
    ActsOnRegisters op i 2 f s := by
  obtain rfl : g d8 = f := funext hf
  have runs : exec i s = .next (readImm g (lo (word 0 d8)) s) := exec_of_shapeOf ho ha hs
  rw [lo_word] at runs
  exact actsOnRegisters_imm ho runs

theorem readsOperand_of_read {i : Instr} {op : Byte} {m : AddrMode} {a : Addr} {g f : Byte → Regs → Regs} {s : State}
    (ho : HasOpcode i op) (ha : operandAddr i = a) (hs : shapeOf s.params op = .read m g) (hf : ∀ v r, g v r = f v r) :
    ReadsOperand op i m a f s := by
  obtain rfl : g = f := funext fun v => funext (hf v)
  exact readsOperand_of ho (exec_of_shapeOf ho ha hs) (timing_of_shapeOf hs)

theorem storesByte_of_store {i : Instr} {op v : Byte} {m : AddrMode} {a : Addr} {val : Regs → Byte} {s : State}
    (ho : HasOpcode i op) (ha : operandAddr i = a) (hs : shapeOf s.params op = .store m val)
    (hv : val (s.cpu.regs.advance m.length) = v) : StoresByte op i m a v s :=
  storesByte_of ho (exec_of_shapeOf ho ha hs) hv (timing_of_shapeOf hs)

/-! ## The instructions -/

/-- Settles O7: the table gives each load the read of its mode with `setA`, `setX` or `setY`, which sets N and Z from the byte.
The address of a two-byte operand is made of its bytes again. -/
theorem loadRegisters : Obligations.LoadRegisters := fun _ d8 a16 =>
  have address := word_hi_lo a16
  ⟨readsOperand_of_read rfl rfl rfl Regs.setA_eq,
    readsOperand_of_read rfl rfl rfl Regs.setA_eq,
    actsOnRegisters_of_imm rfl rfl rfl (Regs.setA_eq d8),
    readsOperand_of_read rfl address rfl Regs.setA_eq,
    readsOperand_of_read rfl rfl rfl Regs.setA_eq,
    readsOperand_of_read rfl rfl rfl Regs.setA_eq,
    readsOperand_of_read rfl address rfl Regs.setA_eq,
    readsOperand_of_read rfl address rfl Regs.setA_eq,
    actsOnRegisters_of_imm rfl rfl rfl (Regs.setX_eq d8),
    readsOperand_of_read rfl rfl rfl Regs.setX_eq,
    readsOperand_of_read rfl address rfl Regs.setX_eq,
    readsOperand_of_read rfl rfl rfl Regs.setX_eq,
    readsOperand_of_read rfl address rfl Regs.setX_eq,
    actsOnRegisters_of_imm rfl rfl rfl (Regs.setY_eq d8),
    readsOperand_of_read rfl rfl rfl Regs.setY_eq,
    readsOperand_of_read rfl address rfl Regs.setY_eq,
    readsOperand_of_read rfl rfl rfl Regs.setY_eq,
    readsOperand_of_read rfl address rfl Regs.setY_eq⟩

/-- Settles O8: the table gives each store the write of its mode with A, X or Y, which the address cycles keep. -/
theorem storeRegisters : Obligations.StoreRegisters := fun _ _ a16 =>
  have address := word_hi_lo a16
  ⟨storesByte_of_store rfl rfl rfl (Regs.advance_a _ _),
    storesByte_of_store rfl rfl rfl (Regs.advance_a _ _),
    storesByte_of_store rfl address rfl (Regs.advance_a _ _),
    storesByte_of_store rfl rfl rfl (Regs.advance_a _ _),
    storesByte_of_store rfl rfl rfl (Regs.advance_a _ _),
    storesByte_of_store rfl address rfl (Regs.advance_a _ _),
    storesByte_of_store rfl address rfl (Regs.advance_a _ _),
    storesByte_of_store rfl rfl rfl (Regs.advance_x _ _),
    storesByte_of_store rfl address rfl (Regs.advance_x _ _),
    storesByte_of_store rfl rfl rfl (Regs.advance_x _ _),
    storesByte_of_store rfl rfl rfl (Regs.advance_y _ _),
    storesByte_of_store rfl address rfl (Regs.advance_y _ _),
    storesByte_of_store rfl rfl rfl (Regs.advance_y _ _)⟩

/-- Settles O9: the table gives each instruction its operation, in the order TAX, TAY, TXA, TYA, TSX, TXS, INX, INY, DEX, DEY;
all but TXS set N and Z with their destination. -/
theorem registerInstructions : Obligations.RegisterInstructions := fun _ =>
  ⟨actsOnRegisters_of_implied rfl rfl fun r => r.setX_eq r.a,
    actsOnRegisters_of_implied rfl rfl fun r => r.setY_eq r.a,
    actsOnRegisters_of_implied rfl rfl fun r => r.setA_eq r.x,
    actsOnRegisters_of_implied rfl rfl fun r => r.setA_eq r.y,
    actsOnRegisters_of_implied rfl rfl fun r => r.setX_eq r.s,
    actsOnRegisters_of_implied rfl rfl fun _ => rfl,
    actsOnRegisters_of_implied rfl rfl fun r => r.setX_eq (r.x + 1),
    actsOnRegisters_of_implied rfl rfl fun r => r.setY_eq (r.y + 1),
    actsOnRegisters_of_implied rfl rfl fun r => r.setX_eq (r.x - 1),
    actsOnRegisters_of_implied rfl rfl fun r => r.setY_eq (r.y - 1)⟩

end Sys2Proof.Machine
end

section
/-! SUPPORT. Stack instructions (R170 to R173): the table of sequences gives a push the byte it stores and a pull what it does
to the registers. -/

namespace Sys2Proof.Machine

theorem pushesByte_of_pushOf {i : Instr} {op v : Byte} {val : Regs → Byte} {s : State} (ho : HasOpcode i op)
    (hs : shapeOf s.params op = .pushOf val) (hv : val (s.cpu.regs.advance 1) = v) : PushesByte op i v s :=
  pushesByte_of ho (exec_of_shapeOf ho rfl hs) hv

theorem pullsByte_of_pullTo {i : Instr} {op : Byte} {g f : Byte → Regs → Regs} {s : State} (ho : HasOpcode i op)
    (hs : shapeOf s.params op = .pullTo g) (hf : ∀ v r, g v r = f v r) : PullsByte op i f s := by
  obtain rfl : g = f := funext fun v => funext (hf v)
  exact pullsByte_of ho (exec_of_shapeOf ho rfl hs)

/-- What PLP does to the registers, as the table has it: the flags are those of the byte's bits (R24). -/
theorem Regs.unpackP_eq (v : Byte) (r : Regs) : { r with p := Flags.unpack v } = { r with p := flagsOf v } := by
  rw [unpack_eq]

/-- Settles O10: PHA pushes A and PHP the packed P (`pack_eq`), which the fetch cycles keep; PLA sets N and Z with A, PLP takes
the six flags from the byte (`unpack_eq`). -/
theorem stackInstructions : Obligations.StackInstructions := fun s =>
  ⟨pushesByte_of_pushOf rfl rfl (Regs.advance_a _ _),
    pushesByte_of_pushOf rfl rfl (pack_eq s.cpu.regs.p true),
    pullsByte_of_pullTo rfl rfl Regs.setA_eq,
    pullsByte_of_pullTo rfl rfl Regs.unpackP_eq⟩

end Sys2Proof.Machine
end

section
/-! SUPPORT. Logic, arithmetic and compares (R180 to R190, R273): the table of sequences gives each opcode its mode and its
operation on the registers, and the operation computes the numbers of the statement (`Laws/Numbers.lean`). -/

namespace Sys2Proof.Machine

/-! ## Logic -/

/-- Settles O11: the table gives AND, ORA and EOR `setA` of the bitwise result, which sets N and Z from it, and BIT `Regs.bit`,
which sets three flags. -/
theorem bitwiseLogic : Obligations.BitwiseLogic := fun _ d8 a16 =>
  have address := word_hi_lo a16
  have and_eq (m : Byte) (r : Regs) := r.setA_eq (r.a &&& m)
  have ora_eq (m : Byte) (r : Regs) := r.setA_eq (r.a ||| m)
  have eor_eq (m : Byte) (r : Regs) := r.setA_eq (r.a ^^^ m)
  ⟨readsOperand_of_read rfl rfl rfl and_eq,
    readsOperand_of_read rfl rfl rfl and_eq,
    actsOnRegisters_of_imm rfl rfl rfl (and_eq d8),
    readsOperand_of_read rfl address rfl and_eq,
    readsOperand_of_read rfl rfl rfl and_eq,
    readsOperand_of_read rfl rfl rfl and_eq,
    readsOperand_of_read rfl address rfl and_eq,
    readsOperand_of_read rfl address rfl and_eq,
    readsOperand_of_read rfl rfl rfl ora_eq,
    readsOperand_of_read rfl rfl rfl ora_eq,
    actsOnRegisters_of_imm rfl rfl rfl (ora_eq d8),
    readsOperand_of_read rfl address rfl ora_eq,
    readsOperand_of_read rfl rfl rfl ora_eq,
    readsOperand_of_read rfl rfl rfl ora_eq,
    readsOperand_of_read rfl address rfl ora_eq,
    readsOperand_of_read rfl address rfl ora_eq,
    readsOperand_of_read rfl rfl rfl eor_eq,
    readsOperand_of_read rfl rfl rfl eor_eq,
    actsOnRegisters_of_imm rfl rfl rfl (eor_eq d8),
    readsOperand_of_read rfl address rfl eor_eq,
    readsOperand_of_read rfl rfl rfl eor_eq,
    readsOperand_of_read rfl rfl rfl eor_eq,
    readsOperand_of_read rfl address rfl eor_eq,
    readsOperand_of_read rfl address rfl eor_eq,
    readsOperand_of_read rfl rfl rfl Regs.bit_eq,
    readsOperand_of_read rfl address rfl Regs.bit_eq⟩

/-! ## Sums and differences -/

/-- Settles O12: the table gives ADC `Regs.add`, the nine-bit sum, which never looks at D. -/
theorem addWithCarry : Obligations.AddWithCarry := fun _ d8 a16 =>
  have address := word_hi_lo a16
  ⟨readsOperand_of_read rfl rfl rfl Regs.add_eq,
    readsOperand_of_read rfl rfl rfl Regs.add_eq,
    actsOnRegisters_of_imm rfl rfl rfl (Regs.add_eq d8),
    readsOperand_of_read rfl address rfl Regs.add_eq,
    readsOperand_of_read rfl rfl rfl Regs.add_eq,
    readsOperand_of_read rfl rfl rfl Regs.add_eq,
    readsOperand_of_read rfl address rfl Regs.add_eq,
    readsOperand_of_read rfl address rfl Regs.add_eq⟩

/-- Settles O13: the table gives SBC and EB `Regs.sub`, the sum with the complement, which is the difference less the borrow. -/
theorem subtractWithCarry : Obligations.SubtractWithCarry := fun _ d8 a16 =>
  have address := word_hi_lo a16
  ⟨readsOperand_of_read rfl rfl rfl Regs.sub_eq,
    readsOperand_of_read rfl rfl rfl Regs.sub_eq,
    actsOnRegisters_of_imm rfl rfl rfl (Regs.sub_eq d8),
    actsOnRegisters_of_imm rfl rfl rfl (Regs.sub_eq d8),
    readsOperand_of_read rfl address rfl Regs.sub_eq,
    readsOperand_of_read rfl rfl rfl Regs.sub_eq,
    readsOperand_of_read rfl rfl rfl Regs.sub_eq,
    readsOperand_of_read rfl address rfl Regs.sub_eq,
    readsOperand_of_read rfl address rfl Regs.sub_eq⟩

/-! ## The signed overflow (R185) -/

/-- A byte as a signed number: the half with bit 7 set stands for the negative ones. -/
theorem byte_toInt (v : Byte) : v.toInt = (v.toNat : Int) - if 128 ≤ v.toNat then 256 else 0 := by
  have hv := v.isLt
  rw [BitVec.toInt_eq_toNat_cond]
  omega

/-- Bit 7 of `(a ^ t) & (b ^ t)`: `a` and `b` have one sign and `t` the other. -/
theorem overflowBit_iff (a b t : Byte) :
    ((a ^^^ t) &&& (b ^^^ t)).getLsbD 7 = true
      ↔ (128 ≤ a.toNat ↔ 128 ≤ b.toNat) ∧ ¬ (128 ≤ a.toNat ↔ 128 ≤ t.toNat) := by
  rw [BitVec.getLsbD_and, BitVec.getLsbD_xor, BitVec.getLsbD_xor, getLsbD_seven, getLsbD_seven, getLsbD_seven]
  simp only [Bool.and_eq_true, bne_iff_ne, ne_eq, decide_eq_decide]
  tauto

/-- After an addition V says that the signed sum does not fit: only summands of one sign can leave the range, and then the
sum's byte has the other sign. -/
theorem Regs.plus_v_iff (r : Regs) (m : Byte) (c : Bool) :
    (r.plus m c).p.v = true
      ↔ ¬ (-128 ≤ r.a.toInt + m.toInt + c.toNat ∧ r.a.toInt + m.toInt + c.toNat ≤ 127) := by
  have ha := r.a.isLt
  have hm := m.isLt
  have hc := c.toNat_le
  rw [Regs.plus, overflowBit_iff, BitVec.toNat_ofNat, byte_toInt, byte_toInt]
  omega

theorem complement_toInt (m : Byte) : (m ^^^ 0xFF).toInt = -1 - m.toInt := by
  have hm := m.isLt
  rw [byte_toInt, byte_toInt, complement_toNat]
  omega

/-- A subtraction is the addition of the complement (R187). -/
theorem Regs.minus_eq_plus (r : Regs) (m : Byte) : r.minus m = r.plus (m ^^^ 0xFF) r.p.c := by
  rw [← Regs.sub_eq, Regs.sub, Regs.add_eq]

/-- Settles O14: `Regs.plus_v_iff`, for a subtraction with the complement, which stands for `-1 - m`. -/
theorem signedOverflow : Obligations.SignedOverflow := by
  rintro a b c r rfl
  refine ⟨r.plus_v_iff b c, ?_⟩
  rintro rfl
  have difference : r.a.toInt + (b ^^^ 0xFF).toInt + r.p.c.toNat = r.a.toInt - b.toInt - (1 - (r.p.c.toNat : Int)) := by
    rw [complement_toInt]
    omega
  rw [Regs.minus_eq_plus, Regs.plus_v_iff, difference]

/-! ## Compares -/

/-- Settles O15: the table gives CMP, CPX and CPY the compare of A, X and Y, which sets N, Z and C. -/
theorem compares : Obligations.Compares := fun _ d8 a16 =>
  have address := word_hi_lo a16
  ⟨readsOperand_of_read rfl rfl rfl Regs.compareA_eq,
    readsOperand_of_read rfl rfl rfl Regs.compareA_eq,
    actsOnRegisters_of_imm rfl rfl rfl (Regs.compareA_eq d8),
    readsOperand_of_read rfl address rfl Regs.compareA_eq,
    readsOperand_of_read rfl rfl rfl Regs.compareA_eq,
    readsOperand_of_read rfl rfl rfl Regs.compareA_eq,
    readsOperand_of_read rfl address rfl Regs.compareA_eq,
    readsOperand_of_read rfl address rfl Regs.compareA_eq,
    actsOnRegisters_of_imm rfl rfl rfl (Regs.compareX_eq d8),
    readsOperand_of_read rfl rfl rfl Regs.compareX_eq,
    readsOperand_of_read rfl address rfl Regs.compareX_eq,
    actsOnRegisters_of_imm rfl rfl rfl (Regs.compareY_eq d8),
    readsOperand_of_read rfl rfl rfl Regs.compareY_eq,
    readsOperand_of_read rfl address rfl Regs.compareY_eq⟩

end Sys2Proof.Machine
end

section
/-! SUPPORT. Shifts, rotates, INC and DEC (R200 to R205): the table of sequences gives each memory form the three accesses of a
read-modify-write (R210) with the byte it stores and the flags it sets. -/

namespace Sys2Proof.Machine

/-- `nw` and `g` are the new byte and the operation the table gives, `new` and `f` those the statement writes out. -/
theorem modifiesByte_of_rmw {i : Instr} {op : Byte} {m : AddrMode} {a : Addr} {nw : Flags → Byte → Byte} {new : Byte → Byte}
    {g f : Byte → Regs → Regs} {s : State} (ho : HasOpcode i op) (ha : operandAddr i = a)
    (hs : shapeOf s.params op = .rmw m nw g) (hn : nw s.cpu.regs.p = new) (hf : ∀ old r, g old r = f old r) :
    ModifiesByte op i m a new f s := by
  obtain rfl : g = f := funext fun old => funext (hf old)
  exact modifiesByte_of ho (exec_of_shapeOf ho ha hs) hn (timing_of_shapeOf hs)

/-! ## Shifts and rotates -/

theorem modifiesByte_of_shift {i : Instr} {op : Byte} {m : AddrMode} {a : Addr} {k : Shift} {s : State} (ho : HasOpcode i op)
    (ha : operandAddr i = a) (hs : shapeOf s.params op = .rmw m k.memory (Regs.shiftMemory k)) :
    ModifiesByte op i m a (shifted k s.cpu.regs.p.c) (fun old r => { r with p := r.p.shifted k old }) s :=
  modifiesByte_of_rmw ho ha hs (k.memory_eq _) (Regs.shiftMemory_eq k)

/-- Settles O16: the table gives each form the shift of its name, on A (`Regs.shiftA_eq`) or on memory (`modifiesByte_of_shift`);
in the order ASL, LSR, ROL, ROR, each in modes zp, A, abs, zpx, abx. -/
theorem shiftsAndRotates : Obligations.ShiftsAndRotates := fun _ _ a16 =>
  have address := word_hi_lo a16
  ⟨modifiesByte_of_shift rfl rfl rfl,
    actsOnRegisters_of_implied rfl rfl (Regs.shiftA_eq .asl),
    modifiesByte_of_shift rfl address rfl,
    modifiesByte_of_shift rfl rfl rfl,
    modifiesByte_of_shift rfl address rfl,
    modifiesByte_of_shift rfl rfl rfl,
    actsOnRegisters_of_implied rfl rfl (Regs.shiftA_eq .lsr),
    modifiesByte_of_shift rfl address rfl,
    modifiesByte_of_shift rfl rfl rfl,
    modifiesByte_of_shift rfl address rfl,
    modifiesByte_of_shift rfl rfl rfl,
    actsOnRegisters_of_implied rfl rfl (Regs.shiftA_eq .rol),
    modifiesByte_of_shift rfl address rfl,
    modifiesByte_of_shift rfl rfl rfl,
    modifiesByte_of_shift rfl address rfl,
    modifiesByte_of_shift rfl rfl rfl,
    actsOnRegisters_of_implied rfl rfl (Regs.shiftA_eq .ror),
    modifiesByte_of_shift rfl address rfl,
    modifiesByte_of_shift rfl rfl rfl,
    modifiesByte_of_shift rfl address rfl⟩

/-! ## INC and DEC -/

/-- What INC and DEC do to the registers, `v` being the new byte: N and Z are set from it. -/
theorem Regs.mapP_setNZ_eq (v : Byte) (r : Regs) : r.mapP (·.setNZ v) = { r with p := r.p.nz v } := by
  rw [Regs.mapP, setNZ_eq]

/-- Settles O17: the table gives INC and DEC the byte plus or minus one and N and Z from it (`Regs.mapP_setNZ_eq`), whatever the
flags were before. -/
theorem incrementDecrementMemory : Obligations.IncrementDecrementMemory := fun _ _ a16 =>
  have address := word_hi_lo a16
  have inc_eq (old : Byte) := Regs.mapP_setNZ_eq (old + 1)
  have dec_eq (old : Byte) := Regs.mapP_setNZ_eq (old - 1)
  ⟨modifiesByte_of_rmw rfl rfl rfl rfl inc_eq,
    modifiesByte_of_rmw rfl address rfl rfl inc_eq,
    modifiesByte_of_rmw rfl rfl rfl rfl inc_eq,
    modifiesByte_of_rmw rfl address rfl rfl inc_eq,
    modifiesByte_of_rmw rfl rfl rfl rfl dec_eq,
    modifiesByte_of_rmw rfl address rfl rfl dec_eq,
    modifiesByte_of_rmw rfl rfl rfl rfl dec_eq,
    modifiesByte_of_rmw rfl address rfl rfl dec_eq⟩

end Sys2Proof.Machine
end

section
/-! SUPPORT. Control transfer (R220 to R232): the table of sequences gives each opcode its jump or branch, and the specification of
that sequence gives registers and memory. -/

namespace Sys2Proof.Machine

/-- The table of cycle counts gives a sequence its own count. -/
theorem run_takes_cyclesOf {op : Byte} {a : Addr} {sh : Shape} {s : State} (hs : shapeOf s.params op = sh) :
    Takes (cyclesOf op a s) s (sh.run a s) := by
  rw [cyclesOf_eq, hs]
  exact sh.run_takes a s

/-! ## Jumps and subroutines -/

/-- Settles O18: the table gives the two opcodes `jmpAbs` and `jmpInd`; the operand is made of its bytes again. -/
theorem jumps : Obligations.Jumps := fun s a16 =>
  have address := word_hi_lo a16
  have ⟨absRegs, absSame⟩ := jmpAbs_spec a16 s
  have ⟨indRegs, indSame, low, high⟩ := jmpInd_spec a16 s
  ⟨⟨rfl, _, exec_of_shapeOf rfl address rfl, absRegs, absSame.sameMemory, absSame.halted, Shape.jmpAbs.run_takes a16 s⟩,
    rfl, low, high, _, exec_of_shapeOf rfl address rfl, indRegs, indSame.sameMemory, indSame.halted,
    Shape.jmpInd.run_takes a16 s⟩

/-- Settles O19: where the byte JSR reads after its pushes is the high byte of its operand, PC is the operand (`word_hi_lo`); the
rest is what the two sequences do (`jumpSubroutine_spec`, `returnSubroutine_spec`). -/
theorem subroutines : Obligations.Subroutines := by
  intro s a16
  obtain ⟨targetHigh, jsrRegs, pushed, cartridge, high⟩ := jumpSubroutine_spec a16 s
  obtain ⟨rtsRegs, rtsSame⟩ := returnSubroutine_spec s
  have jumps_to_operand (hm : (jumpSubroutine a16 s).memByte (s.cpu.regs.pc + 2) = some (hi a16)) :
      (jumpSubroutine a16 s).cpu.regs.pc = a16 := by
    rw [jsrRegs, high _ hm, word_hi_lo]
  exact ⟨⟨rfl, _, targetHigh, exec_of_shapeOf rfl (word_hi_lo a16) rfl, jsrRegs, high, jumps_to_operand, pushed, cartridge,
      jumpSubroutine_halted a16 s, Shape.jsr.run_takes a16 s⟩,
    rfl, _, exec_of_shapeOf rfl rfl rfl, rtsRegs, rtsSame.sameMemory, rtsSame.halted, Shape.rts.run_takes 0 s⟩

/-! ## Branches -/

theorem branches_of_branch {i : Byte → Instr} {op : Byte} {cond : Flags → Bool} {s : State} (ho : ∀ d, HasOpcode (i d) op)
    (ha : ∀ d, operandAddr (i d) = word 0 d) (hs : shapeOf s.params op = .branch cond) : Branches op i cond s := by
  intro d
  have runs : (Shape.branch cond).run (word 0 d) s = branch cond d s := congrArg (branch cond · s) (lo_word 0 d)
  obtain ⟨regs, same⟩ := branch_spec cond d s
  rw [← runs] at regs same
  exact ⟨ho d, _, exec_of_shapeOf (ho d) (ha d) hs, regs, same.sameMemory, same.halted, run_takes_cyclesOf hs⟩

/-- Settles O20: the table gives each opcode the branch on its flag, and `branch_spec` says where it goes. -/
theorem conditionalBranches : Obligations.ConditionalBranches := fun _ =>
  ⟨branches_of_branch (fun _ => rfl) (fun _ => rfl) rfl,
    branches_of_branch (fun _ => rfl) (fun _ => rfl) rfl,
    branches_of_branch (fun _ => rfl) (fun _ => rfl) rfl,
    branches_of_branch (fun _ => rfl) (fun _ => rfl) rfl,
    branches_of_branch (fun _ => rfl) (fun _ => rfl) rfl,
    branches_of_branch (fun _ => rfl) (fun _ => rfl) rfl,
    branches_of_branch (fun _ => rfl) (fun _ => rfl) rfl,
    branches_of_branch (fun _ => rfl) (fun _ => rfl) rfl⟩

end Sys2Proof.Machine
end

section
/-! SUPPORT. Flag instructions, NOP, BRK and RTI (R240 to R249): the table of sequences gives the flag instructions the update of
one flag, and BRK and RTI the sequences that enter and leave an interrupt. -/

namespace Sys2Proof.Machine

/-! ## Flags -/

/-- Settles O21: the table gives each instruction the update of its one flag (`Regs.mapP`), in the order CLC, SEC, CLI, SEI, CLV,
CLD, SED, and NOP `Regs.same`. -/
theorem flagInstructions : Obligations.FlagInstructions := fun _ =>
  ⟨actsOnRegisters_of_implied rfl rfl fun _ => rfl,
    actsOnRegisters_of_implied rfl rfl fun _ => rfl,
    actsOnRegisters_of_implied rfl rfl fun _ => rfl,
    actsOnRegisters_of_implied rfl rfl fun _ => rfl,
    actsOnRegisters_of_implied rfl rfl fun _ => rfl,
    actsOnRegisters_of_implied rfl rfl fun _ => rfl,
    actsOnRegisters_of_implied rfl rfl fun _ => rfl,
    actsOnRegisters_of_implied rfl rfl fun _ => rfl⟩

/-! ## BRK -/

/-- Settles O22: the opcode and the padding byte are fetched, which steps PC twice and keeps memory; the entry that follows has the
form of `Enters` (`enters_of`). The name `break` is a keyword of Lean. -/
theorem break_spec : Obligations.Break := by
  intro s
  have fetched_same : Same s (fetchOperand false id (fetchOpcode s)) := (fetchOpcode_same s).trans (fetchOperand_same _ _ _)
  have fetched_regs : (fetchOperand false id (fetchOpcode s)).cpu.regs = s.cpu.regs.advance 2 := by
    rw [fetchOperand_regs, fetchOpcode_regs, Regs.incPc_twice]
  exact ⟨rfl, _, exec_of_shapeOf rfl rfl rfl, enters_of true _ s fetched_same, fetched_regs, Shape.brk.run_takes 0 s⟩

/-! ## RTI -/

/-- The flags RTI has in front of its last cycle are the pulled ones. -/
theorem beforeLastPull_p (s : State) :
    (beforeLastPull s).cpu.regs.p = flagsOf (s.ramByte (stackIndex (s.cpu.regs.s + 1))) := by
  have same := ((fetchOpcode_same s).trans (dummyFetch_same false _)).trans (beforePull_same _)
  have regs : (beforePull (dummyFetch false (fetchOpcode s))).cpu.regs = (s.cpu.regs.advance 1).incS := by
    rw [beforePull_regs, dummyFetch_regs, fetchOpcode_regs, Regs.incPc_eq]
  calc (beforeLastPull s).cpu.regs.p
      = flagsOf (stackValue false (beforePull (dummyFetch false (fetchOpcode s)))) := by
        simp only [beforeLastPull, mapRegs_regs, stackRead_regs, Regs.incS, Regs.setPcl]
    _ = flagsOf (s.ramByte (stackIndex (s.cpu.regs.s + 1))) := by
        rw [stackValue_eq, same.ramByte, regs]; rfl

/-- The poll of RTI (R346, R348), in its last cycle, which reads the high byte of PC, uses the pulled I. -/
theorem rti_intDetected (s : State) :
    (Shape.rti.run 0 s).cpu.intDetected
      = (stalls (beforeLastPull s)).polled (flagsOf (s.ramByte (stackIndex (s.cpu.regs.s + 1)))).i := by
  have last_cycle : Shape.rti.run 0 s
      = finish ((stackRead true (beforeLastPull s)).mapRegs (Regs.setPch (stackValue true (beforeLastPull s)))) := rfl
  rw [last_cycle, finish_intDetected, mapRegs_intDetected, ← beforeLastPull_p]
  exact readCycle_intDetected _ _

/-- Settles O23: registers and memory are those of `rti_spec`, where a pulled byte gives the flags of its bits (`unpack_eq`); the
poll is `rti_intDetected`. -/
theorem returnFromInterrupt : Obligations.ReturnFromInterrupt := by
  intro s
  obtain ⟨regs, same⟩ := rti_spec s
  rw [unpack_eq] at regs
  exact ⟨rfl, _, exec_of_shapeOf rfl rfl rfl, regs, rti_intDetected s, same.sameMemory, same.halted,
    Shape.rti.run_takes 0 s⟩

end Sys2Proof.Machine
end

section
/-! SUPPORT. The undocumented opcodes (R260 to R292): the table of sequences gives each one a sequence that the documented opcodes
use as well, with the operation of its rule (`Laws/Numbers.lean`); only the JAM opcodes and the unstable stores have sequences of
their own. -/

namespace Sys2Proof.Machine

/-! ## Combinations on memory -/

/-- The memory half of SLO, RLA, SRE and RRA is the shift of their name; `g` is the operation the table gives, `f` the one the
statement writes out. -/
theorem modifiesByte_of_shiftThen {i : Instr} {op : Byte} {m : AddrMode} {a : Addr} (k : Shift) {g f : Byte → Regs → Regs}
    {s : State} (ho : HasOpcode i op) (ha : operandAddr i = a) (hs : shapeOf s.params op = .rmw m k.memory g)
    (hf : ∀ old r, g old r = f old r) : ModifiesByte op i m a (shifted k s.cpu.regs.p.c) f s :=
  modifiesByte_of_rmw ho ha hs (k.memory_eq _) hf

/-- Settles O24: the table gives SLO, RLA and SRE the shift of memory by ASL, ROL and LSR, and the logic of `Regs.slo`, `Regs.rla`
and `Regs.sre`; each in modes izx, zp, abs, izy, zpx, aby, abx. -/
theorem shiftThenLogic : Obligations.ShiftThenLogic := fun _ _ a16 =>
  have address := word_hi_lo a16
  ⟨modifiesByte_of_shiftThen .asl rfl rfl rfl Regs.slo_eq,
    modifiesByte_of_shiftThen .asl rfl rfl rfl Regs.slo_eq,
    modifiesByte_of_shiftThen .asl rfl address rfl Regs.slo_eq,
    modifiesByte_of_shiftThen .asl rfl rfl rfl Regs.slo_eq,
    modifiesByte_of_shiftThen .asl rfl rfl rfl Regs.slo_eq,
    modifiesByte_of_shiftThen .asl rfl address rfl Regs.slo_eq,
    modifiesByte_of_shiftThen .asl rfl address rfl Regs.slo_eq,
    modifiesByte_of_shiftThen .rol rfl rfl rfl Regs.rla_eq,
    modifiesByte_of_shiftThen .rol rfl rfl rfl Regs.rla_eq,
    modifiesByte_of_shiftThen .rol rfl address rfl Regs.rla_eq,
    modifiesByte_of_shiftThen .rol rfl rfl rfl Regs.rla_eq,
    modifiesByte_of_shiftThen .rol rfl rfl rfl Regs.rla_eq,
    modifiesByte_of_shiftThen .rol rfl address rfl Regs.rla_eq,
    modifiesByte_of_shiftThen .rol rfl address rfl Regs.rla_eq,
    modifiesByte_of_shiftThen .lsr rfl rfl rfl Regs.sre_eq,
    modifiesByte_of_shiftThen .lsr rfl rfl rfl Regs.sre_eq,
    modifiesByte_of_shiftThen .lsr rfl address rfl Regs.sre_eq,
    modifiesByte_of_shiftThen .lsr rfl rfl rfl Regs.sre_eq,
    modifiesByte_of_shiftThen .lsr rfl rfl rfl Regs.sre_eq,
    modifiesByte_of_shiftThen .lsr rfl address rfl Regs.sre_eq,
    modifiesByte_of_shiftThen .lsr rfl address rfl Regs.sre_eq⟩

/-- Settles O25: the table gives RRA the shift of memory by ROR with `Regs.rra`, whose sum takes the bit rotated out as carry, and
DCP and ISC the byte minus or plus one with `Regs.dcp` and `Regs.isc`; each in modes izx, zp, abs, izy, zpx, aby, abx. -/
theorem modifyThenArithmetic : Obligations.ModifyThenArithmetic := fun _ _ a16 =>
  have address := word_hi_lo a16
  ⟨modifiesByte_of_shiftThen .ror rfl rfl rfl Regs.rra_eq,
    modifiesByte_of_shiftThen .ror rfl rfl rfl Regs.rra_eq,
    modifiesByte_of_shiftThen .ror rfl address rfl Regs.rra_eq,
    modifiesByte_of_shiftThen .ror rfl rfl rfl Regs.rra_eq,
    modifiesByte_of_shiftThen .ror rfl rfl rfl Regs.rra_eq,
    modifiesByte_of_shiftThen .ror rfl address rfl Regs.rra_eq,
    modifiesByte_of_shiftThen .ror rfl address rfl Regs.rra_eq,
    modifiesByte_of_rmw rfl rfl rfl rfl Regs.dcp_eq,
    modifiesByte_of_rmw rfl rfl rfl rfl Regs.dcp_eq,
    modifiesByte_of_rmw rfl address rfl rfl Regs.dcp_eq,
    modifiesByte_of_rmw rfl rfl rfl rfl Regs.dcp_eq,
    modifiesByte_of_rmw rfl rfl rfl rfl Regs.dcp_eq,
    modifiesByte_of_rmw rfl address rfl rfl Regs.dcp_eq,
    modifiesByte_of_rmw rfl address rfl rfl Regs.dcp_eq,
    modifiesByte_of_rmw rfl rfl rfl rfl Regs.isc_eq,
    modifiesByte_of_rmw rfl rfl rfl rfl Regs.isc_eq,
    modifiesByte_of_rmw rfl address rfl rfl Regs.isc_eq,
    modifiesByte_of_rmw rfl rfl rfl rfl Regs.isc_eq,
    modifiesByte_of_rmw rfl rfl rfl rfl Regs.isc_eq,
    modifiesByte_of_rmw rfl address rfl rfl Regs.isc_eq,
    modifiesByte_of_rmw rfl address rfl rfl Regs.isc_eq⟩

/-! ## Stores and loads of A and X -/

/-- The address cycles keep the byte that SAX, SHA and TAS store. -/
theorem Regs.advance_a_and_x (r : Regs) (n : Addr) : (r.advance n).a &&& (r.advance n).x = r.a &&& r.x := by
  rw [Regs.advance_a, Regs.advance_x]

/-- Settles O26: the table gives SAX the write of `A & X`, which the address cycles keep, and LAX the read with `setAX`, which sets
N and Z from the byte. -/
theorem storeAndLoadBoth : Obligations.StoreAndLoadBoth := fun _ _ a16 =>
  have address := word_hi_lo a16
  ⟨storesByte_of_store rfl rfl rfl (Regs.advance_a_and_x _ _),
    storesByte_of_store rfl rfl rfl (Regs.advance_a_and_x _ _),
    storesByte_of_store rfl address rfl (Regs.advance_a_and_x _ _),
    storesByte_of_store rfl rfl rfl (Regs.advance_a_and_x _ _),
    readsOperand_of_read rfl rfl rfl Regs.setAX_eq,
    readsOperand_of_read rfl rfl rfl Regs.setAX_eq,
    readsOperand_of_read rfl address rfl Regs.setAX_eq,
    readsOperand_of_read rfl rfl rfl Regs.setAX_eq,
    readsOperand_of_read rfl rfl rfl Regs.setAX_eq,
    readsOperand_of_read rfl address rfl Regs.setAX_eq⟩

/-! ## Immediate combinations -/

/-- Settles O27: the table gives each opcode the operation of its name. -/
theorem immediateCombinations : Obligations.ImmediateCombinations := fun _ d8 =>
  ⟨actsOnRegisters_of_imm rfl rfl rfl (Regs.anc_eq d8),
    actsOnRegisters_of_imm rfl rfl rfl (Regs.anc_eq d8),
    actsOnRegisters_of_imm rfl rfl rfl (Regs.alr_eq d8),
    actsOnRegisters_of_imm rfl rfl rfl (Regs.arr_eq d8),
    actsOnRegisters_of_imm rfl rfl rfl (Regs.axs_eq d8)⟩

/-! ## No-operations -/

/-- What every NOP does to the registers. -/
theorem Regs.same_eq (r : Regs) : r.same = r := rfl

/-- Settles O28: the table gives each opcode the cycles of its mode with `Regs.same`. -/
theorem undocumentedNoOperations : Obligations.UndocumentedNoOperations := fun _ _ a16 =>
  have address := word_hi_lo a16
  have discards (_ : Byte) := Regs.same_eq
  ⟨readsOperand_of_read rfl rfl rfl discards,
    readsOperand_of_read rfl address rfl discards,
    readsOperand_of_read rfl rfl rfl discards,
    actsOnRegisters_of_implied rfl rfl Regs.same_eq,
    readsOperand_of_read rfl address rfl discards,
    readsOperand_of_read rfl rfl rfl discards,
    actsOnRegisters_of_implied rfl rfl Regs.same_eq,
    readsOperand_of_read rfl address rfl discards,
    readsOperand_of_read rfl rfl rfl discards,
    readsOperand_of_read rfl rfl rfl discards,
    actsOnRegisters_of_implied rfl rfl Regs.same_eq,
    readsOperand_of_read rfl address rfl discards,
    readsOperand_of_read rfl rfl rfl discards,
    readsOperand_of_read rfl rfl rfl discards,
    actsOnRegisters_of_implied rfl rfl Regs.same_eq,
    readsOperand_of_read rfl address rfl discards,
    actsOnRegisters_of_imm rfl rfl rfl Regs.same_eq,
    actsOnRegisters_of_imm rfl rfl rfl Regs.same_eq,
    actsOnRegisters_of_imm rfl rfl rfl Regs.same_eq,
    actsOnRegisters_of_imm rfl rfl rfl Regs.same_eq,
    readsOperand_of_read rfl rfl rfl discards,
    actsOnRegisters_of_implied rfl rfl Regs.same_eq,
    readsOperand_of_read rfl address rfl discards,
    actsOnRegisters_of_imm rfl rfl rfl Regs.same_eq,
    readsOperand_of_read rfl rfl rfl discards,
    actsOnRegisters_of_implied rfl rfl Regs.same_eq,
    readsOperand_of_read rfl address rfl discards⟩

/-! ## JAM -/

/-- Settles O29: the table gives the twelve opcodes one sequence, which halts the Cpu (`jam_spec`); a step of a halted Cpu is one
cycle (`step_halted`), which changes nothing a program can see (`haltedCycle_kept`). -/
theorem jamHaltsTheCpu : Obligations.JamHaltsTheCpu := by
  constructor
  · intro p listed s
    obtain ⟨opcode, shape⟩ : HasOpcode p.2 p.1 ∧ shapeOf s.params p.1 = .jam := by
      fin_cases listed <;> exact ⟨rfl, rfl⟩
    obtain ⟨regs, halted, memory⟩ := jam_spec s
    exact ⟨opcode, _, exec_of_shapeOf opcode rfl shape, regs, halted, memory, Shape.jam.run_takes (operandAddr p.2) s⟩
  · intro s halted
    obtain ⟨steps, cycle⟩ := step_halted halted
    have kept : Kept s (stepCycle s) := cycle ▸ haltedCycle_kept s
    exact ⟨_, steps, kept.regs, kept.halted.trans halted, kept.same.sameMemory⟩

/-! ## LAS, XAA and LXA -/

/-- Settles O30: the table takes the magic bytes of XAA and LXA from the machine's parameters. -/
theorem lasXaaLxa : Obligations.LasXaaLxa := fun s d8 a16 =>
  ⟨readsOperand_of_read rfl (word_hi_lo a16) rfl Regs.las_eq,
    actsOnRegisters_of_imm rfl rfl rfl fun r => r.setA_eq ((r.a ||| s.params.magicXaa) &&& r.x &&& d8),
    actsOnRegisters_of_imm rfl rfl rfl fun r => r.setAX_eq ((r.a ||| s.params.magicLxa) &&& d8)⟩

/-! ## The unstable stores -/

theorem storesAndHigh_of_unstable {i : Instr} {op reg : Byte} {m : AddrMode} {a : Addr} {val : Regs → Byte} {f : Regs → Regs}
    {s : State} (hm : m.indexed = true) (ho : HasOpcode i op) (ha : operandAddr i = a)
    (hs : shapeOf s.params op = .unstable m val f) (hv : val (s.cpu.regs.advance m.length) = reg) :
    StoresAndHigh op i m a reg f s :=
  storesAndHigh_of hm ho (exec_of_shapeOf ho ha hs) hv (timing_of_shapeOf hs)

/-- Settles O31: the table gives each opcode the unstable store of its mode with its register value, which the address cycles keep;
all but TAS leave the registers alone. -/
theorem unstableStores : Obligations.UnstableStores := fun _ _ a16 =>
  have address := word_hi_lo a16
  ⟨storesAndHigh_of_unstable rfl rfl address rfl (Regs.advance_a_and_x _ _),
    storesAndHigh_of_unstable rfl rfl rfl rfl (Regs.advance_a_and_x _ _),
    storesAndHigh_of_unstable rfl rfl address rfl (Regs.advance_x _ _),
    storesAndHigh_of_unstable rfl rfl address rfl (Regs.advance_y _ _),
    storesAndHigh_of_unstable rfl rfl address rfl (Regs.advance_a_and_x _ _)⟩

end Sys2Proof.Machine
end

section
/-! SUPPORT. Cycle counts, the interrupt poll and the detectors (R319, R322, R325, R342 to R350, R359). Instructions are the
sequences of the table (`exec_eq_run`), whose cycles `Laws/Timing.lean` counts; every single cycle, a stolen one too, ends with
the detectors (`endCycle`), and afterwards only the row that chooses a vector touches what they latched. -/

namespace Sys2Proof.Machine

/-! ## Cycle counts (R322) -/

/-- The reset sequence takes the 7 cycles of the interrupt sequence (R320). -/
theorem resetSequence_takes (s : State) : Takes 7 s (resetSequence s) := by
  have down_after (t : State) : After 1 t ((readCycle false t.cpu.regs.stackAddr t).mapRegs Regs.decS) :=
    (readCycle_after _ _ t).trans (mapRegs_after _ _)
  have dummies := ((mapProg_after (fun g => { g with ir := .int }) s).trans (dummyFetch_after false _)).trans
    (dummyFetch_after false _)
  exact finish_takes
    ((((dummies.trans (down_after _)).trans (down_after _)).trans (down_after _)).trans (loadVector_after _ _)).takes

/-- Settles O34: an instruction is the sequence of its opcode, whose count the table agrees with (`run_takes_cyclesOf`). -/
theorem instructionCycles : Obligations.InstructionCycles := by
  intro s quiet
  refine ⟨fun i => ⟨_, exec_eq_run i s, run_takes_cyclesOf rfl quiet⟩, interruptSequence_takes s quiet,
    resetSequence_takes s quiet, fun halted => ?_⟩
  obtain ⟨steps, cycle⟩ := step_halted halted
  exact ⟨_, steps, by rw [cycle, haltedCycle_cycle]⟩

/-! ## Interrupt entry (R349) -/

theorem step_of_detected {s : State} (idle : s.cpu.prog = Progress.idle) (nh : s.cpu.halted = false)
    (detected : s.cpu.intDetected = true) : step s = .next (interruptSequence s) := by
  simp [step, State.atBoundary, idle, nh, detected]

/-- The dummy reads leave the registers alone. -/
theorem beforeEntry_regs (s : State) : (beforeEntry s).cpu.regs = s.cpu.regs := by
  simp [beforeEntry]

/-- Settles O36: the step is the interrupt sequence, which enters with B = 0 from the state after its dummy reads. -/
theorem interruptEntry : Obligations.InterruptEntry := fun s idle nh detected =>
  ⟨_, step_of_detected idle nh detected, enters_of false _ s (beforeEntry_same s), beforeEntry_regs s,
    interruptSequence_intDetected s, interruptSequence_takes s⟩

/-! ## The poll of the flag instructions (R346, R348) -/

/-- The poll of a one-byte instruction, in its cycle 2, uses the flags from before its operation. -/
theorem implied_intDetected (op : Regs → Regs) (s : State) :
    (implied op s).cpu.intDetected = (stalls (fetchOpcode s)).polled s.cpu.regs.p.i := by
  rw [implied, finish_intDetected, mapRegs_intDetected, dummyFetch, readCycle_intDetected, fetchOpcode_regs, Regs.incPc_p]

/-- Settles O38: CLI and SEI poll before their operation (`implied_intDetected`), PLP before the pull has changed the flags (O10),
RTI after it (O23). -/
theorem maskDelay : Obligations.MaskDelay := by
  intro s
  obtain ⟨-, -, -, -, plp, plp_exec, plp_regs, plp_poll, -⟩ := stackInstructions s
  obtain ⟨-, rti, rti_exec, rti_regs, rti_poll, -⟩ := returnFromInterrupt s
  exact ⟨⟨_, rfl, by rw [(implied_spec _ s).1]; rfl, implied_intDetected _ s⟩,
    ⟨_, rfl, by rw [(implied_spec _ s).1]; rfl, implied_intDetected _ s⟩,
    ⟨plp, plp_exec, by rw [plp_regs]; rfl, plp_poll⟩,
    ⟨rti, rti_exec, by rw [rti_regs]; rfl, rti_poll⟩⟩

/-! ## The poll of the branches (R347) -/

theorem exec_branchInstrs {p : (Byte → Instr) × (Flags → Bool)} (listed : p ∈ branchInstrs) (d8 : Byte) (s : State) :
    exec (p.1 d8) s = .next (branch p.2 d8 s) := by
  fin_cases listed <;> rfl

/-- The first two cycles of a branch: the operand's cycle polls. -/
theorem branchOperand_spec (f : Progress → Progress) (s : State) :
    (fetchOperand true f (fetchOpcode s)).cpu.regs = s.cpu.regs.advance 2
      ∧ (fetchOperand true f (fetchOpcode s)).cpu.intDetected = (stalls (fetchOpcode s)).polled s.cpu.regs.p.i := by
  constructor
  · rw [fetchOperand_regs, fetchOpcode_regs, Regs.incPc_twice]
  · rw [fetchOperand, mapRegs_intDetected, mapProg_intDetected, readCycle_intDetected, fetchOpcode_regs, Regs.incPc_p]

/-- The third cycle of a taken branch does not poll; the fourth, where there is one, does. -/
theorem branch_intDetected (cond : Flags → Bool) (d8 : Byte) (s : State) :
    (branch cond d8 s).cpu.intDetected =
      if cond s.cpu.regs.p = true ∧ hi (s.cpu.regs.pc + 2 + sext d8) ≠ hi (s.cpu.regs.pc + 2)
      then (stalls (beforeFourthCycle d8 s)).polled s.cpu.regs.p.i
      else (stalls (fetchOpcode s)).polled s.cpu.regs.p.i := by
  obtain ⟨regs, polled⟩ := branchOperand_spec (fun g => { g with data := d8 }) s
  unfold branch
  dsimp only
  rw [regs, Regs.advance_p, Regs.advance_pc]
  by_cases taken : cond s.cpu.regs.p = true
  case neg => simp only [taken, Bool.false_eq_true, false_and, if_false, finish_intDetected, polled]
  by_cases page : hi (s.cpu.regs.pc + 2 + sext d8) = hi (s.cpu.regs.pc + 2)
  · simp only [taken, page, if_true, ne_eq, not_true_eq_false, and_false, if_false]
    rw [finish_intDetected, State.jump, mapRegs_intDetected, dummyFetch, readCycle_noPoll, polled]
  · simp only [taken, page, if_true, if_false, ne_eq, not_false_eq_true, and_self]
    have fourth_p : (beforeFourthCycle d8 s).cpu.regs.p = s.cpu.regs.p := by
      simp only [beforeFourthCycle, jump_regs, dummyFetch_regs, regs, Regs.advance_p]
    rw [finish_intDetected, ← fourth_p]
    exact readCycle_intDetected _ _

/-- Settles O39: the eight branches are one sequence, whose polls `branch_intDetected` says. -/
theorem branchPoll : Obligations.BranchPoll := fun p listed d8 s =>
  ⟨_, exec_branchInstrs listed d8 s, branch_intDetected p.2 d8 s⟩

/-! ## The detectors at the end of a cycle (R344, R345) -/

/-- What the detectors sample at the end of the cycle from `s` to `t`. -/
structure Sampled (s t : State) : Prop where
  cycle    : t.cycle = s.cycle + 1
  nmiPrev  : t.cpu.nmiPrev = t.nmiSeen s.cpu.nmiPrev
  irqLevel : t.cpu.irqLevel = t.irqLine

/-- The lines and the samples are all that counts. -/
theorem Sampled.cpu {s t : State} (h : Sampled s t) {c : Cpu} (prev : c.nmiPrev = t.cpu.nmiPrev)
    (irq : c.irqLevel = t.cpu.irqLevel) : Sampled s { t with cpu := c } :=
  ⟨h.cycle, prev.trans h.nmiPrev, irq.trans h.irqLevel⟩

/-- A rise of what is sampled. -/
def NmiRise (s t : State) : Bool := t.cpu.nmiPrev && !s.cpu.nmiPrev

/-- The detectors have sampled, and a rise is latched. -/
structure Detected (s t : State) : Prop extends Sampled s t where
  nmiPending : t.cpu.nmiPending = (s.cpu.nmiPending || NmiRise s t)

/-- Nothing the detectors start from has changed inside the cycle. -/
structure InCycle (s u : State) : Prop where
  nmiPrev    : u.cpu.nmiPrev = s.cpu.nmiPrev
  nmiPending : u.cpu.nmiPending = s.cpu.nmiPending
  cycle      : u.cycle = s.cycle

theorem InCycle.of_cpu {s u : State} (hcpu : u.cpu = s.cpu) (hcycle : u.cycle = s.cycle) : InCycle s u :=
  ⟨congrArg Cpu.nmiPrev hcpu, congrArg Cpu.nmiPending hcpu, hcycle⟩

theorem InCycle.refl (s : State) : InCycle s s := ⟨rfl, rfl, rfl⟩

theorem InCycle.trans {s t u : State} (h : InCycle s t) (h' : InCycle t u) : InCycle s u :=
  ⟨h'.nmiPrev.trans h.nmiPrev, h'.nmiPending.trans h.nmiPending, h'.cycle.trans h.cycle⟩

theorem InCycle.dma {s u : State} (h : InCycle s u) (d : Dma) : InCycle s { u with dma := d } :=
  ⟨h.nmiPrev, h.nmiPending, h.cycle⟩

theorem busAfterRead_inCycle (a : Addr) (s : State) : InCycle s (busAfterRead a s) :=
  .of_cpu (busAfterRead_cpu a s) (busAfterRead_fields a s).2.2

theorem busWrite_inCycle (a : Addr) (v : Byte) (s : State) : InCycle s (busWrite a v s) :=
  .of_cpu (busWrite_cpu a v s) (busWrite_cycle a v s)

theorem InCycle.detected {s u : State} (h : InCycle s u) (w : Bool) : Detected s (endCycle w u) := by
  obtain ⟨prev, irq, pending⟩ := endCycle_detect w u
  rw [h.nmiPrev] at prev pending
  rw [h.nmiPending] at pending
  exact ⟨⟨by rw [endCycle_cycle, h.cycle], prev, irq⟩, pending⟩

/-- While `VBL_RACE_SUPPRESSION` is off the line itself is sampled. -/
theorem State.nmiSeen_of_no_suppression {t : State} (h : t.params.vblRaceSuppression = false) (prev : Bool) :
    t.nmiSeen prev = t.nmiLine := by
  simp [State.nmiSeen, State.inVblankRace, h]

/-- No DMA field is sampled. -/
theorem Detected.dma {s t : State} (h : Detected s t) (d : Dma) : Detected s { t with dma := d } :=
  ⟨⟨h.cycle, h.nmiPrev, h.irqLevel⟩, h.nmiPending⟩

/-! ## Stolen cycles and the halted Cpu -/

theorem InCycle.idleStall {s u : State} (h : InCycle s u) : Detected s (idleStall u) := (h.dma _).detected false

theorem InCycle.dmcFetch {s u : State} (h : InCycle s u) : Detected s (dmcFetch u) :=
  ((h.trans (.of_cpu (dmcTake_cpu u) (dmcTake_cycle u))).dma _).detected false

theorem InCycle.oamGet {s u : State} (h : InCycle s u) : Detected s (oamGet u) :=
  ((h.trans (busAfterRead_inCycle _ u)).dma _).detected false

theorem InCycle.oamPut {s u : State} (h : InCycle s u) : Detected s (oamPut u) :=
  ((h.trans (busWrite_inCycle _ _ u)).dma _).detected true

theorem InCycle.lateCycle {s u : State} (h : InCycle s u) : Detected s (lateCycle u) := by
  unfold Machine.lateCycle
  split
  · exact (h.dma _).dmcFetch
  · exact h.idleStall

theorem dmcStallCycle_detected (s : State) : Detected s (dmcStallCycle s) := by
  unfold dmcStallCycle
  dsimp only
  split <;> split
  · exact ((InCycle.refl s).dma _).dmcFetch
  · exact ((InCycle.refl s).dma _).idleStall
  · exact (InCycle.refl s).dmcFetch
  · exact (InCycle.refl s).idleStall

theorem Detected.oamLast {s t : State} (h : Detected s t) : Detected s (oamLast t) := by
  unfold Machine.oamLast
  split
  · exact h.dma _
  · exact h

theorem Detected.oamEnd {s t : State} (h : Detected s t) : Detected s (oamEnd t) := by
  unfold Machine.oamEnd
  split
  · exact h.dma _
  · exact h

/-- A cycle that a DMA unit owns. -/
theorem dmaCycle_detected (s : State) : Detected s (dmaCycle s) := by
  have here := InCycle.refl s
  unfold dmaCycle
  dsimp only
  split
  case isFalse => exact dmcStallCycle_detected s
  split
  · exact (here.dma _).idleStall
  split
  · exact here.lateCycle.oamEnd
  split
  · exact here.idleStall
  split
  · split
    · exact (here.dma _).dmcFetch
    · obtain ⟨cpu, cycle⟩ := oamMeet_fields s
      exact (InCycle.of_cpu cpu cycle).oamGet
  · exact here.oamPut.oamLast.oamEnd

theorem haltedCycle_detected (s : State) : Detected s (haltedCycle s) := by
  obtain ⟨prev, irq, pending⟩ := haltedCycle_detect s
  exact ⟨⟨haltedCycle_cycle s, prev, irq⟩, pending⟩

/-- Settles O37: a step of a halted Cpu is one cycle, which keeps registers and halt (`haltedCycle_kept`) and ends with the
detectors (`haltedCycle_detected`). -/
theorem haltedCpuKeepsDetecting : Obligations.HaltedCpuKeepsDetecting := by
  intro s halted
  obtain ⟨steps, cycle⟩ := step_halted halted
  rw [cycle] at steps
  have kept := haltedCycle_kept s
  have found := haltedCycle_detected s
  exact ⟨⟨_, steps, kept.halted.trans halted, kept.regs, found.nmiPrev,
    fun off => found.nmiPrev.trans (State.nmiSeen_of_no_suppression off _), found.irqLevel, found.nmiPending⟩, rfl, rfl⟩

/-! ## The rows of the Cpu -/

/-- What the Cpu does with the byte of a row leaves what was sampled. -/
theorem sampled_cpuClosed (s t : State) : CpuClosed (fun u => Sampled s u ∧ u.cpu.nmiPrev = t.cpu.nmiPrev) where
  regs := fun _ _ ⟨sampled, prev⟩ => ⟨sampled.cpu rfl rfl, prev⟩
  prog := fun _ _ ⟨sampled, prev⟩ => ⟨sampled.cpu rfl rfl, prev⟩
  nmi := fun _ _ ⟨sampled, prev⟩ => ⟨sampled.cpu rfl rfl, prev⟩
  int := fun _ ⟨sampled, prev⟩ => ⟨sampled.cpu rfl rfl, prev⟩

theorem nextRow_after_sampled {s t : State} (h : Sampled s t) (v : Byte) :
    Sampled s (s.nextRow.after v t) ∧ (s.nextRow.after v t).cpu.nmiPrev = t.cpu.nmiPrev :=
  (sampled_cpuClosed s t).nextRow s v (fun _ _ ⟨sampled, prev⟩ => ⟨sampled.cpu rfl rfl, prev⟩) ⟨h, rfl⟩

theorem AddrMode.row_after_nmiPending (m : AddrMode) (n : Nat) (s : State) (v : Byte) (t : State) :
    ((m.row n s).after v t).cpu.nmiPending = t.cpu.nmiPending := by
  unfold AddrMode.row
  dsimp only
  split <;> rfl

theorem rmwRow_after_nmiPending (new : Flags → Byte → Byte) (op : Byte → Regs → Regs) (k : Nat) (s : State) (v : Byte)
    (t : State) : ((rmwRow new op k s).after v t).cpu.nmiPending = t.cpu.nmiPending := by
  unfold rmwRow
  dsimp only
  split <;> rfl

/-- Only row 5 of an entry, which chooses the vector, changes what is pending. -/
theorem entryRow_after_nmiPending (b : Bool) {n : Nat} (h : n ≠ 5) (s : State) (v : Byte) (t : State) :
    ((entryRow b n s).after v t).cpu.nmiPending = t.cpu.nmiPending := by
  unfold entryRow
  dsimp only
  split
  case h_3 => exact absurd rfl h
  all_goals rfl

theorem Shape.row_after_nmiPending {sh : Shape} (h : sh ≠ .brk) (n : Nat) (s : State) (v : Byte) (t : State) :
    ((sh.row n s).after v t).cpu.nmiPending = t.cpu.nmiPending := by
  unfold Shape.row
  dsimp only
  cases sh with
  | brk => exact absurd rfl h
  | implied | imm | jam => rfl
  | read m op =>
    dsimp only
    split
    · exact m.row_after_nmiPending n s v t
    · split <;> rfl
  | store m val =>
    dsimp only
    split
    · exact m.row_after_nmiPending n s v t
    · split <;> rfl
  | rmw m new op =>
    dsimp only
    split
    · exact m.row_after_nmiPending n s v t
    · split
      · split
        · rfl
        · exact rmwRow_after_nmiPending _ _ _ _ _ _
      · exact rmwRow_after_nmiPending _ _ _ _ _ _
  | unstable m val op =>
    dsimp only
    split
    · exact m.row_after_nmiPending n s v t
    · split <;> rfl
  | branch cond =>
    dsimp only
    split
    · dsimp only [readRow]; split <;> rfl
    · dsimp only [dummyRow, readRow]; split <;> rfl
    · rfl
  | jmpAbs | jmpInd | jsr | rts | rti | pushOf | pullTo => dsimp only; split <;> rfl

/-- BRK is the opcode 0x00: no other opcode without operand takes 7 cycles. -/
theorem opcode_eq_zero_of_brk {p : Params} {op : Byte} (h : shapeOf p op = .brk) : op = 0 := by
  have only : ∀ op : Byte, baseCycles op = 7 → (shapeOf Params.default op).operandBytes = 0 → op = 0 := by decide +kernel
  have timing := timing_of_shapeOf h
  have operand := shapeOf_operands p Params.default op
  rw [h] at operand
  exact only op (congrArg Prod.fst timing).symm (congrArg Prod.fst operand).symm

/-- The next cycle is the one of BRK or of the interrupt sequence that pushes P and chooses the vector (R316, R319, R350). -/
def State.ChoosesVector (s : State) : Prop :=
  s.cpu.prog.tcycle = 4 ∧ (s.cpu.prog.ir = .opcode 0x00 ∨ s.cpu.prog.ir = .int)

/-- In an entry, from a state whose row 5 chooses a vector. -/
theorem entryRow_after_vector (b : Bool) (s : State) (v : Byte) (t : State) (vector : s.cpu.prog.tcycle = 4 → s.ChoosesVector) :
    ((entryRow b (s.cpu.prog.tcycle + 1) s).after v t).cpu.nmiPending = t.cpu.nmiPending
      ∨ s.ChoosesVector
        ∧ ((entryRow b (s.cpu.prog.tcycle + 1) s).after v t).cpu.nmiPending = NmiRise s t := by
  by_cases h : s.cpu.prog.tcycle = 4
  · rw [h]
    exact .inr ⟨vector h, rfl⟩
  · exact .inl (entryRow_after_nmiPending b (fun e => h (Nat.succ_injective e)) s v t)

/-- What the row of the next cycle makes of what is pending. -/
theorem nextRow_after_nmiPending (s : State) (v : Byte) (t : State) :
    (s.nextRow.after v t).cpu.nmiPending = t.cpu.nmiPending
      ∨ s.ChoosesVector ∧ (s.nextRow.after v t).cpu.nmiPending = NmiRise s t := by
  unfold State.nextRow
  dsimp only
  split
  case h_1 => split <;> exact .inl rfl
  case h_2 op ir =>
    by_cases brk : shapeOf s.params op = .brk
    · rw [brk]
      obtain rfl := opcode_eq_zero_of_brk brk
      unfold Shape.row
      dsimp only
      split
      · exact .inl rfl
      · exact entryRow_after_vector true s v t fun h => ⟨h, .inl ir⟩
    · exact .inl (Shape.row_after_nmiPending brk _ s v t)
  case h_3 ir =>
    split
    · exact .inl rfl
    · exact entryRow_after_vector false s v t fun h => ⟨h, .inr ir⟩

/-! ## Every single cycle -/

theorem MicroOp.begun_inCycle (m : MicroOp) (s : State) : InCycle s (m.begun s) := by
  unfold MicroOp.begun
  split <;> exact ⟨rfl, rfl, rfl⟩

/-- A cycle of the Cpu is a row's access and the rest of the cycle, then what the row does with the byte. -/
theorem cpuCycle_eq_after (s : State) : ∃ v t, Detected s t ∧ cpuCycle s = s.nextRow.after v t := by
  unfold cpuCycle
  dsimp only
  split
  · exact ⟨_, _, ((s.nextRow.begun_inCycle s).trans (busWrite_inCycle _ _ _)).detected true, rfl⟩
  · obtain ⟨cpu, cycle⟩ := sharedFetch_fields s
    have begun := (InCycle.of_cpu cpu cycle).trans (s.nextRow.begun_inCycle _)
    exact ⟨_, _, (begun.trans (busAfterRead_inCycle _ _)).detected false, rfl⟩

/-- A single cycle samples the lines and latches a rise; what was pending stays so but in the cycle that chooses a vector. -/
theorem stepCycle_sampled (s : State) :
    Sampled s (stepCycle s)
      ∧ ((stepCycle s).cpu.nmiPending = (s.cpu.nmiPending || NmiRise s (stepCycle s))
        ∨ s.ChoosesVector ∧ (stepCycle s).cpu.nmiPending = NmiRise s (stepCycle s)) := by
  unfold stepCycle
  split
  · have found := haltedCycle_detected s
    exact ⟨found.toSampled, .inl found.nmiPending⟩
  split
  · have found := dmaCycle_detected s
    exact ⟨found.toSampled, .inl found.nmiPending⟩
  obtain ⟨v, t, found, cycle⟩ := cpuCycle_eq_after s
  obtain ⟨sampled, prev⟩ := nextRow_after_sampled found.toSampled v
  have rise : NmiRise s t = NmiRise s (s.nextRow.after v t) := by rw [NmiRise, NmiRise, prev]
  rw [cycle, ← rise]
  exact ⟨sampled, (nextRow_after_nmiPending s v t).imp_left (·.trans found.nmiPending)⟩

/-- Settles O40: `stepCycle_sampled`; with what was pending kept a rise makes it pending and nothing else does, and where it is
replaced by the rise the cycle is the one that chooses the vector. -/
theorem detectors : Obligations.Detectors := by
  intro s
  obtain ⟨sampled, pending⟩ := stepCycle_sampled s
  refine ⟨sampled.cycle, sampled.nmiPrev, fun off => sampled.nmiPrev.trans (State.nmiSeen_of_no_suppression off _), rfl,
    sampled.irqLevel, fun rise => ?_, fun now => ?_, fun before after => ?_⟩
  · change NmiRise s (stepCycle s) = true at rise
    rcases pending with kept | ⟨-, replaced⟩
    · rw [kept, rise, Bool.or_true]
    · rw [replaced, rise]
  · rcases pending with kept | ⟨-, replaced⟩
    · exact Bool.or_eq_true_iff.1 (kept.symm.trans now)
    · exact .inr (replaced.symm.trans now)
  · rcases pending with kept | ⟨vector, -⟩
    · rw [after, before, Bool.true_or] at kept
      exact absurd kept Bool.false_ne_true
    · exact vector

end Sys2Proof.Machine
end

section
/-! SUPPORT. The picture unit as a program meets it (R370 to R373, R383, R386, R387): what the bus makes of an access in 0x2000 to
0x3FFF by register number, and what one dot step does to position, flags, frame and the vertical bits of `v`. -/

namespace Sys2Proof.Machine

/-! ## The registers on the bus (R380) -/

section
variable {a : Addr} (low : 0x2000 ≤ a.toNat) (high : a.toNat ≤ 0x3FFF) {n : Nat} (number : a.toNat % 8 = n) (s : State)
include low high number

theorem busValue_ppu : busValue a s = s.ppu.readValue s.env n s.draw := by
  subst number
  unfold busValue
  dsimp only
  rw [if_neg (Nat.not_lt.2 low), if_pos (Nat.lt_succ_of_le high)]

theorem busAfterRead_ppu :
    busAfterRead a s =
      { s.drive (busValue a s) with
        ppu := s.ppu.afterRead s.env s.mapper n s.draw
        mapper := s.ppu.mapperAfterRead s.env s.mapper n s.draw
        draw := s.draw + s.ppu.drawsBy s.params.region n } := by
  subst number
  unfold busAfterRead
  dsimp only
  rw [if_neg (Nat.not_lt.2 low), if_pos (Nat.lt_succ_of_le high)]

theorem busWrite_ppu (v : Byte) :
    busWrite a v s =
      { s.drive v with
        ppu := s.ppu.afterWrite s.env s.mapper n s.draw v
        mapper := s.ppu.mapperAfterWrite s.env s.mapper n s.draw v
        draw := s.draw + s.ppu.drawsBy s.params.region n } := by
  subst number
  unfold busWrite
  dsimp only
  rw [if_neg (Nat.not_lt.2 low), if_pos (Nat.lt_succ_of_le high)]
  rfl

end

/-- Only the OAM and the data register draw a free value. -/
theorem Ppu.drawsBy_eq_zero (p : Ppu) (r : Region) {n : Nat} (h4 : n ≠ 4) (h7 : n ≠ 7) : p.drawsBy r n = 0 := by
  simp [Ppu.drawsBy, h4, h7]

/-! ## Status (R383) -/

theorem Ppu.statusByte_toNat (p : Ppu) :
    p.statusByte.toNat
      = 128 * p.vblank.toNat + 64 * p.sprite0Hit.toNat + 32 * p.spriteOverflow.toNat + p.ioLatch.toNat % 32 := by
  have bits : ∀ (l : Byte) (v z o : Bool),
      (BitVec.ofBool v ++ BitVec.ofBool z ++ BitVec.ofBool o ++ l.extractLsb' 0 5 : BitVec 8).toNat
        = 128 * v.toNat + 64 * z.toNat + 32 * o.toNat + l.toNat % 32 := by decide +kernel
  exact bits _ _ _ _

/-- Settles O43: register 2 gives `statusByte` and draws nothing. -/
theorem ppuStatusRead : Obligations.PpuStatusRead := by
  intro s a low high number
  have value : busValue a s = s.ppu.statusByte := busValue_ppu low high number s
  refine ⟨by rw [value, Ppu.statusByte_toNat], ?_⟩
  rw [busAfterRead_ppu low high number, Ppu.drawsBy_eq_zero _ _ (by decide) (by decide), value]
  rfl

/-! ## Scroll and address (R386) -/

section
variable {p : Ppu} (e : Env) (m : Mapper) (draw : Nat) (v : Byte)

theorem Ppu.afterWrite_scroll_first (first : p.w = false) :
    p.afterWrite e m 5 draw v =
      { p with t := (p.t &&& 0x7FE0) ||| (v >>> 3).setWidth 15, x := v.setWidth 3, w := true, ioLatch := v } := by
  simp [Ppu.afterWrite, Ppu.writeScroll, first]

theorem Ppu.afterWrite_scroll_second (second : p.w = true) :
    p.afterWrite e m 5 draw v =
      { p with
        t := (p.t &&& 0x0C1F) ||| ((v &&& 7).setWidth 15 <<< 12) ||| ((v >>> 3).setWidth 15 <<< 5)
        w := false
        ioLatch := v } := by
  simp [Ppu.afterWrite, Ppu.writeScroll, second]

theorem Ppu.afterWrite_address_first (first : p.w = false) :
    p.afterWrite e m 6 draw v =
        { p with t := (p.t &&& 0x00FF) ||| ((v &&& 0x3F).setWidth 15 <<< 8), w := true, ioLatch := v }
      ∧ p.mapperAfterWrite e m 6 draw v = m := by
  simp [Ppu.afterWrite, Ppu.mapperAfterWrite, Ppu.writeAddress, first]

theorem Ppu.afterWrite_address_second (second : p.w = true) :
    p.afterWrite e m 6 draw v = { p with t := p.addressLow v, v := p.addressLow v, w := false, ioLatch := v }
      ∧ p.mapperAfterWrite e m 6 draw v = m.onPpuAddress e.params ((p.addressLow v).toNat % 0x4000) := by
  simp [Ppu.afterWrite, Ppu.mapperAfterWrite, Ppu.writeAddress, Ppu.addressLow, second]

end

/-- The fields of the written byte at their places in `t`, as numbers. -/
theorem scrollFields_toNat (v : Byte) :
    ((v >>> 3).setWidth 15 : BitVec 15).toNat = v.toNat / 8
      ∧ ((v >>> 3).setWidth 15 <<< 5 : BitVec 15).toNat = v.toNat / 8 * 32
      ∧ ((v &&& 7).setWidth 15 <<< 12 : BitVec 15).toNat = v.toNat % 8 * 4096
      ∧ ((v &&& 0x3F).setWidth 15 <<< 8 : BitVec 15).toNat = v.toNat % 64 * 256
      ∧ (v.setWidth 15 : BitVec 15).toNat = v.toNat := by
  revert v
  decide +kernel

/-- Settles O44: one equation per write, whose fields are placed as `scrollFields_toNat` says; registers 5 and 6 draw nothing. -/
theorem scrollAndAddressWrites : Obligations.ScrollAndAddressWrites := by
  intro s a v low high
  obtain ⟨coarse, coarseY, fine, highBits, lowBits⟩ := scrollFields_toNat v
  have draws5 := s.ppu.drawsBy_eq_zero s.params.region (n := 5) (by decide) (by decide)
  have draws6 := s.ppu.drawsBy_eq_zero s.params.region (n := 6) (by decide) (by decide)
  refine ⟨fun number first => ?_, fun number second => ?_, fun number first => ?_, fun number second => ?_⟩
  · rw [busWrite_ppu low high number, draws5, Ppu.afterWrite_scroll_first _ _ _ _ first]
    exact ⟨by rw [BitVec.toNat_or, BitVec.toNat_and, coarse]; rfl, BitVec.toNat_setWidth 3 v, rfl⟩
  · rw [busWrite_ppu low high number, draws5, Ppu.afterWrite_scroll_second _ _ _ _ second]
    exact ⟨by rw [BitVec.toNat_or, BitVec.toNat_or, BitVec.toNat_and, coarseY, fine]; rfl, rfl⟩
  · obtain ⟨ppu, mapper⟩ := Ppu.afterWrite_address_first s.env s.mapper s.draw v first
    rw [busWrite_ppu low high number, draws6, ppu, mapper]
    exact ⟨by rw [BitVec.toNat_or, BitVec.toNat_and, highBits]; rfl, rfl⟩
  · obtain ⟨ppu, mapper⟩ := Ppu.afterWrite_address_second s.env s.mapper s.draw v second
    rw [busWrite_ppu low high number, draws6, ppu, mapper]
    exact ⟨by rw [Ppu.addressLow, BitVec.toNat_or, BitVec.toNat_and, lowBits]; rfl, rfl⟩

/-! ## The data port (R387) -/

section
variable {p : Ppu} {r : Region} (idle : p.active r = false)
include idle

theorem Ppu.dataAddr_of_idle (draw : Nat) : p.dataAddr r draw = p.v.toNat % 0x4000 := by
  simp [Ppu.dataAddr, idle]

theorem Ppu.nextV_of_idle : p.nextV r = p.v + p.increment := by
  simp [Ppu.nextV, idle]

theorem Ppu.nextV_toNat_of_idle :
    (p.nextV r).toNat = (p.v.toNat + if p.ctrl.getLsbD 2 = true then 32 else 1) % 0x8000 := by
  rw [Ppu.nextV_of_idle idle, BitVec.toNat_add, Ppu.increment]
  split <;> rfl

end

theorem Ppu.nextV_of_active {p : Ppu} {r : Region} (active : p.active r = true) :
    p.nextV r = yIncrement (coarseXIncrement p.v) := by
  simp [Ppu.nextV, active]

section
variable {p : Ppu} {e : Env} (idle : p.active e.params.region = false) (draw : Nat)
include idle

theorem Ppu.dataByte_buffered (h : p.v.toNat % 0x4000 < 0x3F00) : p.dataByte e draw = p.readBuffer := by
  simp [Ppu.dataByte, idle, h]

theorem Ppu.dataByte_palette (h : 0x3F00 ≤ p.v.toNat % 0x4000) :
    p.dataByte e draw = (p.ioLatch &&& 0xC0) ||| p.paletteByte e.epoch (p.v.toNat % 0x4000) := by
  simp [Ppu.dataByte, idle, Nat.not_lt.2 h]

theorem Ppu.bufferAddr_of_idle :
    p.bufferAddr e.params.region draw
      = if p.v.toNat % 0x4000 < 0x3F00 then p.v.toNat % 0x4000 else p.v.toNat % 0x4000 - 0x1000 := by
  simp only [Ppu.bufferAddr, Ppu.dataAddr_of_idle idle]

theorem Ppu.nextBuffer_of_idle (m : Mapper) : p.nextBuffer e m draw = ppuPeek e p m (p.bufferAddr e.params.region draw) := by
  simp [Ppu.nextBuffer, idle]

end

/-- Settles O45: the access with rendering not in progress goes to `v`, with the palette's refill 0x1000 below; in progress, `v`
makes both increments. -/
theorem ppuDataPort : Obligations.PpuDataPort := by
  intro s addr v low high number
  have value : busValue addr s = s.ppu.dataByte s.env s.draw := busValue_ppu low high number s
  have read := busAfterRead_ppu low high number s
  have write := busWrite_ppu low high number s v
  constructor
  · intro idle
    have idle' : s.ppu.active s.env.params.region = false := idle
    refine ⟨fun h => ?_, fun h => ?_, ?_, ?_, ?_, ?_, ?_, ?_⟩
    · rw [value, Ppu.dataByte_buffered idle' _ h]
    · rw [value, Ppu.dataByte_palette idle' _ h]; rfl
    · rw [read, ← Ppu.bufferAddr_of_idle idle' s.draw, ← Ppu.nextBuffer_of_idle idle', value]; rfl
    · rw [read]; exact Ppu.nextV_toNat_of_idle idle
    · rw [write]; exact Ppu.nextV_toNat_of_idle idle
    · rw [read, ← Ppu.bufferAddr_of_idle idle' s.draw]; rfl
    · rw [write, ← Ppu.dataAddr_of_idle idle s.draw]; rfl
    · rw [write, ← Ppu.dataAddr_of_idle idle s.draw]; rfl
  · intro active
    exact ⟨by rw [read]; exact Ppu.nextV_of_active active, by rw [write]; exact Ppu.nextV_of_active active⟩

/-! ## The flags of a position (R371, R372) -/

theorem Ppu.flagsAt_vblank {p : Ppu} (line : p.scanline = 241) (dot : p.dot = 1) (r : Region) :
    p.flagsAt r = { p with vblank := !p.vblankBlocked, vblankBlocked := false } :=
  if_pos ⟨line, dot⟩

theorem Ppu.flagsAt_preRender {p : Ppu} {r : Region} (line : p.scanline = preRenderLine r) (dot : p.dot = 1) :
    p.flagsAt r = { p with vblank := false, sprite0Hit := false, spriteOverflow := false } := by
  have other : preRenderLine r ≠ 241 := by cases r <;> decide
  simp [Ppu.flagsAt, Ppu.preRender, line, dot, other]

theorem Ppu.flagsAt_elsewhere {p : Ppu} {r : Region} (h241 : (p.scanline, p.dot) ≠ (241, 1))
    (hpre : (p.scanline, p.dot) ≠ (preRenderLine r, 1)) : p.flagsAt r = p := by
  simp only [ne_eq, Prod.mk.injEq] at h241 hpre
  simp [Ppu.flagsAt, Ppu.preRender, h241, hpre]

/-- Only (241, 1) touches the block. -/
theorem Ppu.flagsAt_blocked {p : Ppu} (h241 : (p.scanline, p.dot) ≠ (241, 1)) (r : Region) :
    (p.flagsAt r).vblankBlocked = p.vblankBlocked := by
  simp only [ne_eq, Prod.mk.injEq] at h241
  unfold Ppu.flagsAt
  rw [if_neg h241]
  split <;> rfl

theorem Ppu.flagsAt_frame (p : Ppu) (r : Region) : (p.flagsAt r).frame = p.frame := by
  unfold Ppu.flagsAt
  repeat' split
  all_goals rfl

/-- Where no pixel is made, the picture after the dot step is the one the flags of its position leave. -/
theorem dotPpu_picture_of_no_pixel {e : Env} {p : Ppu} (m : Mapper)
    (h : (p.advance e.params.region).visible = false ∨ (p.advance e.params.region).dot = 0) :
    ((p.advance e.params.region).flagsAt e.params.region).SamePicture (dotPpu e p m)
      ∧ ((p.advance e.params.region).visible = false →
        (dotPpu e p m).spriteOverflow = ((p.advance e.params.region).flagsAt e.params.region).spriteOverflow) := by
  generalize shown : ((p.advance e.params.region).flagsAt e.params.region).clockBackground e.params.region = q
  have place : (p.advance e.params.region).SamePlace q := shown ▸ (Ppu.flagsAt_place _ _).trans (Ppu.clockBackground_place _ _)
  have clocked := Ppu.clockBackground_picture ((p.advance e.params.region).flagsAt e.params.region) e.params.region
  rw [shown] at clocked
  have visible : q.visible = (p.advance e.params.region).visible := by rw [Ppu.visible, Ppu.visible, place.scanline]
  have before : p.beforeFetch e = q := by
    unfold Ppu.beforeFetch
    rw [shown]
    exact (Ppu.outputAt_vblank q e.epoch).2.2 (by rw [visible, place.dot]; exact h)
  have rest := dotPpu_picture e p m
  rw [before, visible] at rest
  exact ⟨clocked.1.trans rest.1, fun hidden => (rest.2 hidden).trans clocked.2⟩

/-! ## The vertical reload (R372) -/

theorem verticalReload_and (v t : BitVec 15) : verticalReload v t &&& 0x7BE0 = t &&& 0x7BE0 := by
  ext i hi
  simp only [verticalReload, BitVec.getElem_and, BitVec.getElem_or]
  interval_cases i <;> simp

/-- The last stage of a dot step is the line work, at the new position. -/
theorem dotPpu_eq_lineWork (e : Env) (p : Ppu) (m : Mapper) :
    ∃ q : Ppu, (p.advance e.params.region).SamePlace q ∧ dotPpu e p m = q.lineWork e := by
  have before : (p.advance e.params.region).SamePlace (p.beforeFetch e) :=
    ((Ppu.flagsAt_place _ _).trans (Ppu.clockBackground_place _ _)).trans (Ppu.outputAt_place _ _)
  unfold dotPpu
  dsimp only
  split
  · exact ⟨_, before.trans (Ppu.latchFetch_place _ _ _), rfl⟩
  · exact ⟨_, before, rfl⟩

/-- At dots 280 to 304 of the pre-render line. -/
theorem Ppu.scrollAt_vertical {p : Ppu} {r : Region} (line : p.scanline = preRenderLine r) (first : 280 ≤ p.dot)
    (last : p.dot ≤ 304) : (p.scrollAt r).v &&& 0x7BE0 = p.t &&& 0x7BE0 := by
  have reload : p.preRender r = true ∧ 280 ≤ p.dot ∧ p.dot ≤ 304 := ⟨by simp [Ppu.preRender, line], first, last⟩
  simp only [Ppu.scrollAt, reload, and_self, if_true]
  exact verticalReload_and _ _

theorem Ppu.lineWork_vertical {p : Ppu} {e : Env} (line : p.scanline = preRenderLine e.params.region) (first : 280 ≤ p.dot)
    (last : p.dot ≤ 304) (on : p.rendering = true) : (p.lineWork e).v &&& 0x7BE0 = p.t &&& 0x7BE0 := by
  have active : p.active e.params.region = true := by simp [Ppu.active, Ppu.preRender, on, line]
  have place := p.evaluateAt_place e.epoch
  have scrolled := Ppu.scrollAt_vertical (p := p.evaluateAt e.epoch) (r := e.params.region) (place.scanline.trans line)
    (place.dot ▸ first) (place.dot ▸ last)
  rw [place.latches.t] at scrolled
  simp only [Ppu.lineWork, active, if_true]
  split <;> exact scrolled

/-! ## The dot step -/

/-- Settles O46: the flags are those of the new position (`flagsAt`), which nothing later in the dot touches, and the vertical
reload is the line work's. -/
theorem vblankFlag : Obligations.VblankFlag := by
  intro s
  have advanced := s.ppu.advance_position s.params.region
  have vblank : (dot s).ppu.vblank = ((s.ppu.advance s.params.region).flagsAt s.params.region).vblank := dotPpu_vblank _ _ _
  have blocked : (dot s).ppu.vblankBlocked = ((s.ppu.advance s.params.region).flagsAt s.params.region).vblankBlocked :=
    dotPpu_blocked _ _ _
  obtain ⟨sameVblank, sameBlocked⟩ := s.ppu.advance_vblank s.params.region
  dsimp only
  rw [vblank, blocked, ← advanced]
  refine ⟨fun position => ?_, fun position => ?_, fun h241 hpre => ?_, fun h241 => ?_, fun line first last on => ?_⟩
  · obtain ⟨line, dot⟩ := Prod.mk.inj position
    rw [Ppu.flagsAt_vblank line dot]
    refine ⟨by rw [← sameBlocked], rfl, fun free enabled => ?_⟩
    rw [State.nmiLine, vblank, Ppu.flagsAt_vblank line dot]
    have ctrl := (dotPpu_latches s.env s.ppu s.mapper).ctrl
    simp [Machine.dot, ctrl, enabled, sameBlocked, free]
  · obtain ⟨line, dot⟩ := Prod.mk.inj position
    have hidden : (s.ppu.advance s.params.region).visible = false := by
      rw [Ppu.visible, line]
      cases s.params.region <;> rfl
    have picture := dotPpu_picture_of_no_pixel (e := s.env) s.mapper (.inl hidden)
    have flags := Ppu.flagsAt_preRender line dot
    refine ⟨by rw [flags], picture.1.sprite0Hit.trans ?_, (picture.2 hidden).trans ?_⟩
    · exact congrArg Ppu.sprite0Hit flags
    · exact congrArg Ppu.spriteOverflow flags
  · rw [Ppu.flagsAt_elsewhere h241 hpre, sameVblank]
  · rw [Ppu.flagsAt_blocked h241, sameBlocked]
  · obtain ⟨q, place, last_stage⟩ := dotPpu_eq_lineWork s.env s.ppu s.mapper
    have latches := (s.ppu.advance_latches s.params.region).trans place.latches
    show (dotPpu s.env s.ppu s.mapper).v &&& 0x7BE0 = _
    rw [last_stage, ← latches.t]
    exact Ppu.lineWork_vertical (place.scanline.trans line) (place.dot ▸ first) (place.dot ▸ last)
      ((rendering_congr latches.mask).trans on)

/-- Settles O47: the position and the parity are those of `advance`; at (0, 0) no pixel is made, so the new frame stays empty. -/
theorem dotPosition : Obligations.DotPosition := by
  intro s
  have place : (s.ppu.advance s.params.region).SamePlace (dot s).ppu := dotPpu_place s.env s.ppu s.mapper
  have advanced := s.ppu.advance_position s.params.region
  refine ⟨by rw [← advanced, place.scanline, place.dot], fun start => ?_, fun inside => ?_⟩
  · obtain ⟨odd, last, empty, done⟩ := s.ppu.advance_newFrame s.params.region start
    have first : (s.ppu.advance s.params.region).dot = 0 := congrArg Prod.snd (advanced.trans start)
    have picture := (dotPpu_picture_of_no_pixel (e := s.env) s.mapper (.inr first)).1
    exact ⟨place.oddFrame.trans odd, place.lastFrame.trans last,
      picture.frame.trans ((Ppu.flagsAt_frame _ _).trans empty), place.frameDone.trans done⟩
  · obtain ⟨odd, last, -, done⟩ := s.ppu.advance_sameFrame s.params.region inside
    exact ⟨place.oddFrame.trans odd, place.lastFrame.trans last, place.frameDone.trans done⟩

end Sys2Proof.Machine
end

section
/-! SUPPORT. The audio unit as a program meets it (R393, R395, R396): the status register bit by bit, the noise register shift by
shift, and the delta-modulation reader and output unit case by case. -/

namespace Sys2Proof.Machine

/-! ## Status and enables (R396) -/

theorem Apu.status_toNat (u : Apu) (latch : Byte) :
    (u.status latch).toNat = (decide (0 < u.pulse1.length)).toNat + 2 * (decide (0 < u.pulse2.length)).toNat
      + 4 * (decide (0 < u.tri.length)).toNat + 8 * (decide (0 < u.noise.length)).toNat
      + 16 * (decide (0 < u.dmc.remaining)).toNat + 32 * (latch.getLsbD 5).toNat + 64 * u.seq.irqFlag.toNat
      + 128 * u.dmc.irqFlag.toNat := by
  have bits : ∀ b7 b6 b5 b4 b3 b2 b1 b0 : Bool,
      (BitVec.ofBool b7 ++ BitVec.ofBool b6 ++ BitVec.ofBool b5 ++ BitVec.ofBool b4 ++ BitVec.ofBool b3 ++ BitVec.ofBool b2
        ++ BitVec.ofBool b1 ++ BitVec.ofBool b0 : BitVec 8).toNat
      = b0.toNat + 2 * b1.toNat + 4 * b2.toNat + 8 * b3.toNat + 16 * b4.toNat + 32 * b5.toNat + 64 * b6.toNat
        + 128 * b7.toNat := by decide
  exact bits _ _ _ _ _ _ _ _

/-- A write of the enables with bit 4 clear stops the sample. -/
theorem Apu.writeEnable_dmc_stop (u : Apu) {v : Byte} (off : v.getLsbD 4 = false) :
    (u.writeEnable v).dmc = { u.dmc with irqFlag := false, remaining := 0 } := by
  simp only [Apu.writeEnable, off, Bool.false_eq_true, if_false]

/-- With bit 4 set it restarts a sample that is over. -/
theorem Apu.writeEnable_dmc_restart {u : Apu} {v : Byte} (on : v.getLsbD 4 = true) (ended : u.dmc.remaining = 0) :
    (u.writeEnable v).dmc = { u.dmc with irqFlag := false }.restart := by
  simp only [Apu.writeEnable, on, ended, if_true]

/-- It does not touch one that runs. -/
theorem Apu.writeEnable_dmc_running {u : Apu} {v : Byte} (on : v.getLsbD 4 = true) (runs : u.dmc.remaining ≠ 0) :
    (u.writeEnable v).dmc = { u.dmc with irqFlag := false } := by
  simp only [Apu.writeEnable, on, runs, if_true, if_false]

theorem Apu.writeEnable_dmc_irqFlag (u : Apu) (v : Byte) : (u.writeEnable v).dmc.irqFlag = false := by
  cases enable : v.getLsbD 4 with
  | false => rw [u.writeEnable_dmc_stop enable]
  | true =>
    by_cases ended : u.dmc.remaining = 0
    · rw [Apu.writeEnable_dmc_restart enable ended]; rfl
    · rw [Apu.writeEnable_dmc_running enable ended]

/-- The enables are the low four bits of the byte. -/
theorem Apu.writeEnable_enables (u : Apu) (v : Byte) {bit : Nat} (h : bit < 4) :
    (u.writeEnable v).enables.getLsbD bit = v.getLsbD bit := by
  simp [Apu.writeEnable, h]

/-- The length counters from bit 0 up. -/
def Apu.lengths (u : Apu) : List Nat := [u.pulse1.length, u.pulse2.length, u.tri.length, u.noise.length]

theorem Apu.writeEnable_lengths_disabled (u : Apu) {v : Byte} {bit : Nat} (h : bit < 4) (off : v.getLsbD bit = false) :
    (u.writeEnable v).lengths.getD bit 1 = 0 := by
  interval_cases bit <;> simp only [Apu.lengths, Apu.writeEnable, off] <;> rfl

/-- A write of a channel's fourth register loads its counter, where the channel is enabled, and no other. -/
theorem Apu.writeChannel_lengths (u : Apu) {bit : Nat} (h : bit < 4) (n : Byte) :
    (u.writeChannel (0x4003 + 4 * bit) n).lengths
      = u.lengths.set bit (lengthLoad (u.enables.getLsbD bit) (u.lengths.getD bit 0) n) := by
  interval_cases bit <;> rfl

theorem Apu.writeChannel_lengths_disabled {u : Apu} {bit : Nat} (h : bit < 4) (off : u.enables.getLsbD bit = false)
    (n : Byte) : (u.writeChannel (0x4003 + 4 * bit) n).lengths = u.lengths := by
  rw [u.writeChannel_lengths h, off]
  interval_cases bit <;> rfl

/-- Settles O50: the status byte is `status_toNat`, the write `writeEnable`, after which a disabled channel's counter is 0 and a
load does not reach it. -/
theorem apuStatus : Obligations.ApuStatus := by
  intro s v
  have write : (busWrite 0x4015 v s).apu = s.apu.writeEnable v := rfl
  dsimp only
  rw [write]
  refine ⟨⟨s.apu.status_toNat s.openBus, rfl⟩, ⟨rfl, rfl, rfl, rfl⟩,
    ⟨s.apu.writeEnable_dmc_irqFlag v, fun off => ?_, fun on ended => ?_, fun on runs => ?_⟩, fun bit n hbit off => ?_⟩
  · rw [Apu.writeEnable_dmc_stop _ off]
  · rw [Apu.writeEnable_dmc_restart on ended]
    exact ⟨rfl, Dmc.restart_addr _⟩
  · rw [Apu.writeEnable_dmc_running on runs]
    exact ⟨rfl, rfl⟩
  · have disabled : (s.apu.writeEnable v).enables.getLsbD bit = false := by rw [Apu.writeEnable_enables _ _ hbit, off]
    change ((s.apu.writeEnable v).writeChannel (0x4003 + 4 * bit) n).lengths.getD bit 1 = 0
    rw [Apu.writeChannel_lengths_disabled hbit disabled, Apu.writeEnable_lengths_disabled _ hbit off]

/-! ## The noise channel (R393) -/

/-- Both rows of the period table are even and not 0, so that half a period less one is a count. -/
theorem noisePeriods_halved (r : Region) (mode : Byte) :
    ((noisePeriods r).getD (mode &&& 0x0F).toNat 0 / 2 - 1 + 1) * 2 = (noisePeriods r).getD (mode.toNat % 16) 0 := by
  revert mode
  cases r <;> decide +kernel

/-- The exclusive or of two bits is their sum modulo 2. -/
theorem xor_toNat (a b : Bool) : (xor a b).toNat = (a.toNat + b.toNat) % 2 := by
  cases a <;> cases b <;> rfl

theorem Noise.tick_expired {u : Noise} (h : u.timer = 0) (r : Region) :
    (u.tick r).lfsr.toNat
        = u.lfsr.toNat / 2
          + (u.lfsr.toNat % 2 + if u.mode.getLsbD 7 = true then u.lfsr.toNat / 64 % 2 else u.lfsr.toNat / 2 % 2) % 2 * 16384
      ∧ ((u.tick r).timer + 1) * 2 = (noisePeriods r).getD (u.mode.toNat % 16) 0 := by
  unfold Noise.tick
  rw [if_pos h]
  refine ⟨?_, noisePeriods_halved r u.mode⟩
  dsimp only
  rw [lfsr_shift, xor_toNat]
  cases u.mode.getLsbD 7 <;>
    simp only [BitVec.getLsbD, Nat.toNat_testBit, pow_zero, pow_one, Nat.div_one, Nat.reducePow, if_true, if_false,
      Bool.false_eq_true]

theorem Noise.tick_running {u : Noise} (h : u.timer ≠ 0) (r : Region) : u.tick r = { u with timer := u.timer - 1 } := if_neg h

theorem Noise.output_eq (u : Noise) :
    u.output = if u.lfsr.toNat % 2 = 1 ∨ u.length = 0 then 0 else u.env.output u.ctrl := by
  simp only [Noise.output, BitVec.getLsbD, Nat.testBit_zero, decide_eq_true_eq]

/-- Settles O51: the timer's two cases, `tick_lfsr` for the register, `output_eq` for the output. -/
theorem noiseShiftRegister : Obligations.NoiseShiftRegister := by
  intro u r
  refine ⟨fun h => Noise.tick_expired h r, fun h => Noise.tick_running h r, u.tick_lfsr r, fun silent => ?_, fun low runs => ?_⟩
  · rw [u.output_eq, if_pos silent]
  · rw [u.output_eq, if_neg]
    rintro (high | ended)
    · omega
    · exact runs ended

/-! ## The delta-modulation reader (R395) -/

theorem Dmc.receive_more {u : Dmc} (h : u.remaining - 1 ≠ 0) (b : Byte) :
    u.receive b =
      { u with
        buffer := some b, addr := if u.addr = 0xFFFF then 0x8000 else u.addr + 1, remaining := u.remaining - 1 } := by
  simp only [Dmc.receive, h, if_false]

theorem Dmc.receive_last_looping {u : Dmc} (h : u.remaining - 1 = 0) (loop : u.ctrl.getLsbD 6 = true) (b : Byte) :
    u.receive b =
      { u with
        buffer := some b, addr := if u.addr = 0xFFFF then 0x8000 else u.addr + 1, remaining := u.remaining - 1 }.restart := by
  simp only [Dmc.receive, h, loop, if_true]

theorem Dmc.receive_last {u : Dmc} (h : u.remaining - 1 = 0) (once : u.ctrl.getLsbD 6 = false) (b : Byte) :
    u.receive b =
      { u with
        buffer := some b
        addr := if u.addr = 0xFFFF then 0x8000 else u.addr + 1
        remaining := u.remaining - 1
        irqFlag := u.irqFlag || u.ctrl.getLsbD 7 } := by
  cases irq : u.ctrl.getLsbD 7 <;>
    simp only [Dmc.receive, h, once, irq, if_true, if_false, Bool.false_eq_true, Bool.or_false, Bool.or_true]

/-! ## The delta-modulation output unit (R395) -/

/-- One output clock's level: by 2 inside 0 to 127. -/
theorem Dmc.clockOutput_level (u : Dmc) :
    u.clockOutput.level.toNat =
      if u.silence = true then u.level.toNat
      else if u.shift.toNat % 2 = 1 then (if u.level.toNat ≤ 125 then u.level.toNat + 2 else u.level.toNat)
      else (if 2 ≤ u.level.toNat then u.level.toNat - 2 else u.level.toNat) := by
  have up : u.level.toNat ≤ 125 → (u.level + 2).toNat = u.level.toNat + 2 := fun h => by
    rw [BitVec.toNat_add]; exact Nat.mod_eq_of_lt (by show u.level.toNat + 2 < 128; omega)
  have down : 2 ≤ u.level.toNat → (u.level - 2).toNat = u.level.toNat - 2 := fun h =>
    BitVec.toNat_sub_of_le (BitVec.le_def.2 h)
  have level : u.clockOutput.level =
      if u.silence then u.level
      else if u.shift.getLsbD 0 then (if u.level.toNat ≤ 125 then u.level + 2 else u.level)
      else if 2 ≤ u.level.toNat then u.level - 2
      else u.level := by
    unfold Dmc.clockOutput
    dsimp only
    repeat' split
    all_goals rfl
  rw [level]
  simp only [BitVec.getLsbD, Nat.testBit_zero, decide_eq_true_eq]
  split
  · rfl
  split
  · split
    · next h => exact up h
    · rfl
  · split
    · next h => exact down h
    · rfl

theorem Dmc.clockOutput_shifting {u : Dmc} (h : u.bits - 1 ≠ 0) :
    u.clockOutput.bits = u.bits - 1 ∧ u.clockOutput.shift = u.shift >>> 1 ∧ u.clockOutput.silence = u.silence
      ∧ u.clockOutput.buffer = u.buffer := by
  simp [Dmc.clockOutput, h]

theorem Dmc.clockOutput_reload {u : Dmc} (h : u.bits - 1 = 0) :
    u.clockOutput.bits = 8 ∧ u.clockOutput.buffer = none ∧ u.clockOutput.silence = u.buffer.isNone
      ∧ ∀ x, u.buffer = some x → u.clockOutput.shift = x := by
  cases full : u.buffer <;> simp [Dmc.clockOutput, h, full]

/-- Settles O52: the three ends of a received byte, and the two parts of an output clock. -/
theorem dmcReader : Obligations.DmcReader := by
  intro u b
  refine ⟨?_, fun more => ?_, fun last loop => ?_, fun silent => ?_, fun sounding => ?_, Dmc.clockOutput_shifting,
    Dmc.clockOutput_reload⟩
  · by_cases last : u.remaining - 1 = 0
    · cases loop : u.ctrl.getLsbD 6 with
      | false => rw [Dmc.receive_last last loop]; simp [last]
      | true => rw [Dmc.receive_last_looping last loop]; simp [Dmc.restart]
    · rw [Dmc.receive_more last]; simp [last]
  · by_cases last : u.remaining - 1 = 0
    · rw [Dmc.receive_last last (more.resolve_left (not_not_intro last))]
      exact ⟨rfl, rfl⟩
    · rw [Dmc.receive_more last]
      exact ⟨rfl, rfl⟩
  · rw [Dmc.receive_last_looping last loop]
    exact ⟨rfl, Dmc.restart_addr _⟩
  · exact BitVec.eq_of_toNat_eq (by rw [u.clockOutput_level, if_pos silent])
  · show u.clockOutput.level.toNat = _
    rw [u.clockOutput_level, if_neg (by rw [sounding]; exact Bool.false_ne_true)]

end Sys2Proof.Machine
end
